-- ==== Sys2Proof/Word.lean ====
section
/-! DEFINITION. The word types (R2, R3) and the plainest arithmetic over them. -/

namespace Sys2Proof

/-- A doubleword, 64 bits (R3). -/
abbrev Dword := BitVec 64

/-- A byte (R3). -/
abbrev Byte := BitVec 8

/-- Sparse bytes by offset: strictly rising, no zero byte listed; an unlisted byte reads 0. -/
abbrev Bytes := List Host.Cell

end Sys2Proof
end

