-- ==== Sys2Proof/Syntax.lean ====
section
/-! DEFINITION. The syntax of the machine's operations and events: one constructor per row of the opcode table.
Instructions carry the operands their encoding names; events carry what the event is about. -/

namespace Sys2Proof

/-- A scalar register s0 to s31 (R65). -/
abbrev SReg := BitVec 5
/-- A vector register v0 to v63 (R65). -/
abbrev VReg := BitVec 6
/-- A mask m0 to m7 (R65). -/
abbrev MReg := BitVec 3

/-- A floating-point format of the scalar and vector arithmetic, coded 00, 01, 10, 11 (R73). -/
inductive FFmt | f32 | f64 | f16 | bf16
deriving DecidableEq, Repr

/-- A predicate: the mask field (0 for none) and the zeroing bit (R63). -/
structure Pred where
  m : MReg
  z : Bool
deriving DecidableEq, Repr

/-- The b operand of VINT, VFP and VCMP: a vector group, or a scalar (R63). -/
inductive BOp | v (r : VReg) | s (r : SReg)
deriving DecidableEq, Repr

/-- Integer compare conditions (R73). -/
inductive ICond | eq | ne | lt | le | ltu | leu
deriving DecidableEq, Repr

/-- Float compare conditions (R73, R124). -/
inductive FCond | eq | ne | lt | le | unord
deriving DecidableEq, Repr

/-- The data format of the quantising instructions, aux10[5:4] (R174). -/
inductive QFmt | f32 | f16 | bf16
deriving DecidableEq, Repr

/-- The block of VABSMAX, aux10[7:6] (R179). -/
inductive AbsBlk | whole | b48 | b2048
deriving DecidableEq, Repr

/-- The cache-policy hint, aux6[1:0] (R154). -/
inductive Hint | none | strm | unc
deriving DecidableEq, Repr

/-- The index width of gathers and scatters, aux6[3:2] (R148). -/
inductive IW | sew | w32 | w64
deriving DecidableEq, Repr

/-- The operation of VRRED, aux6[1:0] (R255). -/
inductive RedOp | fadd | iadd | or
deriving DecidableEq, Repr

/-- The source of VRRED, aux6[4:2] (R255). -/
inductive RedSrc | w32 | bf16 | f16 | c4
deriving DecidableEq, Repr

/-- A master that reaches a control window: its class by path (R309) and which session, function or peer it is. -/
structure Master where
  cls : BitVec 2
  id  : Nat
deriving DecidableEq, Repr

/-- The operations of the AMO major (R242). -/
inductive AmoOp | add | and | or | xor | max | min | maxu | minu | swap | cas
deriving DecidableEq, Repr

/-- A request that reaches a partition from outside: the host's BAR2 and AtomicOps (R314, R243), or a peer's over Naeri (R238, R316). -/
inductive MemReq
  | read (n : Nat)
  | write (bs : List Byte)
  | amo (op : AmoOp) (word : Bool) (y e : Dword)
  | ldv
  | reduce (op : RedOp) (x : BitVec 32)
  | arrive (c : BitVec 32)
deriving DecidableEq, Repr

/-- A path over which the attestation log is read (R321, R322): the management port, or PCIe DOE. -/
inductive MeasPath | management | doe
deriving DecidableEq, Repr

/-- A request for measurements (R322): its path, and the index asked for, 0 for all. -/
structure MeasReq where
  path : MeasPath
  ix   : Nat
deriving DecidableEq, Repr

/-- A session that asks for an override (R329): its number, and the key in which the certificate chain of its mutually
authenticated SPDM session ends, none where it has no such session. -/
structure Session where
  id   : Nat
  root : Option (List Byte)
deriving DecidableEq, Repr

/-- A register that REGISTER_WRITE names: a system register of the acting context, DHLID and the read-only offsets of
a control window (R308), a field of a virtual function's MSI-X table (R315), or a doubleword of the image of the strand that a
debugger has halted on a core (R227). -/
inductive RegTarget
  | sys (i : BitVec 8)
  | window (part : Nat) (who : Master) (off : Nat)
  | msixAddr (part vec : Nat)
  | msixData (part vec : Nat)
  | msixMask (part vec : Nat)
  | msixEnable (part : Nat)
  | image (core off : Nat)
deriving DecidableEq, Repr

/-- The storage an uncorrectable error hits (R326). -/
inductive Granule
  | mem (key : Nat)
  | velem (core : Nat) (mordant : Bool) (byte : Nat)
  | tile (core : Nat) (z : BitVec 1) (elem : Nat)
  | sreg (core : Nat) (mordant : Bool) (r : SReg)
  | mask (core : Nat) (mordant : Bool) (m : MReg)
  | fl (core : Nat) (k : BitVec 3)
  | ct (core : Nat)
  | scheduler (part : Nat)
deriving DecidableEq, Repr

set_option maxRecDepth 4000 in
/-- The operations and events of the part, one constructor per row of the opcode table. -/
inductive Instr
  | nop
  | halt
  | haltRetire
  | eret
  | yield
  | brk
  | fenceV2s
  | fenceS2v
  | fenceAll
  | vdrain
  | engq
  | trap (n : BitVec 8)
  | sysr (d : SReg) (i : BitVec 8)
  | sysw (i : BitVec 8) (a : SReg)
  | add (d a b : SReg)
  | sub (d a b : SReg)
  | and (d a b : SReg)
  | or (d a b : SReg)
  | xor (d a b : SReg)
  | sll (d a b : SReg)
  | srl (d a b : SReg)
  | sra (d a b : SReg)
  | slt (d a b : SReg)
  | sltu (d a b : SReg)
  | min (d a b : SReg)
  | max (d a b : SReg)
  | minu (d a b : SReg)
  | maxu (d a b : SReg)
  | sel (d a b : SReg)
  | mul (d a b : SReg)
  | mulh (d a b : SReg)
  | mulhu (d a b : SReg)
  | div (d a b : SReg)
  | divu (d a b : SReg)
  | rem (d a b : SReg)
  | remu (d a b : SReg)
  | clz (d a : SReg)
  | ctz (d a : SReg)
  | popc (d a : SReg)
  | bswap (d a : SReg)
  | addi (d a : SReg) (k : BitVec 22)
  | andi (d a : SReg) (k : BitVec 22)
  | ori (d a : SReg) (k : BitVec 22)
  | xori (d a : SReg) (k : BitVec 22)
  | slli (d a : SReg) (k : BitVec 6)
  | srli (d a : SReg) (k : BitVec 6)
  | srai (d a : SReg) (k : BitVec 6)
  | slti (d a : SReg) (k : BitVec 22)
  | sltiu (d a : SReg) (k : BitVec 22)
  | li (d : SReg) (k : BitVec 32)
  | liu (d : SReg) (k : BitVec 32)
  | lih (d : SReg) (k : BitVec 32)
  | fadd (f : FFmt) (d a b : SReg)
  | fsub (f : FFmt) (d a b : SReg)
  | fmul (f : FFmt) (d a b : SReg)
  | fdiv (f : FFmt) (d a b : SReg)
  | fsqrt (f : FFmt) (d a : SReg)
  | fmin (f : FFmt) (d a b : SReg)
  | fmax (f : FFmt) (d a b : SReg)
  | fma (f : FFmt) (d a b : SReg)
  | feq (f : FFmt) (d a b : SReg)
  | flt (f : FFmt) (d a b : SReg)
  | fle (f : FFmt) (d a b : SReg)
  | fclass (f : FFmt) (d a : SReg)
  | fcvtI (f : FFmt) (d a : SReg)
  | fcvtF (f : FFmt) (d a : SReg)
  | fcvtX (f g : FFmt) (d a : SReg)
  | beq (a b : SReg) (off : BitVec 17) (slot : BitVec 5)
  | bne (a b : SReg) (off : BitVec 17) (slot : BitVec 5)
  | blt (a b : SReg) (off : BitVec 17) (slot : BitVec 5)
  | bge (a b : SReg) (off : BitVec 17) (slot : BitVec 5)
  | bltu (a b : SReg) (off : BitVec 17) (slot : BitVec 5)
  | bgeu (a b : SReg) (off : BitVec 17) (slot : BitVec 5)
  | jal (d : SReg) (off : BitVec 22) (slot : BitVec 5)
  | jalr (d a : SReg)
  | ldb (d a : SReg) (k : BitVec 22)
  | ldbu (d a : SReg) (k : BitVec 22)
  | ldh (d a : SReg) (k : BitVec 22)
  | ldhu (d a : SReg) (k : BitVec 22)
  | ldw (d a : SReg) (k : BitVec 22)
  | ldwu (d a : SReg) (k : BitVec 22)
  | ldd (d a : SReg) (k : BitVec 22)
  | ldv (d a : SReg) (k : BitVec 22)
  | stb (a : SReg) (k : BitVec 22) (d : SReg)
  | sth (a : SReg) (k : BitVec 22) (d : SReg)
  | stw (a : SReg) (k : BitVec 22) (d : SReg)
  | std (a : SReg) (k : BitVec 22) (d : SReg)
  | amoadd (w : Bool) (d a b : SReg)
  | amoand (w : Bool) (d a b : SReg)
  | amoor (w : Bool) (d a b : SReg)
  | amoxor (w : Bool) (d a b : SReg)
  | amomax (w : Bool) (d a b : SReg)
  | amomin (w : Bool) (d a b : SReg)
  | amomaxu (w : Bool) (d a b : SReg)
  | amominu (w : Bool) (d a b : SReg)
  | amoswap (w : Bool) (d a b : SReg)
  | amocas (w : Bool) (d a b : SReg)
  | valset (d a b : SReg)
  | waitaEq (a b : SReg)
  | waitaNe (a b : SReg)
  | waitaGeu (a b : SReg)
  | waitt (k : BitVec 2) (d b : SReg)
  | bararr (a b : SReg)
  | barwt (d a : SReg)
  | barl
  | tlread (k : BitVec 2) (d : SReg)
  | cpy (p : BitVec 3) (k : BitVec 2) (d a : SReg)
  | cpyabort (k : BitVec 2) (d : SReg)
  | tlpost (k : BitVec 2) (d : SReg)
  | spawn (d a b : SReg)
  | cancel (a : SReg)
  | lmcfg (a : SReg)
  | lmcfgApply
  | flset (k : BitVec 3) (a : SReg)
  | flget (k : BitVec 3) (d : SReg)
  | tlbinvEnt (a b : SReg)
  | tlbinvPg (a b : SReg)
  | tlbinvAs (a : SReg)
  | tlbinvAll
  | cacheFline (a : SReg)
  | cacheFpage (a : SReg)
  | cacheIstab
  | cacheWdrop (a : SReg)
  | vcfg (a : SReg)
  | vsetvl (d a b : SReg)
  | vsetvli (d a : SReg) (req : BitVec 8)
  | vadd (vd va : VReg) (b : BOp) (p : Pred)
  | vsub (vd va : VReg) (b : BOp) (p : Pred)
  | vand (vd va : VReg) (b : BOp) (p : Pred)
  | vor (vd va : VReg) (b : BOp) (p : Pred)
  | vxor (vd va : VReg) (b : BOp) (p : Pred)
  | vsll (vd va : VReg) (b : BOp) (p : Pred)
  | vsrl (vd va : VReg) (b : BOp) (p : Pred)
  | vsra (vd va : VReg) (b : BOp) (p : Pred)
  | vmin (vd va : VReg) (b : BOp) (p : Pred)
  | vmax (vd va : VReg) (b : BOp) (p : Pred)
  | vminu (vd va : VReg) (b : BOp) (p : Pred)
  | vmaxu (vd va : VReg) (b : BOp) (p : Pred)
  | vmul (vd va : VReg) (b : BOp) (p : Pred)
  | vmulh (vd va : VReg) (b : BOp) (p : Pred)
  | vmulhu (vd va : VReg) (b : BOp) (p : Pred)
  | vaddsat (vd va : VReg) (b : BOp) (p : Pred)
  | vmerge (vd va : VReg) (b : BOp) (m : MReg)
  | vmv (vd : VReg) (b : BOp) (p : Pred)
  | vfadd (f : FFmt) (vd va : VReg) (b : BOp) (rm : BitVec 3) (p : Pred)
  | vfsub (f : FFmt) (vd va : VReg) (b : BOp) (rm : BitVec 3) (p : Pred)
  | vfmul (f : FFmt) (vd va : VReg) (b : BOp) (rm : BitVec 3) (p : Pred)
  | vfdiv (f : FFmt) (vd va : VReg) (b : BOp) (rm : BitVec 3) (p : Pred)
  | vfsqrt (f : FFmt) (vd va : VReg) (rm : BitVec 3) (p : Pred)
  | vfmin (f : FFmt) (vd va : VReg) (b : BOp) (p : Pred)
  | vfmax (f : FFmt) (vd va : VReg) (b : BOp) (p : Pred)
  | vfma (f : FFmt) (vd va : VReg) (b : BOp) (rm : BitVec 3) (p : Pred)
  | vfnms (f : FFmt) (vd va : VReg) (b : BOp) (rm : BitVec 3) (p : Pred)
  | vfabs (f : FFmt) (vd va : VReg) (p : Pred)
  | vfneg (f : FFmt) (vd va : VReg) (p : Pred)
  | vcmp (cc : ICond) (md : MReg) (va : VReg) (b : BOp) (p : Pred)
  | vfcmp (cc : FCond) (f : FFmt) (md : MReg) (va : VReg) (b : BOp) (p : Pred)
  | mand (d a b : MReg)
  | mor (d a b : MReg)
  | mxor (d a b : MReg)
  | mandn (d a b : MReg)
  | mnot (d a : MReg)
  | mset (d : MReg)
  | mclr (d : MReg)
  | mpopc (d : SReg) (a : MReg)
  | mfirst (d : SReg) (a : MReg)
  | mtov (vd : VReg) (a : MReg)
  | vtom (d : MReg) (va : VReg)
  | scalarResultDelivery
  | vcompress (vd va : VReg) (p : Pred)
  | vexpand (vd va : VReg) (p : Pred)
  | vslideup (vd va : VReg) (b : SReg) (p : Pred)
  | vslidedn (vd va : VReg) (b : SReg) (p : Pred)
  | vpick (vd va vb : VReg) (p : Pred)
  | vbcast (vd va : VReg) (b : SReg) (p : Pred)
  | vextr (d : SReg) (va : VReg) (b : SReg)
  | vins (vd : VReg) (a b : SReg)
  | vidx (vd : VReg) (p : Pred)
  | vrev (vd va : VReg) (p : Pred)
  | vredsum (vd va vb : VReg) (m : MReg)
  | vredmax (vd va vb : VReg) (m : MReg)
  | vredmin (vd va vb : VReg) (m : MReg)
  | vredmaxu (vd va vb : VReg) (m : MReg)
  | vredminu (vd va vb : VReg) (m : MReg)
  | vredor (vd va vb : VReg) (m : MReg)
  | vredand (vd va vb : VReg) (m : MReg)
  | vfredsumO (f : FFmt) (vd va vb : VReg) (rm : BitVec 3) (m : MReg)
  | vfredsumF (f : FFmt) (vd va vb : VReg) (rm : BitVec 3) (m : MReg)
  | vfredmax (f : FFmt) (vd va vb : VReg) (m : MReg)
  | vfredmin (f : FFmt) (vd va vb : VReg) (m : MReg)
  | vconflict (md : MReg) (va : VReg) (p : Pred)
  | vrand (vd : VReg) (b : SReg) (p : Pred)
  | vclz (vd va : VReg) (p : Pred)
  | vpopc (vd va : VReg) (p : Pred)
  | vld (v : VReg) (a : SReg) (k : BitVec 16) (h : Hint) (p : Pred)
  | vlds (v : VReg) (a b : SReg) (k : BitVec 16) (h : Hint) (p : Pred)
  | vld2 (v : VReg) (a b c : SReg) (k : BitVec 16) (h : Hint) (p : Pred)
  | vgath (v : VReg) (a : SReg) (vi : VReg) (k : BitVec 16) (h : Hint) (iw : IW) (x : Bool) (p : Pred)
  | vgathO (v : VReg) (a : SReg) (vi : VReg) (k : BitVec 16) (h : Hint) (iw : IW) (x : Bool) (p : Pred)
  | vsld (v : VReg) (a b c : SReg) (k : BitVec 16) (h : Hint) (pad : Bool)
  | vgl (v : VReg) (a : SReg) (vi : VReg) (k : BitVec 16) (iw : IW) (x : Bool) (p : Pred)
  | vrestore (v : VReg) (a b : SReg) (k : BitVec 16) (s4 f32 : Bool)
  | vst (v : VReg) (a : SReg) (k : BitVec 16) (h : Hint) (p : Pred)
  | vsts (v : VReg) (a b : SReg) (k : BitVec 16) (h : Hint) (p : Pred)
  | vst2 (v : VReg) (a b c : SReg) (k : BitVec 16) (h : Hint) (p : Pred)
  | vscat (v : VReg) (a : SReg) (vi : VReg) (k : BitVec 16) (h : Hint) (iw : IW) (x : Bool) (p : Pred)
  | vscatO (v : VReg) (a : SReg) (vi : VReg) (k : BitVec 16) (h : Hint) (iw : IW) (x : Bool) (p : Pred)
  | vscc (v : VReg) (a : SReg) (vi : VReg) (k : BitVec 16) (iw : IW) (x : Bool) (md : MReg) (p : Pred)
  | vrred (op : RedOp) (src : RedSrc) (v : VReg) (a : SReg) (vs : VReg) (k : BitVec 16) (p : Pred)
  | vstash (v : VReg) (a b : SReg) (k : BitVec 16) (s4 f32 sr : Bool)
  | vcvt (src dst : BitVec 4) (vd va : VReg) (rm : BitVec 3) (ns : Bool) (p : Pred)
  | vq4 (t : BitVec 2) (f : QFmt) (del : Bool) (vd va vc : VReg) (c : SReg) (rm : BitVec 3)
  | vdq4 (f : QFmt) (vd va vc : VReg) (rm : BitVec 3) (ns : Bool)
  | vqt8 (f : QFmt) (vd va vc : VReg) (rm : BitVec 3)
  | vdt8 (f : QFmt) (vd va vc : VReg) (rm : BitVec 3) (ns : Bool)
  | vabsmax (blk : AbsBlk) (f : QFmt) (vd va : VReg)
  | tabld (c : SReg)
  | vpmulLo (vd va vb : VReg) (fl : BitVec 3) (p : Pred)
  | vpmulHi (vd va vb : VReg) (fl : BitVec 3) (p : Pred)
  | vpfld (vd va vb : VReg) (fl : BitVec 3) (ix : BitVec 5) (p : Pred)
  | vpsplit (vd va vb : VReg) (fl : BitVec 3) (p : Pred)
  | vpmac (vd va vb : VReg) (fl : BitVec 3) (p : Pred)
  | vpack (side : Bool) (vd va : VReg) (fl : BitVec 3) (p : Pred)
  | vpunpk (side : Bool) (vd va : VReg) (fl : BitVec 3) (p : Pred)
  | tcfg (z : BitVec 1) (c : SReg)
  | tzero (z : BitVec 1)
  | topO (z : BitVec 1) (va vb : VReg) (c : SReg) (vc vs : VReg)
  | topF (z : BitVec 1) (va vb : VReg) (c : SReg) (vc vs : VReg)
  | trd (z : BitVec 1) (bf : Bool) (vd : VReg) (c : SReg) (p : Pred)
  | twr (z : BitVec 1) (bf : Bool) (va : VReg) (c : SReg) (p : Pred)
  | tsave (z : BitVec 1) (c : SReg)
  | tloadt (z : BitVec 1) (c : SReg)
  | tfree (z : BitVec 1)
  | lineFetch
  | vectorPush
  | mispredictSquash
  | fifoAccessResume
  | waitReevaluate
  | waitaRemotePoll
  | barrierTimeout
  | barlRelease (part l : Nat)
  | trapDelivery (cause : BitVec 8) (addr : Dword)
  | mordantTrapHold (cause : BitVec 8) (addr : Dword)
  | launchCancellation (part l : Nat)
  | completeLaunch (part l : Nat)
  | dependenceEvaluation (part l : Nat)
  | recordRead (part q : Nat)
  | queueStateEvict (part q : Nat)
  | heldCounterAccessRetry (part q : Nat)
  | placement (part : Nat) (cores : List Nat)
  | swapOut (part : Nat) (cores : List Nat)
  | imageWriteComplete
  | resumeLaunch (part : Nat) (cores : List Nat)
  | commandDispatch (p : BitVec 3) (n : Nat)
  | commandComplete (k : BitVec 2)
  | markerComplete (k : BitVec 2)
  | engineError (k : BitVec 2) (code : BitVec 8)
  | engineFaultHold (p : BitVec 3)
  | efactRetry
  | efactFail
  | lineEviction (key : Nat)
  | naeriRequest (part off : Nat) (r : MemReq)
  | flitReplay (port : Nat)
  | naeriPortDown (port : Nat)
  | bar2Request (part off : Nat) (r : MemReq)
  | functionLevelReset (part : Nat)
  | claim (part : Nat) (who : Master) (nonce : Dword)
  | claimWindowExpiry (part : Nat)
  | handover (part : Nat) (who : Master) (nonce : Dword)
  | ownerLoss (part : Nat)
  | class0Override (part : Nat) (sess : Session) (nonce : Dword)
  | lidqRead (part : Nat)
  | quiesce (part : Nat) (who : Master) (arg : Dword)
  | quiesceComplete (part : Nat)
  | resume (part : Nat) (who : Master) (arg : Dword)
  | reset (part : Nat) (who : Master) (arg : Dword)
  | partitionReset (part : Nat)
  | resize (part : Nat) (who : Master) (arg : Dword)
  | dhalt (part : Nat) (who : Master) (arg : Dword)
  | dresume (part : Nat) (who : Master) (arg : Dword)
  | watchdogExpiry (part : Nat)
  | wdog (v : Dword)
  | msiraise (v : Dword)
  | msixPendingSend (part vec : Nat)
  | registerWrite (r : RegTarget) (v : Dword)
  | thermalShutdown (die : Nat)
  | boot (ochre fw train : List Byte)
  | getMeasurements (r : MeasReq)
  | correctedError (slice : Nat)
  | uncorrectableError (g : Granule)
  | marginPlanApply (part : Nat)
  | marginQuiesceTimeout (part : Nat)
  | unassignedEncoding
  | naeriPortUp (port : Nat)
  | powerDown
  | marginReport (part : Nat)
deriving DecidableEq, Repr

end Sys2Proof
end

