-- ==== Sys2Proof/WellFormed.lean ====
section
/-! DEFINITION. The codes of the operand kinds, and which instructions are well formed: those whose operands the spec
gives an encoding (R63, R64, R94, R172, R174, R188, R255). -/

namespace Sys2Proof

/-- The code of each FFmt. -/
def FFmt.code : FFmt → Nat
  | .f32 => 0
  | .f64 => 1
  | .f16 => 2
  | .bf16 => 3

/-- The FFmt of a code (taken mod 4). -/
def FFmt.ofCode (n : Nat) : FFmt :=
  match n % 4 with
  | 0 => .f32
  | 1 => .f64
  | 2 => .f16
  | _ => .bf16

/-- The code of each ICond. -/
def ICond.code : ICond → Nat
  | .eq => 0
  | .ne => 1
  | .lt => 2
  | .le => 3
  | .ltu => 4
  | .leu => 5

/-- The ICond of a code, none where it is reserved. -/
def ICond.ofCode (n : Nat) : Option ICond :=
  match n with
  | 0 => some .eq
  | 1 => some .ne
  | 2 => some .lt
  | 3 => some .le
  | 4 => some .ltu
  | 5 => some .leu
  | _ => none

/-- The code of each FCond. -/
def FCond.code : FCond → Nat
  | .eq => 0
  | .ne => 1
  | .lt => 2
  | .le => 3
  | .unord => 6

/-- The FCond of a code, none where it is reserved. -/
def FCond.ofCode (n : Nat) : Option FCond :=
  match n with
  | 0 => some .eq
  | 1 => some .ne
  | 2 => some .lt
  | 3 => some .le
  | 6 => some .unord
  | _ => none

/-- The code of each QFmt. -/
def QFmt.code : QFmt → Nat
  | .f32 => 0
  | .f16 => 2
  | .bf16 => 3

/-- The QFmt of a code, none where it is reserved. -/
def QFmt.ofCode (n : Nat) : Option QFmt :=
  match n with
  | 0 => some .f32
  | 2 => some .f16
  | 3 => some .bf16
  | _ => none

/-- The code of each AbsBlk. -/
def AbsBlk.code : AbsBlk → Nat
  | .whole => 0
  | .b48 => 1
  | .b2048 => 2

/-- The AbsBlk of a code, none where it is reserved. -/
def AbsBlk.ofCode (n : Nat) : Option AbsBlk :=
  match n with
  | 0 => some .whole
  | 1 => some .b48
  | 2 => some .b2048
  | _ => none

/-- The code of each Hint. -/
def Hint.code : Hint → Nat
  | .none => 0
  | .strm => 1
  | .unc => 2

/-- The Hint of a code, none where it is reserved. -/
def Hint.ofCode (n : Nat) : Option Hint :=
  match n with
  | 0 => some .none
  | 1 => some .strm
  | 2 => some .unc
  | _ => Option.none

/-- The code of each IW. -/
def IW.code : IW → Nat
  | .sew => 0
  | .w32 => 1
  | .w64 => 2

/-- The IW of a code, none where it is reserved. -/
def IW.ofCode (n : Nat) : Option IW :=
  match n with
  | 0 => some .sew
  | 1 => some .w32
  | 2 => some .w64
  | _ => none

/-- The code of each RedOp. -/
def RedOp.code : RedOp → Nat
  | .fadd => 0
  | .iadd => 1
  | .or => 2

/-- The RedOp of a code, none where it is reserved. -/
def RedOp.ofCode (n : Nat) : Option RedOp :=
  match n with
  | 0 => some .fadd
  | 1 => some .iadd
  | 2 => some .or
  | _ => none

/-- The code of each RedSrc. -/
def RedSrc.code : RedSrc → Nat
  | .w32 => 0
  | .bf16 => 1
  | .f16 => 2
  | .c4 => 3

/-- The RedSrc of a code, none where it is reserved. -/
def RedSrc.ofCode (n : Nat) : Option RedSrc :=
  match n with
  | 0 => some .w32
  | 1 => some .bf16
  | 2 => some .f16
  | 3 => some .c4
  | _ => none

/-- MIN[7] of a b operand: 1 for a scalar (R63). -/
def BOp.bit : BOp → Nat
  | .v _ => 0
  | .s _ => 1

/-- The b field, bits [17:12] of V2 (R62, R63). -/
def BOp.fld : BOp → Nat
  | .v r => r.toNat
  | .s r => r.toNat

/-- A predicate that has an encoding: no zeroing without a mask (R63). -/
def Pred.wf (p : Pred) : Bool := p.m ≠ 0 || p.z = false

/-- Whether the spec gives the instruction an encoding. Events, which have none, are well formed. -/
def Instr.wf (i : Instr) : Bool :=
  match i with
  | .nop  => true
  | .halt  => true
  | .haltRetire  => true
  | .eret  => true
  | .yield  => true
  | .brk  => true
  | .fenceV2s  => true
  | .fenceS2v  => true
  | .fenceAll  => true
  | .vdrain  => true
  | .engq  => true
  | .trap _ => true
  | .sysr _ i => !(0x19 ≤ i.toNat && i.toNat < 0x80)
  | .sysw i _ => !(0x19 ≤ i.toNat && i.toNat < 0x80)
  | .add _ _ _ => true
  | .sub _ _ _ => true
  | .and _ _ _ => true
  | .or _ _ _ => true
  | .xor _ _ _ => true
  | .sll _ _ _ => true
  | .srl _ _ _ => true
  | .sra _ _ _ => true
  | .slt _ _ _ => true
  | .sltu _ _ _ => true
  | .min _ _ _ => true
  | .max _ _ _ => true
  | .minu _ _ _ => true
  | .maxu _ _ _ => true
  | .sel _ _ _ => true
  | .mul _ _ _ => true
  | .mulh _ _ _ => true
  | .mulhu _ _ _ => true
  | .div _ _ _ => true
  | .divu _ _ _ => true
  | .rem _ _ _ => true
  | .remu _ _ _ => true
  | .clz _ _ => true
  | .ctz _ _ => true
  | .popc _ _ => true
  | .bswap _ _ => true
  | .addi _ _ _ => true
  | .andi _ _ _ => true
  | .ori _ _ _ => true
  | .xori _ _ _ => true
  | .slli _ _ _ => true
  | .srli _ _ _ => true
  | .srai _ _ _ => true
  | .slti _ _ _ => true
  | .sltiu _ _ _ => true
  | .li _ _ => true
  | .liu _ _ => true
  | .lih _ _ => true
  | .fadd _ _ _ _ => true
  | .fsub _ _ _ _ => true
  | .fmul _ _ _ _ => true
  | .fdiv _ _ _ _ => true
  | .fsqrt _ _ _ => true
  | .fmin _ _ _ _ => true
  | .fmax _ _ _ _ => true
  | .fma _ _ _ _ => true
  | .feq _ _ _ _ => true
  | .flt _ _ _ _ => true
  | .fle _ _ _ _ => true
  | .fclass _ _ _ => true
  | .fcvtI _ _ _ => true
  | .fcvtF _ _ _ => true
  | .fcvtX _ _ _ _ => true
  | .beq _ _ _ _ => true
  | .bne _ _ _ _ => true
  | .blt _ _ _ _ => true
  | .bge _ _ _ _ => true
  | .bltu _ _ _ _ => true
  | .bgeu _ _ _ _ => true
  | .jal _ _ _ => true
  | .jalr _ _ => true
  | .ldb _ _ _ => true
  | .ldbu _ _ _ => true
  | .ldh _ _ _ => true
  | .ldhu _ _ _ => true
  | .ldw _ _ _ => true
  | .ldwu _ _ _ => true
  | .ldd _ _ _ => true
  | .ldv d _ _ => d.toNat % 2 = 0
  | .stb _ _ _ => true
  | .sth _ _ _ => true
  | .stw _ _ _ => true
  | .std _ _ _ => true
  | .amoadd _ _ _ _ => true
  | .amoand _ _ _ _ => true
  | .amoor _ _ _ _ => true
  | .amoxor _ _ _ _ => true
  | .amomax _ _ _ _ => true
  | .amomin _ _ _ _ => true
  | .amomaxu _ _ _ _ => true
  | .amominu _ _ _ _ => true
  | .amoswap _ _ _ _ => true
  | .amocas _ _ _ _ => true
  | .valset _ _ _ => true
  | .waitaEq _ _ => true
  | .waitaNe _ _ => true
  | .waitaGeu _ _ => true
  | .waitt _ _ _ => true
  | .bararr _ _ => true
  | .barwt _ _ => true
  | .barl  => true
  | .tlread _ _ => true
  | .cpy _ _ _ _ => true
  | .cpyabort _ _ => true
  | .tlpost _ _ => true
  | .spawn _ _ _ => true
  | .cancel _ => true
  | .lmcfg _ => true
  | .lmcfgApply  => true
  | .flset _ _ => true
  | .flget _ _ => true
  | .tlbinvEnt _ _ => true
  | .tlbinvPg _ _ => true
  | .tlbinvAs _ => true
  | .tlbinvAll  => true
  | .cacheFline _ => true
  | .cacheFpage _ => true
  | .cacheIstab  => true
  | .cacheWdrop _ => true
  | .vcfg _ => true
  | .vsetvl _ _ _ => true
  | .vsetvli _ _ _ => true
  | .vadd _ _ _ p => p.wf
  | .vsub _ _ _ p => p.wf
  | .vand _ _ _ p => p.wf
  | .vor _ _ _ p => p.wf
  | .vxor _ _ _ p => p.wf
  | .vsll _ _ _ p => p.wf
  | .vsrl _ _ _ p => p.wf
  | .vsra _ _ _ p => p.wf
  | .vmin _ _ _ p => p.wf
  | .vmax _ _ _ p => p.wf
  | .vminu _ _ _ p => p.wf
  | .vmaxu _ _ _ p => p.wf
  | .vmul _ _ _ p => p.wf
  | .vmulh _ _ _ p => p.wf
  | .vmulhu _ _ _ p => p.wf
  | .vaddsat _ _ _ p => p.wf
  | .vmerge _ _ _ _ => true
  | .vmv _ _ p => p.wf
  | .vfadd _ _ _ _ rm p => p.wf && rm.toNat < 6
  | .vfsub _ _ _ _ rm p => p.wf && rm.toNat < 6
  | .vfmul _ _ _ _ rm p => p.wf && rm.toNat < 6
  | .vfdiv _ _ _ _ rm p => p.wf && rm.toNat < 6
  | .vfsqrt _ _ _ rm p => p.wf && rm.toNat < 6
  | .vfmin _ _ _ _ p => p.wf
  | .vfmax _ _ _ _ p => p.wf
  | .vfma _ _ _ _ rm p => p.wf && rm.toNat < 6
  | .vfnms _ _ _ _ rm p => p.wf && rm.toNat < 6
  | .vfabs _ _ _ p => p.wf
  | .vfneg _ _ _ p => p.wf
  | .vcmp _ _ _ _ p => p.wf
  | .vfcmp _ _ _ _ _ p => p.wf
  | .mand _ _ _ => true
  | .mor _ _ _ => true
  | .mxor _ _ _ => true
  | .mandn _ _ _ => true
  | .mnot _ _ => true
  | .mset _ => true
  | .mclr _ => true
  | .mpopc _ _ => true
  | .mfirst _ _ => true
  | .mtov _ _ => true
  | .vtom _ _ => true
  | .scalarResultDelivery  => true
  | .vcompress _ _ p => p.wf
  | .vexpand _ _ p => p.wf
  | .vslideup _ _ _ p => p.wf
  | .vslidedn _ _ _ p => p.wf
  | .vpick _ _ _ p => p.wf
  | .vbcast _ _ _ p => p.wf
  | .vextr _ _ _ => true
  | .vins _ _ _ => true
  | .vidx _ p => p.wf
  | .vrev _ _ p => p.wf
  | .vredsum _ _ _ _ => true
  | .vredmax _ _ _ _ => true
  | .vredmin _ _ _ _ => true
  | .vredmaxu _ _ _ _ => true
  | .vredminu _ _ _ _ => true
  | .vredor _ _ _ _ => true
  | .vredand _ _ _ _ => true
  | .vfredsumO _ _ _ _ rm _ => rm.toNat < 6
  | .vfredsumF _ _ _ _ rm _ => rm.toNat < 6
  | .vfredmax _ _ _ _ _ => true
  | .vfredmin _ _ _ _ _ => true
  | .vconflict _ _ p => p.wf
  | .vrand _ _ p => p.wf
  | .vclz _ _ p => p.wf
  | .vpopc _ _ p => p.wf
  | .vld _ _ _ _ p => p.wf
  | .vlds _ _ _ _ _ p => p.wf
  | .vld2 _ _ _ _ _ _ p => p.wf
  | .vgath _ _ _ _ _ _ _ p => p.wf
  | .vgathO _ _ _ _ _ _ _ p => p.wf
  | .vsld _ _ _ _ _ _ _ => true
  | .vgl _ _ _ _ _ _ p => p.wf
  | .vrestore _ _ _ _ _ _ => true
  | .vst _ _ _ _ p => p.wf
  | .vsts _ _ _ _ _ p => p.wf
  | .vst2 _ _ _ _ _ _ p => p.wf
  | .vscat _ _ _ _ _ _ _ p => p.wf
  | .vscatO _ _ _ _ _ _ _ p => p.wf
  | .vscc _ _ _ _ _ _ _ p => p.wf
  | .vrred op src _ _ vs _ p => p.wf && (op = .fadd || src = .w32) && (src = .c4 || vs = 0)
  | .vstash _ _ _ _ _ _ _ => true
  | .vcvt src dst _ _ rm ns p => p.wf && src.toNat < 14 && dst.toNat < 14 && rm.toNat < 7 && !(src.toNat < 8 && dst.toNat < 8 && rm ≠ 0) && !(8 ≤ src.toNat && dst.toNat < 8 && ns)
  | .vq4 _ _ del _ _ _ c rm => (rm = 1 || rm = 6) && (del || c = 0)
  | .vdq4 _ _ _ _ rm _ => rm.toNat < 6
  | .vqt8 _ _ _ _ rm => (rm = 1 || rm = 6)
  | .vdt8 _ _ _ _ rm _ => rm.toNat < 6
  | .vabsmax _ _ _ _ => true
  | .tabld _ => true
  | .vpmulLo _ _ vb _ p => p.wf && vb.toNat < 32
  | .vpmulHi _ _ vb _ p => p.wf && vb.toNat < 32
  | .vpfld _ _ vb _ _ p => p.wf && vb.toNat < 32
  | .vpsplit _ _ vb _ p => p.wf && vb.toNat < 32
  | .vpmac _ _ vb _ p => p.wf && vb.toNat < 32
  | .vpack _ _ _ _ p => p.wf
  | .vpunpk _ _ _ _ p => p.wf
  | .tcfg _ _ => true
  | .tzero _ => true
  | .topO _ _ _ _ _ _ => true
  | .topF _ _ _ _ _ _ => true
  | .trd _ _ _ _ p => p.wf
  | .twr _ _ _ _ p => p.wf
  | .tsave _ _ => true
  | .tloadt _ _ => true
  | .tfree _ => true
  | .lineFetch  => true
  | .vectorPush  => true
  | .mispredictSquash  => true
  | .fifoAccessResume  => true
  | .waitReevaluate  => true
  | .waitaRemotePoll  => true
  | .barrierTimeout  => true
  | .barlRelease _ _ => true
  | .trapDelivery _ _ => true
  | .mordantTrapHold _ _ => true
  | .launchCancellation _ _ => true
  | .completeLaunch _ _ => true
  | .dependenceEvaluation _ _ => true
  | .recordRead _ _ => true
  | .queueStateEvict _ _ => true
  | .heldCounterAccessRetry _ _ => true
  | .placement _ _ => true
  | .swapOut _ _ => true
  | .imageWriteComplete  => true
  | .resumeLaunch _ _ => true
  | .commandDispatch _ _ => true
  | .commandComplete _ => true
  | .markerComplete _ => true
  | .engineError _ _ => true
  | .engineFaultHold _ => true
  | .efactRetry  => true
  | .efactFail  => true
  | .lineEviction _ => true
  | .naeriRequest _ _ _ => true
  | .flitReplay _ => true
  | .naeriPortDown _ => true
  | .bar2Request _ _ _ => true
  | .functionLevelReset _ => true
  | .claim _ _ _ => true
  | .claimWindowExpiry _ => true
  | .handover _ _ _ => true
  | .ownerLoss _ => true
  | .class0Override _ _ _ => true
  | .lidqRead _ => true
  | .quiesce _ _ _ => true
  | .quiesceComplete _ => true
  | .resume _ _ _ => true
  | .reset _ _ _ => true
  | .partitionReset _ => true
  | .resize _ _ _ => true
  | .dhalt _ _ _ => true
  | .dresume _ _ _ => true
  | .watchdogExpiry _ => true
  | .wdog _ => true
  | .msiraise _ => true
  | .msixPendingSend _ _ => true
  | .registerWrite _ _ => true
  | .thermalShutdown _ => true
  | .boot _ _ _ => true
  | .getMeasurements _ => true
  | .correctedError _ => true
  | .uncorrectableError _ => true
  | .marginPlanApply _ => true
  | .marginQuiesceTimeout _ => true
  | .unassignedEncoding  => true
  | .naeriPortUp _ => true
  | .powerDown  => true
  | .marginReport _ => true

end Sys2Proof
end

