-- ==== Sys2Proof/Decode.lean ====
section
/-! DEFINITION. Lines, heads and tails (R51 to R75): the decoder, total on any halfwords and rejecting by name, and
after it the encoder, both written from the encoding tables of the spec. All fields are cut with Nat arithmetic. -/

namespace Sys2Proof

/-- `len` bits of `w` from bit `lo` up (R3). -/
def fld (w lo len : Nat) : Nat := w / 2 ^ lo % 2 ^ len

/-- An instruction, if its condition holds; otherwise the encoding is rejected (R64). -/
def chk (c : Prop) [Decidable c] (i : Instr) : Option Instr := if c then some i else none

/-- A mask named by the low three bits of a five-bit field (R65). -/
def mk (r : SReg) : MReg := .ofNat 3 r.toNat

/-- Form S1 (R62): bit 15 zero, then b, a, d. -/
def formS1 (t : Nat) (f : SReg → SReg → SReg → Option Instr) : Option Instr :=
  if fld t 15 1 = 0 then f (.ofNat 5 (fld t 0 5)) (.ofNat 5 (fld t 5 5)) (.ofNat 5 (fld t 10 5)) else none

/-- Form V2 (R62, R63): vd, va, vb, the predicate and aux10; the zeroing bit is 0 when the mask field is 0. -/
def formV2 (t : Nat) (f : VReg → VReg → Nat → Pred → Nat → Option Instr) : Option Instr :=
  if fld t 18 3 = 0 ∧ fld t 21 1 = 1 then none
  else f (.ofNat 6 (fld t 0 6)) (.ofNat 6 (fld t 6 6)) (fld t 12 6) ⟨.ofNat 3 (fld t 18 3), fld t 21 1 = 1⟩ (fld t 22 10)

/-- Form M3 (R62): v, sa, sb, vi, the predicate, aux6 and imm16. -/
def formM3 (t : Nat) (f : VReg → SReg → SReg → Nat → Pred → Nat → BitVec 16 → Option Instr) : Option Instr :=
  if fld t 22 3 = 0 ∧ fld t 25 1 = 1 then none
  else f (.ofNat 6 (fld t 0 6)) (.ofNat 5 (fld t 6 5)) (.ofNat 5 (fld t 11 5)) (fld t 16 6)
    ⟨.ofNat 3 (fld t 22 3), fld t 25 1 = 1⟩ (fld t 26 6) (.ofNat 16 (fld t 32 16))

/-- The b operand of majors where MIN[7] selects its kind (R63). -/
def formB (mn vb : Nat) (f : BOp → Option Instr) : Option Instr :=
  if mn < 128 then f (.v (.ofNat 6 vb)) else if vb < 32 then f (.s (.ofNat 5 vb)) else none

/-- Major 0x00 (R97). -/
def decSys (mn : Nat) : Option Instr :=
  match mn with
  | 0 => some .nop
  | 1 => some .halt
  | 2 => some .eret
  | 3 => some .yield
  | 4 => some .brk
  | 0x10 => some .fenceV2s
  | 0x11 => some .fenceS2v
  | 0x12 => some .fenceAll
  | 0x13 => some .vdrain
  | 0x14 => some .engq
  | _ => none

/-- Majors 0x02 and 0x03 (R73, R100): indices 0x19 to 0x7F are unassigned. -/
def decSysr (w : Bool) (mn t : Nat) : Option Instr :=
  if 0x19 ≤ mn ∧ mn < 0x80 then none else
  formS1 t fun d a b =>
    if w then chk (d = 0 ∧ b = 0) (.sysw (.ofNat 8 mn) a) else chk (a = 0 ∧ b = 0) (.sysr d (.ofNat 8 mn))

/-- Major 0x04 (R83). -/
def decAlu (mn t : Nat) : Option Instr :=
  formS1 t fun d a b => match mn with
  | 0 => some (.add d a b)
  | 1 => some (.sub d a b)
  | 2 => some (.and d a b)
  | 3 => some (.or d a b)
  | 4 => some (.xor d a b)
  | 5 => some (.sll d a b)
  | 6 => some (.srl d a b)
  | 7 => some (.sra d a b)
  | 8 => some (.slt d a b)
  | 9 => some (.sltu d a b)
  | 0xa => some (.min d a b)
  | 0xb => some (.max d a b)
  | 0xc => some (.minu d a b)
  | 0xd => some (.maxu d a b)
  | 0xe => some (.sel d a b)
  | 0x10 => some (.mul d a b)
  | 0x11 => some (.mulh d a b)
  | 0x12 => some (.mulhu d a b)
  | 0x13 => some (.div d a b)
  | 0x14 => some (.divu d a b)
  | 0x15 => some (.rem d a b)
  | 0x16 => some (.remu d a b)
  | 0x20 => chk (b = 0) (.clz d a)
  | 0x21 => chk (b = 0) (.ctz d a)
  | 0x22 => chk (b = 0) (.popc d a)
  | 0x23 => chk (b = 0) (.bswap d a)
  | _ => none

/-- Major 0x05 (R85). -/
def decAlui (mn t : Nat) : Option Instr :=
  let d : SReg := .ofNat 5 (fld t 0 5)
  let a : SReg := .ofNat 5 (fld t 5 5)
  let k := fld t 10 22
  match mn with
  | 0 => some (.addi d a (.ofNat 22 k))
  | 2 => some (.andi d a (.ofNat 22 k))
  | 3 => some (.ori d a (.ofNat 22 k))
  | 4 => some (.xori d a (.ofNat 22 k))
  | 5 => chk (k < 64) (.slli d a (.ofNat 6 k))
  | 6 => chk (k < 64) (.srli d a (.ofNat 6 k))
  | 7 => chk (k < 64) (.srai d a (.ofNat 6 k))
  | 8 => some (.slti d a (.ofNat 22 k))
  | 9 => some (.sltiu d a (.ofNat 22 k))
  | _ => none

/-- Major 0x06 (R86): tail bits [15:5] are zero. -/
def decLi (mn t : Nat) : Option Instr :=
  let d : SReg := .ofNat 5 (fld t 0 5)
  let k := fld t 16 32
  if fld t 5 11 = 0 then match mn with
  | 0 => some (.li d (.ofNat 32 k))
  | 1 => some (.liu d (.ofNat 32 k))
  | 2 => some (.lih d (.ofNat 32 k))
  | _ => none
  else none

/-- Major 0x07 (R87). -/
def decFpu (mn t : Nat) : Option Instr :=
  let f := FFmt.ofCode (mn / 64)
  formS1 t fun d a b => match mn % 64 with
  | 0 => some (.fadd f d a b)
  | 1 => some (.fsub f d a b)
  | 2 => some (.fmul f d a b)
  | 3 => some (.fdiv f d a b)
  | 4 => chk (b = 0) (.fsqrt f d a)
  | 5 => some (.fmin f d a b)
  | 6 => some (.fmax f d a b)
  | 7 => some (.fma f d a b)
  | 8 => some (.feq f d a b)
  | 9 => some (.flt f d a b)
  | 0xa => some (.fle f d a b)
  | 0xb => chk (b = 0) (.fclass f d a)
  | 0x10 => chk (b = 0) (.fcvtI f d a)
  | 0x11 => chk (b = 0) (.fcvtF f d a)
  | 0x12 => chk (b.toNat < 4) (.fcvtX f (FFmt.ofCode b.toNat) d a)
  | _ => none

/-- Major 0x08 (R91). -/
def decBr (mn t : Nat) : Option Instr :=
  let a : SReg := .ofNat 5 (fld t 0 5)
  let b : SReg := .ofNat 5 (fld t 5 5)
  let slot : BitVec 5 := .ofNat 5 (fld t 10 5)
  let off : BitVec 17 := .ofNat 17 (fld t 15 17)
  match mn with
  | 0 => some (.beq a b off slot)
  | 1 => some (.bne a b off slot)
  | 2 => some (.blt a b off slot)
  | 3 => some (.bge a b off slot)
  | 4 => some (.bltu a b off slot)
  | 5 => some (.bgeu a b off slot)
  | _ => none

/-- Major 0x0B (R93, R94): LDV needs an even d. -/
def decLd (mn t : Nat) : Option Instr :=
  let d : SReg := .ofNat 5 (fld t 0 5)
  let a : SReg := .ofNat 5 (fld t 5 5)
  let k := fld t 10 22
  match mn with
  | 0 => some (.ldb d a (.ofNat 22 k))
  | 1 => some (.ldbu d a (.ofNat 22 k))
  | 2 => some (.ldh d a (.ofNat 22 k))
  | 3 => some (.ldhu d a (.ofNat 22 k))
  | 4 => some (.ldw d a (.ofNat 22 k))
  | 5 => some (.ldwu d a (.ofNat 22 k))
  | 6 => some (.ldd d a (.ofNat 22 k))
  | 7 => chk (d.toNat % 2 = 0) (.ldv d a (.ofNat 22 k))
  | _ => none

/-- Major 0x0C (R93). -/
def decSt (mn t : Nat) : Option Instr :=
  let d : SReg := .ofNat 5 (fld t 0 5)
  let a : SReg := .ofNat 5 (fld t 5 5)
  let k := fld t 10 22
  match mn with
  | 0 => some (.stb a (.ofNat 22 k) d)
  | 1 => some (.sth a (.ofNat 22 k) d)
  | 2 => some (.stw a (.ofNat 22 k) d)
  | 3 => some (.std a (.ofNat 22 k) d)
  | _ => none

/-- Major 0x0D (R241). -/
def decAmo (mn t : Nat) : Option Instr :=
  let w : Bool := mn / 128 = 1
  formS1 t fun d a b => match mn % 128 with
  | 0 => some (.amoadd w d a b)
  | 1 => some (.amoand w d a b)
  | 2 => some (.amoor w d a b)
  | 3 => some (.amoxor w d a b)
  | 4 => some (.amomax w d a b)
  | 5 => some (.amomin w d a b)
  | 6 => some (.amomaxu w d a b)
  | 7 => some (.amominu w d a b)
  | 8 => some (.amoswap w d a b)
  | 9 => some (.amocas w d a b)
  | _ => none

/-- Major 0x0F (R257). -/
def decWait (mn t : Nat) : Option Instr :=
  formS1 t fun d a b => match mn with
  | 0 => chk (d = 0) (.waitaEq a b)
  | 1 => chk (d = 0) (.waitaNe a b)
  | 2 => chk (d = 0) (.waitaGeu a b)
  | 8 => chk (a = 0) (.waitt 0 d b)
  | 9 => chk (a = 0) (.waitt 1 d b)
  | 0xa => chk (a = 0) (.waitt 2 d b)
  | 0xb => chk (a = 0) (.waitt 3 d b)
  | 0x10 => chk (d = 0) (.bararr a b)
  | 0x11 => chk (b = 0) (.barwt d a)
  | 0x12 => chk (d = 0 ∧ a = 0 ∧ b = 0) .barl
  | 0x18 => chk (a = 0 ∧ b = 0) (.tlread 0 d)
  | 0x19 => chk (a = 0 ∧ b = 0) (.tlread 1 d)
  | 0x1a => chk (a = 0 ∧ b = 0) (.tlread 2 d)
  | 0x1b => chk (a = 0 ∧ b = 0) (.tlread 3 d)
  | _ => none

/-- Major 0x10 (R268). -/
def decEng (mn t : Nat) : Option Instr :=
  let p : BitVec 3 := .ofNat 3 (mn % 8)
  let k : BitVec 2 := .ofNat 2 (mn / 8 % 4)
  formS1 t fun d a b => match mn / 32 with
  | 0 => chk (b = 0) (.cpy p k d a)
  | 1 => chk (p = 0 ∧ a = 0 ∧ b = 0) (.cpyabort k d)
  | 2 => chk (p = 0 ∧ a = 0 ∧ b = 0) (.tlpost k d)
  | _ => none

/-- Major 0x11 (R297). -/
def decWork (mn t : Nat) : Option Instr :=
  formS1 t fun d a b => match mn with
  | 0 => some (.spawn d a b)
  | 2 => chk (d = 0 ∧ b = 0) (.cancel a)
  | _ => none

/-- Major 0x13 (R184). -/
def decFlmov (mn t : Nat) : Option Instr :=
  let k : BitVec 3 := .ofNat 3 (mn % 8)
  formS1 t fun d a b => match mn / 8 with
  | 0 => chk (d = 0 ∧ b = 0) (.flset k a)
  | 16 => chk (a = 0 ∧ b = 0) (.flget k d)
  | _ => none

/-- Major 0x14 (R218). -/
def decTlbinv (mn t : Nat) : Option Instr :=
  formS1 t fun d a b => match mn with
  | 0 => chk (d = 0) (.tlbinvEnt a b)
  | 1 => chk (d = 0) (.tlbinvPg a b)
  | 2 => chk (d = 0 ∧ b = 0) (.tlbinvAs a)
  | 3 => chk (d = 0 ∧ a = 0 ∧ b = 0) (.tlbinvAll )
  | _ => none

/-- Major 0x15 (R156). -/
def decCache (mn t : Nat) : Option Instr :=
  formS1 t fun d a b => match mn with
  | 0 => chk (d = 0 ∧ b = 0) (.cacheFline a)
  | 1 => chk (d = 0 ∧ b = 0) (.cacheFpage a)
  | 2 => chk (d = 0 ∧ a = 0 ∧ b = 0) (.cacheIstab )
  | 3 => chk (d = 0 ∧ b = 0) (.cacheWdrop a)
  | _ => none

/-- Major 0x20 (R68, R117). -/
def decVcfg (mn t : Nat) : Option Instr :=
  formS1 t fun d a b => match mn with
  | 0 => chk (d = 0 ∧ b = 0) (.vcfg a)
  | 1 => some (.vsetvl d a b)
  | _ => none

/-- Major 0x22 (R118). -/
def decVint (mn t : Nat) : Option Instr :=
  formV2 t fun vd va vb p aux => formB mn vb fun b => if aux ≠ 0 then none else match mn % 128 with
  | 0 => some (.vadd vd va b p)
  | 1 => some (.vsub vd va b p)
  | 2 => some (.vand vd va b p)
  | 3 => some (.vor vd va b p)
  | 4 => some (.vxor vd va b p)
  | 5 => some (.vsll vd va b p)
  | 6 => some (.vsrl vd va b p)
  | 7 => some (.vsra vd va b p)
  | 8 => some (.vmin vd va b p)
  | 9 => some (.vmax vd va b p)
  | 0xa => some (.vminu vd va b p)
  | 0xb => some (.vmaxu vd va b p)
  | 0xc => some (.vmul vd va b p)
  | 0xd => some (.vmulh vd va b p)
  | 0xe => some (.vmulhu vd va b p)
  | 0xf => some (.vaddsat vd va b p)
  | 0x10 => chk (p.z = false) (.vmerge vd va b p.m)
  | 0x11 => chk (va = 0) (.vmv vd b p)
  | _ => none

/-- Major 0x23 (R120 to R122). -/
def decVfp (mn t : Nat) : Option Instr :=
  formV2 t fun vd va vb p aux => formB mn vb fun b =>
  let f := FFmt.ofCode (mn / 32 % 4)
  let rm : BitVec 3 := .ofNat 3 aux
  if 8 ≤ aux then none else match mn % 32 with
  | 0 => chk (rm.toNat < 6) (.vfadd f vd va b rm p)
  | 1 => chk (rm.toNat < 6) (.vfsub f vd va b rm p)
  | 2 => chk (rm.toNat < 6) (.vfmul f vd va b rm p)
  | 3 => chk (rm.toNat < 6) (.vfdiv f vd va b rm p)
  | 4 => chk (rm.toNat < 6 ∧ b = .v 0) (.vfsqrt f vd va rm p)
  | 5 => chk (rm = 0) (.vfmin f vd va b p)
  | 6 => chk (rm = 0) (.vfmax f vd va b p)
  | 7 => chk (rm.toNat < 6) (.vfma f vd va b rm p)
  | 8 => chk (rm.toNat < 6) (.vfnms f vd va b rm p)
  | 9 => chk (rm = 0 ∧ b = .v 0) (.vfabs f vd va p)
  | 0xa => chk (rm = 0 ∧ b = .v 0) (.vfneg f vd va p)
  | _ => none

/-- Major 0x24 (R123). -/
def decVcmp (mn t : Nat) : Option Instr :=
  formV2 t fun vd va vb p aux => formB mn vb fun b =>
  if aux ≠ 0 ∨ 8 ≤ vd.toNat ∨ mn / 8 % 2 = 1 then none
  else if mn / 64 % 2 = 0 then
    if mn / 16 % 4 ≠ 0 then none
    else (ICond.ofCode (mn % 8)).map fun cc => .vcmp cc (.ofNat 3 vd.toNat) va b p
  else (FCond.ofCode (mn % 8)).map fun cc => .vfcmp cc (FFmt.ofCode (mn / 16 % 4)) (.ofNat 3 vd.toNat) va b p

/-- Major 0x25 (R125). -/
def decMask (mn t : Nat) : Option Instr :=
  formS1 t fun d a b => match mn with
  | 0 => chk (d.toNat < 8 ∧ a.toNat < 8 ∧ b.toNat < 8) (.mand (mk d) (mk a) (mk b))
  | 1 => chk (d.toNat < 8 ∧ a.toNat < 8 ∧ b.toNat < 8) (.mor (mk d) (mk a) (mk b))
  | 2 => chk (d.toNat < 8 ∧ a.toNat < 8 ∧ b.toNat < 8) (.mxor (mk d) (mk a) (mk b))
  | 3 => chk (d.toNat < 8 ∧ a.toNat < 8 ∧ b.toNat < 8) (.mandn (mk d) (mk a) (mk b))
  | 4 => chk (d.toNat < 8 ∧ a.toNat < 8 ∧ b = 0) (.mnot (mk d) (mk a))
  | 5 => chk (d.toNat < 8 ∧ a = 0 ∧ b = 0) (.mset (mk d))
  | 6 => chk (d.toNat < 8 ∧ a = 0 ∧ b = 0) (.mclr (mk d))
  | 0x10 => chk (a.toNat < 8 ∧ b = 0) (.mpopc d (mk a))
  | 0x11 => chk (a.toNat < 8 ∧ b = 0) (.mfirst d (mk a))
  | 0x12 => chk (a.toNat < 8 ∧ b.toNat < 2) (.mtov (.ofNat 6 (d.toNat + 32 * b.toNat)) (mk a))
  | 0x13 => chk (d.toNat < 8 ∧ b.toNat < 2) (.vtom (mk d) (.ofNat 6 (a.toNat + 32 * b.toNat)))
  | _ => none

/-- Major 0x26 (R127). -/
def decVperm (mn t : Nat) : Option Instr :=
  formV2 t fun vd va vb p aux => if aux ≠ 0 then none else match mn with
  | 0 => chk (vb = 0) (.vcompress vd va p)
  | 1 => chk (vb = 0) (.vexpand vd va p)
  | 2 => chk (vb < 32) (.vslideup vd va (.ofNat 5 vb) p)
  | 3 => chk (vb < 32) (.vslidedn vd va (.ofNat 5 vb) p)
  | 4 => some (.vpick vd va (.ofNat 6 vb) p)
  | 5 => chk (vb < 32) (.vbcast vd va (.ofNat 5 vb) p)
  | 6 => chk (vd.toNat < 32 ∧ vb < 32 ∧ p = ⟨0, false⟩) (.vextr (.ofNat 5 vd.toNat) va (.ofNat 5 vb))
  | 7 => chk (va.toNat < 32 ∧ vb < 32 ∧ p = ⟨0, false⟩) (.vins vd (.ofNat 5 va.toNat) (.ofNat 5 vb))
  | 9 => chk (va = 0 ∧ vb = 0) (.vidx vd p)
  | 0xa => chk (vb = 0) (.vrev vd va p)
  | _ => none

/-- Major 0x27 (R129 to R131). -/
def decVred (mn t : Nat) : Option Instr :=
  formV2 t fun vd va vb0 p aux =>
  let vb : VReg := .ofNat 6 vb0
  match mn with
  | 0 => chk (p.z = false ∧ aux = 0) (.vredsum vd va vb p.m)
  | 1 => chk (p.z = false ∧ aux = 0) (.vredmax vd va vb p.m)
  | 2 => chk (p.z = false ∧ aux = 0) (.vredmin vd va vb p.m)
  | 3 => chk (p.z = false ∧ aux = 0) (.vredmaxu vd va vb p.m)
  | 4 => chk (p.z = false ∧ aux = 0) (.vredminu vd va vb p.m)
  | 5 => chk (p.z = false ∧ aux = 0) (.vredor vd va vb p.m)
  | 6 => chk (p.z = false ∧ aux = 0) (.vredand vd va vb p.m)
  | 8 => chk (p.z = false ∧ aux < 32 ∧ aux % 8 < 6) (.vfredsumO (FFmt.ofCode (aux / 8)) vd va vb (.ofNat 3 aux) p.m)
  | 9 => chk (p.z = false ∧ aux < 32 ∧ aux % 8 < 6) (.vfredsumF (FFmt.ofCode (aux / 8)) vd va vb (.ofNat 3 aux) p.m)
  | 0xa => chk (p.z = false ∧ aux < 32 ∧ aux % 8 = 0) (.vfredmax (FFmt.ofCode (aux / 8)) vd va vb p.m)
  | 0xb => chk (p.z = false ∧ aux < 32 ∧ aux % 8 = 0) (.vfredmin (FFmt.ofCode (aux / 8)) vd va vb p.m)
  | _ => none

/-- Major 0x28 (R132 to R134). -/
def decVmisc (mn t : Nat) : Option Instr :=
  formV2 t fun vd va vb p aux => if aux ≠ 0 then none else match mn with
  | 0 => chk (vd.toNat < 8 ∧ vb = 0) (.vconflict (.ofNat 3 vd.toNat) va p)
  | 1 => chk (va = 0 ∧ vb < 32) (.vrand vd (.ofNat 5 vb) p)
  | 2 => chk (vb = 0) (.vclz vd va p)
  | 3 => chk (vb = 0) (.vpopc vd va p)
  | _ => none

/-- Major 0x29 (R172, R181): an unassigned code, a rounding field 0b111, a rounding between integers, or NS from float to integer is
rejected. -/
def decVcvt (mn t : Nat) : Option Instr :=
  formV2 t fun vd va vb p aux =>
  let src := mn / 16
  let dst := mn % 16
  if 14 ≤ src ∨ 14 ≤ dst ∨ vb ≠ 0 ∨ 16 ≤ aux ∨ aux % 8 = 7 ∨ (src < 8 ∧ dst < 8 ∧ aux % 8 ≠ 0) ∨ (8 ≤ src ∧ dst < 8 ∧ 8 ≤ aux) then none
  else some (.vcvt (.ofNat 4 src) (.ofNat 4 dst) vd va (.ofNat 3 aux) (aux / 8 = 1) p)

/-- Major 0x2A (R174, R181). -/
def decVquant (mn t : Nat) : Option Instr :=
  formV2 (fld t 0 32) fun vd va vb p aux =>
  let vc : VReg := .ofNat 6 (fld t 32 6)
  let sc : SReg := .ofNat 5 (fld t 38 5)
  let rm : BitVec 3 := .ofNat 3 (aux % 8)
  if vb ≠ 0 ∨ fld t 43 5 ≠ 0 ∨ p ≠ ⟨0, false⟩ then none
  else if mn = 5 then chk (vd = 0 ∧ va = 0 ∧ vc = 0 ∧ aux = 0) (.tabld sc)
  else (QFmt.ofCode (aux / 16 % 4)).bind fun f => match mn with
  | 0 => chk ((rm = 1 ∨ rm = 6) ∧ aux / 8 % 2 = 0 ∧ aux < 512 ∧ (aux / 256 = 1 ∨ sc = 0)) (.vq4 (.ofNat 2 (aux / 64)) f (aux / 256 = 1) vd va vc sc rm)
  | 1 => chk (rm.toNat < 6 ∧ aux < 64 ∧ sc = 0) (.vdq4 f vd va vc rm (aux / 8 % 2 = 1))
  | 2 => chk ((rm = 1 ∨ rm = 6) ∧ aux / 8 % 2 = 0 ∧ aux < 64 ∧ sc = 0) (.vqt8 f vd va vc rm)
  | 3 => chk (rm.toNat < 6 ∧ aux < 64 ∧ sc = 0) (.vdt8 f vd va vc rm (aux / 8 % 2 = 1))
  | 4 => if aux < 256 ∧ aux % 16 = 0 ∧ vc = 0 ∧ sc = 0 then (AbsBlk.ofCode (aux / 64)).map fun k => .vabsmax k f vd va else none
  | _ => none

/-- Major 0x2B (R188): aux10[9:6], aux10[2:0], vc, sc and bit [17] are zero. -/
def decVpacked (mn t : Nat) : Option Instr :=
  formV2 (fld t 0 32) fun vd va vb p aux =>
  let fl : BitVec 3 := .ofNat 3 (aux / 8)
  let ix : BitVec 5 := .ofNat 5 (fld t 43 5)
  if aux % 8 ≠ 0 ∨ 64 ≤ aux ∨ fld t 32 11 ≠ 0 then none else match mn with
  | 0 => chk (ix = 0 ∧ vb < 32) (.vpmulLo vd va (.ofNat 6 vb) fl p)
  | 1 => chk (ix = 0 ∧ vb < 32) (.vpmulHi vd va (.ofNat 6 vb) fl p)
  | 2 => chk (vb < 32) (.vpfld vd va (.ofNat 6 vb) fl ix p)
  | 3 => chk (ix = 0 ∧ vb < 32) (.vpsplit vd va (.ofNat 6 vb) fl p)
  | 4 => chk (ix = 0 ∧ vb < 32) (.vpmac vd va (.ofNat 6 vb) fl p)
  | 5 => chk (ix.toNat < 2 ∧ vb = 0) (.vpack (ix = 1) vd va fl p)
  | 6 => chk (ix.toNat < 2 ∧ vb = 0) (.vpunpk (ix = 1) vd va fl p)
  | _ => none

/-- Major 0x2C (R194). -/
def decTile (mn t : Nat) : Option Instr :=
  formV2 (fld t 0 32) fun vd va vb0 p aux =>
  let z : BitVec 1 := .ofNat 1 (mn / 128)
  let vb : VReg := .ofNat 6 vb0
  let vc : VReg := .ofNat 6 (fld t 32 6)
  let sc : SReg := .ofNat 5 (fld t 38 5)
  if fld t 43 5 ≠ 0 then none else match mn % 128 with
  | 0 => chk (vd = 0 ∧ va = 0 ∧ vb = 0 ∧ aux = 0 ∧ vc = 0 ∧ p = ⟨0, false⟩) (.tcfg z sc)
  | 1 => chk (vd = 0 ∧ va = 0 ∧ vb = 0 ∧ aux = 0 ∧ vc = 0 ∧ sc = 0 ∧ p = ⟨0, false⟩) (.tzero z)
  | 2 => chk (vd = 0 ∧ aux < 64 ∧ p = ⟨0, false⟩) (.topO z va vb sc vc (.ofNat 6 aux))
  | 3 => chk (vd = 0 ∧ aux < 64 ∧ p = ⟨0, false⟩) (.topF z va vb sc vc (.ofNat 6 aux))
  | 4 => chk (va = 0 ∧ vb = 0 ∧ vc = 0 ∧ (aux = 0 ∨ aux = 24)) (.trd z (aux = 24) vd sc p)
  | 5 => chk (vd = 0 ∧ vb = 0 ∧ vc = 0 ∧ (aux = 0 ∨ aux = 24)) (.twr z (aux = 24) va sc p)
  | 6 => chk (vd = 0 ∧ va = 0 ∧ vb = 0 ∧ aux = 0 ∧ vc = 0 ∧ p = ⟨0, false⟩) (.tsave z sc)
  | 7 => chk (vd = 0 ∧ va = 0 ∧ vb = 0 ∧ aux = 0 ∧ vc = 0 ∧ p = ⟨0, false⟩) (.tloadt z sc)
  | 8 => chk (vd = 0 ∧ va = 0 ∧ vb = 0 ∧ aux = 0 ∧ vc = 0 ∧ sc = 0 ∧ p = ⟨0, false⟩) (.tfree z)
  | _ => none

/-- Major 0x30 (R148, R251, R283). -/
def decVldg (mn t : Nat) : Option Instr :=
  formM3 t fun v sa sb vi p aux k => match mn with
  | 0 => if sb = 0 ∧ vi = 0 ∧ aux < 4 then (Hint.ofCode aux).map fun h => .vld v sa k h p else none
  | 1 => if vi = 0 ∧ aux < 4 then (Hint.ofCode aux).map fun h => .vlds v sa sb k h p else none
  | 2 => if vi < 32 ∧ aux < 4 then (Hint.ofCode aux).map fun h => .vld2 v sa sb (.ofNat 5 vi) k h p else none
  | 3 => if sb = 0 ∧ aux < 32 then ((Hint.ofCode (aux % 4)).bind fun h => (IW.ofCode (aux / 4 % 4)).map fun iw => .vgath v sa (.ofNat 6 vi) k h iw (aux / 16 = 1) p) else none
  | 4 => if sb = 0 ∧ aux < 32 then ((Hint.ofCode (aux % 4)).bind fun h => (IW.ofCode (aux / 4 % 4)).map fun iw => .vgathO v sa (.ofNat 6 vi) k h iw (aux / 16 = 1) p) else none
  | 5 => if vi < 32 ∧ aux < 8 ∧ p = ⟨0, false⟩ then (Hint.ofCode (aux % 4)).map fun h => .vsld v sa sb (.ofNat 5 vi) k h (aux / 4 = 1) else none
  | 6 => if sb = 0 ∧ aux % 8 = 0 then (IW.ofCode (aux / 8 % 4)).map fun iw => .vgl v sa (.ofNat 6 vi) k iw (aux / 32 = 1) p else none
  | 7 => chk (aux < 4 ∧ vi = 0 ∧ p = ⟨0, false⟩) (.vrestore v sa sb k (aux % 2 = 1) (aux / 2 = 1))
  | _ => none

/-- Major 0x31 (R148, R251, R255, R283). -/
def decVstg (mn t : Nat) : Option Instr :=
  formM3 t fun v sa sb vi p aux k => match mn with
  | 0 => if sb = 0 ∧ vi = 0 ∧ aux < 4 then (Hint.ofCode aux).map fun h => .vst v sa k h p else none
  | 1 => if vi = 0 ∧ aux < 4 then (Hint.ofCode aux).map fun h => .vsts v sa sb k h p else none
  | 2 => if vi < 32 ∧ aux < 4 then (Hint.ofCode aux).map fun h => .vst2 v sa sb (.ofNat 5 vi) k h p else none
  | 3 => if sb = 0 ∧ aux < 32 then ((Hint.ofCode (aux % 4)).bind fun h => (IW.ofCode (aux / 4 % 4)).map fun iw => .vscat v sa (.ofNat 6 vi) k h iw (aux / 16 = 1) p) else none
  | 4 => if sb = 0 ∧ aux < 32 then ((Hint.ofCode (aux % 4)).bind fun h => (IW.ofCode (aux / 4 % 4)).map fun iw => .vscatO v sa (.ofNat 6 vi) k h iw (aux / 16 = 1) p) else none
  | 5 => if sb = 0 then (IW.ofCode (aux / 8 % 4)).map fun iw => .vscc v sa (.ofNat 6 vi) k iw (aux / 32 = 1) (.ofNat 3 (aux % 8)) p else none
  | 6 => if sb = 0 ∧ aux < 32 then ((RedOp.ofCode (aux % 4)).bind fun op => (RedSrc.ofCode (aux / 4)).bind fun src => if (op = .fadd ∨ src = .w32) ∧ (src = .c4 ∨ vi = 0) then some (.vrred op src v sa (.ofNat 6 vi) k p) else none) else none
  | 7 => chk (aux < 8 ∧ vi = 0 ∧ p = ⟨0, false⟩) (.vstash v sa sb k (aux % 2 = 1) (aux / 2 % 2 = 1) (aux / 4 = 1))
  | _ => none

/-- The tail length of each assigned major, and `none` for a reserved one (R72). -/
def majorL (maj : Nat) : Option Nat :=
  match maj with
  | 0x00 => some 0 | 0x01 => some 0
  | 0x02 => some 1 | 0x03 => some 1 | 0x04 => some 1 | 0x05 => some 2 | 0x06 => some 3 | 0x07 => some 1
  | 0x08 => some 2 | 0x09 => some 2 | 0x0A => some 1 | 0x0B => some 2 | 0x0C => some 2 | 0x0D => some 1
  | 0x0E => some 1 | 0x0F => some 1 | 0x10 => some 1 | 0x11 => some 1 | 0x12 => some 1 | 0x13 => some 1
  | 0x14 => some 1 | 0x15 => some 1
  | 0x20 => some 1 | 0x21 => some 1 | 0x22 => some 2 | 0x23 => some 2 | 0x24 => some 2 | 0x25 => some 1
  | 0x26 => some 2 | 0x27 => some 2 | 0x28 => some 2 | 0x29 => some 2 | 0x2A => some 3 | 0x2B => some 3
  | 0x2C => some 3 | 0x30 => some 3 | 0x31 => some 3
  | _ => none

/-- The instruction of a major, minor and tail, the tail length being right (R72, R73). -/
def decodeMajor (maj mn t : Nat) : Option Instr :=
  match maj with
  | 0x00 => decSys mn
  | 0x01 => some (.trap (.ofNat 8 mn))
  | 0x02 => decSysr false mn t
  | 0x03 => decSysr true mn t
  | 0x04 => decAlu mn t
  | 0x05 => decAlui mn t
  | 0x06 => decLi mn t
  | 0x07 => decFpu mn t
  | 0x08 => decBr mn t
  | 0x09 => if mn = 0 then some (.jal (.ofNat 5 (fld t 0 5)) (.ofNat 22 (fld t 10 22)) (.ofNat 5 (fld t 5 5))) else none
  | 0x0A => formS1 t fun d a b => chk (mn = 0 ∧ b = 0) (.jalr d a)
  | 0x0B => decLd mn t
  | 0x0C => decSt mn t
  | 0x0D => decAmo mn t
  | 0x0E => formS1 t fun d a b => chk (mn = 0) (.valset d a b)
  | 0x0F => decWait mn t
  | 0x10 => decEng mn t
  | 0x11 => decWork mn t
  | 0x12 => formS1 t fun d a b => chk (mn = 0 ∧ d = 0 ∧ b = 0) (.lmcfg a)
  | 0x13 => decFlmov mn t
  | 0x14 => decTlbinv mn t
  | 0x15 => decCache mn t
  | 0x20 => decVcfg mn t
  | 0x21 => formS1 t fun d a b => chk (b = 0) (.vsetvli d a (.ofNat 8 mn))
  | 0x22 => decVint mn t
  | 0x23 => decVfp mn t
  | 0x24 => decVcmp mn t
  | 0x25 => decMask mn t
  | 0x26 => decVperm mn t
  | 0x27 => decVred mn t
  | 0x28 => decVmisc mn t
  | 0x29 => decVcvt mn t
  | 0x2A => decVquant mn t
  | 0x2B => decVpacked mn t
  | 0x2C => decTile mn t
  | 0x30 => decVldg mn t
  | 0x31 => decVstg mn t
  | _ => none

/-- The instruction of a head and its tail value (R53, R54, R72): none for a reserved major, an unassigned minor, a
tail length that is not the major's, or a nonzero field that must be zero. -/
def decodeInstr (head tail : Nat) : Option Instr :=
  if majorL (fld head 8 6) = some (fld head 14 2) then decodeMajor (fld head 8 6) (fld head 0 8) tail else none

/-! Lines. A line is a number of 512 bits: halfword H_j is bits 16j to 16j + 15 (R51). -/

/-- Halfword H_j of a line (R51). -/
def half (line j : Nat) : Nat := fld line (16 * j) 16

/-- The number of heads h of a line (R52). -/
def lineH (line : Nat) : Nat := fld (half line 0) 0 5

/-- The number of tail halfwords t of a line (R52). -/
def lineT (line : Nat) : Nat := fld (half line 0) 5 5

/-- T_i = L_1 + … + L_i (R54). -/
def tailEnd (line : Nat) : Nat → Nat
  | 0 => 0
  | i + 1 => tailEnd line i + fld (half line (i + 1)) 14 2

/-- Whether halfwords `j` to `j + n - 1` are all zero. -/
def zeroHalves (line j : Nat) : Nat → Bool
  | 0 => true
  | n + 1 => half line (j + n) = 0 && zeroHalves line j n

/-- R55: whether a line is legal. -/
def lineLegal (line : Nat) : Bool :=
  let h := lineH line
  let t := lineT line
  h ≠ 0 && h ≠ 31 && 1 + h + t ≤ 32 && t = tailEnd line h && fld (half line 0) 10 6 = 0 &&
    zeroHalves line (h + 1) (31 - t - h)

/-- The tail value of head i (R54). -/
def lineTail (line i : Nat) : Nat :=
  let l := fld (half line i) 14 2
  fld line (16 * (32 - tailEnd line i)) (16 * l)

/-- The head and tail at slot i of a line (R53, R54). -/
def slotWords (line i : Nat) : Nat × Nat := (half line i, lineTail line i)

/-- The instruction at slot i of a line. -/
def decodeSlot (line i : Nat) : Option Instr := decodeInstr (half line i) (lineTail line i)

/-- A line of one head and its tail of `l` halfwords (R51, R52). -/
def oneLine (head tail l : Nat) : Nat :=
  (l * 32 + 1) + head * 2 ^ 16 + (if l = 0 then 0 else tail * 2 ^ (16 * (32 - l)))

/-- The opcode table numbers a 16-bit row by its head, and a wider row with the head above its first tail halfword;
operand halfwords the table gives no bits are zero. -/
def tableLine (nbits w : Nat) : Nat :=
  let head := if nbits ≤ 16 then w % 2 ^ 16 else w / 2 ^ (nbits - 16) % 2 ^ 16
  let tail := if nbits ≤ 16 then 0 else w % 2 ^ (nbits - 16)
  oneLine head tail (fld head 14 2)

/-- The instruction this decoder reads from a table row's word: the word is laid out as a line of one head and read
back by the line decoder. -/
def decodeTableWord (nbits w : Nat) : Option Instr :=
  let line := tableLine nbits w
  if lineLegal line then decodeSlot line 1 else none

/-! The encoder. -/

/-- A head (R53). -/
def encHead (maj l mn : Nat) : Nat := l * 16384 + maj * 256 + mn
/-- Form S1. -/
def encS1 (d a b : Nat) : Nat := d + a * 32 + b * 1024
/-- Form S2. -/
def encS2 (d a k : Nat) : Nat := d + a * 32 + k * 1024
/-- Form S3. -/
def encS3 (d k : Nat) : Nat := d + k * 65536
/-- Form B2. -/
def encB2 (a b slot off : Nat) : Nat := a + b * 32 + slot * 1024 + off * 32768
/-- Form J2. -/
def encJ2 (d slot off : Nat) : Nat := d + slot * 32 + off * 1024
/-- Form V2. -/
def encV2 (vd va vb m z aux : Nat) : Nat := vd + va * 2 ^ 6 + vb * 2 ^ 12 + m * 2 ^ 18 + z * 2 ^ 21 + aux * 2 ^ 22
/-- Form V3. -/
def encV3 (vd va vb m z aux vc sc aux5 : Nat) : Nat :=
  encV2 vd va vb m z aux + vc * 2 ^ 32 + sc * 2 ^ 38 + aux5 * 2 ^ 43
/-- Form M3. -/
def encM3 (v sa sb vi m z aux k : Nat) : Nat :=
  v + sa * 2 ^ 6 + sb * 2 ^ 11 + vi * 2 ^ 16 + m * 2 ^ 22 + z * 2 ^ 25 + aux * 2 ^ 26 + k * 2 ^ 32

/-- The head and tail of an instruction; events have no encoding. -/
def encode (i : Instr) : Option (Nat × Nat) :=
  match i with
  | .nop  => some (encHead 0x0 0 (0), 0)
  | .halt  => some (encHead 0x0 0 (1), 0)
  | .haltRetire  => none
  | .eret  => some (encHead 0x0 0 (2), 0)
  | .yield  => some (encHead 0x0 0 (3), 0)
  | .brk  => some (encHead 0x0 0 (4), 0)
  | .fenceV2s  => some (encHead 0x0 0 (16), 0)
  | .fenceS2v  => some (encHead 0x0 0 (17), 0)
  | .fenceAll  => some (encHead 0x0 0 (18), 0)
  | .vdrain  => some (encHead 0x0 0 (19), 0)
  | .engq  => some (encHead 0x0 0 (20), 0)
  | .trap n => some (encHead 0x1 0 (n.toNat), 0)
  | .sysr d i => some (encHead 0x2 1 (i.toNat), encS1 d.toNat 0 0)
  | .sysw i a => some (encHead 0x3 1 (i.toNat), encS1 0 a.toNat 0)
  | .add d a b => some (encHead 0x4 1 (0), encS1 d.toNat a.toNat b.toNat)
  | .sub d a b => some (encHead 0x4 1 (1), encS1 d.toNat a.toNat b.toNat)
  | .and d a b => some (encHead 0x4 1 (2), encS1 d.toNat a.toNat b.toNat)
  | .or d a b => some (encHead 0x4 1 (3), encS1 d.toNat a.toNat b.toNat)
  | .xor d a b => some (encHead 0x4 1 (4), encS1 d.toNat a.toNat b.toNat)
  | .sll d a b => some (encHead 0x4 1 (5), encS1 d.toNat a.toNat b.toNat)
  | .srl d a b => some (encHead 0x4 1 (6), encS1 d.toNat a.toNat b.toNat)
  | .sra d a b => some (encHead 0x4 1 (7), encS1 d.toNat a.toNat b.toNat)
  | .slt d a b => some (encHead 0x4 1 (8), encS1 d.toNat a.toNat b.toNat)
  | .sltu d a b => some (encHead 0x4 1 (9), encS1 d.toNat a.toNat b.toNat)
  | .min d a b => some (encHead 0x4 1 (10), encS1 d.toNat a.toNat b.toNat)
  | .max d a b => some (encHead 0x4 1 (11), encS1 d.toNat a.toNat b.toNat)
  | .minu d a b => some (encHead 0x4 1 (12), encS1 d.toNat a.toNat b.toNat)
  | .maxu d a b => some (encHead 0x4 1 (13), encS1 d.toNat a.toNat b.toNat)
  | .sel d a b => some (encHead 0x4 1 (14), encS1 d.toNat a.toNat b.toNat)
  | .mul d a b => some (encHead 0x4 1 (16), encS1 d.toNat a.toNat b.toNat)
  | .mulh d a b => some (encHead 0x4 1 (17), encS1 d.toNat a.toNat b.toNat)
  | .mulhu d a b => some (encHead 0x4 1 (18), encS1 d.toNat a.toNat b.toNat)
  | .div d a b => some (encHead 0x4 1 (19), encS1 d.toNat a.toNat b.toNat)
  | .divu d a b => some (encHead 0x4 1 (20), encS1 d.toNat a.toNat b.toNat)
  | .rem d a b => some (encHead 0x4 1 (21), encS1 d.toNat a.toNat b.toNat)
  | .remu d a b => some (encHead 0x4 1 (22), encS1 d.toNat a.toNat b.toNat)
  | .clz d a => some (encHead 0x4 1 (32), encS1 d.toNat a.toNat 0)
  | .ctz d a => some (encHead 0x4 1 (33), encS1 d.toNat a.toNat 0)
  | .popc d a => some (encHead 0x4 1 (34), encS1 d.toNat a.toNat 0)
  | .bswap d a => some (encHead 0x4 1 (35), encS1 d.toNat a.toNat 0)
  | .addi d a k => some (encHead 0x5 2 (0), encS2 d.toNat a.toNat k.toNat)
  | .andi d a k => some (encHead 0x5 2 (2), encS2 d.toNat a.toNat k.toNat)
  | .ori d a k => some (encHead 0x5 2 (3), encS2 d.toNat a.toNat k.toNat)
  | .xori d a k => some (encHead 0x5 2 (4), encS2 d.toNat a.toNat k.toNat)
  | .slli d a k => some (encHead 0x5 2 (5), encS2 d.toNat a.toNat k.toNat)
  | .srli d a k => some (encHead 0x5 2 (6), encS2 d.toNat a.toNat k.toNat)
  | .srai d a k => some (encHead 0x5 2 (7), encS2 d.toNat a.toNat k.toNat)
  | .slti d a k => some (encHead 0x5 2 (8), encS2 d.toNat a.toNat k.toNat)
  | .sltiu d a k => some (encHead 0x5 2 (9), encS2 d.toNat a.toNat k.toNat)
  | .li d k => some (encHead 0x6 3 (0), encS3 d.toNat k.toNat)
  | .liu d k => some (encHead 0x6 3 (1), encS3 d.toNat k.toNat)
  | .lih d k => some (encHead 0x6 3 (2), encS3 d.toNat k.toNat)
  | .fadd f d a b => some (encHead 0x7 1 (f.code * 64 + 0), encS1 d.toNat a.toNat b.toNat)
  | .fsub f d a b => some (encHead 0x7 1 (f.code * 64 + 1), encS1 d.toNat a.toNat b.toNat)
  | .fmul f d a b => some (encHead 0x7 1 (f.code * 64 + 2), encS1 d.toNat a.toNat b.toNat)
  | .fdiv f d a b => some (encHead 0x7 1 (f.code * 64 + 3), encS1 d.toNat a.toNat b.toNat)
  | .fsqrt f d a => some (encHead 0x7 1 (f.code * 64 + 4), encS1 d.toNat a.toNat 0)
  | .fmin f d a b => some (encHead 0x7 1 (f.code * 64 + 5), encS1 d.toNat a.toNat b.toNat)
  | .fmax f d a b => some (encHead 0x7 1 (f.code * 64 + 6), encS1 d.toNat a.toNat b.toNat)
  | .fma f d a b => some (encHead 0x7 1 (f.code * 64 + 7), encS1 d.toNat a.toNat b.toNat)
  | .feq f d a b => some (encHead 0x7 1 (f.code * 64 + 8), encS1 d.toNat a.toNat b.toNat)
  | .flt f d a b => some (encHead 0x7 1 (f.code * 64 + 9), encS1 d.toNat a.toNat b.toNat)
  | .fle f d a b => some (encHead 0x7 1 (f.code * 64 + 10), encS1 d.toNat a.toNat b.toNat)
  | .fclass f d a => some (encHead 0x7 1 (f.code * 64 + 11), encS1 d.toNat a.toNat 0)
  | .fcvtI f d a => some (encHead 0x7 1 (f.code * 64 + 16), encS1 d.toNat a.toNat 0)
  | .fcvtF f d a => some (encHead 0x7 1 (f.code * 64 + 17), encS1 d.toNat a.toNat 0)
  | .fcvtX f g d a => some (encHead 0x7 1 (f.code * 64 + 18), encS1 d.toNat a.toNat g.code)
  | .beq a b off slot => some (encHead 0x8 2 (0), encB2 a.toNat b.toNat slot.toNat off.toNat)
  | .bne a b off slot => some (encHead 0x8 2 (1), encB2 a.toNat b.toNat slot.toNat off.toNat)
  | .blt a b off slot => some (encHead 0x8 2 (2), encB2 a.toNat b.toNat slot.toNat off.toNat)
  | .bge a b off slot => some (encHead 0x8 2 (3), encB2 a.toNat b.toNat slot.toNat off.toNat)
  | .bltu a b off slot => some (encHead 0x8 2 (4), encB2 a.toNat b.toNat slot.toNat off.toNat)
  | .bgeu a b off slot => some (encHead 0x8 2 (5), encB2 a.toNat b.toNat slot.toNat off.toNat)
  | .jal d off slot => some (encHead 0x9 2 (0), encJ2 d.toNat slot.toNat off.toNat)
  | .jalr d a => some (encHead 0xa 1 (0), encS1 d.toNat a.toNat 0)
  | .ldb d a k => some (encHead 0xb 2 (0), encS2 d.toNat a.toNat k.toNat)
  | .ldbu d a k => some (encHead 0xb 2 (1), encS2 d.toNat a.toNat k.toNat)
  | .ldh d a k => some (encHead 0xb 2 (2), encS2 d.toNat a.toNat k.toNat)
  | .ldhu d a k => some (encHead 0xb 2 (3), encS2 d.toNat a.toNat k.toNat)
  | .ldw d a k => some (encHead 0xb 2 (4), encS2 d.toNat a.toNat k.toNat)
  | .ldwu d a k => some (encHead 0xb 2 (5), encS2 d.toNat a.toNat k.toNat)
  | .ldd d a k => some (encHead 0xb 2 (6), encS2 d.toNat a.toNat k.toNat)
  | .ldv d a k => some (encHead 0xb 2 (7), encS2 d.toNat a.toNat k.toNat)
  | .stb a k d => some (encHead 0xc 2 (0), encS2 d.toNat a.toNat k.toNat)
  | .sth a k d => some (encHead 0xc 2 (1), encS2 d.toNat a.toNat k.toNat)
  | .stw a k d => some (encHead 0xc 2 (2), encS2 d.toNat a.toNat k.toNat)
  | .std a k d => some (encHead 0xc 2 (3), encS2 d.toNat a.toNat k.toNat)
  | .amoadd w d a b => some (encHead 0xd 1 (w.toNat * 128 + 0), encS1 d.toNat a.toNat b.toNat)
  | .amoand w d a b => some (encHead 0xd 1 (w.toNat * 128 + 1), encS1 d.toNat a.toNat b.toNat)
  | .amoor w d a b => some (encHead 0xd 1 (w.toNat * 128 + 2), encS1 d.toNat a.toNat b.toNat)
  | .amoxor w d a b => some (encHead 0xd 1 (w.toNat * 128 + 3), encS1 d.toNat a.toNat b.toNat)
  | .amomax w d a b => some (encHead 0xd 1 (w.toNat * 128 + 4), encS1 d.toNat a.toNat b.toNat)
  | .amomin w d a b => some (encHead 0xd 1 (w.toNat * 128 + 5), encS1 d.toNat a.toNat b.toNat)
  | .amomaxu w d a b => some (encHead 0xd 1 (w.toNat * 128 + 6), encS1 d.toNat a.toNat b.toNat)
  | .amominu w d a b => some (encHead 0xd 1 (w.toNat * 128 + 7), encS1 d.toNat a.toNat b.toNat)
  | .amoswap w d a b => some (encHead 0xd 1 (w.toNat * 128 + 8), encS1 d.toNat a.toNat b.toNat)
  | .amocas w d a b => some (encHead 0xd 1 (w.toNat * 128 + 9), encS1 d.toNat a.toNat b.toNat)
  | .valset d a b => some (encHead 0xe 1 (0), encS1 d.toNat a.toNat b.toNat)
  | .waitaEq a b => some (encHead 0xf 1 (0), encS1 0 a.toNat b.toNat)
  | .waitaNe a b => some (encHead 0xf 1 (1), encS1 0 a.toNat b.toNat)
  | .waitaGeu a b => some (encHead 0xf 1 (2), encS1 0 a.toNat b.toNat)
  | .waitt k d b => some (encHead 0xf 1 (8 + k.toNat), encS1 d.toNat 0 b.toNat)
  | .bararr a b => some (encHead 0xf 1 (16), encS1 0 a.toNat b.toNat)
  | .barwt d a => some (encHead 0xf 1 (17), encS1 d.toNat a.toNat 0)
  | .barl  => some (encHead 0xf 1 (18), 0)
  | .tlread k d => some (encHead 0xf 1 (24 + k.toNat), encS1 d.toNat 0 0)
  | .cpy p k d a => some (encHead 0x10 1 (p.toNat + 8 * k.toNat), encS1 d.toNat a.toNat 0)
  | .cpyabort k d => some (encHead 0x10 1 (32 + 8 * k.toNat), encS1 d.toNat 0 0)
  | .tlpost k d => some (encHead 0x10 1 (64 + 8 * k.toNat), encS1 d.toNat 0 0)
  | .spawn d a b => some (encHead 0x11 1 (0), encS1 d.toNat a.toNat b.toNat)
  | .cancel a => some (encHead 0x11 1 (2), encS1 0 a.toNat 0)
  | .lmcfg a => some (encHead 0x12 1 (0), encS1 0 a.toNat 0)
  | .lmcfgApply  => none
  | .flset k a => some (encHead 0x13 1 (k.toNat), encS1 0 a.toNat 0)
  | .flget k d => some (encHead 0x13 1 (128 + k.toNat), encS1 d.toNat 0 0)
  | .tlbinvEnt a b => some (encHead 0x14 1 (0), encS1 0 a.toNat b.toNat)
  | .tlbinvPg a b => some (encHead 0x14 1 (1), encS1 0 a.toNat b.toNat)
  | .tlbinvAs a => some (encHead 0x14 1 (2), encS1 0 a.toNat 0)
  | .tlbinvAll  => some (encHead 0x14 1 (3), 0)
  | .cacheFline a => some (encHead 0x15 1 (0), encS1 0 a.toNat 0)
  | .cacheFpage a => some (encHead 0x15 1 (1), encS1 0 a.toNat 0)
  | .cacheIstab  => some (encHead 0x15 1 (2), 0)
  | .cacheWdrop a => some (encHead 0x15 1 (3), encS1 0 a.toNat 0)
  | .vcfg a => some (encHead 0x20 1 (0), encS1 0 a.toNat 0)
  | .vsetvl d a b => some (encHead 0x20 1 (1), encS1 d.toNat a.toNat b.toNat)
  | .vsetvli d a req => some (encHead 0x21 1 (req.toNat), encS1 d.toNat a.toNat 0)
  | .vadd vd va b p => some (encHead 0x22 2 (b.bit * 128 + 0), encV2 vd.toNat va.toNat b.fld p.m.toNat p.z.toNat 0)
  | .vsub vd va b p => some (encHead 0x22 2 (b.bit * 128 + 1), encV2 vd.toNat va.toNat b.fld p.m.toNat p.z.toNat 0)
  | .vand vd va b p => some (encHead 0x22 2 (b.bit * 128 + 2), encV2 vd.toNat va.toNat b.fld p.m.toNat p.z.toNat 0)
  | .vor vd va b p => some (encHead 0x22 2 (b.bit * 128 + 3), encV2 vd.toNat va.toNat b.fld p.m.toNat p.z.toNat 0)
  | .vxor vd va b p => some (encHead 0x22 2 (b.bit * 128 + 4), encV2 vd.toNat va.toNat b.fld p.m.toNat p.z.toNat 0)
  | .vsll vd va b p => some (encHead 0x22 2 (b.bit * 128 + 5), encV2 vd.toNat va.toNat b.fld p.m.toNat p.z.toNat 0)
  | .vsrl vd va b p => some (encHead 0x22 2 (b.bit * 128 + 6), encV2 vd.toNat va.toNat b.fld p.m.toNat p.z.toNat 0)
  | .vsra vd va b p => some (encHead 0x22 2 (b.bit * 128 + 7), encV2 vd.toNat va.toNat b.fld p.m.toNat p.z.toNat 0)
  | .vmin vd va b p => some (encHead 0x22 2 (b.bit * 128 + 8), encV2 vd.toNat va.toNat b.fld p.m.toNat p.z.toNat 0)
  | .vmax vd va b p => some (encHead 0x22 2 (b.bit * 128 + 9), encV2 vd.toNat va.toNat b.fld p.m.toNat p.z.toNat 0)
  | .vminu vd va b p => some (encHead 0x22 2 (b.bit * 128 + 10), encV2 vd.toNat va.toNat b.fld p.m.toNat p.z.toNat 0)
  | .vmaxu vd va b p => some (encHead 0x22 2 (b.bit * 128 + 11), encV2 vd.toNat va.toNat b.fld p.m.toNat p.z.toNat 0)
  | .vmul vd va b p => some (encHead 0x22 2 (b.bit * 128 + 12), encV2 vd.toNat va.toNat b.fld p.m.toNat p.z.toNat 0)
  | .vmulh vd va b p => some (encHead 0x22 2 (b.bit * 128 + 13), encV2 vd.toNat va.toNat b.fld p.m.toNat p.z.toNat 0)
  | .vmulhu vd va b p => some (encHead 0x22 2 (b.bit * 128 + 14), encV2 vd.toNat va.toNat b.fld p.m.toNat p.z.toNat 0)
  | .vaddsat vd va b p => some (encHead 0x22 2 (b.bit * 128 + 15), encV2 vd.toNat va.toNat b.fld p.m.toNat p.z.toNat 0)
  | .vmerge vd va b m => some (encHead 0x22 2 (b.bit * 128 + 16), encV2 vd.toNat va.toNat b.fld m.toNat 0 0)
  | .vmv vd b p => some (encHead 0x22 2 (b.bit * 128 + 17), encV2 vd.toNat 0 b.fld p.m.toNat p.z.toNat 0)
  | .vfadd f vd va b rm p => some (encHead 0x23 2 (b.bit * 128 + f.code * 32 + 0), encV2 vd.toNat va.toNat b.fld p.m.toNat p.z.toNat rm.toNat)
  | .vfsub f vd va b rm p => some (encHead 0x23 2 (b.bit * 128 + f.code * 32 + 1), encV2 vd.toNat va.toNat b.fld p.m.toNat p.z.toNat rm.toNat)
  | .vfmul f vd va b rm p => some (encHead 0x23 2 (b.bit * 128 + f.code * 32 + 2), encV2 vd.toNat va.toNat b.fld p.m.toNat p.z.toNat rm.toNat)
  | .vfdiv f vd va b rm p => some (encHead 0x23 2 (b.bit * 128 + f.code * 32 + 3), encV2 vd.toNat va.toNat b.fld p.m.toNat p.z.toNat rm.toNat)
  | .vfsqrt f vd va rm p => some (encHead 0x23 2 (f.code * 32 + 4), encV2 vd.toNat va.toNat 0 p.m.toNat p.z.toNat rm.toNat)
  | .vfmin f vd va b p => some (encHead 0x23 2 (b.bit * 128 + f.code * 32 + 5), encV2 vd.toNat va.toNat b.fld p.m.toNat p.z.toNat 0)
  | .vfmax f vd va b p => some (encHead 0x23 2 (b.bit * 128 + f.code * 32 + 6), encV2 vd.toNat va.toNat b.fld p.m.toNat p.z.toNat 0)
  | .vfma f vd va b rm p => some (encHead 0x23 2 (b.bit * 128 + f.code * 32 + 7), encV2 vd.toNat va.toNat b.fld p.m.toNat p.z.toNat rm.toNat)
  | .vfnms f vd va b rm p => some (encHead 0x23 2 (b.bit * 128 + f.code * 32 + 8), encV2 vd.toNat va.toNat b.fld p.m.toNat p.z.toNat rm.toNat)
  | .vfabs f vd va p => some (encHead 0x23 2 (f.code * 32 + 9), encV2 vd.toNat va.toNat 0 p.m.toNat p.z.toNat 0)
  | .vfneg f vd va p => some (encHead 0x23 2 (f.code * 32 + 10), encV2 vd.toNat va.toNat 0 p.m.toNat p.z.toNat 0)
  | .vcmp cc md va b p => some (encHead 0x24 2 (b.bit * 128 + cc.code), encV2 md.toNat va.toNat b.fld p.m.toNat p.z.toNat 0)
  | .vfcmp cc f md va b p => some (encHead 0x24 2 (b.bit * 128 + 64 + f.code * 16 + cc.code), encV2 md.toNat va.toNat b.fld p.m.toNat p.z.toNat 0)
  | .mand d a b => some (encHead 0x25 1 (0), encS1 d.toNat a.toNat b.toNat)
  | .mor d a b => some (encHead 0x25 1 (1), encS1 d.toNat a.toNat b.toNat)
  | .mxor d a b => some (encHead 0x25 1 (2), encS1 d.toNat a.toNat b.toNat)
  | .mandn d a b => some (encHead 0x25 1 (3), encS1 d.toNat a.toNat b.toNat)
  | .mnot d a => some (encHead 0x25 1 (4), encS1 d.toNat a.toNat 0)
  | .mset d => some (encHead 0x25 1 (5), encS1 d.toNat 0 0)
  | .mclr d => some (encHead 0x25 1 (6), encS1 d.toNat 0 0)
  | .mpopc d a => some (encHead 0x25 1 (16), encS1 d.toNat a.toNat 0)
  | .mfirst d a => some (encHead 0x25 1 (17), encS1 d.toNat a.toNat 0)
  | .mtov vd a => some (encHead 0x25 1 (18), encS1 (vd.toNat % 32) a.toNat (vd.toNat / 32))
  | .vtom d va => some (encHead 0x25 1 (19), encS1 d.toNat (va.toNat % 32) (va.toNat / 32))
  | .scalarResultDelivery  => none
  | .vcompress vd va p => some (encHead 0x26 2 (0), encV2 vd.toNat va.toNat 0 p.m.toNat p.z.toNat 0)
  | .vexpand vd va p => some (encHead 0x26 2 (1), encV2 vd.toNat va.toNat 0 p.m.toNat p.z.toNat 0)
  | .vslideup vd va b p => some (encHead 0x26 2 (2), encV2 vd.toNat va.toNat b.toNat p.m.toNat p.z.toNat 0)
  | .vslidedn vd va b p => some (encHead 0x26 2 (3), encV2 vd.toNat va.toNat b.toNat p.m.toNat p.z.toNat 0)
  | .vpick vd va vb p => some (encHead 0x26 2 (4), encV2 vd.toNat va.toNat vb.toNat p.m.toNat p.z.toNat 0)
  | .vbcast vd va b p => some (encHead 0x26 2 (5), encV2 vd.toNat va.toNat b.toNat p.m.toNat p.z.toNat 0)
  | .vextr d va b => some (encHead 0x26 2 (6), encV2 d.toNat va.toNat b.toNat 0 0 0)
  | .vins vd a b => some (encHead 0x26 2 (7), encV2 vd.toNat a.toNat b.toNat 0 0 0)
  | .vidx vd p => some (encHead 0x26 2 (9), encV2 vd.toNat 0 0 p.m.toNat p.z.toNat 0)
  | .vrev vd va p => some (encHead 0x26 2 (10), encV2 vd.toNat va.toNat 0 p.m.toNat p.z.toNat 0)
  | .vredsum vd va vb m => some (encHead 0x27 2 (0), encV2 vd.toNat va.toNat vb.toNat m.toNat 0 0)
  | .vredmax vd va vb m => some (encHead 0x27 2 (1), encV2 vd.toNat va.toNat vb.toNat m.toNat 0 0)
  | .vredmin vd va vb m => some (encHead 0x27 2 (2), encV2 vd.toNat va.toNat vb.toNat m.toNat 0 0)
  | .vredmaxu vd va vb m => some (encHead 0x27 2 (3), encV2 vd.toNat va.toNat vb.toNat m.toNat 0 0)
  | .vredminu vd va vb m => some (encHead 0x27 2 (4), encV2 vd.toNat va.toNat vb.toNat m.toNat 0 0)
  | .vredor vd va vb m => some (encHead 0x27 2 (5), encV2 vd.toNat va.toNat vb.toNat m.toNat 0 0)
  | .vredand vd va vb m => some (encHead 0x27 2 (6), encV2 vd.toNat va.toNat vb.toNat m.toNat 0 0)
  | .vfredsumO f vd va vb rm m => some (encHead 0x27 2 (8), encV2 vd.toNat va.toNat vb.toNat m.toNat 0 (f.code * 8 + rm.toNat))
  | .vfredsumF f vd va vb rm m => some (encHead 0x27 2 (9), encV2 vd.toNat va.toNat vb.toNat m.toNat 0 (f.code * 8 + rm.toNat))
  | .vfredmax f vd va vb m => some (encHead 0x27 2 (10), encV2 vd.toNat va.toNat vb.toNat m.toNat 0 (f.code * 8))
  | .vfredmin f vd va vb m => some (encHead 0x27 2 (11), encV2 vd.toNat va.toNat vb.toNat m.toNat 0 (f.code * 8))
  | .vconflict md va p => some (encHead 0x28 2 (0), encV2 md.toNat va.toNat 0 p.m.toNat p.z.toNat 0)
  | .vrand vd b p => some (encHead 0x28 2 (1), encV2 vd.toNat 0 b.toNat p.m.toNat p.z.toNat 0)
  | .vclz vd va p => some (encHead 0x28 2 (2), encV2 vd.toNat va.toNat 0 p.m.toNat p.z.toNat 0)
  | .vpopc vd va p => some (encHead 0x28 2 (3), encV2 vd.toNat va.toNat 0 p.m.toNat p.z.toNat 0)
  | .vld v a k h p => some (encHead 0x30 3 (0), encM3 v.toNat a.toNat 0 0 p.m.toNat p.z.toNat h.code k.toNat)
  | .vlds v a b k h p => some (encHead 0x30 3 (1), encM3 v.toNat a.toNat b.toNat 0 p.m.toNat p.z.toNat h.code k.toNat)
  | .vld2 v a b c k h p => some (encHead 0x30 3 (2), encM3 v.toNat a.toNat b.toNat c.toNat p.m.toNat p.z.toNat h.code k.toNat)
  | .vgath v a vi k h iw x p => some (encHead 0x30 3 (3), encM3 v.toNat a.toNat 0 vi.toNat p.m.toNat p.z.toNat (h.code + iw.code * 4 + x.toNat * 16) k.toNat)
  | .vgathO v a vi k h iw x p => some (encHead 0x30 3 (4), encM3 v.toNat a.toNat 0 vi.toNat p.m.toNat p.z.toNat (h.code + iw.code * 4 + x.toNat * 16) k.toNat)
  | .vsld v a b c k h pad => some (encHead 0x30 3 (5), encM3 v.toNat a.toNat b.toNat c.toNat 0 0 (h.code + pad.toNat * 4) k.toNat)
  | .vgl v a vi k iw x p => some (encHead 0x30 3 (6), encM3 v.toNat a.toNat 0 vi.toNat p.m.toNat p.z.toNat (iw.code * 8 + x.toNat * 32) k.toNat)
  | .vrestore v a b k s4 f32 => some (encHead 0x30 3 (7), encM3 v.toNat a.toNat b.toNat 0 0 0 (s4.toNat + f32.toNat * 2) k.toNat)
  | .vst v a k h p => some (encHead 0x31 3 (0), encM3 v.toNat a.toNat 0 0 p.m.toNat p.z.toNat h.code k.toNat)
  | .vsts v a b k h p => some (encHead 0x31 3 (1), encM3 v.toNat a.toNat b.toNat 0 p.m.toNat p.z.toNat h.code k.toNat)
  | .vst2 v a b c k h p => some (encHead 0x31 3 (2), encM3 v.toNat a.toNat b.toNat c.toNat p.m.toNat p.z.toNat h.code k.toNat)
  | .vscat v a vi k h iw x p => some (encHead 0x31 3 (3), encM3 v.toNat a.toNat 0 vi.toNat p.m.toNat p.z.toNat (h.code + iw.code * 4 + x.toNat * 16) k.toNat)
  | .vscatO v a vi k h iw x p => some (encHead 0x31 3 (4), encM3 v.toNat a.toNat 0 vi.toNat p.m.toNat p.z.toNat (h.code + iw.code * 4 + x.toNat * 16) k.toNat)
  | .vscc v a vi k iw x md p => some (encHead 0x31 3 (5), encM3 v.toNat a.toNat 0 vi.toNat p.m.toNat p.z.toNat (md.toNat + iw.code * 8 + x.toNat * 32) k.toNat)
  | .vrred op src v a vs k p => some (encHead 0x31 3 (6), encM3 v.toNat a.toNat 0 vs.toNat p.m.toNat p.z.toNat (op.code + src.code * 4) k.toNat)
  | .vstash v a b k s4 f32 sr => some (encHead 0x31 3 (7), encM3 v.toNat a.toNat b.toNat 0 0 0 (s4.toNat + f32.toNat * 2 + sr.toNat * 4) k.toNat)
  | .vcvt src dst vd va rm ns p => some (encHead 0x29 2 (src.toNat * 16 + dst.toNat), encV2 vd.toNat va.toNat 0 p.m.toNat p.z.toNat (rm.toNat + 8 * ns.toNat))
  | .vq4 t f del vd va vc c rm => some (encHead 0x2a 3 (0), encV3 vd.toNat va.toNat 0 0 0 (rm.toNat + f.code * 16 + t.toNat * 64 + del.toNat * 256) vc.toNat c.toNat 0)
  | .vdq4 f vd va vc rm ns => some (encHead 0x2a 3 (1), encV3 vd.toNat va.toNat 0 0 0 (rm.toNat + ns.toNat * 8 + f.code * 16) vc.toNat 0 0)
  | .vqt8 f vd va vc rm => some (encHead 0x2a 3 (2), encV3 vd.toNat va.toNat 0 0 0 (rm.toNat + f.code * 16) vc.toNat 0 0)
  | .vdt8 f vd va vc rm ns => some (encHead 0x2a 3 (3), encV3 vd.toNat va.toNat 0 0 0 (rm.toNat + ns.toNat * 8 + f.code * 16) vc.toNat 0 0)
  | .vabsmax blk f vd va => some (encHead 0x2a 3 (4), encV3 vd.toNat va.toNat 0 0 0 (f.code * 16 + blk.code * 64) 0 0 0)
  | .tabld c => some (encHead 0x2a 3 (5), encV3 0 0 0 0 0 0 0 c.toNat 0)
  | .vpmulLo vd va vb fl p => some (encHead 0x2b 3 (0), encV3 vd.toNat va.toNat vb.toNat p.m.toNat p.z.toNat (fl.toNat * 8) 0 0 0)
  | .vpmulHi vd va vb fl p => some (encHead 0x2b 3 (1), encV3 vd.toNat va.toNat vb.toNat p.m.toNat p.z.toNat (fl.toNat * 8) 0 0 0)
  | .vpfld vd va vb fl ix p => some (encHead 0x2b 3 (2), encV3 vd.toNat va.toNat vb.toNat p.m.toNat p.z.toNat (fl.toNat * 8) 0 0 ix.toNat)
  | .vpsplit vd va vb fl p => some (encHead 0x2b 3 (3), encV3 vd.toNat va.toNat vb.toNat p.m.toNat p.z.toNat (fl.toNat * 8) 0 0 0)
  | .vpmac vd va vb fl p => some (encHead 0x2b 3 (4), encV3 vd.toNat va.toNat vb.toNat p.m.toNat p.z.toNat (fl.toNat * 8) 0 0 0)
  | .vpack side vd va fl p => some (encHead 0x2b 3 (5), encV3 vd.toNat va.toNat 0 p.m.toNat p.z.toNat (fl.toNat * 8) 0 0 side.toNat)
  | .vpunpk side vd va fl p => some (encHead 0x2b 3 (6), encV3 vd.toNat va.toNat 0 p.m.toNat p.z.toNat (fl.toNat * 8) 0 0 side.toNat)
  | .tcfg z c => some (encHead 0x2c 3 (z.toNat * 128 + 0), encV3 0 0 0 0 0 0 0 c.toNat 0)
  | .tzero z => some (encHead 0x2c 3 (z.toNat * 128 + 1), 0)
  | .topO z va vb c vc vs => some (encHead 0x2c 3 (z.toNat * 128 + 2), encV3 0 va.toNat vb.toNat 0 0 vs.toNat vc.toNat c.toNat 0)
  | .topF z va vb c vc vs => some (encHead 0x2c 3 (z.toNat * 128 + 3), encV3 0 va.toNat vb.toNat 0 0 vs.toNat vc.toNat c.toNat 0)
  | .trd z bf vd c p => some (encHead 0x2c 3 (z.toNat * 128 + 4), encV3 vd.toNat 0 0 p.m.toNat p.z.toNat (bf.toNat * 24) 0 c.toNat 0)
  | .twr z bf va c p => some (encHead 0x2c 3 (z.toNat * 128 + 5), encV3 0 va.toNat 0 p.m.toNat p.z.toNat (bf.toNat * 24) 0 c.toNat 0)
  | .tsave z c => some (encHead 0x2c 3 (z.toNat * 128 + 6), encV3 0 0 0 0 0 0 0 c.toNat 0)
  | .tloadt z c => some (encHead 0x2c 3 (z.toNat * 128 + 7), encV3 0 0 0 0 0 0 0 c.toNat 0)
  | .tfree z => some (encHead 0x2c 3 (z.toNat * 128 + 8), 0)
  | .lineFetch  => none
  | .vectorPush  => none
  | .mispredictSquash  => none
  | .fifoAccessResume  => none
  | .waitReevaluate  => none
  | .waitaRemotePoll  => none
  | .barrierTimeout  => none
  | .barlRelease _ _ => none
  | .trapDelivery _ _ => none
  | .mordantTrapHold _ _ => none
  | .launchCancellation _ _ => none
  | .completeLaunch _ _ => none
  | .dependenceEvaluation _ _ => none
  | .recordRead _ _ => none
  | .queueStateEvict _ _ => none
  | .heldCounterAccessRetry _ _ => none
  | .placement _ _ => none
  | .swapOut _ _ => none
  | .imageWriteComplete  => none
  | .resumeLaunch _ _ => none
  | .commandDispatch _ _ => none
  | .commandComplete _ => none
  | .markerComplete _ => none
  | .engineError _ _ => none
  | .engineFaultHold _ => none
  | .efactRetry  => none
  | .efactFail  => none
  | .lineEviction _ => none
  | .naeriRequest _ _ _ => none
  | .flitReplay _ => none
  | .naeriPortDown _ => none
  | .bar2Request _ _ _ => none
  | .functionLevelReset _ => none
  | .claim _ _ _ => none
  | .claimWindowExpiry _ => none
  | .handover _ _ _ => none
  | .ownerLoss _ => none
  | .class0Override _ _ _ => none
  | .lidqRead _ => none
  | .quiesce _ _ _ => none
  | .quiesceComplete _ => none
  | .resume _ _ _ => none
  | .reset _ _ _ => none
  | .partitionReset _ => none
  | .resize _ _ _ => none
  | .dhalt _ _ _ => none
  | .dresume _ _ _ => none
  | .watchdogExpiry _ => none
  | .wdog _ => none
  | .msiraise _ => none
  | .msixPendingSend _ _ => none
  | .registerWrite _ _ => none
  | .thermalShutdown _ => none
  | .boot _ _ _ => none
  | .getMeasurements _ => none
  | .correctedError _ => none
  | .uncorrectableError _ => none
  | .marginPlanApply _ => none
  | .marginQuiesceTimeout _ => none
  | .unassignedEncoding  => none
  | .naeriPortUp _ => none
  | .powerDown  => none
  | .marginReport _ => none

end Sys2Proof
end

