-- ==== Sys2Proof/Config.lean ====
section
/-! DEFINITION. What an implementation of the part fixes, and the values the spec leaves open.
Every `opaque` here is a free value: it has no body, so no proof can see what it is. -/

namespace Sys2Proof.Config

/-- Free value (assumption 10): which of the instruction images a strand has seen since its last FENCE.ALL
a fetch returns (R61); applied to the state's counter of free choices. -/
opaque staleFetch : Nat → Nat

/-- Free value (assumption 11): whether a byte of an abandoned command holds the value it would have written (R280). -/
opaque abandonedByteNew : Nat → Bool

/-- The SHAKE256-256 digest of R320 to R322, of a byte string (FIPS 202; the spec names it and does not restate it). -/
opaque shake256 : List Byte → List Byte

/-- Free value (assumption 19): whether the replay of a flit whose CRC failed fails too (R316, R317). -/
opaque replayFails : Nat → Bool

/-- Free value (assumption 20): the checksum of a command whose destination is a FIFO port, whose address does not advance (R277). -/
opaque fifoChecksum : Nat → BitVec 32

/-- Whether an XMSS signature verifies (R321, NIST SP 800-208): parameter set OID, public key, message, signature. -/
opaque xmssVerifies : Nat → List Byte → List Byte → List Byte → Bool

/-- Free value (assumption 12): the ASID with which a partition's Mordants start (R323), by its first slice. -/
opaque firmwareAsid : Nat → BitVec 16

/-- Free value (assumption 12): the first-level index under which Ochre maps the firmware gigabyte (R323), by a partition's first slice. -/
opaque firmwareRegion : Nat → BitVec 13

/-- Free value (assumption 56): whether a barrier arrival in flight on a port that fails was added (R318). -/
opaque arrivalLands : Nat → Bool

/-- Free value (assumption 13): the contents a swapped-out launch's save area byte holds after its cancellation (R46). -/
opaque cancelledSaveByte : Nat → Byte

/-- Free value (assumption 55): the bytes of a block of a C1 page that lie beyond its sectors, read as they are stored (R276). -/
opaque c1Slack : Nat → Byte

/-- Cores of the module (R13). -/
abbrev numCores : Nat := 96

/-- Entries of the user vector queue (R25). -/
abbrev queueDepth : Nat := 64

/-- Entries of Mordant's vector queue (R34). -/
abbrev mordantQueueDepth : Nat := 8

/-- Bytes of one local-memory bank (R136). -/
abbrev bankBytes : Nat := 196608

/-- Lines of an L2 slice of 2 MiB (R11). -/
abbrev l2Lines : Nat := 32768

/-- Lines of a core's instruction cache of 64 KiB (R14). -/
abbrev icacheLines : Nat := 1024

/-- Bytes of the user vector file (R14). -/
abbrev vfileBytes : Nat := 524288

/-- Bytes of one strand's save area (R224). -/
abbrev saveBytes : Nat := 0x740000

/-- Bytes of one slice's share of the GDDR-7 tier (R23). -/
abbrev gddrSlice : Nat := 48000000000

/-- Bytes of one slice's share of the LPDDR-6 tier (R23). -/
abbrev lpddrSlice : Nat := 256000000000

/-- Cycles of the arithmetic clock in one microsecond (R4). -/
abbrev cyclesPerMicro : Nat := 2500

end Sys2Proof.Config
end

