-- ==== Sys2Proof/Machine/State.lean ====
section
/-! DEFINITION. The state of the module, as plain data, and its value right after power-on. -/

namespace Sys2Proof.Machine

open Sys2Proof

/-- Why a step can stop the machine.
`noSuchCore`: raised by `step` alone, when the agenda names a core number of 96 or more, which no Proivo has (R13).
Safe: the part offers nothing in its place. -/
inductive Fault | noSuchCore
deriving DecidableEq, Repr

/-- Why an instruction has no meaning here.
`notModelled`: raised only by an arm of `exec` that is still rejected by name. Safe: nothing runs. -/
inductive Refusal | notModelled (mnemonic : String)
deriving DecidableEq, Repr

/-- The two contexts of a core (R34). -/
inductive Who | user | mordant
deriving DecidableEq, Repr

/-- Who acts in a step: a context of a core, by its scalar thread or (`seq`) its vector sequencer. `stop` is the
element from which a freeze stops an elementwise instruction at the next strip boundary (R219). The model's own field. -/
structure Actor where
  core : Fin 96
  who  : Who
  seq  : Bool
  stop : Option Nat
deriving DecidableEq, Repr

/-- One turn of the agenda: which core, `dt` cycles later. With `what = none` the core runs its own next instruction,
R302 giving the turn to the user strand or Mordant; otherwise the named event comes about, acting for `who`.
The model's own data: it stands for the asynchrony between agents, and for the outside world. -/
structure Turn where
  core : Nat
  who  : Who
  seq  : Bool
  stop : Option Nat
  what : Option Instr
  dt   : Nat
deriving DecidableEq, Repr

/-- A vector queue entry (R25): the instruction, its PC, the captured scalars a, b, c (R225), VL and VTYPE. -/
structure Entry where
  ins   : Instr
  pc    : Dword
  a     : Dword
  b     : Dword
  c     : Dword
  vl    : Dword
  vtype : Dword
deriving DecidableEq, Repr

/-- The state that the user strand and Mordant each have their own of (R34, R45, R101). `line` is the image of the line
in execution, with its address (R61); `icache` the images fetched since the last FENCE.ALL. A mask holds bit i at bit
i mod 8 of byte 8,192k + i/8. `pregs`, `pmasks` and `pvec` mark poison (R326), a vector element as 32 × its first byte + its bytes;
`barFrom` is when BARWT first found its barrier closed (R262);
`beats` the shared element-beats that the entry at the head of the queue has taken (R302). -/
structure Ctx where
  regs    : Vector Dword 32
  pc      : Dword
  line    : Option (Nat × Nat)
  icache  : List (Nat × Nat)
  vl      : Dword
  vtype   : Dword
  vstart  : Dword
  vbase   : Dword
  fflags  : Dword
  fmode   : Dword
  seed    : Dword
  clipcnt : Dword
  qcnt    : Dword
  padlo   : Dword
  padhi   : Dword
  padval  : Dword
  queue   : List Entry
  vfile   : Bytes
  masks   : Bytes
  pregs   : BitVec 32
  pmasks  : BitVec 8
  pvec    : List Nat
  barFrom : Option Nat
  beats   : Nat
deriving DecidableEq, Repr

/-- A tile's state (R193). -/
inductive TileSt | free | active | lost
deriving DecidableEq, Repr

/-- An accumulator tile (R193, R206): its bytes in the layout of R206; `poison` lists poisoned elements (R208), one raised by 32,768
once a TLOADT has written the bytes of it that lie in an earlier chunk than its last. -/
structure Tile where
  st     : TileSt
  pers   : Bool
  cfg    : BitVec 9
  data   : Bytes
  poison : List Nat
deriving DecidableEq, Repr

/-- The frame of a strand in handler state (R223), with the poison of its registers (R326). -/
structure Frame where
  regs   : Vector Dword 32
  pregs  : BitVec 32
  spc    : Dword
  image  : List Entry
  vstart : Dword
  vbase  : Dword
  fmode  : Dword
  seed   : Dword
  padlo  : Dword
  padhi  : Dword
  padval : Dword
  nv     : Nat
  vl     : Dword
  vtype  : Dword
deriving DecidableEq, Repr

/-- Whether a placed strand runs, waits on a trap held for Mordant, is draining for an ERET of ACT 0b11 (R222), or has
retired HALT. -/
inductive RunSt | running | held | draining | halted
deriving DecidableEq, Repr

/-- A freeze laid on a strand from outside: none, a swap-out (R226), one of QUIESCE, whose engine drains first (R227, R311), a
debugger halt (R227). -/
inductive Freeze | none | swap | drain | debug
deriving DecidableEq, Repr

/-- What a placed user strand has beside its context. `links` is the link set (element, line, version) (R252);
`selfPc` the PC of a held BRK or TRAP itself (R226). -/
structure Strand where
  part      : Nat
  launch    : Nat
  idx       : Nat
  size      : Nat
  nv        : Nat
  fl        : Vector Dword 8
  pfl       : BitVec 8
  ct        : Bytes
  pct       : Bool
  z0        : Tile
  z1        : Tile
  trapvec   : Dword
  trapcause : Dword
  trapaddr  : Dword
  trappc    : Dword
  hs        : Bool
  frame     : Option Frame
  links     : List (Nat × Nat × Dword)
  run       : RunSt
  frz       : Freeze
  selfPc    : Option Dword
deriving DecidableEq, Repr

/-- An outstanding engine entry (R266, R281): a command block of sixteen doublewords, or a marker; `ord` is its place in
the order of issue over all contexts of the core. `ahead` holds the values of the units above its progress that it has read
and not yet delivered (R147, R236); `left` the destination addresses, rising, with the byte that a command with a checksum
has left at each (R277). -/
structure EngEntry where
  no       : Nat
  ord      : Nat
  port     : BitVec 3
  marker   : Bool
  blk      : List Dword
  progress : Nat
  ahead    : List Nat
  left     : List (Nat × Byte)
  w        : Nat
  fr       : Bool
deriving DecidableEq, Repr

/-- An engine context (R267, R278). `errNo` is the number of the first abandoned entry, 0 for none. -/
structure EngCtx where
  last    : Dword
  tl      : Dword
  err     : Option (BitVec 8)
  errNo   : Nat
  entries : List EngEntry
deriving DecidableEq, Repr

/-- A cached leaf translation (R217): ASID, page base, whether 512 MiB, and the leaf. -/
structure TlbEnt where
  asid : Nat
  page : Nat
  big  : Bool
  leaf : Nat
deriving DecidableEq, Repr

/-- A FIFO bank's queue (R142): bytes held, and the offset of the oldest in the bank's rows (R224). -/
structure Fifo where
  bank   : Nat
  held   : Nat
  oldest : Nat
deriving DecidableEq, Repr

/-- A core: its two contexts, the strand placed on it, the firmware system registers of Mordant (R36, R211, R279), the
bank mode word (R137) and FIFOs, the engine contexts, the TLBs, the scalar L1's lines with their dirtiness, the stable
cache's lines with the bytes they hold and the bank they lie in (most recent first, R144), the last shared turns of R37 and R302, and
whether ENGQ has stopped the engine until the strand resumes (R227). -/
structure Core where
  user    : Ctx
  mordant : Ctx
  mOn     : Bool
  strand  : Option Strand
  fwshare : Dword
  ptbase  : Dword
  fcause  : Dword
  faddr   : Dword
  fpc     : Dword
  fret    : Dword
  engctl  : Dword
  efault  : Dword
  efaultNo : Option Nat
  modes   : Dword
  fifos   : List Fifo
  eng     : Vector EngCtx 4
  tlbS    : List TlbEnt
  tlbV    : List TlbEnt
  tlbE    : List TlbEnt
  l1      : List (Nat × Bool)
  stable  : List (Nat × Nat × Nat)
  arbS    : List Bool
  arbE    : List Bool
  yieldTo : Nat
  engOff  : Bool
deriving DecidableEq, Repr

/-- The states of a launch the scheduler holds (R293, R299, R226). -/
inductive LaunchSt | waiting | ready | running | swapping | swapped | done
deriving DecidableEq, Repr

/-- A launch (R38, R295): its record's sixteen doublewords, the queue it was read from and its PTB, its priority after
PMAX, where it stands in order (`readySeq`, `readSeq`), when placed, on which cores by strand index, which strands have
retired HALT, BARL counts (R263), which cores' images are still to write (`imgs`: those a placement waits for; `inPlace`:
those still frozen in place, R226), and the increments of its completion still to be made (R41, R294). -/
structure Launch where
  id       : Nat
  q        : Nat
  ptb      : Dword
  rcd      : List Dword
  pri      : Nat
  st       : LaunchSt
  everRun  : Bool
  readSeq  : Nat
  readySeq : Nat
  placedAt : Nat
  cores    : List Nat
  halted   : List Nat
  barB     : List Nat
  barL     : Nat
  arrived  : List Nat
  imgs     : List Nat
  inPlace  : List Nat
  dbg      : Bool
  mark     : Bool
  pend     : List Dword
  depHeld  : Bool
deriving DecidableEq, Repr

/-- A pending or decided claim (R309). -/
structure Claim where
  who   : Master
  nonce : Dword
deriving DecidableEq, Repr

/-- An MSI-X table entry of a virtual function (R315). -/
structure MsiEnt where
  addr   : Dword
  data   : Dword
  masked : Bool
deriving DecidableEq, Repr

/-- A partition (R305): its control window (R308 to R311), its scheduler and the registers of its Mordants. `qcache` is
the queue-state cache (R291, R292): a queue, cur, and the record taken but not read yet, 0 for none; `sel` the selections
of CANCELs over records not yet read, by queue and the last record they reach (R298); `taking` the launch for which gangs are
being swapped out (R301); `scrub` whether the reset under way clears memory (R312); `losing` whether the owner is lost once its
command completes (R318); `lowAt` when a low margin was reported (R327); `plan` whether a plan waits; `msiVec` the vector that
MSIRAISE raised last (R315); `under` the owner's command under way, QUIESCE or RESET by its Op, 0 for none (R311, R318). -/
structure Partition where
  first    : Nat
  n        : Nat
  st       : BitVec 3
  owner    : Option Claim
  openAt   : Option Nat
  claims   : List Claim
  readOnly : List Master
  cmdOp    : BitVec 8
  cmdSt    : BitVec 2
  dhlid    : Dword
  lidq     : List Dword
  qtbase   : Dword
  sercnt   : Dword
  mepoch   : Dword
  wdogAt   : Nat
  scrub    : Bool
  losing   : Bool
  under    : Nat
  lowAt    : Option Nat
  plan     : Bool
  msi      : List MsiEnt
  msiOn    : Bool
  msiPend  : BitVec 16
  msiVec   : Option (BitVec 4)
  vfOn     : Bool
  launches : List Launch
  qcache   : List (Nat × Nat × Nat)
  sel      : List (Nat × Dword × Nat)
  taking   : Option Nat
  nextId   : Nat
  born     : Nat
  tlb      : List TlbEnt
deriving DecidableEq, Repr

/-- A line present in its home L2 slice (R235, R244, R215), by the key of its first byte: version, the CMP under which
it was filled, and whether it holds data its tier does not (R156); for a dirty line, what its tier holds, as a number of 64 bytes,
and which of its two sectors are poisoned there (R312). -/
structure L2Line where
  line    : Nat
  ver     : Dword
  cmp     : BitVec 2
  dirty   : Bool
  tier    : Nat
  tierBad : BitVec 2
deriving DecidableEq, Repr

/-- A record of the attestation log (R322). -/
structure LogRec where
  ix     : Nat
  kind   : Nat
  sver   : Nat
  digest : List Byte
deriving DecidableEq, Repr

/-- A Naeri port (R316, R317): live, the peers it reaches, and since when its replays have failed. -/
structure Port where
  live    : Bool
  reach   : List Nat
  replay  : Option Nat
deriving DecidableEq, Repr

/-- What Ochre reports on the management port (R18, R321, R327). -/
inductive Report | thermal (die : Nat) | refused (kind : Nat) | lowMargin (part : Nat)
deriving DecidableEq, Repr

/-- Ochre's one-time-programmable configuration block (R320, R329). -/
structure Otp where
  keyDigest : List Byte
  floor     : Nat
  target    : List Byte
  layout    : List Nat
  opKey     : List Byte
deriving DecidableEq, Repr

/-- The module. Memory is one list of bytes, keyed by space × 2^60 + offset: GDDR-7 (0) and LPDDR-6 (1) as the slices lie one after
another, the host tier (2), peer tiers as peer id × 2^43 + offset (3), and local memory as core × 2^24 + bank × 0x30000 + byte (4). `c1`
holds what the tiers keep beside 256-byte blocks (R276), by a block's number: 1 for one of a C1 page that `mem` holds expanded, the
metadata byte S for one that `mem` holds as it is stored. `poison` lists the keys of poisoned granules (R326). `ticket` counts the free
choices made; `booted` whether the boot of this power-up has run (R320); `reply` is what the last request from outside was answered;
`sent` the messages sent to the host. -/
structure State where
  now      : Nat
  powered  : Bool
  actor    : Actor
  agenda   : List Turn
  cores    : Vector Core 96
  parts    : List Partition
  mem      : Bytes
  c1       : Bytes
  poison   : List Nat
  l2       : List L2Line
  floors   : List (Nat × Dword)
  ports    : Vector Port 16
  peers    : List (Nat × Nat)
  moduleNo : Nat
  otp      : Otp
  booted   : Bool
  ochreUp  : Bool
  fwImage  : List Byte
  log      : List LogRec
  reports  : List Report
  ticket   : Nat
  reply    : List Byte
  sent     : List (Dword × Dword)
deriving DecidableEq, Repr

/-- The outcome of a meaning. -/
abbrev Out := Host.Outcome State Fault Refusal

/-- A context at strand start (R45) or, for Mordant, partition reset (R35), but for PC and s1: FMODE holds RNA. -/
def Ctx.reset : Ctx where
  regs := Vector.replicate 32 0
  pc := 0
  line := none
  icache := []
  vl := 0
  vtype := 0
  vstart := 0
  vbase := 0
  fflags := 0
  fmode := 1
  seed := 0
  clipcnt := 0
  qcnt := 0
  padlo := 0
  padhi := 0
  padval := 0
  queue := []
  vfile := []
  masks := []
  pregs := 0
  pmasks := 0
  pvec := []
  barFrom := none
  beats := 0

/-- A tile at strand start, with its persistence bit from the launch record (R45, R193). -/
def Tile.reset (pers : Bool) : Tile := { st := .free, pers, cfg := 0, data := [], poison := [] }

/-- A strand at its start (R45). -/
def Strand.start (part launch idx size nv : Nat) (p0 p1 : Bool) : Strand where
  part := part
  launch := launch
  idx := idx
  size := size
  nv := nv
  fl := Vector.replicate 8 0
  pfl := 0
  ct := []
  pct := false
  z0 := .reset p0
  z1 := .reset p1
  trapvec := 0
  trapcause := 0
  trapaddr := 0
  trappc := 0
  hs := false
  frame := none
  links := []
  run := .running
  frz := .none
  selfPc := none

/-- An engine context at strand start (R45, R267). -/
def EngCtx.reset : EngCtx := { last := 0, tl := 0, err := none, errNo := 0, entries := [] }

/-- A core at partition reset: firmware registers as R36, R211 and R279 give them, no strand placed. -/
def Core.reset : Core where
  user := .reset
  mordant := .reset
  mOn := false
  strand := none
  fwshare := 1
  ptbase := 0
  fcause := 0
  faddr := 0
  fpc := 0
  fret := 0
  engctl := 0
  efault := 0
  efaultNo := none
  modes := 0
  fifos := []
  eng := Vector.replicate 4 .reset
  tlbS := []
  tlbV := []
  tlbE := []
  l1 := []
  stable := []
  arbS := []
  arbE := []
  yieldTo := 0
  engOff := false

/-- A partition as it is formed: its registers at their reset values (R288, R308, R315, R324). -/
def Partition.fresh (first n born : Nat) : Partition where
  first := first
  n := n
  st := 0
  owner := none
  openAt := none
  claims := []
  readOnly := []
  cmdOp := 0
  cmdSt := 0
  dhlid := 0
  lidq := []
  qtbase := 0
  sercnt := 0
  mepoch := 0
  wdogAt := born
  scrub := false
  losing := false
  under := 0
  lowAt := none
  plan := false
  msi := List.replicate 16 { addr := 0, data := 0, masked := true }
  msiOn := false
  msiPend := 0
  msiVec := none
  vfOn := true
  launches := []
  qcache := []
  sel := []
  taking := none
  nextId := 0
  born := born
  tlb := []

/-- The module at power-on: Ochre runs from ROM, no compute die runs any code, no partition exists (R320); every floor is
0 (R244), the attestation log is empty (R322). What the spec gives no value is named in assumption 2. -/
def State.reset : State where
  now := 0
  powered := true
  actor := { core := 0, who := .user, seq := false, stop := none }
  agenda := []
  cores := Vector.replicate 96 Core.reset
  parts := []
  mem := []
  c1 := []
  poison := []
  l2 := []
  floors := []
  ports := Vector.replicate 16 { live := false, reach := [], replay := none }
  peers := []
  moduleNo := 0
  otp := { keyDigest := [], floor := 0, target := [], layout := [8], opKey := [] }
  booted := false
  ochreUp := false
  fwImage := []
  log := []
  reports := []
  ticket := 0
  reply := []
  sent := []

end Sys2Proof.Machine
end

