-- ==== Sys2Proof/Machine/Mem.lean ====
section
/-! DEFINITION. Sparse bytes: reading, writing, ranges and bits. An unlisted byte reads 0 (assumption 1). Little-endian
order (R3) is decided here, once. -/

namespace Sys2Proof.Machine

open Sys2Proof

/-- The canonical form: addresses strictly rising from `lo`, and no byte listed that reads 0 anyway. -/
def Memory.wfFrom (lo : Nat) : Bytes → Bool
  | [] => true
  | (a, b) :: r => decide (lo ≤ a) && decide (b ≠ 0) && wfFrom (a + 1) r

/-- The canonical form of sparse bytes. -/
def Memory.wf (m : Bytes) : Bool := Memory.wfFrom 0 m

/-- The byte at `a`. -/
def readByte : Bytes → Nat → Byte
  | [], _ => 0
  | (k, b) :: r, a => if a < k then 0 else if a = k then b else readByte r a

/-- `m` with byte `b` at `a`. -/
def writeByte : Bytes → Nat → Byte → Bytes
  | [], a, b => if b = 0 then [] else [(a, b)]
  | (k, c) :: r, a, b =>
    if a < k then (if b = 0 then (k, c) :: r else (a, b) :: (k, c) :: r)
    else if a = k then (if b = 0 then r else (a, b) :: r)
    else (k, c) :: writeByte r a b

/-- `n` bytes from `a`, the byte at the lowest address lowest (R3). -/
def readN (m : Bytes) (a : Nat) : Nat → Nat
  | 0 => 0
  | n + 1 => (readByte m a).toNat + 256 * readN m (a + 1) n

/-- `m` with the low `n` bytes of `v` at `a` (R3). -/
def writeN (m : Bytes) (a : Nat) : Nat → Nat → Bytes
  | 0, _ => m
  | n + 1, v => writeN (writeByte m a (.ofNat 8 v)) (a + 1) n (v / 256)

/-- `m` without the bytes of `[lo, hi)`: they read 0. -/
def eraseRange (m : Bytes) (lo hi : Nat) : Bytes := m.filter fun c => !(decide (lo ≤ c.1) && decide (c.1 < hi))

/-- The bytes of `[lo, hi)`, by their offset from `lo`. -/
def sliceRange (m : Bytes) (lo hi : Nat) : Bytes :=
  (m.filter fun c => decide (lo ≤ c.1) && decide (c.1 < hi)).map fun c => (c.1 - lo, c.2)

/-- `m` with `src`, offsets below `len`, in place of the bytes of `[lo, lo + len)`. -/
def blit (m : Bytes) (lo len : Nat) (src : Bytes) : Bytes :=
  src.foldl (fun m c => if c.1 < len then writeByte m (lo + c.1) c.2 else m) (eraseRange m lo (lo + len))

/-- Bit `i` counted from byte `base` (R66, R108). -/
def readBit (m : Bytes) (base i : Nat) : Bool := fld (readByte m (base + i / 8)).toNat (i % 8) 1 = 1

/-- `m` with bit `i` counted from byte `base` set to `v`. -/
def writeBit (m : Bytes) (base i : Nat) (v : Bool) : Bytes :=
  let x := (readByte m (base + i / 8)).toNat
  let y := x - fld x (i % 8) 1 * 2 ^ (i % 8) + v.toNat * 2 ^ (i % 8)
  writeByte m (base + i / 8) (.ofNat 8 y)

/-- A list of bytes as a number, the first byte lowest. -/
def bytesNat : List Byte → Nat
  | [] => 0
  | b :: r => b.toNat + 256 * bytesNat r

/-- The low `n` bytes of a number, lowest first. -/
def natBytes : Nat → Nat → List Byte
  | 0, _ => []
  | n + 1, v => .ofNat 8 v :: natBytes n (v / 256)

/-- Signed value of the low `w` bits of `x` (R7, sext). -/
def sextN (x w : Nat) : Int :=
  let y := x % 2 ^ w
  if 2 * y < 2 ^ w then (y : Int) else (y : Int) - (2 ^ w : Nat)

/-- The low `w` bits of an integer, two's complement. -/
def intBits (x : Int) (w : Nat) : Nat := (x % (2 ^ w : Nat)).toNat

/-- The 64 bits of an integer, two's complement. -/
def intDword (x : Int) : Dword := .ofInt 64 x

end Sys2Proof.Machine
end

