-- ==== Sys2Proof/Machine/Block.lean ====
section
/-! DEFINITION. The form in which a tier holds the 256-byte blocks of a C1 page, and how a writer packs and a reader expands one (R276). -/

namespace Sys2Proof.Machine

open Sys2Proof

/-- The map of a block: bit q is set when doubleword q is nonzero. -/
def c1Map : List Nat → Nat
  | [] => 0
  | d :: r => (if d = 0 then 0 else 1) + 2 * c1Map r

/-- The nonzero doublewords of a block, in increasing q. -/
def c1Kept (b : List Nat) : List Nat := b.filter fun d => d ≠ 0

/-- S as a writer takes it: the sectors that hold the block. -/
def c1Sectors (b : List Nat) : Nat :=
  let n := (4 + 8 * (c1Kept b).length + 31) / 32
  if n < 2 then 2 else if 7 < n then 8 else n

/-- The metadata byte beside a block. -/
def c1Meta (b : List Nat) : Byte := .ofNat 8 (c1Sectors b)

/-- A list of doublewords as bytes. -/
def dwordBytes (ds : List Nat) : List Byte := ds.flatMap (natBytes 8)

/-- The sectors of a block as its tier holds them: raw, or the map, the nonzero doublewords and zeros. -/
def c1Stored (b : List Nat) : List Byte :=
  if c1Sectors b = 8 then dwordBytes b
  else
    let bs := natBytes 4 (c1Map b) ++ dwordBytes (c1Kept b)
    bs ++ List.replicate (32 * c1Sectors b - bs.length) 0

/-- `n` doublewords from bytes. -/
def bytesDwords : Nat → List Byte → List Nat
  | 0, _ => []
  | n + 1, bs => bytesNat (bs.take 8) :: bytesDwords n (bs.drop 8)

/-- Doublewords at the places of a map's set bits, zero elsewhere, `n` places. -/
def c1Spread : (n m : Nat) → List Nat → List Nat
  | 0, _, _ => []
  | n + 1, m, ds =>
    if m % 2 = 1 then ds.headD 0 :: c1Spread n (m / 2) ds.tail else 0 :: c1Spread n (m / 2) ds

/-- The doublewords of a stored block, expanded, given its metadata byte; `bs` are the bytes of its S sectors. -/
def c1Expand (mb : Byte) (bs : List Byte) : List Nat :=
  if fld mb.toNat 0 4 = 8 then bytesDwords 32 bs
  else c1Spread 32 (bytesNat (bs.take 4)) (bytesDwords 31 (bs.drop 4))

end Sys2Proof.Machine
end

