-- ==== Sys2Proof/Machine/Regs.lean ====
section
/-! DEFINITION. Reading and writing the parts of the state: cores, contexts, strands, partitions, launches, scalar
registers and the PC. -/

namespace Sys2Proof.Machine

open Sys2Proof

/-- A core number from a list of plain data. -/
def coreId (n : Nat) : Fin 96 := Fin.ofNat 96 n

/-- The core. -/
def State.core (s : State) (k : Fin 96) : Core := s.cores[k]

/-- The state with that core. -/
def State.setCore (s : State) (k : Fin 96) (c : Core) : State := { s with cores := s.cores.set k c }

/-- The state with a core changed. -/
def State.updCore (s : State) (k : Fin 96) (f : Core → Core) : State := s.setCore k (f (s.core k))

/-- The acting core. -/
def State.me (s : State) : Core := s.core s.actor.core

/-- The state with the acting core changed. -/
def State.updMe (s : State) (f : Core → Core) : State := s.updCore s.actor.core f

/-- A context of a core. -/
def Core.ctx (c : Core) : Who → Ctx
  | .user => c.user
  | .mordant => c.mordant

/-- A core with a context changed. -/
def Core.updCtx (c : Core) (w : Who) (f : Ctx → Ctx) : Core :=
  match w with
  | .user => { c with user := f c.user }
  | .mordant => { c with mordant := f c.mordant }

/-- The acting context. -/
def State.ctx (s : State) : Ctx := s.me.ctx s.actor.who

/-- The state with the acting context changed. -/
def State.updCtx (s : State) (f : Ctx → Ctx) : State := s.updMe fun c => c.updCtx s.actor.who f

/-- Whether Mordant acts. -/
def State.isM (s : State) : Bool := s.actor.who = .mordant

/-- The strand placed on the acting core. -/
def State.strand? (s : State) : Option Strand := s.me.strand

/-- A core with its strand changed, if one is placed. -/
def Core.updStrand (c : Core) (f : Strand → Strand) : Core := { c with strand := c.strand.map f }

/-- The state with the acting core's strand changed. -/
def State.updStrand (s : State) (f : Strand → Strand) : State := s.updMe fun c => c.updStrand f

/-- A scalar register of a context: s0 reads 0 (R80). -/
def Ctx.reg (c : Ctx) (r : SReg) : Dword := if r = 0 then 0 else c.regs[r.toFin]

/-- A context with a scalar register written: a write to s0 is discarded (R80). A write of the whole register clears its poison (R326). -/
def Ctx.setReg (c : Ctx) (r : SReg) (x : Dword) : Ctx :=
  if r = 0 then c
  else { c with regs := c.regs.set r.toFin x, pregs := c.pregs &&& ~~~(1#32 <<< r.toNat) }

/-- Scalar register `r` of the acting context. -/
def State.rd (s : State) (r : SReg) : Dword := s.ctx.reg r

/-- The state with scalar register `r` of the acting context written. -/
def State.wr (s : State) (r : SReg) (x : Dword) : State := s.updCtx fun c => c.setReg r x

/-- The PC of slot `i` of the line at `la` (R57). -/
def slotPc (la i : Nat) : Dword := .ofNat 64 (la + 2 * i)

/-- The line address of a PC (R57). -/
def lineAddr (pc : Dword) : Nat := pc.toNat / 64 * 64

/-- The slot of a PC, bits [5:1] (R57). -/
def pcSlot (pc : Dword) : Nat := fld pc.toNat 1 5

/-- Whether the slot after this one lies in the line in execution. -/
def Ctx.moreSlots (c : Ctx) : Bool :=
  match c.line with
  | some (_, img) => pcSlot c.pc < lineH img
  | none => false

/-- The successor of the PC (R58): the next slot of the line, or slot 1 of the next line. -/
def Ctx.succPc (c : Ctx) : Dword :=
  if c.moreSlots then slotPc (lineAddr c.pc) (pcSlot c.pc + 1) else slotPc (lineAddr c.pc + 64) 1

/-- A context past its instruction: the line image stays only while control stays in it (R61). -/
def Ctx.advance (c : Ctx) : Ctx :=
  { c with pc := c.succPc, line := if c.moreSlots then c.line else none }

/-- The images fetched of the line of a PC are forgotten: control that comes to it fetches the line as it then stands (R60). -/
def Ctx.forget (c : Ctx) (pc : Dword) : Ctx := { c with icache := c.icache.filter fun x => x.1 ≠ lineAddr pc }

/-- A context that stops at its PC, or runs again from it: the line is fetched again (R60), and a BARWT measures its time
afresh (R262). -/
def Ctx.refetch (c : Ctx) : Ctx := { c.forget c.pc with line := none, barFrom := none }

/-- The acting scalar thread past its instruction: the instruction retires. -/
def State.retire (s : State) : State := s.updCtx Ctx.advance

/-- Control goes to `t`, leaving the line (R61). -/
def State.goto (s : State) (t : Dword) : State := s.updCtx fun c => { c with pc := t, line := none }

/-- The scalar result `x` is written to `d` and the instruction retires. -/
def State.ret (s : State) (d : SReg) (x : Dword) : State := (s.wr d x).retire

/-- The partition whose first slice is `f`. -/
def State.part? (s : State) (f : Nat) : Option Partition := s.parts.find? fun p => p.first = f

/-- The partition whose first slice is `f`, unless a reset of it is under way: till the reset ends its scheduler does nothing (R312). -/
def State.alive? (s : State) (f : Nat) : Option Partition := (s.part? f).filter fun p => p.st ≠ 3

/-- The state with that partition changed. -/
def State.updPart (s : State) (f : Nat) (g : Partition → Partition) : State :=
  { s with parts := s.parts.map fun p => if p.first = f then g p else p }

/-- The partition that owns a slice (R305). -/
def State.partOfSlice (s : State) (sl : Nat) : Option Partition :=
  s.parts.find? fun p => p.first ≤ sl && sl < p.first + p.n

/-- The slice of a core (R12). -/
def sliceOf (k : Nat) : Nat := k / 12

/-- The partition that owns a core. -/
def State.partOfCore (s : State) (k : Nat) : Option Partition := s.partOfSlice (sliceOf k)

/-- The cores of a partition (R12). -/
def Partition.coreList (p : Partition) : List Nat := (List.range (12 * p.n)).map (12 * p.first + ·)

/-- A launch of a partition. -/
def Partition.launch? (p : Partition) (l : Nat) : Option Launch := p.launches.find? fun x => x.id = l

/-- A partition with a launch changed. -/
def Partition.updLaunch (p : Partition) (l : Nat) (f : Launch → Launch) : Partition :=
  { p with launches := p.launches.map fun x => if x.id = l then f x else x }

/-- The state with a launch changed. -/
def State.updLaunch (s : State) (part l : Nat) (f : Launch → Launch) : State :=
  s.updPart part fun p => p.updLaunch l f

/-- A launch of a partition, by the partition's first slice. -/
def State.launch? (s : State) (part l : Nat) : Option Launch := (s.part? part).bind (·.launch? l)

/-- A doubleword of a launch's record, by its offset (R295). -/
def Launch.field (l : Launch) (off : Nat) : Dword := l.rcd.getD (off / 8) 0

/-- NV of the acting context: 4 for Mordant (R35). -/
def State.nv (s : State) : Nat :=
  match s.actor.who with
  | .mordant => 4
  | .user => (s.strand?.map (·.nv)).getD 8

/-- Bytes of one vector register of the acting context (R34, R67). -/
def State.vregBytes (s : State) : Nat :=
  match s.actor.who with
  | .mordant => 2048
  | .user => Config.vfileBytes / s.nv

/-- The largest VLMAX of the acting context's masks (R34, R66). -/
def State.maskBits (s : State) : Nat :=
  match s.actor.who with
  | .mordant => 2048
  | .user => 65536

/-- A free choice: the value, and the state with the choice counted (assumption 5). -/
def State.free (s : State) {α : Type} (f : Nat → α) : α × State := (f s.ticket, { s with ticket := s.ticket + 1 })

end Sys2Proof.Machine
end

