-- ==== Sys2Proof/Machine/Xlate.lean ====
section
/-! DEFINITION. Tiers, homes and versions (R23, R244, R340), the page walk and its checks (R210 to R216), the TLBs
(R217), poison of memory (R326), and single accesses that perform at a home L2 slice. -/

namespace Sys2Proof.Machine

open Sys2Proof

/-- The kind of an access: read, write or atomic, instruction fetch (R19). -/
inductive Kind | r | w | x
deriving DecidableEq, Repr

/-- A fault: cause code and address (R105). -/
structure Flt where
  cause : Nat
  addr  : Nat
deriving DecidableEq, Repr

/-- A translated access: the key of its first byte, its tier, policy and CMP codes (R212), and the chip of a peer page. -/
structure Xl where
  key  : Nat
  tier : Nat
  pol  : Nat
  cmp  : Nat
  chip : Nat
deriving DecidableEq, Repr

/-- The page-fault cause of a kind (R19, R105). -/
def pflt : Kind → Nat
  | .r => 0x06
  | .w => 0x07
  | .x => 0x08

/-- The key of offset `o` in a space of State.mem. -/
def spaceKey (sp o : Nat) : Nat := sp * 2 ^ 60 + o

/-- Size of a tier of a partition of n slices, 0 for GDDR-7 and 1 for LPDDR-6 (R23). -/
def tierSize (n tier : Nat) : Nat := n * (if tier = 0 then Config.gddrSlice else Config.lpddrSlice)

/-- The key of a GDDR-7 (0) or LPDDR-6 (1) tier offset: the partition's slices in ascending order (R23). -/
def tierKey (first tier o : Nat) : Nat :=
  spaceKey tier (first * (if tier = 0 then Config.gddrSlice else Config.lpddrSlice) + o)

/-- The key of a byte of a core's bank. -/
def bankKey (core bank byte : Nat) : Nat := spaceKey 4 (core * 2 ^ 24 + bank * Config.bankBytes + byte)

/-- Whether a peer is reachable from a partition: a live port of its slices reaches it (R12, R305, R317), and on this
module its partition exists and is not resetting (R307, R312). -/
def State.peerUp (s : State) (p : Partition) (chip : Nat) : Bool :=
  ((s.ports.toList.drop (2 * p.first)).take (2 * p.n)).any (fun p => p.live && p.reach.contains chip) &&
    (if chip / 8 = s.moduleNo then (match s.part? (chip % 8) with | some p => p.st ≠ 3 | none => false)
     else s.peers.any (·.1 = chip))

/-- The key of a peer tier offset, if the chip is reachable and the offset lies within its tier (R23, R214 step 7). -/
def State.peerKey (s : State) (p : Partition) (chip o : Nat) : Option Nat :=
  let tier := fld o 42 1
  let oo := fld o 0 42
  if s.peerUp p chip then
    if chip / 8 = s.moduleNo then
      match s.part? (chip % 8) with
      | some p => if oo < tierSize p.n tier then some (tierKey p.first tier oo) else none
      | none => none
    else match s.peers.find? (·.1 = chip) with
      | some (_, n) => if oo < tierSize n tier then some (spaceKey 3 (chip * 2 ^ 43 + o)) else none
      | none => none
  else none

/-- The home L2 slice within a run of slices, for an offset of a tier (R340). -/
def homeIn (tier o : Nat) : Nat :=
  let sl := if tier = 0 then Config.gddrSlice else Config.lpddrSlice
  24 * (o / sl) + (o % sl / 64) % 24

/-- The home L2 slice of a key, in the device numbering of R12; the slices of another module's partitions are numbered
above 1,000. -/
def homeOf (key : Nat) : Nat :=
  let sp := key / 2 ^ 60
  let o := key % 2 ^ 60
  if sp = 3 then 1000 + (o / 2 ^ 43) * 192 + homeIn (fld o 42 1) (fld o 0 42) else homeIn sp o

/-- The line of a key. -/
def lineOf (key : Nat) : Nat := key / 64 * 64

/-- The floor VF of an L2 slice, 0 at power-on (R244). -/
def State.floor (s : State) (h : Nat) : Dword := ((s.floors.find? (·.1 = h)).map (·.2)).getD 0

/-- The state with a floor set. -/
def State.setFloor (s : State) (h : Nat) (v : Dword) : State :=
  { s with floors := (h, v) :: s.floors.filter (·.1 ≠ h) }

/-- A version raised by one, staying at its largest value (R244). -/
def verUp (v : Dword) : Dword := if v = BitVec.allOnes 64 then v else v + 1

/-- The line of a key in its home L2 slice, if present. -/
def State.l2Line? (s : State) (key : Nat) : Option L2Line := s.l2.find? fun l => l.line = lineOf key

/-- The version a line has at an access: its own, or the floor a fill takes (R244). -/
def State.version (s : State) (key : Nat) : Dword :=
  match s.l2Line? key with
  | some l => l.ver
  | none => s.floor (homeOf key)

/-- A line leaves its slice: VF := max(VF, v + 1) (R244). -/
def State.dropLine (s : State) (line : Nat) : State :=
  match s.l2Line? line with
  | none => s
  | some l =>
    let h := homeOf line
    let s := { s with l2 := s.l2.filter fun x => x.line ≠ l.line }
    if (s.floor h).toNat < (verUp l.ver).toNat then s.setFloor h (verUp l.ver) else s

/-- The lines of a predicate leave their slices. -/
def State.dropLines (s : State) (f : Nat → Bool) : State :=
  ((s.l2.filter fun l => f l.line).map (·.line)).foldl State.dropLine s

/-- A line fills its home slice (R154, R244), at a floor read before another line leaves (assumption 74). From a full slice of 2 MiB (R11,
R15) another line leaves: one filled as streaming, else the one filled first (assumption 62). -/
def State.fillLine (s : State) (l : L2Line) (streaming : Bool) : State :=
  let same := s.l2.filter fun y => homeOf y.line = homeOf l.line
  let s := if same.length < Config.l2Lines then s
    else match same.getLast? with
      | some y => s.dropLine y.line
      | none => s
  { s with l2 := if streaming then s.l2 ++ [l] else l :: s.l2 }

/-- The size of the poison granule of a key: a 64-byte chunk of local memory, a 32-byte sector elsewhere (R326). -/
def granuleOf (key : Nat) : Nat := if key / 2 ^ 60 = 4 then 64 else 32

/-- Whether any of `n` bytes at a key is poisoned. -/
def State.poisonedAt (s : State) (key n : Nat) : Bool :=
  let g := granuleOf key
  s.poison.any fun p => p < key + n && key < p + g && granuleOf p = g

/-- A poison list after a write: a granule wholly covered is cleared, one covered in part stays (R326). -/
def clearPoison (ps : List Nat) (g key n : Nat) : List Nat :=
  ps.filter fun p => !(decide (key ≤ p) && decide (p + g ≤ key + n))

/-- `n` bytes of memory at a key. -/
def State.readKey (s : State) (key n : Nat) : Nat := readN s.mem key n

/-! Blocks of C1 pages (R276). -/

/-- What a tier keeps beside the block of a key: 1 where memory holds it expanded, else its metadata byte, 0 where none was written. -/
def State.c1At (s : State) (key : Nat) : Nat := (readByte s.c1 (key / 256)).toNat

/-- The block of a key with other bytes from its first one on, and another mark beside it. -/
def State.setBlock (s : State) (key n v m : Nat) : State :=
  { s with mem := writeN s.mem (key / 256 * 256) n v, c1 := writeByte s.c1 (key / 256) (.ofNat 8 m) }

/-- `n` bytes of a block that lie beyond its sectors: the spec says nothing of them, and they are free values (assumption 55). -/
def State.slack (key : Nat) : Nat → State → State
  | 0, s => s
  | n + 1, s =>
    let r := s.free Config.c1Slack
    State.slack key n { r.2 with mem := writeByte r.2.mem (key + n) r.1 }

/-- The poison of a block whose bytes are made anew: its first `n` sectors where what they were made from holds poison, else none. -/
def reformPoison (ps : List Nat) (key n : Nat) (bad : Bool) : List Nat :=
  (if bad then (List.range n).map fun j => key / 256 * 256 + 32 * j else []) ++ clearPoison ps 32 (key / 256 * 256) 256

/-- The block of a key as an access of a C1 page takes it: one held as stored, in fewer than eight sectors, is expanded, a poisoned
sector of them poisoning it whole (R326, assumption 55). -/
def State.asC1 (s : State) (key : Nat) : State :=
  let m := s.c1At key
  if 2 ≤ m && m < 8 then
    let bs := natBytes (32 * m) (s.readKey (key / 256 * 256) (32 * m))
    { s.setBlock key 256 (bytesNat (dwordBytes (c1Expand (.ofNat 8 m) bs))) 1 with
      poison := reformPoison s.poison key 8 (s.poisonedAt (key / 256 * 256) (32 * m)) }
  else s

/-- The block of a key as any other access takes it: one held expanded is packed, with its metadata byte beside it. A poisoned sector
poisons every sector made from it: its own in a raw block, else all of them, since the map is made from every doubleword (R276, R326). -/
def State.asRaw (s : State) (key : Nat) : State :=
  if s.c1At key = 1 then
    let b := (List.range 32).map fun q => s.readKey (key / 256 * 256 + 8 * q) 8
    let n := 32 * c1Sectors b
    let t := (s.setBlock key n (bytesNat (c1Stored b)) (c1Meta b).toNat).slack (key / 256 * 256 + n) (256 - n)
    if c1Sectors b = 8 then t
    else { t with poison := reformPoison s.poison key (c1Sectors b) (s.poisonedAt (key / 256 * 256) 256) }
  else s

/-- The block of a translated place in the form its page's CMP gives it (R212, R276). -/
def State.inForm (s : State) (x : Xl) : State := if x.cmp = 1 then s.asC1 x.key else s.asRaw x.key

/-- A line's first write since it was filled: what its tier holds is what it held till then (R312). -/
def State.dirtied (s : State) (l : L2Line) : L2Line :=
  let t := s.asRaw l.line
  { l with ver := verUp l.ver, dirty := true,
           tier := if l.dirty then l.tier else t.readKey l.line 64,
           tierBad := if l.dirty then l.tierBad else
             BitVec.ofNat 2 ((t.poisonedAt l.line 32).toNat + (t.poisonedAt (l.line + 32) 32).toNat * 2) }

/-- An access reaches a line of a home slice: a present line must carry the same CMP (R214 step 8); a policy other than
uncached fills an absent one at the floor (R154, R244); a write raises a present line's version by one (R235). -/
def State.touch (s : State) (x : Xl) (wr : Bool) (ea : Nat) : Except Flt State :=
  if x.tier = 2 then .ok s
  else
    let line := lineOf x.key
    match s.l2Line? x.key with
    | some l =>
      if l.cmp.toNat ≠ x.cmp then .error ⟨0x0A, ea⟩
      else if wr then
        .ok { s with l2 := s.l2.map fun y => if y.line = line then s.dirtied y else y }
      else .ok s
    | none =>
      if x.pol = 2 then .ok s
      else
        let l : L2Line :=
          { line, ver := s.floor (homeOf x.key), cmp := .ofNat 2 x.cmp, dirty := false, tier := 0, tierBad := 0 }
        .ok (s.fillLine (if wr then s.dirtied l else l) (x.pol = 1))

/-- A write that is about to perform on a line that may be present, with no fill (R244). -/
def State.touchPresent (s : State) (key : Nat) : State :=
  { s with l2 := s.l2.map fun y => if y.line = lineOf key then s.dirtied y else y }

/-- Memory with `n` bytes written at a key. -/
def State.writeKey (s : State) (key n v : Nat) : State :=
  { s with mem := writeN s.mem key n v, poison := clearPoison s.poison (granuleOf key) key n }

/-- Memory with `n` bytes written at a translated place, of whose block the writer's CMP decides the form. -/
def State.writeAt (s : State) (x : Xl) (n v : Nat) : State :=
  let t := (s.inForm x).writeKey x.key n v
  if x.cmp = 1 then { t with c1 := writeByte t.c1 (x.key / 256) 1 } else t

/-- The blocks of a range as they are stored. -/
def State.rawRange (s : State) (lo hi : Nat) : State :=
  ((s.c1.filter fun c => lo ≤ 256 * c.1 && 256 * c.1 < hi).map (·.1)).foldl (fun s b => s.asRaw (256 * b)) s

/-- The blocks that `n` bytes at a key touch, each as an access of a C1 page takes it. -/
def State.expandRange (s : State) (key n : Nat) : State :=
  (List.range ((key % 256 + n + 255) / 256)).foldl (fun s i => s.asC1 (key + 256 * i)) s

/-! Page-table entries (R212). -/

/-- The result of a walk (R213). -/
inductive WalkRes
  | bad (node : Nat)
  | invalid
  | leaf (e : Nat) (big : Bool)
deriving DecidableEq, Repr

/-- Whether a reserved field or code of an entry is set (R212). -/
def pteReserved (e : Nat) : Bool := fld e 6 2 ≠ 0 || fld e 14 2 = 3 || fld e 12 2 = 3

/-- Whether an entry is a malformed table entry or leaf at its level (R212, R213). -/
def pteMalformed (e lvl : Nat) : Bool :=
  pteReserved e ||
  (fld e 0 1 = 1 &&
    if fld e 5 1 = 1 then lvl = 3 || fld e 52 12 ≠ 0 || fld e 12 2 ≠ 0 || fld e 10 2 ≠ 0 || fld e 1 4 ≠ 0
    else lvl = 1 || (fld e 52 12 ≠ 0 && fld e 8 2 ≠ 3) || (lvl = 2 && fld e 16 13 ≠ 0) || (fld e 8 2 = 3 && fld e 43 9 ≠ 0))

/-- The index of a level (R210). -/
def walkIndex (va lvl : Nat) : Nat := if lvl = 1 then fld va 42 13 else if lvl = 2 then fld va 29 13 else fld va 16 13

/-- The walk from a node, `n` levels left (R213): each entry is read at its home slice, filling nothing (assumption 6). -/
def walkFrom (s : State) (p : Partition) (va : Nat) : Nat → (node tier st : Nat) → WalkRes
  | 0, node, _, _ => .bad node
  | n + 1, node, tier, st =>
    let lvl := 3 - n
    if 1 < tier ∨ st ≠ 0 ∨ tierSize p.n tier ≤ node + 0xFFFF then .bad node
    else
      let key := tierKey p.first tier (node + 8 * walkIndex va lvl)
      let e := s.readKey key 8
      if s.poisonedAt key 8 || pteMalformed e lvl then .bad node
      else if fld e 0 1 = 0 then .invalid
      else if fld e 5 1 = 0 then .leaf e (lvl = 2)
      else walkFrom s p va n (fld e 16 36 * 65536) (fld e 8 2) (fld e 14 2)

/-- The walk of a virtual address under a PTBASE value (R211, R213). -/
def walk (s : State) (p : Partition) (ptb : Dword) (va : Nat) : WalkRes :=
  walkFrom s p va 3 (fld ptb.toNat 16 26 * 65536) (fld ptb.toNat 8 2) 0

/-- Steps 3 to 7 of R214 on a leaf. -/
def checkLeaf (s : State) (p : Partition) (mordant : Bool) (k : Kind) (va e : Nat) (big : Bool) : Except Flt Xl :=
  let tier := fld e 8 2
  let pol := fld e 10 2
  let perm := match k with
    | .r => fld e 1 1 = 1
    | .w => fld e 2 1 = 1 && pol ≠ 3
    | .x => fld e 3 1 = 1
  let off := fld e 16 36 * 65536 + (if big then fld va 0 29 else fld va 0 16)
  let mkx (key : Nat) : Xl := { key, tier, pol, cmp := fld e 12 2, chip := fld e 52 12 }
  if fld e 4 1 = 1 && !mordant then .error ⟨pflt k, va⟩
  else if !perm then .error ⟨pflt k, va⟩
  else if fld e 14 2 ≠ 0 then .error ⟨pflt k, va⟩
  else if tier < 2 then
    if off < tierSize p.n tier then .ok (mkx (tierKey p.first tier off)) else .error ⟨pflt k, va⟩
  else if tier = 2 then .ok (mkx (spaceKey 2 (off % 2 ^ 52)))
  else match s.peerKey p (fld e 52 12) off with
    | some key => .ok (mkx key)
    | none => .error ⟨0x0B, va⟩

/-! TLBs (R217). -/

/-- The leaf a TLB holds for an address. -/
def tlbFind (t : List TlbEnt) (asid va : Nat) : Option TlbEnt :=
  t.find? fun e => e.asid = asid && (if e.big then e.page / 2 ^ 29 = va / 2 ^ 29 else e.page / 2 ^ 16 = va / 2 ^ 16)

/-- A TLB with an entry added, the oldest beyond its capacity leaving (assumption 7). -/
def tlbAdd (t : List TlbEnt) (e : TlbEnt) (cap : Nat) : List TlbEnt := (e :: t).take cap

/-- The vector TLB's bank of an entry (R217). -/
def tlbBank (e : TlbEnt) : Nat := if e.big then e.page / 2 ^ 29 % 32 else e.page / 2 ^ 16 % 32

/-- The vector TLB with an entry added to its bank of 64. -/
def tlbAddBank (t : List TlbEnt) (e : TlbEnt) : List TlbEnt :=
  (e :: t.filter fun x => tlbBank x = tlbBank e).take 64 ++ t.filter fun x => tlbBank x ≠ tlbBank e

/-- Which TLB translates: the scalar, vector or engine TLB of a core (R217, R218). -/
inductive TlbSel | s | v | e
deriving DecidableEq, Repr

/-- The TLB selected. -/
def Core.tlb (c : Core) : TlbSel → List TlbEnt
  | .s => c.tlbS
  | .v => c.tlbV
  | .e => c.tlbE

/-- A core with a translation kept. That the engine's TLB holds as many entries as the scalar one is the model's choice (assumption 7). -/
def Core.addTlb (c : Core) (t : TlbSel) (e : TlbEnt) : Core :=
  match t with
  | .s => { c with tlbS := tlbAdd c.tlbS e 64 }
  | .v => { c with tlbV := tlbAddBank c.tlbV e }
  | .e => { c with tlbE := tlbAdd c.tlbE e 64 }

/-- Translation of an address for a core (R213, R214 steps 1 to 7): from its TLB, or by a walk whose resident leaf the
TLB keeps (assumption 7). -/
def translate (s : State) (k : Fin 96) (mordant : Bool) (t : TlbSel) (kd : Kind) (va : Nat) : State × Except Flt Xl :=
  match s.partOfCore k with
  | none => (s, .error ⟨pflt kd, va⟩)
  | some p =>
    let c := s.core k
    let asid := fld c.ptbase.toNat 48 16
    match tlbFind (c.tlb t) asid va with
    | some e => (s, checkLeaf s p mordant kd va e.leaf e.big)
    | none =>
      match walk s p c.ptbase va with
      | .bad node => (s, .error ⟨0x09, node⟩)
      | .invalid => (s, .error ⟨pflt kd, va⟩)
      | .leaf e big =>
        match checkLeaf s p mordant kd va e big with
        | .error f => (s, .error f)
        | .ok x => (s.setCore k (c.addTlb t { asid, page := va, big, leaf := e }), .ok x)

/-- Translation for the scheduler, under a queue's PTB (R291, R294). A fault gives the address of the access (R289). A window address is
PFLT for the record reads too, of which R294 does not speak (assumption 73). -/
def translateSched (s : State) (p : Partition) (ptb : Dword) (kd : Kind) (va : Nat) : Except Flt Xl :=
  if 2 ^ 55 ≤ va ∨ (0x7FFE00000000 ≤ va ∧ va < 0x800000000000) then .error ⟨pflt kd, va⟩
  else match tlbFind p.tlb (fld ptb.toNat 48 16) va with
    | some e => checkLeaf s p false kd va e.leaf e.big
    | none =>
      match walk s p ptb va with
      | .bad _ => .error ⟨0x09, va⟩
      | .invalid => .error ⟨pflt kd, va⟩
      | .leaf e big => checkLeaf s p false kd va e big

/-- One access of the scheduler (R229, R294): translated, then performed at the home slice; the value read before the
change `f` is written, or only read when `f` is none. Counters are a doubleword. An ATTRC of R214 step 8 is a fault like the others, of
which R294 does not speak (assumption 85). -/
def schedAccess (s : State) (p : Partition) (ptb : Dword) (va : Nat) (f : Option (Nat → Nat)) : Except Flt (Nat × State) :=
  match translateSched s p ptb (if f.isSome then .w else .r) va with
  | .error e => .error e
  | .ok x =>
    match s.touch x f.isSome va with
    | .error e => .error e
    | .ok s =>
      let s := s.inForm x
      if s.poisonedAt x.key 8 then .error ⟨0x11, va⟩
      else
        let v := s.readKey x.key 8
        match f with
        | none => .ok (v, s)
        | some g => .ok (v, s.writeAt x 8 (g v))

/-- Doublewords written by the scheduler, one access each: a write meets no poison (R95, R326). The fault met, if any. -/
def schedStores (p : Partition) (ptb : Dword) : List (Nat × Nat) → State → Except Flt State
  | [], s => .ok s
  | (va, v) :: r, s =>
    match translateSched s p ptb .w va with
    | .error e => .error e
    | .ok x =>
      match s.touch x true va with
      | .error e => .error e
      | .ok s => schedStores p ptb r (s.writeAt x 8 v)

end Sys2Proof.Machine
end

