-- ==== Sys2Proof/Machine/Cmd.lean ====
section
/-! DEFINITION. The geometry of copy commands (R271 to R275): fields of the block, where each destination byte goes and
where its source lies, and the window ranges of the scoreboard (R146). -/

namespace Sys2Proof.Machine

open Sys2Proof

/-- A command block's fields (R271, R273, R274). -/
structure Cmd where
  src : Nat
  dst : Nat
  c0 : Nat
  c1 : Nat
  c2 : Nat
  c3 : Nat
  s1 : Int
  s2 : Int
  s3 : Int
  d1 : Int
  d2 : Int
  d3 : Int
  xf : Nat
  flg : Nat
  naddr : Nat
  nval : Nat
  mcast : Nat
  baddr : Nat
  caddr : Nat
deriving DecidableEq, Repr

/-- The fields of a block of sixteen doublewords (R271). -/
def parseCmd (b : List Dword) : Cmd :=
  let q (i : Nat) : Nat := (b.getD i 0).toNat
  { src := q 0, dst := q 1, c0 := fld (q 2) 0 32, c1 := fld (q 2) 32 32, c2 := fld (q 3) 0 32, c3 := fld (q 3) 32 32,
    s1 := sextN (q 4) 64, s2 := sextN (q 5) 64, s3 := sextN (q 6) 64,
    d1 := sextN (q 7) 64, d2 := sextN (q 8) 64, d3 := sextN (q 9) 64,
    xf := fld (q 10) 0 32, flg := fld (q 10) 32 32, naddr := q 11, nval := q 12, mcast := q 13, baddr := q 14, caddr := q 15 }

/-- The transform's operation (R273). -/
def Cmd.op (c : Cmd) : Nat := fld c.xf 0 4
/-- Source format code. -/
def Cmd.sf (c : Cmd) : Nat := fld c.xf 8 4
/-- Destination format code. -/
def Cmd.df (c : Cmd) : Nat := fld c.xf 12 4
/-- Rounding mode. -/
def Cmd.rm (c : Cmd) : Nat := fld c.xf 16 3
/-- Non-saturating conversion. -/
def Cmd.ns (c : Cmd) : Bool := fld c.xf 19 1 = 1
/-- Transpose element size in bytes. -/
def Cmd.te (c : Cmd) : Nat := 2 ^ fld c.xf 20 2

/-- Width in bytes of an element format code (R158). -/
def fmtBytes (code : Nat) : Nat :=
  if code < 8 then 2 ^ (code % 4)
  else if code < 10 then 2 else if code = 10 then 4 else if code = 11 then 8 else 1

/-- Bytes of one unit of progress: an element of a converting transform, else a byte. -/
def Cmd.unit (c : Cmd) : Nat := if c.op = 1 ∨ c.op = 2 ∨ c.op = 3 then fmtBytes c.df else 1

/-- Destination bytes of one run under none and convert (R272, R273). -/
def Cmd.run (c : Cmd) : Nat := if c.op = 1 then c.c0 / fmtBytes c.sf * fmtBytes c.df else c.c0

/-- Destination bytes of the whole command (R272). -/
def Cmd.total (c : Cmd) : Nat :=
  match c.op with
  | 2 => 2 * c.c0 * fmtBytes c.df
  | 3 => c.c0 * fmtBytes c.df
  | _ => c.run * c.c1 * c.c2 * c.c3

/-- An address moved by an integer, mod 2^64 (R272). -/
def addrAdd (a : Nat) (d : Int) : Nat := intBits ((a : Int) + d) 64

/-- The address of destination byte `i` in progress order (R272). -/
def Cmd.dstAt (c : Cmd) (i : Nat) : Nat :=
  match c.op with
  | 2 => addrAdd c.dst i
  | 3 => addrAdd c.dst i
  | 4 =>
    let e := c.te
    let q := i / e
    let i1 := q % c.c1
    let j := q / c.c1 % (c.c0 / e)
    let r := q / c.c1 / (c.c0 / e)
    addrAdd c.dst ((r % c.c2 : Nat) * c.d2 + (r / c.c2 : Nat) * c.d3 + j * c.d1 + (i1 * e + i % e : Nat))
  | _ =>
    let r := i / c.run
    addrAdd c.dst ((r % c.c1 : Nat) * c.d1 + (r / c.c1 % c.c2 : Nat) * c.d2 + (r / c.c1 / c.c2 : Nat) * c.d3 + (i % c.run : Nat))

/-- The address of source byte `w` of run `r` (R272). -/
def Cmd.srcRun (c : Cmd) (r w : Nat) : Nat :=
  addrAdd c.src ((r % c.c1 : Nat) * c.s1 + (r / c.c1 % c.c2 : Nat) * c.s2 + (r / c.c1 / c.c2 : Nat) * c.s3 + (w : Int))

/-- The address of the source byte of destination byte `i` under none and transpose (R272, R273). -/
def Cmd.srcAt (c : Cmd) (i : Nat) : Nat :=
  if c.op = 4 then
    let e := c.te
    let q := i / e
    let i1 := q % c.c1
    let j := q / c.c1 % (c.c0 / e)
    let r := q / c.c1 / (c.c0 / e)
    addrAdd c.src ((r % c.c2 : Nat) * c.s2 + (r / c.c2 : Nat) * c.s3 + i1 * c.s1 + (j * e + i % e : Nat))
  else c.srcRun (i / c.run) (i % c.run)

/-- The span of the offsets `0, d, 2d, …, (n-1)d`. -/
def span (n : Nat) (d : Int) : Int × Int :=
  let e := ((n : Int) - 1) * d
  if e < 0 then (e, 0) else (0, e)

/-- Part of a side of a command: `c1 c2 c3` runs of `len` bytes from `base` on, with their strides. -/
structure Side where
  base : Nat
  len : Nat
  c1 : Nat
  c2 : Nat
  c3 : Nat
  x1 : Int
  x2 : Int
  x3 : Int
deriving DecidableEq, Repr

/-- `len` bytes at an address as part of a side. -/
def Side.block (base len : Nat) : Side := { base, len, c1 := 1, c2 := 1, c3 := 1, x1 := 0, x2 := 0, x3 := 0 }

/-- The lowest and one past the highest address of a part, before any wrap. -/
def Side.span (d : Side) : Int × Int :=
  let a := Machine.span d.c1 d.x1
  let b := Machine.span d.c2 d.x2
  let c := Machine.span d.c3 d.x3
  ((d.base : Int) + a.1 + b.1 + c.1, (d.base : Int) + a.2 + b.2 + c.2 + d.len)

/-- The address of run `r` of a part (R272). -/
def Side.run (d : Side) (r : Nat) : Nat :=
  addrAdd d.base ((r % d.c1 : Nat) * d.x1 + (r / d.c1 % d.c2 : Nat) * d.x2 + (r / d.c1 / d.c2 : Nat) * d.x3)

/-- Base of the LOCAL window (R20). -/
def localBase : Nat := 0x7FFF00000000

/-- Base of CLUSTER entry `j` (R20). -/
def clusterBase (j : Nat) : Nat := 0x7FFE00000000 + j * 0x1000000

/-- The window offset of an address in a core's LOCAL window or its own CLUSTER entry (R22). -/
def ownOffset (k a : Nat) : Option Nat :=
  if localBase ≤ a ∧ a < localBase + 0x1000000 then some (a - localBase)
  else
    let b := clusterBase (k % 4)
    if b ≤ a ∧ a < b + 0x1000000 then some (a - b) else none

/-- The smallest range that holds two ranges, either of which may be missing. -/
def hull : Option (Nat × Nat) → Option (Nat × Nat) → Option (Nat × Nat)
  | none, b => b
  | a, none => a
  | some a, some b => some (min a.1 b.1, max a.2 b.2)

/-- The offsets of the addresses `[lo, hi)` in a window at `base`. -/
def windowCut (base lo hi : Nat) : Option (Nat × Nat) :=
  let a := max lo base
  let b := min hi (base + 0x1000000)
  if a < b then some (a - base, b - base) else none

/-- The offsets of the addresses `[lo, hi)` in the LOCAL window and the own CLUSTER entry of core `k` (R22). -/
def ownCut (k lo hi : Nat) : Option (Nat × Nat) := hull (windowCut localBase lo hi) (windowCut (clusterBase (k % 4)) lo hi)

/-- The window offsets of core `k`, from the lowest to one past the highest, that a part touches (R146): its whole span where
that lies in a window, nothing where no address of it does, else run by run. -/
def Side.range (k : Nat) (d : Side) : Option (Nat × Nat) :=
  let sp := d.span
  let inside (base : Nat) : Bool := (base : Int) ≤ sp.1 && sp.2 ≤ (base : Int) + 0x1000000
  let whole := ownCut k sp.1.toNat sp.2.toNat
  if inside localBase || inside (clusterBase (k % 4)) || (0 ≤ sp.1 && sp.2 ≤ (2 ^ 64 : Int) && whole.isNone) then whole
  else (List.range (d.c1 * d.c2 * d.c3)).foldl (fun m r => hull m (ownCut k (d.run r) (d.run r + d.len))) none

/-- The range of a side made of parts. -/
def sideRange (k : Nat) (ds : List Side) : Option (Nat × Nat) := ds.foldl (fun m d => hull m (d.range k)) none

/-- Whether a multicast selects strand `i` (R275). -/
def Cmd.selects (c : Cmd) (i : Nat) : Bool :=
  let f := fld c.mcast 56 8
  f ≤ i && i < f + 48 && fld c.mcast (i - f) 1 = 1

/-- Whether an address lies in a FIFO port of the LOCAL window (R21, R142). -/
def inPort (a : Nat) : Bool := localBase + 0xF00000 ≤ a && a < localBase + 0xF00800

/-- The destination side of a command; a FIFO port, whose address does not advance, is its one byte. -/
def Cmd.dstSides (c : Cmd) : List Side :=
  if inPort c.dst then [.block c.dst 1]
  else match c.op with
    | 2 => [.block c.dst c.total]
    | 3 => [.block c.dst c.total]
    | 4 => [{ base := c.dst, len := c.c1 * c.te, c1 := c.c0 / c.te, c2 := c.c2, c3 := c.c3, x1 := c.d1, x2 := c.d2, x3 := c.d3 }]
    | _ => [{ base := c.dst, len := c.run, c1 := c.c1, c2 := c.c2, c3 := c.c3, x1 := c.d1, x2 := c.d2, x3 := c.d3 }]

/-- The source side of a command: what stands at SRC, and under the quantised transforms the scale or absmax array at S1 and
the 1,024-byte table at S2 (R273). -/
def Cmd.srcSides (c : Cmd) : List Side :=
  let s1 := intBits c.s1 64
  if inPort c.src then [.block c.src 1]
  else match c.op with
    | 2 => [.block c.src c.c0, .block s1 (2 * c.c0 / 48)]
    | 3 => [.block c.src c.c0, .block s1 (4 * ((c.c0 + 2047) / 2048)), .block (intBits c.s2 64) 1024]
    | _ => [{ base := c.src, len := c.c0, c1 := c.c1, c2 := c.c2, c3 := c.c3, x1 := c.s1, x2 := c.s2, x3 := c.s3 }]

/-- The source range a command of core `k` registers (R146). -/
def Cmd.srcRange (c : Cmd) (k : Nat) : Option (Nat × Nat) := sideRange k c.srcSides

/-- The destination range a command of core `k`, issued by strand `idx`, registers (R146). -/
def Cmd.dstRange (c : Cmd) (k idx : Nat) : Option (Nat × Nat) :=
  if c.mcast ≠ 0 && !c.selects idx then none else sideRange k c.dstSides

/-- Whether the addresses `[a, a + n)` hold window offset `o` of core `k`. -/
def coversOffset (k o a n : Nat) : Bool := (List.range n).any fun b => ownOffset k (addrAdd a b) = some o

/-- Whether destination byte `i` of progress lies at window offset `o`. -/
def Cmd.writesAt (c : Cmd) (k o i : Nat) : Bool := ownOffset k (c.dstAt i) = some o

/-- Whether destination byte `i` of progress needs the source byte at window offset `o` (R272, R273); a T8 element may need
any word of its table. -/
def Cmd.readsAt (c : Cmd) (k o i : Nat) : Bool :=
  let u := i / c.unit
  match c.op with
  | 1 => coversOffset k o (c.srcRun (i / c.run) (i % c.run / fmtBytes c.df * fmtBytes c.sf)) (fmtBytes c.sf)
  | 2 => coversOffset k o (addrAdd c.src (u / 2 : Nat)) 1 || coversOffset k o (addrAdd (intBits c.s1 64) (u / 48 : Nat)) 1
  | 3 =>
    coversOffset k o (addrAdd c.src (u : Int)) 1 || coversOffset k o (addrAdd (intBits c.s1 64) (4 * (u / 2048) : Nat)) 4 ||
      coversOffset k o (intBits c.s2 64) 1024
  | _ => ownOffset k (c.srcAt i) = some o

/-- Whether `f` holds at some index from `lo` to below `hi`. -/
def anyFrom (f : Nat → Bool) (lo : Nat) : (hi : Nat) → Bool
  | 0 => false
  | n + 1 => (lo ≤ n && f n) || anyFrom f lo n

/-- Whether all that a command does at a byte lies in its first `done` bytes of progress, and something does. -/
def settled (f : Nat → Bool) (done total : Nat) : Bool := anyFrom f 0 done && !anyFrom f done total

/-- Whether a command that has written `done` bytes has written the byte at window offset `o` of its destination range
(R147); the one byte of a FIFO port once it has pushed (assumption 27). -/
def Cmd.dstSettled (c : Cmd) (k o done : Nat) : Bool :=
  if inPort c.dst then done ≠ 0 else settled (c.writesAt k o) done c.total

/-- Whether a command that has read the source of `done` bytes has read the byte at window offset `o` of its source range
(R147); the one byte of a FIFO port once it has popped (assumption 27). -/
def Cmd.srcSettled (c : Cmd) (k o done : Nat) : Bool :=
  if inPort c.src then done ≠ 0 else settled (c.readsAt k o) done c.total

end Sys2Proof.Machine
end

