-- ==== Sys2Proof/Machine/Access.lean ====
section
/-! DEFINITION. One access of a strand, Mordant or an engine: where an address lies (R19 to R22, R140, R142), the
scoreboard's delays (R146, R147), the stable cache (R144) and the scalar L1, and the access itself, performed at once at
its home slice or bank (R229, assumption 8). -/

namespace Sys2Proof.Machine

open Sys2Proof

/-- Where an address lies: a translated place, a byte of a core's scratchpad with its window offset, or a FIFO port. -/
inductive Place
  | xl (x : Xl)
  | bank (core off key : Nat)
  | fifo (b : Nat)
deriving DecidableEq, Repr

/-- The mode code of a bank (R136). -/
def bankMode (modes : Dword) (b : Nat) : Nat := fld modes.toNat (2 * b) 2

/-- The scratchpad banks in ascending order (R140). -/
def spBanks (modes : Dword) : List Nat := (List.range 32).filter fun b => bankMode modes b = 2

/-- W, the number of cache-way banks (R136). -/
def cacheWays (modes : Dword) : Nat := ((List.range 32).filter fun b => bankMode modes b = 1).length

/-- The key of scratchpad offset `o` of a core (R140). -/
def scratchKey (core : Nat) (modes : Dword) (o : Nat) : Nat :=
  let bs := spBanks modes
  let chunk := o / 64
  bankKey core (bs.getD (chunk % bs.length) 0) (chunk / bs.length * 64 + o % 64)

/-- A window offset of a core (R21): scratchpad, or through its own LOCAL window a FIFO port, Mordant's accesses as the strand's
(assumption 27); else LRANGE. -/
def windowPlace (s : State) (target off n : Nat) (viaLocal : Bool) (va : Nat) : Except Flt Place :=
  let modes := (s.core (coreId target)).modes
  if off + n ≤ (spBanks modes).length * Config.bankBytes then .ok (.bank target off (scratchKey target modes off))
  else
    let b := (off - 0xF00000) / 64
    if viaLocal ∧ 0xF00000 ≤ off ∧ off < 0xF00800 ∧ off % 64 + n ≤ 64 ∧ bankMode modes b = 3 then .ok (.fifo b)
    else .error ⟨0x0C, va⟩

/-- Whether a core holds a strand of the same launch as the strand (R155). -/
def State.sameLaunch (s : State) (st : Option Strand) (target : Nat) : Bool :=
  match st, (s.core (coreId target)).strand with
  | some a, some b => a.part = b.part && a.launch = b.launch
  | _, _ => false

/-- Where `n` bytes at offset `o` of the CLUSTER windows lie, for core `k` (R22): a core of its cluster. An access of the
vector stream to another core needs a strand of its launch there (R155); else LRANGE. -/
def clusterPlace (s : State) (k : Fin 96) (t : TlbSel) (o n va : Nat) : Except Flt Place :=
  let target := k.val / 4 * 4 + o / 0x1000000
  if target = k.val ∨ t ≠ .v ∨ s.sameLaunch (s.core k).strand target then windowPlace s target (o % 0x1000000) n false va
  else .error ⟨0x0C, va⟩

/-- Where `n` bytes at a virtual address lie, for core `k` (R19 to R22, R214): the address checks, then translation. -/
def placeOf (s : State) (k : Fin 96) (mordant : Bool) (t : TlbSel) (kd : Kind) (va n : Nat) : State × Except Flt Place :=
  if 2 ^ 55 ≤ va then (s, .error ⟨pflt kd, va⟩)
  else if 0x7FFE00000000 ≤ va ∧ va < 0x800000000000 then
    if kd = .x then (s, .error ⟨0x08, va⟩)
    else if localBase ≤ va ∧ va < localBase + 0x1000000 then (s, windowPlace s k (va - localBase) n true va)
    else if va < clusterBase 4 then (s, clusterPlace s k t (va - clusterBase 0) n va)
    else (s, .error ⟨0x0C, va⟩)
  else
    match translate s k mordant t kd va with
    | (s, .error f) => (s, .error f)
    | (s, .ok x) => (s, .ok (.xl x))

/-- Whether a scoreboard range of an engine entry delays an access to one window offset (R147). -/
def entryDelays (k idx : Nat) (e : EngEntry) (o : Nat) (wr : Bool) : Bool :=
  let hit (r : Option (Nat × Nat)) : Bool := r.any fun x => x.1 ≤ o && o < x.2
  !e.marker &&
    let c := parseCmd e.blk
    (hit (c.dstRange k idx) && !c.dstSettled k o e.progress) ||
      (wr && hit (c.srcRange k) && !c.srcSettled k o (e.progress + e.ahead.length * c.unit))

/-- Whether the scoreboard of core `target` delays an access to `n` bytes at a window offset (R147). An access of the
strand's own queue that precedes a command needs no delay: the command's W still counts it (R236). Mordant's accesses are
delayed like the strand's (assumption 27). -/
def sbDelays (s : State) (k : Fin 96) (seq : Bool) (target off n : Nat) (wr : Bool) : Bool :=
  let c := s.core (coreId target)
  let idx := (c.strand.map (·.idx)).getD 0
  c.eng.toList.any fun g => g.entries.any fun e =>
    !(seq && target = k.val && 0 < e.w && !e.fr) && (List.range n).any fun i => entryDelays target idx e (off + i) wr

/-- The FIFO of a bank (R142). -/
def Core.fifo (c : Core) (b : Nat) : Fifo := (c.fifos.find? (·.bank = b)).getD ⟨b, 0, 0⟩

/-- A core with a FIFO set. -/
def Core.setFifo (c : Core) (f : Fifo) : Core := { c with fifos := f :: c.fifos.filter (·.bank ≠ f.bank) }

/-- `n` bytes of a bank's ring from offset `o`. -/
def ringRead (s : State) (core b : Nat) (o : Nat) : Nat → Nat
  | 0 => 0
  | n + 1 => (readByte s.mem (bankKey core b (o % Config.bankBytes))).toNat + 256 * ringRead s core b (o + 1) n

/-- `n` bytes stored in a bank's ring from offset `o`. -/
def ringWrite (s : State) (core b : Nat) (o : Nat) : Nat → Nat → State
  | 0, _ => s
  | n + 1, v => ringWrite (s.writeKey (bankKey core b (o % Config.bankBytes)) 1 (v % 256)) core b (o + 1) n (v / 256)

/-- Pop of `n` bytes, the oldest lowest; none while fewer are held (R142). -/
def fifoPop (s : State) (k : Fin 96) (b n : Nat) : Option (Nat × State) :=
  let f := (s.core k).fifo b
  if f.held < n then none
  else some (ringRead s k b f.oldest n,
    s.updCore k fun c => c.setFifo ⟨b, f.held - n, (f.oldest + n) % Config.bankBytes⟩)

/-- Push of `n` bytes, the lowest first; none while fewer are free (R142). -/
def fifoPush (s : State) (k : Fin 96) (b n v : Nat) : Option State :=
  let f := (s.core k).fifo b
  if Config.bankBytes < f.held + n then none
  else some ((ringWrite s k b (f.oldest + f.held) n v).updCore k fun c => c.setFifo ⟨b, f.held + n, f.oldest⟩)

/-- Whether a pop of `n` bytes meets a poisoned granule (R326). -/
def fifoPoisoned (s : State) (k : Fin 96) (b n : Nat) : Bool :=
  (List.range n).any fun i => s.poisonedAt (bankKey k b ((((s.core k).fifo b).oldest + i) % Config.bankBytes)) 1

/-- How an access ended: performed (old value, version of its line at the access), a fault, or a wait. -/
inductive Acc
  | ok (s : State) (v : Nat) (ver : Dword)
  | fault (f : Flt) (s : State)
  | wait (s : State)

/-- The policy of an access after its hint (R154). Hint 3 is the model's own: a vector access that is no load of major 0x30,
which the stable cache does not serve (R144). What a hint makes of a stable page concerns the stable cache alone: its line fills L2 as a
normal page's, whatever the hint (assumption 28). -/
def hintPol (pol hint : Nat) : Nat :=
  if pol = 3 then 3 else if pol = 2 ∨ hint = 2 then 2 else if pol = 1 ∨ hint = 1 then 1 else 0

/-- The scalar L1 after an access by the user's scalar thread (R14, R156): 1,024 lines, fully associative, the least recently
used leaving (assumption 61); vector writes evict the strand's own copy. -/
def l1After (l1 : List (Nat × Bool)) (t : TlbSel) (x : Xl) (wr : Bool) : List (Nat × Bool) :=
  let line := lineOf x.key
  let rest := l1.filter (·.1 ≠ line)
  match t with
  | .s => if x.pol = 2 ∨ 2 ≤ x.tier then l1 else ((line, wr || (l1.any fun y => y.1 = line && y.2)) :: rest).take 1024
  | .v => if wr then rest else l1
  | .e => l1

/-- Whether the stable cache serves an access: a vector load of major 0x30 of a stable page (R144, R154), no peer's, whose data never come
from a copy on this chip (R238); those of the host tier too (assumption 28). -/
def stableUse (t : TlbSel) (hint : Nat) (kd : Kind) (x : Xl) : Bool :=
  t = .v && kd = .r && x.pol = 3 && hint ≠ 3 && x.tier ≠ 3

/-- The offset in its tier of a key, as a partition's translations give it (R23). -/
def Partition.offsetOf (p : Partition) (key : Nat) : Nat :=
  let o := key % 2 ^ 60
  match key / 2 ^ 60 with
  | 0 => o - p.first * Config.gddrSlice
  | 1 => o - p.first * Config.lpddrSlice
  | _ => o

/-- The row of core `k`'s stable cache in which a line is placed (R144), by its offset in its tier (assumption 28). -/
def stableRow (s : State) (k : Fin 96) (line : Nat) : Nat := ((s.partOfCore k).map (·.offsetOf line)).getD 0 / 64 % 3072

/-- The key of the chunk that holds a line in a cache-way bank. -/
def stableKey (s : State) (k : Fin 96) (line bank : Nat) : Nat := bankKey k bank (64 * stableRow s k line)

/-- What the stable cache holds of a key's line: its number, its bytes and its bank; an uncached hint passes by it (R154). -/
def stableHit (s : State) (k : Fin 96) (hint key : Nat) : Option (Nat × Nat × Nat) :=
  if hint = 2 then none
  else (s.core k).stable.find? fun e => e.1 = lineOf key && bankMode (s.core k).modes e.2.2 = 1

/-- The state with a line of the stable cache used last. -/
def stableUsed (s : State) (k : Fin 96) (e : Nat × Nat × Nat) : State :=
  s.updCore k fun c => { c with stable := e :: c.stable.filter (·.1 ≠ e.1) }

/-- A line that missed fills the stable cache, unless a hint forbids it (R144, R154) or it is poisoned: it takes the lowest cache-way
bank whose row holds none, else that of the row's least recently used line (assumption 28); the chunk it covers is clean (R326). -/
def stableFill (s : State) (k : Fin 96) (hint key : Nat) : State :=
  let c := s.core k
  let line := lineOf key
  let ways := (List.range 32).filter fun b => bankMode c.modes b = 1
  let row := c.stable.filter fun e => stableRow s k e.1 = stableRow s k line
  if hint ≠ 0 || ways.isEmpty || s.poisonedAt line 64 then s
  else
    let b := match ways.find? fun b => !row.any fun e => e.2.2 = b with
      | some b => b
      | none => (row.getLast?.map (·.2.2)).getD 0
    let d := s.readKey line 64
    { s with poison := clearPoison s.poison 64 (stableKey s k line b) 64 }.updCore k fun c =>
      { c with stable := (line, d, b) :: c.stable.filter fun e => !(stableRow s k e.1 = stableRow s k line && e.2.2 = b) }

/-- One access of `n` bytes (R229): the place, then what it does. `f` maps the old value to the value written, none for
no write; `rd` says whether the old value is used (and so meets poison, R326); `ok` is the instruction's own condition
on the place, which else traps ATTRC; `fifoOk` admits a FIFO port, which else traps LRANGE. POISON leaves the line's version
as it was (R235). Mordant's scalar accesses do not use the core's L1 (assumption 61). -/
def access (s0 : State) (k : Fin 96) (mordant seq : Bool) (t : TlbSel) (hint : Nat) (kd : Kind) (rd fifoOk : Bool)
    (va n : Nat) (ok : Place → Bool) (f : Nat → Option Nat) : Acc :=
  match placeOf s0 k mordant t kd va n with
  | (s, .error e) => .fault e s
  | (s, .ok p) =>
    if !ok p then .fault ⟨0x0A, va⟩ s
    else match p with
    | .fifo b =>
      if !fifoOk then .fault ⟨0x0C, va⟩ s
      else if t ≠ .e && sbDelays s k seq k (va - localBase) n (kd = .w) then .wait s
      else if rd then
        match fifoPop s k b n with
        | some (v, t) => if fifoPoisoned s k b n then .fault ⟨0x11, va⟩ s else .ok t v 0
        | none => .wait s
      else match fifoPush s k b n ((f 0).getD 0) with
        | some s => .ok s 0 0
        | none => .wait s
    | .bank target off key =>
      if !(t = .e && target = k.val) && sbDelays s k seq target off n (kd = .w) then .wait s
      else if rd && s.poisonedAt key n then .fault ⟨0x11, va⟩ s
      else
        let v := s.readKey key n
        match f v with
        | some w => .ok (s.writeKey key n w) v 0
        | none => .ok s v 0
    | .xl x =>
      let x := { x with pol := hintPol x.pol hint }
      match if stableUse t hint kd x then stableHit s k hint x.key else none with
      | some e =>
        if s.poisonedAt (stableKey s k e.1 e.2.2) 64 then .fault ⟨0x11, va⟩ s
        else .ok (stableUsed s k e) (e.2.1 / 256 ^ (x.key - e.1) % 256 ^ n) (s.version x.key)
      | none =>
        let v := (s.inForm x).readKey x.key n
        match s.touch x (f v).isSome va with
        | .error e => .fault e s
        | .ok r =>
          if rd && (r.inForm x).poisonedAt x.key n then .fault ⟨0x11, va⟩ s
          else
            let s := (r.inForm x).updCore k fun c => if mordant then c else { c with l1 := l1After c.l1 t x (f v).isSome }
            match f v with
            | some w => .ok (s.writeAt x n w) v (s.version x.key)
            | none => .ok (if stableUse t hint kd x then stableFill s k hint x.key else s) v (s.version x.key)

/-- An access of the acting context. -/
def State.acc (s : State) (t : TlbSel) (hint : Nat) (kd : Kind) (rd fifoOk : Bool) (va n : Nat) (ok : Place → Bool)
    (f : Nat → Option Nat) : Acc :=
  access s s.actor.core s.isM s.actor.seq t hint kd rd fifoOk va n ok f

/-- Any place will do. -/
def anyPlace (_ : Place) : Bool := true

end Sys2Proof.Machine
end

