-- ==== Sys2Proof/Machine/Fp.lean ====
section
/-! DEFINITION. Floating-point values, exact arithmetic on them, rounding (R158 to R173, R87 to R89) and the flags each
operation raises. Values are exact rationals until their one rounding. -/

namespace Sys2Proof.Machine

open Sys2Proof

/-! The bits of FFLAGS (R102). -/
/-- NX, inexact. -/
def fNX : Nat := 1
/-- UF, underflow. -/
def fUF : Nat := 2
/-- OF, overflow. -/
def fOF : Nat := 4
/-- DZ, division by zero. -/
def fDZ : Nat := 8
/-- NV, invalid operation. -/
def fNV : Nat := 16
/-- NF, a non-finite result was written. -/
def fNF : Nat := 32
/-- FO, field overflow. -/
def fFO : Nat := 64
/-- CL, clipping. -/
def fCL : Nat := 128

/-- A floating-point format (R159). -/
structure Fmt where
  w    : Nat
  eb   : Nat
  mb   : Nat
  bias : Nat
  inf  : Bool
  sig  : Bool
deriving DecidableEq, Repr

/-- FP32. -/
def fmt32 : Fmt := ⟨32, 8, 23, 127, true, true⟩
/-- FP64. -/
def fmt64 : Fmt := ⟨64, 11, 52, 1023, true, true⟩
/-- FP16. -/
def fmt16 : Fmt := ⟨16, 5, 10, 15, true, true⟩
/-- BF16. -/
def fmtB16 : Fmt := ⟨16, 8, 7, 127, true, true⟩
/-- E4M3: no infinity, one NaN. -/
def fmtE4M3 : Fmt := ⟨8, 4, 3, 7, false, false⟩
/-- E5M2. -/
def fmtE5M2 : Fmt := ⟨8, 5, 2, 15, true, false⟩

/-- The format of an arithmetic format code. -/
def fmtOf : FFmt → Fmt
  | .f32 => fmt32
  | .f64 => fmt64
  | .f16 => fmt16
  | .bf16 => fmtB16

/-- The format of a float element code 0x8 to 0xD (R158). -/
def fmtOfCode (c : Nat) : Fmt :=
  match c with
  | 8 => fmt16
  | 9 => fmtB16
  | 10 => fmt32
  | 11 => fmt64
  | 12 => fmtE4M3
  | _ => fmtE5M2

/-- A value: a NaN (signalling or not), an infinity, or sign × m × 2^e. -/
inductive FV
  | nan (sig : Bool)
  | inf (neg : Bool)
  | fin (neg : Bool) (m : Nat) (e : Int)
deriving DecidableEq, Repr

/-- The value of an encoding (R159). -/
def unpack (f : Fmt) (x : Nat) : FV :=
  let neg := fld x (f.w - 1) 1 = 1
  let be := fld x f.mb f.eb
  let m := fld x 0 f.mb
  if be = 2 ^ f.eb - 1 ∧ (f.inf ∨ m = 2 ^ f.mb - 1) then
    if m = 0 then .inf neg else .nan (f.sig && fld m (f.mb - 1) 1 = 0)
  else if be = 0 then .fin neg m (1 - (f.bias : Int) - f.mb)
  else .fin neg (m + 2 ^ f.mb) ((be : Int) - f.bias - f.mb)

/-- The sign bit at its place. -/
def signBit (f : Fmt) (neg : Bool) : Nat := if neg then 2 ^ (f.w - 1) else 0

/-- The canonical NaN (R88, R160). -/
def canonNaN (f : Fmt) : Nat := if f.inf then (2 ^ f.eb - 1) * 2 ^ f.mb + 2 ^ (f.mb - 1) else 0x7F

/-- An infinity; for E4M3, which has none, the canonical NaN (R170). -/
def packInf (f : Fmt) (neg : Bool) : Nat := if f.inf then signBit f neg + (2 ^ f.eb - 1) * 2 ^ f.mb else 0x7F

/-- The largest finite value of a sign. -/
def packMax (f : Fmt) (neg : Bool) : Nat :=
  signBit f neg + (if f.inf then (2 ^ f.eb - 1) * 2 ^ f.mb - 1 else 0x7E)

/-- floor(log2(num / den)), for positive num and den. -/
def ratLog2 (num den : Nat) : Int :=
  let l : Int := (Nat.log2 num : Int) - Nat.log2 den
  let ge := if 0 ≤ l then decide (den * 2 ^ l.toNat ≤ num) else decide (den ≤ num * 2 ^ (-l).toNat)
  if ge then l else l - 1

/-- num / den × 2^e at quantum 2^q: a pair whose quotient it is. -/
def atQuantum (num den : Nat) (e q : Int) : Nat × Nat :=
  if q ≤ e then (num * 2 ^ (e - q).toNat, den) else (num, den * 2 ^ (q - e).toNat)

/-- The rounded quotient of a magnitude under a mode of R168 (`srh` is h[31:16] of R169), and whether it is inexact. -/
def roundQuot (rm : Nat) (neg : Bool) (n d srh : Nat) : Nat × Bool :=
  let lo := n / d
  let r := n % d
  let up := match rm with
    | 1 => d ≤ 2 * r
    | 2 => d < 2 * r || (2 * r = d && lo % 2 = 1)
    | 3 => false
    | 4 => !neg
    | 5 => neg
    | _ => decide (srh < r * 65536 / d)
  (if r ≠ 0 && up then lo + 1 else lo, r ≠ 0)

/-- A rounding of R168 toward a format: biased exponent and significand field, inexact, tiny after rounding, overflow. -/
structure Rnd where
  bits : Nat
  inex : Bool
  tiny : Bool
  ovf  : Bool
deriving DecidableEq, Repr

/-- The rounding of ±num/den × 2^e (R168): subnormal spacing below, unbounded exponent above. -/
def roundTo (f : Fmt) (rm : Nat) (neg : Bool) (num den : Nat) (e : Int) (srh : Nat) : Rnd :=
  if num = 0 then ⟨signBit f neg, false, false, false⟩
  else
    let l := ratLog2 num den + e
    let emin : Int := 1 - f.bias
    let q := if l < emin then emin - f.mb else l - f.mb
    let nd := atQuantum num den e q
    let m := roundQuot rm neg nd.1 nd.2 srh
    let nd' := atQuantum num den e (l - f.mb)
    let m' := roundQuot rm neg nd'.1 nd'.2 srh
    let tiny := decide (l < emin) && !(decide (l + 1 = emin) && decide (m'.1 = 2 ^ (f.mb + 1)))
    -- the magnitude in units of the smallest subnormal's field: exponent steps carry by themselves
    let be : Nat := if l < emin then 0 else (l + f.bias).toNat
    let mag := if be = 0 then m.1 else (be - 1) * 2 ^ f.mb + m.1
    let top := if f.inf then (2 ^ f.eb - 1) * 2 ^ f.mb else 2 ^ (f.w - 1) - 1
    ⟨signBit f neg + (if mag < top then mag else 0), m.2, m.2 && tiny, decide (top ≤ mag)⟩

/-- An IEEE 754 result: overflow to infinity or the largest finite value under the mode (R88, R170). -/
def packIeee (f : Fmt) (rm : Nat) (neg : Bool) (r : Rnd) : Nat × Nat :=
  if r.ovf then
    let toInf := match rm with
      | 3 => false
      | 4 => !neg
      | 5 => neg
      | _ => true
    (if toInf then packInf f neg else packMax f neg, fOF + fNX)
  else (r.bits, (if r.inex then fNX else 0) + (if r.tiny then fUF else 0))

/-- NF for an encoding that is an infinity or a NaN (R88, R171). -/
def nfOf (f : Fmt) (x : Nat) : Nat :=
  match unpack f x with
  | .fin .. => 0
  | _ => fNF

/-- A result with NF added where it is not finite. -/
def withNF (f : Fmt) (r : Nat × Nat) : Nat × Nat := (r.1, r.2 ||| nfOf f r.1)

/-- Round and pack a rational. -/
def roundIeee (f : Fmt) (rm : Nat) (neg : Bool) (num den : Nat) (e : Int) : Nat × Nat :=
  packIeee f rm neg (roundTo f rm neg num den e 0)

/-- NV when any operand is a signalling NaN. -/
def sigNV : List FV → Nat
  | [] => 0
  | .nan true :: _ => fNV
  | _ :: r => sigNV r

/-- Whether a value is a NaN. -/
def FV.isNaN : FV → Bool
  | .nan _ => true
  | _ => false

/-- The sign of a value. -/
def FV.neg : FV → Bool
  | .nan _ => false
  | .inf n => n
  | .fin n _ _ => n

/-- A value with its sign inverted. -/
def FV.negate : FV → FV
  | .nan s => .nan s
  | .inf n => .inf !n
  | .fin n m e => .fin (!n) m e

/-- The signed integer m × 2^(e - q), for q ≤ e. -/
def scaled (neg : Bool) (m : Nat) (e q : Int) : Int :=
  let v : Int := (m * 2 ^ (e - q).toNat : Nat)
  if neg then -v else v

/-- The rounded sum of two finite values: an exact zero of operands of unlike signs is +0, and −0 under RDN. -/
def addFin (f : Fmt) (rm : Nat) (n1 : Bool) (m1 : Nat) (e1 : Int) (n2 : Bool) (m2 : Nat) (e2 : Int) : Nat × Nat :=
  let q := if e1 ≤ e2 then e1 else e2
  let x := scaled n1 m1 e1 q + scaled n2 m2 e2 q
  if x = 0 then (signBit f (if n1 = n2 then n1 else rm = 5), 0)
  else roundIeee f rm (decide (x < 0)) x.natAbs 1 q

/-- Addition of values (R87, R88). -/
def addFV (f : Fmt) (rm : Nat) (x y : FV) : Nat × Nat :=
  if x.isNaN || y.isNaN then (canonNaN f, sigNV [x, y])
  else match x, y with
    | .inf a, .inf b => if a = b then (packInf f a, 0) else (canonNaN f, fNV)
    | .inf a, _ => (packInf f a, 0)
    | _, .inf b => (packInf f b, 0)
    | .fin n1 m1 e1, .fin n2 m2 e2 => addFin f rm n1 m1 e1 n2 m2 e2
    | _, _ => (canonNaN f, 0)

/-- The exact product, none when invalid (0 × ∞). -/
def mulFV : FV → FV → Option FV
  | .inf a, .inf b => some (.inf (a != b))
  | .inf a, .fin b m _ => if m = 0 then none else some (.inf (a != b))
  | .fin a m _, .inf b => if m = 0 then none else some (.inf (a != b))
  | .fin a m e, .fin b n g => some (.fin (a != b) (m * n) (e + g))
  | x, _ => some x

/-- round(x + y), round(x − y), round(x × y) (R87). -/
def fpAdd (f : Fmt) (rm x y : Nat) : Nat × Nat := withNF f (addFV f rm (unpack f x) (unpack f y))
/-- Subtraction. -/
def fpSub (f : Fmt) (rm x y : Nat) : Nat × Nat := withNF f (addFV f rm (unpack f x) (unpack f y).negate)

/-- Multiplication. -/
def fpMul (f : Fmt) (rm x y : Nat) : Nat × Nat :=
  let a := unpack f x
  let b := unpack f y
  withNF f <|
    if a.isNaN || b.isNaN then (canonNaN f, sigNV [a, b])
    else match mulFV a b with
      | none => (canonNaN f, fNV)
      | some (.fin n m e) => roundIeee f rm n m 1 e
      | some v => (packInf f v.neg, 0)

/-- Division (R88): a nonzero finite value by zero is an infinity, with DZ. -/
def fpDiv (f : Fmt) (rm x y : Nat) : Nat × Nat :=
  let a := unpack f x
  let b := unpack f y
  let n := a.neg != b.neg
  withNF f <|
    if a.isNaN || b.isNaN then (canonNaN f, sigNV [a, b])
    else match a, b with
      | .inf _, .inf _ => (canonNaN f, fNV)
      | .inf _, _ => (packInf f n, 0)
      | _, .inf _ => (signBit f n, 0)
      | .fin _ m e, .fin _ k g =>
        if k = 0 then (if m = 0 then (canonNaN f, fNV) else (packInf f n, fDZ))
        else roundIeee f rm n m k (e - g)
      | _, _ => (canonNaN f, 0)

/-- floor(√M), its bits settled from bit `n - 1` down. -/
def isqrtFrom (M : Nat) : Nat → Nat → Nat
  | 0, r => r
  | n + 1, r => isqrtFrom M n (if (r + 2 ^ n) * (r + 2 ^ n) ≤ M then r + 2 ^ n else r)

/-- floor(√M). -/
def isqrt (M : Nat) : Nat := isqrtFrom M (Nat.log2 M / 2 + 1) 0

/-- Square root (R88). -/
def fpSqrt (f : Fmt) (rm x : Nat) : Nat × Nat :=
  withNF f <|
    match unpack f x with
    | .nan s => (canonNaN f, if s then fNV else 0)
    | .inf n => if n then (canonNaN f, fNV) else (packInf f false, 0)
    | .fin n m e =>
      if m = 0 then (signBit f n, 0)
      else if n then (canonNaN f, fNV)
      else
        let odd : Nat := (e % 2).toNat
        let M := m * 2 ^ odd * 4 ^ (f.mb + 4)
        let r := isqrt M
        let num := 2 * r + (if r * r = M then 0 else 1)
        roundIeee f rm false num 2 ((e - odd) / 2 - (f.mb + 4))

/-- round(c + a × b), one rounding (R87, R88); `sub` subtracts the product. -/
def fpFma (f : Fmt) (rm c a b : Nat) (sub : Bool) : Nat × Nat :=
  let z := unpack f c
  let x := unpack f a
  let y := unpack f b
  withNF f <|
    match (if x.isNaN || y.isNaN then some x else mulFV x y) with
    | none => (canonNaN f, fNV)
    | some p =>
      if x.isNaN || y.isNaN || z.isNaN then (canonNaN f, sigNV [x, y, z])
      else addFV f rm z (if sub then p.negate else p)

/-- x < y of values that are not NaNs. -/
def ltFV : FV → FV → Bool
  | .inf a, .inf b => a && !b
  | .inf a, _ => a
  | _, .inf b => !b
  | .fin n1 m1 e1, .fin n2 m2 e2 =>
    let q := if e1 ≤ e2 then e1 else e2
    decide (scaled n1 m1 e1 q < scaled n2 m2 e2 q)
  | _, _ => false

/-- x = y of values that are not NaNs; −0 = +0. -/
def eqFV (x y : FV) : Bool := !x.isNaN && !y.isNaN && !ltFV x y && !ltFV y x

/-- FMIN and FMAX (R87): −0 orders below +0; one NaN gives the other operand, two the canonical NaN. -/
def fpMinMax (f : Fmt) (max : Bool) (x y : Nat) : Nat × Nat :=
  let a := unpack f x
  let b := unpack f y
  let r :=
    if a.isNaN && b.isNaN then canonNaN f
    else if a.isNaN then y
    else if b.isNaN then x
    else
      let lt := ltFV a b || (eqFV a b && a.neg && !b.neg)
      if lt = max then y else x
  withNF f (r, sigNV [a, b])

/-- The compares: 0 eq, 1 lt, 2 le; quiet for eq, signalling for the others (R87, R124). -/
def fpCmp (f : Fmt) (op x y : Nat) : Bool × Nat :=
  let a := unpack f x
  let b := unpack f y
  if a.isNaN || b.isNaN then (false, if op = 0 then sigNV [a, b] else fNV)
  else (match op with
    | 0 => eqFV a b
    | 1 => ltFV a b
    | _ => ltFV a b || eqFV a b, 0)

/-- The float compares of VFCMP (R124). -/
def fcondHolds (f : Fmt) (c : FCond) (x y : Nat) : Bool × Nat :=
  match c with
  | .eq => fpCmp f 0 x y
  | .ne => (!(fpCmp f 0 x y).1, (fpCmp f 0 x y).2)
  | .lt => fpCmp f 1 x y
  | .le => fpCmp f 2 x y
  | .unord => ((unpack f x).isNaN || (unpack f y).isNaN, sigNV [unpack f x, unpack f y])

/-- The class word of R89. -/
def fpClass (f : Fmt) (x : Nat) : Nat :=
  let sgn := fld x (f.w - 1) 1 * 128
  match unpack f x with
  | .nan s => sgn + (if s then 32 else 16)
  | .inf _ => sgn + 8
  | .fin _ m e =>
    if m = 0 then sgn + 64 + 1
    else if m < 2 ^ f.mb then sgn + 2
    else sgn + 4 + (if 0 ≤ e || m % 2 ^ (-e).toNat = 0 then 64 else 0)

/-- A finite value rounded to an integer (R87, R170), and whether it is inexact. -/
def roundInt (rm : Nat) (neg : Bool) (m : Nat) (e : Int) (srh : Nat) : Int × Bool :=
  let nd := atQuantum m 1 e 0
  let q := roundQuot rm neg nd.1 nd.2 srh
  (if neg then -(q.1 : Int) else q.1, q.2)

/-- A float converted to an integer of `lo .. hi`: clamped with NV, NaN to 0 with NV, else NX when inexact. -/
def fpToInt (f : Fmt) (rm x : Nat) (lo hi : Int) (srh : Nat) : Int × Nat :=
  match unpack f x with
  | .nan _ => (0, fNV)
  | .inf n => (if n then lo else hi, fNV)
  | .fin n m e =>
    let r := roundInt rm n m e srh
    if r.1 < lo then (lo, fNV) else if hi < r.1 then (hi, fNV) else (r.1, if r.2 then fNX else 0)

/-- An integer rounded to a format (FCVT.F). -/
def fpOfInt (f : Fmt) (rm : Nat) (x : Int) : Nat × Nat :=
  withNF f (roundIeee f rm (decide (x < 0)) x.natAbs 1 0)

/-- A value converted to another format (FCVT.X): a NaN is made canonical, with NV when it was signalling. -/
def fpConv (f g : Fmt) (rm x : Nat) : Nat × Nat :=
  withNF g <|
    match unpack f x with
    | .nan s => (canonNaN g, if s then fNV else 0)
    | .inf n => (packInf g n, 0)
    | .fin n m e => roundIeee g rm n m 1 e

/-! Stochastic rounding and VRAND's generator (R133, R169). -/

/-- mix32 of R133, mod 2^32. -/
def mix32 (x0 : Nat) : Nat :=
  let x := x0 % 2 ^ 32
  let x := x ^^^ (x / 2 ^ 16)
  let x := x * 0x7FEB352D % 2 ^ 32
  let x := x ^^^ (x / 2 ^ 15)
  let x := x * 0x846CA68B % 2 ^ 32
  x ^^^ (x / 2 ^ 16)

/-- The 32-bit random value of element `i` under key `k` (R133, R169). -/
def randAt (seed vbase k i : Nat) : Nat :=
  let c := (fld seed 0 32 + (fld seed 32 32 ^^^ k) * 0x9E3779B9) % 2 ^ 32
  mix32 (((vbase + i) % 2 ^ 32 + c) % 2 ^ 32)

/-- h[31:16] of R169 for a destination code. -/
def srBits (seed vbase f i : Nat) : Nat := randAt seed vbase (0x53520000 + f) i / 65536

/-! VCVT's conversions (R170, R172, R173). -/

/-- The result of a conversion: bits, flags, and whether the element clipped or saturated (CLIPCNT). -/
structure Cv where
  bits : Nat
  flags : Nat
  clip : Bool
deriving DecidableEq, Repr

/-- A finite value into a float format: saturated with CL, or under NS by IEEE 754 overflow and, for E4M3, NaN (R170). -/
def finToFloat (g : Fmt) (rm : Nat) (ns : Bool) (neg : Bool) (num den : Nat) (e : Int) (srh : Nat) : Cv :=
  let r := roundTo g rm neg num den e srh
  if r.ovf then
    if ns then
      let p := packIeee g rm neg r
      if g.inf then ⟨p.1, p.2 ||| nfOf g p.1, false⟩ else ⟨canonNaN g, fOF + fNX + fNF, false⟩
    else ⟨packMax g neg, fCL + fNX, true⟩
  else ⟨r.bits, (if r.inex then fNX else 0) + (if r.tiny then fUF else 0), false⟩

/-- An infinity into a float format (R170). -/
def infToFloat (g : Fmt) (ns neg : Bool) : Cv :=
  if g.inf then ⟨packInf g neg, fNF, false⟩
  else if ns then ⟨canonNaN g, fNF, false⟩ else ⟨packMax g neg, fCL, true⟩

/-- A value into a float format. -/
def valToFloat (g : Fmt) (rm : Nat) (ns : Bool) (v : FV) (srh : Nat) : Cv :=
  match v with
  | .nan s => ⟨canonNaN g, (if s then fNV else 0) + fNF, false⟩
  | .inf n => infToFloat g ns n
  | .fin n m e => finToFloat g rm ns n m 1 e srh

/-- The integer range of a code 0x0 to 0x7 (R158). -/
def intRange (code : Nat) : Int × Int :=
  let w := 8 * 2 ^ (code % 4)
  if code < 4 then (-(2 ^ (w - 1) : Nat), (2 ^ (w - 1) : Nat) - 1) else (0, (2 ^ w : Nat) - 1)

/-- The value of an integer element of a code. -/
def intVal (code x : Nat) : Int :=
  let w := 8 * 2 ^ (code % 4)
  if code < 4 then sextN x w else ((x % 2 ^ w : Nat) : Int)

/-- Conversion of one element from code `src` to code `dst` (R170, R173). A float clamped to an integer's range raises CL
beside NV, being a clamp (R171; assumption 68). -/
def convertElem (src dst rm : Nat) (ns : Bool) (x srh : Nat) : Cv :=
  let dw := 8 * fmtBytes' dst
  if dst < 8 then
    let rg := intRange dst
    if src < 8 then
      let v := intVal src x
      if rg.1 ≤ v ∧ v ≤ rg.2 then ⟨intBits v dw, 0, false⟩
      else if ns then ⟨intBits v dw, 0, false⟩
      else ⟨intBits (if v < rg.1 then rg.1 else rg.2) dw, fCL, true⟩
    else
      let r := fpToInt (fmtOfCode src) rm x rg.1 rg.2 srh
      ⟨intBits r.1 dw, r.2 ||| (if fld r.2 4 1 = 1 && !(unpack (fmtOfCode src) x).isNaN then fCL else 0), false⟩
  else
    let g := fmtOfCode dst
    if src < 8 then
      let v := intVal src x
      finToFloat g rm ns (decide (v < 0)) v.natAbs 1 0 srh
    else if src = dst then
      let v := unpack g x
      if v.isNaN then ⟨canonNaN g, sigNV [v] + fNF, false⟩ else ⟨x, nfOf g x, false⟩
    else valToFloat g rm ns (unpack (fmtOfCode src) x) srh
where
  /-- Width in bytes of an element code (R158). -/
  fmtBytes' (code : Nat) : Nat :=
    if code < 8 then 2 ^ (code % 4) else if code < 10 then 2 else if code = 10 then 4 else if code = 11 then 8 else 1

/-! C4 codes (R162, R163) and T8. -/

/-- The integer form of a code's grid value under a type, and the exponent step it carries: the value is n × 2^-k (R163). -/
def c4Int (t code : Nat) : Int × Nat :=
  let mag := code % 8
  let sg (v : Nat) : Int := if code < 8 then (v : Int) else -(v : Int)
  match t with
  | 0 => (sextN code 4, 0)
  | 1 => (sg ([0, 1, 2, 3, 4, 6, 8, 12].getD mag 0), 1)
  | 2 => (sg (if mag = 0 then 0 else 2 ^ (mag - 1)), 3)
  | _ => (sg ([0, 1, 2, 3, 4, 6, 8, 12].getD mag 0), 0)

/-- The value of a C4 code under its scale byte (R162, R163). -/
def c4Val (scale code : Nat) : FV :=
  if scale % 64 = 63 then .nan false
  else
    let g := c4Int (scale / 64 % 4) code
    .fin (decide (g.1 < 0)) g.1.natAbs ((scale % 64 : Nat) - 32 - (g.2 : Int))

/-- The magnitudes of a type's codes in integer form, in code order; M− and M+ (R163). -/
def c4Max (t : Nat) (neg : Bool) : Nat :=
  match t with
  | 0 => if neg then 8 else 7
  | 1 => 12
  | 2 => 64
  | _ => 12

/-- The code of grid magnitude `v` (integer form) and sign under a type; zero is coded 0 (R175). -/
def c4Code (t : Nat) (neg : Bool) (v : Nat) : Nat :=
  if v = 0 then 0
  else if t = 0 then (if neg then 16 - v else v) % 16
  else
    let ix := if t = 2 then Nat.log2 v + 1 else ([0, 1, 2, 3, 4, 6, 8, 12].findIdx? (· = v)).getD 0
    ix + (if neg then 8 else 0)

/-- The grid magnitudes of a type in integer form, rising (R163). -/
def c4Grid (t : Nat) : List Nat :=
  match t with
  | 0 => [0, 1, 2, 3, 4, 5, 6, 7, 8]
  | 2 => [0, 1, 2, 4, 8, 16, 32, 64]
  | _ => [0, 1, 2, 3, 4, 6, 8, 12]

/-- The element of a rising list that brackets n/d from below, and the next. -/
def bracket (n d : Nat) : List Nat → Nat → Nat × Nat
  | [], lo => (lo, lo)
  | x :: r, lo => if x * d ≤ n then bracket n d r x else (lo, x)

/-- A magnitude n/d rounded to a rising grid under RNA or SR (R168, R169). -/
def roundGrid (rm : Nat) (grid : List Nat) (n d srh : Nat) : Nat :=
  let b := bracket n d grid 0
  if b.1 * d = n ∨ b.1 = b.2 then b.1
  else if rm = 6 then (if srh < (n - b.1 * d) * 65536 / ((b.2 - b.1) * d) then b.2 else b.1)
  else if b.2 * d - n ≤ n - b.1 * d then b.2 else b.1

end Sys2Proof.Machine
end

