-- ==== Sys2Proof/Machine/EngMove.lean ====
section
/-! DEFINITION. How a copy command moves its bytes (R272 to R277), unit by unit in progress order, with its byte-count
barrier additions (R261, R277), and what an abandoned command leaves (R280). -/

namespace Sys2Proof.Machine

open Sys2Proof

/-- How a move ended: performed, an engine error code (R278), a held fault (R279), or a wait. -/
inductive Mv (α : Type)
  | ok (a : α)
  | err (code : BitVec 8)
  | flt (f : Flt)
  | wait

/-- An access's end as a move's: PFLT and WALK are held, the other faults are errors (R278, R279). -/
def Acc.mv : Acc → Mv (State × Nat)
  | .ok s v _ => .ok (s, v)
  | .wait _ => .wait
  | .fault f _ =>
    match f.cause with
    | 0x0A => .err 0x03
    | 0x0B => .err 0x02
    | 0x0C => .err 0x04
    | 0x11 => .err 0x05
    | _ => .flt f

/-- A move, then another from where it ended. -/
def Mv.bind {α β : Type} : Mv α → (α → Mv β) → Mv β
  | .ok a, g => g a
  | .err c, _ => .err c
  | .flt f, _ => .flt f
  | .wait, _ => .wait

/-- A transform may not touch a Sepia stash page (R275). -/
def sepiaOk (op : Nat) : Place → Bool
  | .xl x => op = 0 || x.cmp ≠ 2
  | _ => true

/-- The engine of core `k` reads `n` bytes from `va` upward, each byte one access. -/
def engRead (k : Fin 96) (hint op : Nat) (fifo : Bool) : (n va : Nat) → State → Mv (State × Nat)
  | 0, _, s => .ok (s, 0)
  | n + 1, va, s =>
    (access s k false false .e hint .r true fifo va 1 (sepiaOk op) fun _ => none).mv.bind fun r =>
      (engRead k hint op fifo n (if fifo then va else addrAdd va 1) r.1).bind fun q => .ok (q.1, r.2 + 256 * q.2)

/-- The engine of core `k` writes the low `n` bytes of `v` from `va` upward, each byte one access. -/
def engWrite (k : Fin 96) (hint op : Nat) (fifo : Bool) : (n va v : Nat) → State → Mv State
  | 0, _, _, s => .ok s
  | n + 1, va, v, s =>
    (access s k false false .e hint .w false fifo va 1 (sepiaOk op) fun _ => some (v % 256)).mv.bind fun r =>
      engWrite k hint op fifo n (if fifo then va else addrAdd va 1) (v / 256) r.1

/-- The key at which a multicast's byte for LOCAL address `a` lands on a core, if it lies in the scratchpad there (R275). -/
def mcKey (s : State) (target a : Nat) : Option Nat :=
  if a < localBase then none
  else match windowPlace s target (a - localBase) 1 false a with
    | .ok (.bank _ _ key) => some key
    | _ => none

/-- `n` bytes delivered at a LOCAL address of another core under a multicast (R275). -/
def mcWrite (target : Nat) : (n a v : Nat) → State → Mv State
  | 0, _, _, s => .ok s
  | n + 1, a, v, s =>
    match mcKey s target a with
    | some key => mcWrite target n (addrAdd a 1) (v / 256) (s.writeKey key 1 (v % 256))
    | none => .err 0x04

/-- A contribution to a barrier object (R260, R261): none when its STATE is malformed, else the new object. The other fields,
the reserved bits among them, stay. -/
def contribute (old c : Nat) : Option Nat :=
  let st := fld old 64 16
  if 2 < st then none
  else if st = 2 then some old
  else
    let cur := if fld old 32 32 + c < 2 ^ 32 then fld old 32 32 + c else 2 ^ 32 - 1
    let st' := if st = 0 ∧ fld old 0 32 ≤ cur then 1 else st
    some (fld old 0 32 + cur * 2 ^ 32 + st' * 2 ^ 64 + fld old 80 48 * 2 ^ 80)

/-- Where a barrier object may lie (R260, R261). -/
def barrierPlace : Place → Bool
  | .xl x => x.tier ≠ 2
  | _ => false

/-- A contribution as a memory function: nothing is written to a failed or malformed object. -/
def contribFn (c old : Nat) : Option Nat :=
  if fld old 64 16 = 2 then none else contribute old c

/-- An engine's contribution of `c` bytes at BADDR (R277): a malformed object is error BARRIER. -/
def engContribute (k : Fin 96) (baddr c : Nat) (s : State) : Mv State :=
  if baddr = 0 then .ok s
  else
    (access s k false false .e 0 .w true false baddr 16 barrierPlace (contribFn c)).mv.bind fun r =>
      if (contribute r.2 c).isNone then .err 0x06 else .ok r.1

/-- The decoded value of a T8 element (R178). -/
def t8Val (ct absmax : Nat) : FV :=
  let a := unpack fmt32 ct
  let b := unpack fmt32 absmax
  if a.isNaN || b.isNaN then .nan false else (mulFV a b).getD (.nan false)

/-- The value of unit `u` of a command, its source read (R272, R273). -/
def unitValue (k : Fin 96) (c : Cmd) (u : Nat) (s : State) : Mv (State × Nat) :=
  let h := fld c.flg 0 2
  match c.op with
  | 1 =>
    let per := c.run / fmtBytes c.df
    (engRead k h 1 false (fmtBytes c.sf) (c.srcRun (u / per) (u % per * fmtBytes c.sf)) s).bind fun r =>
      .ok (r.1, (convertElem c.sf c.df c.rm c.ns r.2 0).bits)
  | 2 =>
    (engRead k h 2 false 1 (addrAdd c.src (u / 2 : Nat)) s).bind fun r =>
      (engRead k h 2 false 1 (addrAdd (intBits c.s1 64) (u / 48 : Nat)) r.1).bind fun q =>
        .ok (q.1, (valToFloat (fmtOfCode c.df) c.rm c.ns (c4Val q.2 (fld r.2 (u % 2 * 4) 4)) 0).bits)
  | 3 =>
    (engRead k h 3 false 1 (addrAdd c.src (u : Int)) s).bind fun r =>
      (engRead k h 3 false 4 (addrAdd (intBits c.s1 64) (4 * (u / 2048) : Nat)) r.1).bind fun q =>
        (engRead k h 3 false 4 (addrAdd (intBits c.s2 64) (4 * r.2 : Nat)) q.1).bind fun t =>
          .ok (t.1, (valToFloat (fmtOfCode c.df) c.rm c.ns (t8Val t.2 q.2) 0).bits)
  | op => if inPort c.src then engRead k h op true 1 c.src s else engRead k h op false 1 (c.srcAt u) s

/-- The cores a command delivers to under a multicast: those its launch's selected strands are placed on as it delivers (R275). -/
def mcTargets (s : State) (k : Fin 96) (c : Cmd) : List Nat :=
  match (s.core k).strand with
  | none => []
  | some st =>
    match s.launch? st.part st.launch with
    | none => []
    | some l => (((List.range l.cores.length).filter c.selects).map fun i => l.cores.getD i 0).filter (s.sameLaunch (some st))

/-- The bytes of one unit delivered: to the destination, or to each core of a multicast, each counted at the barrier
after it has performed (R277). -/
def unitDeliver (k : Fin 96) (c : Cmd) (u v : Nat) (s : State) : Mv State :=
  let da := c.dstAt (u * c.unit)
  if c.mcast = 0 then
    (engWrite k (fld c.flg 2 2) c.op (inPort c.dst) c.unit (if inPort c.dst then c.dst else da) v s).bind fun s =>
      engContribute k c.baddr c.unit s
  else
    (mcTargets s k c).foldl (fun m t => m.bind fun s =>
      (mcWrite t c.unit da v s).bind fun s => engContribute k c.baddr c.unit s) (.ok s)

/-- The value of unit `u`: the one read ahead, else read now; and what is read ahead of the next. -/
def takeUnit (k : Fin 96) (c : Cmd) (u : Nat) (ahead : List Nat) (s : State) : Mv (State × Nat) :=
  match ahead with
  | v :: _ => .ok (s, v)
  | [] => unitValue k c u s

/-- One unit of a command read, transformed, delivered and counted, or nothing of it (assumption 9); and its value. -/
def moveUnit (k : Fin 96) (c : Cmd) (u : Nat) (ahead : List Nat) (s : State) : Mv (State × Nat) :=
  (takeUnit k c u ahead s).bind fun r => (unitDeliver k c u r.2 r.1).bind fun t => .ok (t, r.2)

/-- A byte left at an address, in a list of rising addresses. -/
def leaveByte (a : Nat) (b : Byte) : List (Nat × Byte) → List (Nat × Byte)
  | [] => [(a, b)]
  | x :: r => if a < x.1 then (a, b) :: x :: r else if a = x.1 then (a, b) :: r else x :: leaveByte a b r

/-- The bytes of `v`, of unit `u`, left at their destination (R277). -/
def Cmd.leave (c : Cmd) (u v : Nat) (l : List (Nat × Byte)) : List (Nat × Byte) :=
  if c.caddr = 0 then l
  else (List.range c.unit).foldl (fun l (b : Nat) => leaveByte (addrAdd (c.dstAt (u * c.unit)) b) (.ofNat 8 (v / 256 ^ b)) l) l

/-- Up to `n` units from unit `u`: the units moved, what stays read ahead, what is left, the state, and how the next ended. -/
def moveUnits (k : Fin 96) (c : Cmd) (last : Nat) : (n u : Nat) → List Nat → List (Nat × Byte) → State →
    Nat × List Nat × List (Nat × Byte) × State × Mv Unit
  | 0, u, ah, l, s => (u, ah, l, s, .ok ())
  | n + 1, u, ah, l, s =>
    if last ≤ u then (u, ah, l, s, .ok ())
    else match moveUnit k c u ah s with
      | .ok r => moveUnits k c last n (u + 1) ah.tail (c.leave u r.2 l) r.1
      | .err e => (u, ah, l, s, .err e)
      | .flt f => (u, ah, l, s, .flt f)
      | .wait => (u, ah, l, s, .wait)

/-- Up to `n` further units read ahead, from unit `u` (R236: the reads of a command need not await its writes). A FIFO's
bytes are popped only as they are delivered. -/
def readAhead (k : Fin 96) (c : Cmd) (last : Nat) : (n u : Nat) → State → List Nat × State
  | 0, _, s => ([], s)
  | n + 1, u, s =>
    if last ≤ u || inPort c.src then ([], s)
    else match unitValue k c u s with
      | .ok (s, v) =>
        let r := readAhead k c last n (u + 1) s
        (v :: r.1, r.2)
      | _ => ([], s)

/-- A command saved at a pre-emption first delivers what it has read ahead, as far as it can (R281). -/
def finishAhead (k : Fin 96) (s : State) (e : EngEntry) : State × EngEntry :=
  let c := parseCmd e.blk
  if e.marker || e.ahead.isEmpty then (s, e)
  else
    let r := moveUnits k c (c.total / c.unit) e.ahead.length (e.progress / c.unit) e.ahead e.left s
    (r.2.2.2.1, { e with progress := r.1 * c.unit, ahead := [], left := r.2.2.1 })

/-- The units of an abandoned command that were not counted as progress: each holds its old bytes, or the bytes the
command would have written, a free value saying which (R280). FIFOs and barriers keep what they hold. -/
def abandonUnits (k : Fin 96) (c : Cmd) : (n u : Nat) → List Nat → State → State
  | 0, _, _, s => s
  | n + 1, u, ah, s =>
    let r := s.free Config.abandonedByteNew
    let s' := if r.1 then
        (match moveUnit k { c with baddr := 0 } u ah r.2 with
         | .ok t => t.1
         | _ => r.2)
      else r.2
    abandonUnits k c n (u + 1) ah.tail s'

/-- What an abandoned entry leaves (R280). One that still follows vector accesses has performed nothing (R236). -/
def abandonEntry (k : Fin 96) (s : State) (e : EngEntry) : State :=
  if e.marker || 0 < e.w then s
  else
    let c := parseCmd e.blk
    if inPort c.src || inPort c.dst then s
    else abandonUnits k c (c.total / c.unit - e.progress / c.unit) (e.progress / c.unit) e.ahead s

/-- Where the entries of a context let its timeline stand: the largest n all of whose entries have completed, held below the first
abandoned entry in error state (R267, R278). -/
def EngCtx.reach (g : EngCtx) : Nat :=
  let lowest := g.entries.foldl (fun m e => if e.no ≤ m then e.no - 1 else m) g.last.toNat
  if g.err.isSome && g.errNo ≠ 0 && g.errNo ≤ lowest then g.errNo - 1 else lowest

/-- The timeline of a context moved on, never falling (R267, R278). -/
def EngCtx.advance (g : EngCtx) : EngCtx := { g with tl := if g.tl.toNat < g.reach then .ofNat 64 g.reach else g.tl }

/-- The state with an engine context of a core changed. -/
def State.updEng (s : State) (k : Fin 96) (i : Fin 4) (f : EngCtx → EngCtx) : State :=
  s.updCore k fun c => { c with eng := c.eng.set i (f c.eng[i]) }

/-- The lower of two entry numbers, 0 standing for none. -/
def lowerNo (a b : Nat) : Nat := if a = 0 then b else if b = 0 then a else min a b

/-- A context's entries numbered `no` or more are abandoned and it enters error state, keeping an earlier code (R269, R278);
the timeline stays below every entry abandoned while the error state lasts (R286). -/
def abandonFrom (s : State) (k : Fin 96) (i : Fin 4) (no : Nat) (code : BitVec 8) : State :=
  let g := (s.core k).eng[i]
  let gone := g.entries.filter fun e => no ≤ e.no
  let s := gone.foldl (abandonEntry k) s
  let first := gone.foldl (fun m e => lowerNo m e.no) 0
  let s := s.updEng k i fun g =>
    let g := { g with entries := g.entries.filter fun e => !(no ≤ e.no) }
    { g with err := some (g.err.getD code), errNo := lowerNo (if g.err.isSome then g.errNo else 0) first }.advance
  if (s.core k).efaultNo.any fun n => fld (s.core k).efault.toNat 58 2 = i.val && no ≤ n then
    s.updCore k fun c => { c with efault := 0, efaultNo := none }
  else s

/-- Every context of a core is aborted as by CPYABORT (R46, R227, R312). -/
def abortAll (s : State) (k : Fin 96) : State :=
  ([0, 1, 2, 3] : List (Fin 4)).foldl (fun s i => abandonFrom s k i 0 0x07) s

end Sys2Proof.Machine
end

