-- ==== Sys2Proof/Machine/Launch.lean ====
section
/-! DEFINITION. Launches as the scheduler holds them: queue descriptors (R288, R289), completion (R41, R294), cancellation
(R46), and the reset of a partition with the start of its firmware (R312, R323). -/

namespace Sys2Proof.Machine

open Sys2Proof

/-- Whether the partition's queue table reaches descriptor `q` (R288). One beyond its tier, which a resize can leave (R313), is no
descriptor: its queue is as one disabled (assumption 86). -/
def Partition.descOk (p : Partition) (q : Nat) : Bool :=
  let tier := fld p.qtbase.toNat 8 2
  q < 65536 && tier < 2 && fld p.qtbase.toNat 16 26 * 65536 + 64 * q + 63 < tierSize p.n tier

/-- The key of offset `off` of descriptor `q` (R288). -/
def Partition.descKey (p : Partition) (q off : Nat) : Nat :=
  tierKey p.first (fld p.qtbase.toNat 8 2) (fld p.qtbase.toNat 16 26 * 65536 + 64 * q + off)

/-- A doubleword of a descriptor (R289). -/
def descRead (s : State) (p : Partition) (q off : Nat) : Nat := s.readKey (p.descKey q off) 8

/-- The first of some doublewords of a descriptor that is poisoned, by its offset in the tier (R288, R326; assumption 79). -/
def descPois (s : State) (p : Partition) (q : Nat) (offs : List Nat) : Option Nat :=
  (offs.find? fun o => s.poisonedAt (p.descKey q o) 8).map fun o => fld p.qtbase.toNat 16 26 * 65536 + 64 * q + o

/-- Whether ERR of a queue holds back its counter accesses (R294): it is nonzero, or poisoned. -/
def errHolds (s : State) (p : Partition) (q : Nat) : Bool := descRead s p q 0x20 ≠ 0 || (descPois s p q [0x20]).isSome

/-- A doubleword of a descriptor written, at its home slice. -/
def descWrite (s : State) (p : Partition) (q off v : Nat) : State :=
  (s.touchPresent (p.descKey q off)).writeKey (p.descKey q off) 8 v

/-- ERR and FADR of a queue set for a failed access; the queue stops (R289, R291, R294). -/
def setErr (s : State) (p : Partition) (q : Nat) (f : Flt) (counter : Bool) : State :=
  descWrite (descWrite s p q 0x20 (f.cause + counter.toNat * 256)) p q 0x28 f.addr

/-- The increment of a counter (R41). -/
def incrCtr (mark : Bool) (old : Nat) : Nat :=
  (if mark ∨ fld old 63 1 = 1 then 2 ^ 63 else 0) + (old % 2 ^ 63 + 1) % 2 ^ 63

/-- The increments of a completion, in order, until one is held (R41, R294). -/
def drainPend (part q : Nat) (ptb : Dword) (mark : Bool) : List Dword → State → State × List Dword
  | [], s => (s, [])
  | a :: r, s =>
    match s.part? part with
    | none => (s, [])
    | some p =>
      if a = 0 then drainPend part q ptb mark r s
      else if p.descOk q ∧ errHolds s p q then (s, a :: r)
      else match schedAccess s p ptb a.toNat (some (incrCtr mark)) with
        | .ok (_, s) => drainPend part q ptb mark r s
        | .error f => (if p.descOk q then setErr s p q f true else s, a :: r)

/-- The pending increments of a completed launch are made; the scheduler forgets it once none is left. -/
def makeIncrements (s : State) (part l : Nat) : State :=
  match s.launch? part l with
  | none => s
  | some x =>
    let r := drainPend part x.q x.ptb x.mark x.pend s
    r.1.updPart part fun p =>
      if r.2 = [] then { p with launches := p.launches.filter (·.id ≠ l) }
      else p.updLaunch l fun y => { y with pend := r.2 }

/-- complete(rec, mark) of R41: the launch, graph and job counters, in this order. A counter address that is not a
multiple of 8 belongs to an invalid record and is skipped (R296). -/
def complete (s : State) (part l : Nat) (mark : Bool) : State :=
  makeIncrements (s.updLaunch part l fun x =>
    { x with st := .done, mark, pend := [x.field 0x40, x.field 0x48, x.field 0x50].filter fun a => a.toNat % 8 = 0,
             cores := [], imgs := [], inPlace := [] }) part l

/-- Whether a page of a save area satisfies R224's conditions: writable, so not stable, with CMP none, and to its last byte in the
GDDR-7 or LPDDR-6 tier. -/
def savePage (s : State) (p : Partition) (ptb : Dword) (va : Nat) : Bool :=
  let fits (b : Nat) : Bool := match translateSched s p ptb .w b with
    | .ok x => x.tier < 2 && x.cmp = 0
    | .error _ => false
  fits va && fits (va + 65535)

/-- Whether a save area satisfies R224's conditions on its pages. -/
def saveOk (s : State) (p : Partition) (ptb : Dword) (base : Nat) : Bool :=
  base % 65536 = 0 && (List.range 116).all fun j => savePage s p ptb (base + 65536 * j)

/-- Whether a page of memory has a present line that another CMP filled: an access to it traps ATTRC (R214 step 8). -/
def State.otherClass (s : State) (key : Nat) : Bool :=
  s.l2.any fun l => key ≤ l.line && l.line < key + 65536 && l.cmp ≠ 0

/-- A gang's size (R295). -/
def Launch.size (l : Launch) : Nat := (l.field 0x18).toNat % 65536

/-- Every strand of the launch has retired HALT: it has completed (R41). -/
def Launch.allHalted (l : Launch) : Bool := (List.range l.size).all l.halted.contains

/-- The save area of strand `i` of a launch (R295). -/
def Launch.saveBase (l : Launch) (i : Nat) : Nat := addrAdd (l.field 0x10).toNat (i * Config.saveBytes : Nat)

/-- An ERET that was draining the strand's queue ends: it retires, and the strand stands at its `trap 0` (R222). -/
def Core.endDrain (c : Core) : Core :=
  match c.strand with
  | some st =>
    if st.run = .draining then
      { c with mordant := c.mordant.advance, fcause := c.fcause &&& ~~~(0x200#64),
               user := Ctx.refetch { c.user with pc := st.selfPc.getD c.user.pc },
               strand := some { st with run := .running, selfPc := none } }
    else c
  | none => c

/-- The record of a cancellation in a strand's save area, skipped whole where a write would fault (R46 step 4); a PC that cannot be read
is not written, and what stands there, a free value, stays (assumption 80). -/
def cancelRecord (s : State) (p : Partition) (l : Launch) (i : Nat) (pc : Option Dword) : State :=
  let b := l.saveBase i
  if saveOk s p l.ptb b then
    match schedStores p l.ptb ([(b + 0x198, 0x14), (b + 0x1A0, 0)] ++ pc.toList.map fun d => (b + 0x1A8, d.toNat)) s with
    | .error _ => s
    | .ok t => t
  else s

/-- A core its strand has left: nothing is placed, no trap is held (R46), its engine contexts are idle. -/
def Core.vacate (c : Core) : Core :=
  { c with strand := none, user := .reset, fcause := c.fcause &&& ~~~(0x200#64), eng := Vector.replicate 4 .reset,
           efault := 0, efaultNo := none, engOff := false, yieldTo := 0, l1 := [] }

/-- A running strand of a cancelled launch stops (R46 steps 2 to 4); one that has retired HALT only leaves, with no record
(assumption 80). -/
def cancelStrand (s : State) (p : Partition) (l : Launch) (i : Nat) : State :=
  let k := coreId (l.cores.getD i 0)
  match (s.core k).strand with
  | none => s
  | some st =>
    if st.part = p.first ∧ st.launch = l.id then
      let s := abortAll (s.updCore k Core.endDrain) k
      let s := if st.run = .halted then s else cancelRecord s p l i (some (s.core k).user.pc)
      s.updCore k Core.vacate
    else s

/-- A page of memory is about to be written: present lines rise (R235). -/
def State.raisePage (s : State) (key : Nat) : State :=
  { s with l2 := s.l2.map fun l =>
      if key ≤ l.line && l.line < key + 65536 then s.dirtied l else l }

/-- `n` bytes of memory from a key take free values. -/
def scramble (key : Nat) : Nat → State → State
  | 0, s => s
  | n + 1, s =>
    let r := s.free Config.cancelledSaveByte
    scramble key n (r.2.writeKey (key + n) 1 r.1.toNat)

/-- The save area of a strand whose image is written, its launch cancelled while swapped out, or while it is being swapped out (assumption
13): its contents are undefined, but for the record (R46), which names the image's PC, of a strand that has retired HALT too (assumption
80). -/
def cancelSwapped (s : State) (p : Partition) (l : Launch) (i : Nat) : State :=
  let b := l.saveBase i
  if saveOk s p l.ptb b then
    let pc : Option Dword := match schedAccess s p l.ptb (b + 0x100) none with
      | .ok (v, _) => some (.ofNat 64 v)
      | .error _ => none
    let s := (List.range 116).foldl (fun s j =>
      match translateSched s p l.ptb .w (b + 65536 * j) with
      | .ok x => scramble x.key 65536 ((s.rawRange x.key (x.key + 65536)).raisePage x.key)
      | .error _ => s) s
    cancelRecord s p l i pc
  else s

/-- Strand `i` of a cancelled launch: stopped where it is placed, else, its image written, cancelled as swapped out, also where the launch is
still being swapped out (assumption 13). -/
def cancelOne (s : State) (p : Partition) (l : Launch) (i : Nat) : State :=
  match (s.core (coreId (l.cores.getD i 0))).strand with
  | some st =>
    if i < l.cores.length ∧ st.part = p.first ∧ st.launch = l.id ∧ st.idx = i then cancelStrand s p l i
    else cancelSwapped s p l i
  | none => cancelSwapped s p l i

/-- Cancellation of a launch (R46): strands stop, engines abort, the record is written, the counters are marked. A
completed launch is not affected, and one whose strands have all retired HALT has completed (R41). -/
def cancelLaunch (s : State) (part l : Nat) : State :=
  match s.part? part, s.launch? part l with
  | some p, some x =>
    let stopped := (List.range x.size).foldl (fun s i => cancelOne s p x i) s
    match x.st with
    | .done => s
    | .waiting => complete s part l true
    | .ready => complete s part l true
    | .swapped => complete stopped part l true
    | .running => if x.allHalted then s else complete stopped part l true
    | .swapping => complete stopped part l true
  | _, _ => s

/-- The launch of the strand placed on a core is cancelled (R45, R222). -/
def cancelOn (s : State) (k : Fin 96) : State :=
  match (s.core k).strand with
  | some st => cancelLaunch s st.part st.launch
  | none => s

/-- The key of the partition's firmware gigabyte, the highest of its LPDDR-6 tier (R323). -/
def Partition.fwKey (p : Partition) : Nat := tierKey p.first 1 (p.n * Config.lpddrSlice - 1000000000)

/-- The LPDDR-6 offsets of the two page-table nodes of the firmware gigabyte (R323, assumption 12): its last two pages, the root
last. -/
def Partition.fwRoot (p : Partition) : Nat := p.n * Config.lpddrSlice - 65536
/-- The second-level node. -/
def Partition.fwNode (p : Partition) : Nat := p.n * Config.lpddrSlice - 131072

/-- The 512 MiB blocks that the firmware gigabyte meets, by number. -/
def Partition.fwBlocks (p : Partition) : List Nat :=
  let lo := (p.n * Config.lpddrSlice - 1000000000) / 2 ^ 29
  [lo, lo + 1, lo + 2].filter fun b => b * 2 ^ 29 < p.n * Config.lpddrSlice

/-- A page of zeros in the LPDDR-6 tier, its poison cleared. -/
def zeroPage (p : Partition) (off : Nat) (s : State) : State :=
  let k := tierKey p.first 1 off
  { s with mem := eraseRange s.mem k (k + 65536), c1 := eraseRange s.c1 (k / 256) (k / 256 + 256), poison := clearPoison s.poison 32 k 65536 }

/-- The tables that map the firmware gigabyte, by leaves of 512 MiB with FW = 1 and every permission, under one first-level index (R212,
R323, assumption 12). -/
def mapFirmware (p : Partition) (s : State) : State :=
  let s := zeroPage p p.fwNode (zeroPage p p.fwRoot s)
  let at_ (node i v : Nat) (s : State) : State := s.writeKey (tierKey p.first 1 (node + 8 * i)) 8 v
  let s := at_ p.fwRoot (Config.firmwareRegion p.first).toNat (p.fwNode + 0x121) s
  (p.fwBlocks.zipIdx).foldl (fun s b => at_ p.fwNode b.2 (b.1 * 2 ^ 29 + 0x11F) s) s

/-- The virtual address of the firmware gigabyte's first byte under those tables. -/
def Partition.fwVa (p : Partition) : Nat :=
  (Config.firmwareRegion p.first).toNat * 2 ^ 42 + (p.n * Config.lpddrSlice - 1000000000) % 2 ^ 29

/-- Mordant at its start (R323, R35): reset values, at the image's entry, PTBASE naming the tables of the firmware gigabyte. -/
def mordantStart (s : State) (p : Partition) (c : Core) : Core :=
  let entry := bytesNat ((s.fwImage.drop 0x10).take 8)
  { c with mordant := { Ctx.reset with pc := .ofNat 64 (p.fwVa + entry) }, mOn := true,
           ptbase := .ofNat 64 ((Config.firmwareAsid p.first).toNat * 2 ^ 48 + p.fwRoot + 0x100) }

/-- Partition start (R323): the firmware image in the firmware gigabyte, its tables, every Mordant at its entry. -/
def startFirmware (s : State) (p : Partition) : State :=
  let n := bytesNat ((s.fwImage.drop 0x0C).take 4)
  let s := s.rawRange p.fwKey (p.fwKey + 1000000000)
  let s := mapFirmware p (s.writeKey p.fwKey n (bytesNat ((s.fwImage.drop 0x60).take n)))
  p.coreList.foldl (fun s k => s.updCore (coreId k) (mordantStart s p)) s

/-- Whether a key lies in a partition's tiers or its cores' local memory (R305). -/
def Partition.ownsKey (p : Partition) (key : Nat) : Bool :=
  let sp := key / 2 ^ 60
  let o := key % 2 ^ 60
  (sp = 0 && p.first * Config.gddrSlice ≤ o && o < (p.first + p.n) * Config.gddrSlice) ||
  (sp = 1 && p.first * Config.lpddrSlice ≤ o && o < (p.first + p.n) * Config.lpddrSlice) ||
  (sp = 4 && 12 * p.first ≤ o / 2 ^ 24 && o / 2 ^ 24 < 12 * (p.first + p.n))

/-- A queue leaves the queue-state cache (R292): the record taken and not read, or Next of cur, becomes HEAD. It stays
held while a link is pending, since a descriptor could not name the record to come. A poisoned PTB or TAIL stops the queue, which stays
(R326, assumption 79). Whether it has left. -/
def evictQueue (s : State) (p : Partition) (q cur want : Nat) : State × Bool :=
  if want ≠ 0 then (if p.descOk q then (descWrite s p q 0 want, true) else (s, false))
  else if cur = 0 then (s, true)
  else if !p.descOk q then (s, false)
  else match descPois s p q [0x10] with
  | some a => (setErr s p q ⟨0x11, a⟩ false, false)
  | none =>
    match schedAccess s p (.ofNat 64 (descRead s p q 0x10)) (addrAdd cur 0x70) none with
    | .error _ => (s, false)
    | .ok (nx, s) =>
      if nx ≠ 0 then (descWrite s p q 0 nx, true)
      else if descRead s p q 0x08 = cur then (descWrite s p q 0x08 0, true)
      else (s, false)

/-- Every queue held leaves the cache, but those whose link is pending. -/
def evictAll (s : State) (part : Nat) (p : Partition) : State :=
  p.qcache.foldl (fun s x =>
    let r := evictQueue s p x.1 x.2.1 x.2.2
    if r.2 then r.1.updPart part fun p => { p with qcache := p.qcache.filter (·.1 ≠ x.1) } else r.1) s

/-- Translations to peers of a predicate leave every TLB of the partitions of a predicate (R216). -/
def dropPeers (s : State) (f : Partition → Bool) (chip : Nat → Bool) : State :=
  let keep (t : List TlbEnt) : List TlbEnt := t.filter fun e => !(fld e.leaf 8 2 = 3 && chip (fld e.leaf 52 12))
  (s.parts.filter f).foldl (fun s p =>
    let s := p.coreList.foldl (fun s k => s.updCore (coreId k) fun c =>
      { c with tlbS := keep c.tlbS, tlbV := keep c.tlbV, tlbE := keep c.tlbE }) s
    s.updPart p.first fun p => { p with tlb := keep p.tlb }) s

/-- A reset of a partition starts (R312 steps 1 and 2): peers find it unreachable, every strand and Mordant stops with no save, every
engine context aborts. A QUIESCE under way reads back refused (R318), a RESET goes on. It ends by `finishReset`. -/
def resetPartition (s : State) (part : Nat) (scrub : Bool) : State :=
  match s.part? part with
  | none => s
  | some p =>
    let s := s.updPart part fun p =>
      { p with st := 3, scrub := scrub || (p.st = 3 && p.scrub), cmdSt := if p.cmdSt = 1 && p.cmdOp ≠ 3 then 3 else p.cmdSt,
               under := if p.under = 3 then 3 else 0 }
    let s := dropPeers s (fun _ => true) fun chip => chip = s.moduleNo * 8 + part
    let s := p.coreList.foldl (fun s k => abortAll s (coreId k)) s
    p.coreList.foldl (fun s k => s.updCore (coreId k) fun _ => Core.reset) s

/-- The tiers of a partition take back what they hold of dirty lines with a poisoned sector, which a reset drops whole (R312 step 3,
assumption 30). -/
def dropPoisoned (p : Partition) (s : State) : State :=
  (s.l2.filter fun l => p.ownsKey l.line && l.dirty && s.poisonedAt l.line 64).foldl (fun s l =>
    let s := (s.asRaw l.line).writeKey l.line 64 l.tier
    { s with poison := (if l.tierBad.getLsbD 0 then [l.line] else []) ++ (if l.tierBad.getLsbD 1 then [l.line + 32] else []) ++ s.poison }) s

/-- The rest of a reset (R312 steps 3 to 5): launches complete with the mark, or memory is zeroed; the L2 is dropped, a plan that waits
takes effect (R327), Mordant starts, and the partition runs. -/
def finishReset (s : State) (part : Nat) : State :=
  match s.part? part with
  | none => s
  | some p =>
    let s := if p.scrub then
        { s with mem := s.mem.filter fun c => !p.ownsKey c.1, c1 := s.c1.filter fun c => !p.ownsKey (256 * c.1),
                 poison := s.poison.filter fun k => !p.ownsKey k }
          |>.updPart part fun p => { p with launches := [], qcache := [], sel := [] }
      else
        let s := evictAll s part p
        dropPoisoned p (p.launches.foldl (fun s l => if l.st = .done then s else complete s part l.id true) s)
    let s := s.dropLines p.ownsKey
    let s := s.updPart part fun p =>
      { p with born := s.now, wdogAt := s.now, qtbase := 0, sercnt := 0, tlb := [], lidq := [], taking := none, scrub := false,
               msiVec := none, cmdSt := if p.cmdOp = 3 && p.cmdSt = 1 then 2 else p.cmdSt,
               owner := if p.losing then none else p.owner,
               openAt := if p.losing && p.claims ≠ [] then some s.now else p.openAt, losing := false, under := 0,
               mepoch := if p.plan then p.mepoch + 1 else p.mepoch, plan := false, lowAt := none }
    let s := startFirmware s p
    s.updPart part fun p => { p with st := 0 }

end Sys2Proof.Machine
end

