-- ==== Sys2Proof/Machine/Ops.lean ====
section
/-! DEFINITION. Taking a trap and returning from one (R219 to R223), and the small operations every family shares. -/

namespace Sys2Proof.Machine

open Sys2Proof

/-- FCAUSE of a held trap (R211). -/
def fcauseWord (cause : Nat) (hs vec : Bool) (vst : Dword) : Dword :=
  .ofNat 64 (cause % 256 + hs.toNat * 256 + 512 + vec.toNat * 1024 + (if vec then vst.toNat % 65536 else 0) * 65536)

/-- Whether a trap is held for Mordant rather than delivered to TRAPVEC (R221). -/
def heldCause (cause : Nat) (hs : Bool) : Bool := cause = 0x06 || cause = 0x07 || cause = 0x08 || cause = 0x09 || hs

/-- The strand is frozen and its trap held for Mordant (R221): FCAUSE, FADDR and FPC are set, the link set is discarded
(R254). -/
def Core.hold (c0 : Core) (cause : Nat) (addr tpc : Dword) (vec : Bool) (self : Option Dword) : Core :=
  let c := c0.endDrain
  match c.strand with
  | none => c
  | some st =>
    { c with
        fcause := fcauseWord cause st.hs vec c.user.vstart
        faddr := addr
        fpc := tpc
        user := { c.user.refetch with beats := if vec then 0 else c.user.beats }
        strand := some { st with run := .held, links := [], selfPc := self } }

/-- The frame of a delivery (R223). -/
def Core.frameOf (c : Core) (nv : Nat) : Frame where
  regs := c.user.regs
  pregs := c.user.pregs
  spc := c.user.pc
  image := c.user.queue
  vstart := c.user.vstart
  vbase := c.user.vbase
  fmode := c.user.fmode
  seed := c.user.seed
  padlo := c.user.padlo
  padhi := c.user.padhi
  padval := c.user.padval
  nv := nv
  vl := c.user.vl
  vtype := c.user.vtype

/-- A delivery to TRAPVEC (R223): handler state, the frame, TRAPCAUSE, TRAPADDR and TRAPPC, VSTART 0, an empty queue, and
control at TRAPVEC; commands that follow entries of the live queue now follow entries of the frame's (R236). -/
def Core.deliver (c : Core) (cause : Nat) (addr tpc : Dword) : Core :=
  match c.strand with
  | none => c
  | some st =>
    { c with
        user := { c.user.refetch.forget tpc with pc := st.trapvec, vstart := 0, queue := [], beats := 0 }
        eng := c.eng.map fun g => { g with entries := g.entries.map fun e => if 0 < e.w then { e with fr := true } else e }
        strand := some { st with
          hs := true
          frame := some (c.frameOf st.nv)
          trapcause := .ofNat 64 (cause % 256)
          trapaddr := addr
          trappc := tpc
          run := .running
          links := []
          selfPc := none } }

/-- A delivery, or the launch's cancellation where TRAPVEC is 0 (R45, R223). -/
def deliverTrap (s : State) (k : Fin 96) (cause : Nat) (addr tpc : Dword) : State :=
  match (s.core k).strand with
  | none => s
  | some st => if st.trapvec = 0 then cancelLaunch s st.part st.launch else s.updCore k fun c => c.deliver cause addr tpc

/-- Taking a trap (R219 to R221): Mordant's own resets its partition; a strand's is held for Mordant or delivered. The
context's PC is SPC already. `self` is the PC of a BRK or TRAP, which has retired. -/
def takeTrap (s : State) (cause : Nat) (addr : Dword) (vec : Bool) (self : Option Dword) : State :=
  let k := s.actor.core
  match s.actor.who with
  | .mordant =>
    match s.partOfCore k with
    | some p => resetPartition s p.first false
    | none => s
  | .user =>
    match (s.core k).strand with
    | none => s
    | some st =>
      let u := (s.core k).user
      let tpc := if vec then (u.queue.head?.map (·.pc)).getD u.pc else u.pc
      if heldCause cause st.hs then s.updCore k fun c => c.hold cause addr tpc vec self
      else deliverTrap s k cause addr tpc

/-- A trap of the scalar thread at an instruction that has not retired (R220). -/
def State.trap (s : State) (cause : Nat) (addr : Nat) : State := takeTrap s cause (.ofNat 64 addr) false none

/-- A trap of the vector stream, the instruction standing at its VSTART (R220). -/
def State.vtrap (s : State) (cause : Nat) (addr : Nat) : State := takeTrap s cause (.ofNat 64 addr) true none

/-- ILLINS (R64, R75). -/
def State.illins (s : State) : State := s.trap 0x03 0

/-- The next outcome. -/
def nx (s : State) : Out := .next s

/-- The instruction waits: nothing of it has happened, and it does not retire (R49, R219). -/
def State.stall (s : State) : State := s

/-- The scalar effect of a user strand only: Mordant reaching it traps ILLINS (R35, R265, R287). -/
def State.userOnly (s : State) (f : State → State) : State := if s.isM then s.illins else f s

/-- The effect of a firmware instruction: a user strand reaching it traps ILLINS (R74). -/
def State.fwOnly (s : State) (f : State → State) : State := if s.isM then f s else s.illins

/-- Whether the acting context's vector queue is empty. -/
def State.qEmpty (s : State) : Bool := s.ctx.queue.isEmpty

/-- The memory effect of a single scalar access: its fault traps, a wait stalls. -/
def State.scalarAcc (s : State) (a : Acc) (f : State → Nat → Dword → State) : State :=
  match a with
  | .ok t v ver => f t v ver
  | .fault e t => t.trap e.cause e.addr
  | .wait _ => s.stall

/-- Restoring what the frame holds (R223, R326), and its queue image into the live queue. -/
def Core.restoreFrame (c : Core) (f : Frame) : Core :=
  { c with
      user := Ctx.refetch { c.user with
        regs := f.regs, pregs := f.pregs, pc := f.spc, queue := f.image, vstart := f.vstart, vbase := f.vbase,
        fmode := f.fmode, seed := f.seed, padlo := f.padlo, padhi := f.padhi, padval := f.padval, vl := f.vl,
        vtype := f.vtype, beats := 0 }
      eng := c.eng.map fun g => { g with entries := g.entries.map fun e => { e with fr := false } }
      strand := c.strand.map fun st => { st with nv := f.nv, hs := false, frame := none, run := .running, selfPc := none } }

/-- FCAUSE.HELD := 0, and the engine goes on with the strand, once nothing else freezes it (R227). -/
def Core.unhold (c : Core) : Core :=
  { c with fcause := c.fcause &&& ~~~(0x200#64), engOff := c.engOff && c.strand.any fun st => st.frz ≠ .none }

/-- The strand runs again at its PC, its trap no longer held (R60, R222). -/
def Core.rerun (c : Core) : Core :=
  Core.unhold { c with user := c.user.refetch, strand := c.strand.map fun st => { st with run := .running, selfPc := none } }

/-- ERET on core `k` (R222): the state, and whether ERET has retired. -/
def eretOn (s : State) (k : Fin 96) : State × Bool :=
  let c := s.core k
  match c.strand with
  | none => (s.updCore k Core.unhold, true)
  | some st =>
    if fld c.fcause.toNat 9 1 = 0 then (s, true)
    else
      let act := fld c.fret.toNat 0 2
      let act := if act = 3 ∧ !st.hs then 0 else act
      match act with
      | 0 => (s.updCore k Core.rerun, true)
      | 1 =>
        if st.hs then ((cancelLaunch s st.part st.launch).updCore k Core.unhold, true)
        else ((deliverTrap s k (fld c.fcause.toNat 0 8) c.faddr c.fpc).updCore k Core.unhold, true)
      | 2 => ((cancelLaunch s st.part st.launch).updCore k Core.unhold, true)
      | _ =>
        if !c.user.queue.isEmpty then (s.updCore k fun c => c.updStrand fun st => { st with run := .draining }, false)
        else match st.frame with
          | none => (s.updCore k fun c => (c.updStrand fun st => { st with run := .running, hs := false }).unhold, true)
          | some f =>
            if st.nv ≠ f.nv then
              let s := s.updCore k fun c => c.updStrand fun st => { st with run := .held }
              ((cancelLaunch s st.part st.launch).updCore k Core.unhold, true)
            else (s.updCore k fun c => (c.restoreFrame f).unhold, true)

end Sys2Proof.Machine
end

