-- ==== Sys2Proof/Machine/Flags.lean ====
section
/-! DEFINITION. FFLAGS, FMODE and the traps of enabled flags (R90, R102, R103, R116). -/

namespace Sys2Proof.Machine

open Sys2Proof

/-- The flags ORed into FFLAGS of a context (R90). -/
def Ctx.orFlags (c : Ctx) (fl : Nat) : Ctx := { c with fflags := c.fflags ||| .ofNat 64 fl }

/-- The flags ORed into the acting context's FFLAGS. -/
def State.orFlags (s : State) (fl : Nat) : State := s.updCtx fun c => c.orFlags fl

/-- Which of the raised flags have their enable bit set in an FMODE value (R103): NX to NF. -/
def enabledFlags (fmode : Dword) (fl : Nat) : Nat := fl % 64 &&& fld fmode.toNat 8 6

/-- FMODE.RM (R103). -/
def rmField (fmode : Dword) : Nat := fld fmode.toNat 0 3

/-- Whether a rounding mode is one of RNA to RDN (R63). -/
def rmArith (rm : Nat) : Bool := 1 ≤ rm && rm ≤ 5

/-- The result of a scalar floating-point instruction (R90): flags ORed; an enabled one traps FPX, d keeping its value;
otherwise d is written and the instruction retires. -/
def State.fpRet (s : State) (d : SReg) (v fl : Nat) : State :=
  let s := s.orFlags fl
  if enabledFlags s.ctx.fmode fl ≠ 0 then s.trap 0x0E fl else s.ret d (.ofNat 64 v)

/-- A rounding scalar instruction (R87): FMODE.RM holding SR or a reserved value traps ILLINS. -/
def State.fpRound (s : State) (f : Nat → State) : State :=
  if rmArith (rmField s.ctx.fmode) then f (rmField s.ctx.fmode) else s.illins

end Sys2Proof.Machine
end

