-- ==== Sys2Proof/Machine/Atomic.lean ====
section
/-! DEFINITION. AMOs (R241 to R243), VALSET (R247 to R250), the waits (R257 to R259) and barriers (R260 to R263). -/

namespace Sys2Proof.Machine

open Sys2Proof

/-- Where an AMO may act (R243): in the host tier only AMOADD, AMOSWAP and AMOCAS. -/
def amoPlace (op : AmoOp) : Place → Bool
  | .xl x => x.tier ≠ 2 || op = .add || op = .swap || op = .cas
  | _ => true

/-- The new memory value of an AMO at `w` bits, none when nothing is written (R242). -/
def amoNew (op : AmoOp) (w y e old : Nat) : Option Nat :=
  match op with
  | .add => some ((old + y) % 2 ^ w)
  | .and => some (old &&& y)
  | .or => some (old ||| y)
  | .xor => some (old ^^^ y)
  | .max => some (if sextN old w < sextN y w then y else old)
  | .min => some (if sextN old w < sextN y w then old else y)
  | .maxu => some (if old < y then y else old)
  | .minu => some (if old < y then old else y)
  | .swap => some y
  | .cas => if old = e then some y else none

/-- An AMO (R242, R243): one read-and-write access; s[d] := sext(old, w). -/
def amoOp (op : AmoOp) (word : Bool) (d a b : SReg) (s : State) : Out :=
  let n := if word then 4 else 8
  let w := 8 * n
  let ea := (s.rd a).toNat
  nx (if ea % n ≠ 0 then s.trap 0x05 ea
      else s.scalarAcc (s.acc .s 0 .w true false ea n (amoPlace op)
        (amoNew op w ((s.rd b).toNat % 2 ^ w) ((s.rd d).toNat % 2 ^ w))) fun t v _ => t.ret d (.ofInt 64 (sextN v w)))

/-- The meaning of AMOADD (R242). -/
def execAmoadd (w : Bool) (d a b : SReg) (s : State) : Out := amoOp .add w d a b s
/-- The meaning of AMOAND (R242). -/
def execAmoand (w : Bool) (d a b : SReg) (s : State) : Out := amoOp .and w d a b s
/-- The meaning of AMOOR (R242). -/
def execAmoor (w : Bool) (d a b : SReg) (s : State) : Out := amoOp .or w d a b s
/-- The meaning of AMOXOR (R242). -/
def execAmoxor (w : Bool) (d a b : SReg) (s : State) : Out := amoOp .xor w d a b s
/-- The meaning of AMOMAX (R242). -/
def execAmomax (w : Bool) (d a b : SReg) (s : State) : Out := amoOp .max w d a b s
/-- The meaning of AMOMIN (R242). -/
def execAmomin (w : Bool) (d a b : SReg) (s : State) : Out := amoOp .min w d a b s
/-- The meaning of AMOMAXU (R242). -/
def execAmomaxu (w : Bool) (d a b : SReg) (s : State) : Out := amoOp .maxu w d a b s
/-- The meaning of AMOMINU (R242). -/
def execAmominu (w : Bool) (d a b : SReg) (s : State) : Out := amoOp .minu w d a b s
/-- The meaning of AMOSWAP (R242). -/
def execAmoswap (w : Bool) (d a b : SReg) (s : State) : Out := amoOp .swap w d a b s
/-- The meaning of AMOCAS (R242). -/
def execAmocas (w : Bool) (d a b : SReg) (s : State) : Out := amoOp .cas w d a b s

/-- `n` doublewords read as scalar loads in program order from `va` upward: the values, the fault met, or none where one
waits (R249, R147). A read at a FIFO port pops (R95, R142). -/
def loadMany : (n va : Nat) → State → State × Except (Option Flt) (List Nat)
  | 0, _, s => (s, .ok [])
  | n + 1, va, s =>
    if va % 8 ≠ 0 then (s, .error (some ⟨0x05, va⟩))
    else match s.acc .s 0 .r true true va 8 anyPlace fun _ => none with
      | .ok t v _ =>
        match loadMany n (addrAdd va 8) t with
        | (t, .ok vs) => (t, .ok (v :: vs))
        | (t, .error f) => (t, .error f)
      | .fault f t => (t, .error (some f))
      | .wait t => (t, .error none)

/-- The first of each pair. -/
def pairs : List Nat → List (Nat × Nat)
  | a :: b :: r => (a, b) :: pairs r
  | _ => []

/-- An entry address of VALSET faults as a write would (R250); a window, an uncached page, the host or the peer tier is
ATTRC. The line is reached, and its place answered. -/
def valsetEntry (s : State) (va : Nat) : State × Except Flt Xl :=
  if va % 8 ≠ 0 then (s, .error ⟨0x05, va⟩)
  else match placeOf s s.actor.core s.isM .s .w va 8 with
    | (s, .error f) => (s, .error f)
    | (s, .ok (.xl x)) =>
      if x.pol = 2 ∨ 2 ≤ x.tier then (s, .error ⟨0x0A, va⟩)
      else match s.touch x false va with
        | .error f => (s, .error f)
        | .ok t => if (t.inForm x).poisonedAt x.key 8 then (t, .error ⟨0x11, va⟩) else (t, .ok x)
    | (s, .ok _) => (s, .error ⟨0x0A, va⟩)

/-- The places of every entry address in entry order, or the first fault. -/
def valsetPlaces : List Nat → State → State × Except Flt (List Xl)
  | [], s => (s, .ok [])
  | va :: r, s =>
    match valsetEntry s va with
    | (s, .error f) => (s, .error f)
    | (s, .ok k) =>
      match valsetPlaces r s with
      | (s, .ok ks) => (s, .ok (k :: ks))
      | (s, .error f) => (s, .error f)

/-- The least index whose line has not the expected version, counting from `i`; a version at its largest value never
passes (R244, R249). -/
def valsetFail (s : State) : List (Nat × Nat) → Nat → Option Nat
  | [], _ => none
  | (key, v) :: r, i =>
    if (s.version key).toNat = v ∧ v ≠ 2 ^ 64 - 1 then valsetFail s r (i + 1) else some i

/-- The stores of a set, later entries winning. -/
def valsetStores (s : State) (xs : List (Xl × Nat)) : State := xs.foldl (fun s x => s.writeAt x.1 8 x.2) s

/-- The version of each line stored is raised once (R249). -/
def raiseLines (s : State) (keys : List Nat) : State := (keys.map lineOf).eraseDups.foldl State.touchPresent s

/-- The acting core's FIFOs as they were in `s`: an instruction that traps has not retired, and has popped nothing (R95, R220;
assumption 77). -/
def State.unpopped (t s : State) : State := t.updMe fun c => { c with fifos := s.me.fifos }

/-- The meaning of VALSET (R247 to R250). -/
def execValset (d a b : SReg) (s : State) : Out :=
  let set := (s.rd a).toNat
  let cnt := (s.rd b).toNat
  let nc := fld cnt 0 5
  let ns := fld cnt 8 5
  nx <|
    if nc < 1 ∨ 16 < nc ∨ 16 < ns ∨ fld cnt 5 3 ≠ 0 ∨ fld cnt 13 51 ≠ 0 then s.illins
    else match loadMany (2 * (nc + ns)) set s with
      | (t, .error (some f)) => (t.unpopped s).trap f.cause f.addr
      | (_, .error none) => s.stall
      | (t, .ok ws) =>
        let es := pairs ws
        let cs := es.take nc
        let ss := es.drop nc
        if !(ss.all fun x => cs.any fun y => y.1 / 64 = x.1 / 64) then (t.unpopped s).illins
        else match valsetPlaces (es.map (·.1)) t with
          | (t, .error f) => (t.unpopped s).trap f.cause f.addr
          | (t, .ok xs) =>
            match valsetFail t (((xs.take nc).map (·.key)).zip (cs.map (·.2))) 0 with
            | some k => t.ret d (.ofNat 64 (k + 1))
            | none =>
              let ps := xs.drop nc
              (valsetStores (raiseLines t (ps.map (·.key))) (ps.zip (ss.map (·.2)))).ret d 0

/-- A WAITA (R258): the read that finds the condition true retires it; until then it waits. -/
def waitaOp (cond : Nat → Nat → Bool) (a b : SReg) (s : State) : Out :=
  let ea := (s.rd a).toNat
  nx (if ea % 8 ≠ 0 then s.trap 0x05 ea
      else s.scalarAcc (s.acc .s 0 .r true false ea 8 anyPlace fun _ => none) fun t v _ =>
        if cond v (s.rd b).toNat then t.retire else s.stall)

/-- The meaning of WAITA.EQ (R258). -/
def execWaitaEq (a b : SReg) (s : State) : Out := waitaOp (fun m x => decide (m = x)) a b s
/-- The meaning of WAITA.NE (R258). -/
def execWaitaNe (a b : SReg) (s : State) : Out := waitaOp (fun m x => decide (m ≠ x)) a b s
/-- The meaning of WAITA.GEU (R258). -/
def execWaitaGeu (a b : SReg) (s : State) : Out := waitaOp (fun m x => decide (x ≤ m)) a b s

/-- The meaning of WAITT (R259). -/
def execWaitt (k : BitVec 2) (d b : SReg) (s : State) : Out :=
  nx (s.userOnly fun s =>
    let g := s.me.eng[k.toFin]
    let n := (s.rd b).toNat
    if n ≤ g.tl.toNat then s.ret d 0
    else match g.err with
      | some code => s.ret d (code.zeroExtend 64)
      | none => if g.last.toNat < n then s.illins else s.stall)

/-- The meaning of TLREAD (R259). -/
def execTlread (k : BitVec 2) (d : SReg) (s : State) : Out :=
  nx (s.userOnly fun s => s.ret d s.me.eng[k.toFin].tl)

/-- The meaning of BARARR (R261). -/
def execBararr (a b : SReg) (s : State) : Out :=
  let ea := (s.rd a).toNat
  let c := (s.rd b).toNat % 2 ^ 32
  nx (if ea % 16 ≠ 0 then s.trap 0x05 ea
      else s.scalarAcc (s.acc .s 0 .w true false ea 16 barrierPlace (contribFn c)) fun t v _ =>
        if (contribute v c).isNone then t.trap 0x10 ea else t.retire)

/-- The meaning of BARWT (R262): open gives 0, failed 0x10; a closed barrier's wait is timed from where it was first
found closed. -/
def execBarwt (d a : SReg) (s : State) : Out :=
  let ea := (s.rd a).toNat
  nx (if ea % 16 ≠ 0 then s.trap 0x05 ea
      else s.scalarAcc (s.acc .s 0 .r true false ea 16 barrierPlace fun _ => none) fun t v _ =>
        if (contribute v 0).isNone then t.trap 0x10 ea
        else if fld v 64 16 = 1 then (t.updCtx fun c => { c with barFrom := none }).ret d 0
        else if fld v 64 16 = 2 then (t.updCtx fun c => { c with barFrom := none }).ret d 0x10
        else t.updCtx fun c => { c with barFrom := some (c.barFrom.getD t.now) })

/-- The release count of a launch rises when every strand has arrived for its generation, or has retired HALT (R263). -/
def Launch.release (l : Launch) : Launch :=
  if (List.range l.cores.length).all fun i => l.arrived.contains i || l.halted.contains i then
    { l with barL := l.barL + 1, arrived := [] }
  else l

/-- BARL's arrival of strand `i` (R263): marking again is harmless, and a strand already released is not marked. -/
def Launch.arrive (l : Launch) (i : Nat) : Launch :=
  if l.barB.getD i 0 < l.barL ∨ l.arrived.contains i then l else { l with arrived := i :: l.arrived }

/-- The meaning of BARL (R263): after the drain of both streams the strand arrives; it retires once released. -/
def execBarl (s : State) : Out :=
  nx (s.userOnly fun s =>
    if !s.qEmpty then s.stall
    else match s.strand? with
      | none => s.stall
      | some st =>
        let s := s.updLaunch st.part st.launch fun l => (l.arrive st.idx).release
        match s.launch? st.part st.launch with
        | none => s
        | some l =>
          if l.barB.getD st.idx 0 < l.barL then
            (s.updLaunch st.part st.launch fun l => { l with barB := l.barB.set st.idx (l.barB.getD st.idx 0 + 1) }).retire
          else s)

end Sys2Proof.Machine
end

