-- ==== Sys2Proof/Machine/Branch.lean ====
section
/-! DEFINITION. Branches and jumps (R59, R91, R92). -/

namespace Sys2Proof.Machine

open Sys2Proof

/-- A target from the line address of the instruction, a line offset and a slot (R59). -/
def targetOf (pc : Dword) (off : Int) (slot : Nat) : Dword :=
  .ofNat 64 (intBits ((pc.toNat / 64 * 64 : Nat) + off * 64) 64 ||| slot * 2)

/-- A branch (R91): to its target when taken, else to the successor. -/
def branch (taken : Bool) (off : BitVec 17) (slot : BitVec 5) (s : State) : Out :=
  nx (if taken then s.goto (targetOf s.ctx.pc off.toInt slot.toNat) else s.retire)

/-- The meaning of BEQ (R91). -/
def execBeq (a b : SReg) (off : BitVec 17) (slot : BitVec 5) (s : State) : Out :=
  branch (decide (s.rd a = s.rd b)) off slot s

/-- The meaning of BNE (R91). -/
def execBne (a b : SReg) (off : BitVec 17) (slot : BitVec 5) (s : State) : Out :=
  branch (decide (s.rd a ≠ s.rd b)) off slot s

/-- The meaning of BLT (R91). -/
def execBlt (a b : SReg) (off : BitVec 17) (slot : BitVec 5) (s : State) : Out :=
  branch (decide ((s.rd a).toInt < (s.rd b).toInt)) off slot s

/-- The meaning of BGE (R91). -/
def execBge (a b : SReg) (off : BitVec 17) (slot : BitVec 5) (s : State) : Out :=
  branch (decide ((s.rd b).toInt ≤ (s.rd a).toInt)) off slot s

/-- The meaning of BLTU (R91). -/
def execBltu (a b : SReg) (off : BitVec 17) (slot : BitVec 5) (s : State) : Out :=
  branch (decide ((s.rd a).toNat < (s.rd b).toNat)) off slot s

/-- The meaning of BGEU (R91). -/
def execBgeu (a b : SReg) (off : BitVec 17) (slot : BitVec 5) (s : State) : Out :=
  branch (decide ((s.rd b).toNat ≤ (s.rd a).toNat)) off slot s

/-- The meaning of JAL (R92): the link is the successor PC. -/
def execJal (d : SReg) (off : BitVec 22) (slot : BitVec 5) (s : State) : Out :=
  nx ((s.wr d s.ctx.succPc).goto (targetOf s.ctx.pc off.toInt slot.toNat))

/-- The meaning of JALR (R92): s[a] is read before the link is written. -/
def execJalr (d a : SReg) (s : State) : Out := nx ((s.wr d s.ctx.succPc).goto (s.rd a))

end Sys2Proof.Machine
end

