-- ==== Sys2Proof/Machine/Operands.lean ====
section
/-! DEFINITION. Vector operands (R108 to R114): groups, elements, masks and predicates; the push of a vector instruction
with its checks (R25, R64, R71, R75, R109); and how the sequencer runs elementwise and whole-vector instructions
(R110 to R116). -/

namespace Sys2Proof.Machine

open Sys2Proof

/-! VTYPE (R70). -/

/-- SEW in bits. -/
def sewOf (vt : Dword) : Nat := 8 * 2 ^ fld vt.toNat 0 3

/-- G. -/
def grpOf (vt : Dword) : Nat := 2 ^ fld vt.toNat 3 2

/-- VTYPE.ILL. -/
def illOf (vt : Dword) : Bool := fld vt.toNat 8 1 = 1

/-- SEW captured by an entry. -/
def Entry.sew (e : Entry) : Nat := sewOf e.vtype

/-- VL captured by an entry. -/
def Entry.n (e : Entry) : Nat := e.vl.toNat

/-- VLMAX of a group of `g` registers at SEW `w` (R34, R67). -/
def State.vlmax (s : State) (g w : Nat) : Nat := g * s.vregBytes / (w / 8)

/-- VLMAX captured by an entry. -/
def Entry.vlmax (s : State) (e : Entry) : Nat := s.vlmax (grpOf e.vtype) e.sew

/-! Elements. `pvec` lists poisoned elements as first byte × 32 + bytes (R326). -/

/-- The first byte of element `i`, of `w` bits, of the group at `v` (R108). -/
def State.vAddr (s : State) (v : VReg) (w i : Nat) : Nat := v.toNat * s.vregBytes + i * (w / 8)

/-- Element `i` of the group at `v`. -/
def State.vget (s : State) (v : VReg) (w i : Nat) : Nat := readN s.ctx.vfile (s.vAddr v w i) (w / 8)

/-- A vector file with `n` bytes written at `a`, poison wholly covered cleared. -/
def Ctx.vwrite (c : Ctx) (a n x : Nat) : Ctx :=
  { c with vfile := writeN c.vfile a n x, pvec := c.pvec.filter fun p => !(a ≤ p / 32 && p / 32 + p % 32 ≤ a + n) }

/-- The state with element `i` of the group at `v` written. -/
def State.vput (s : State) (v : VReg) (w i x : Nat) : State := s.updCtx fun c => c.vwrite (s.vAddr v w i) (w / 8) x

/-- Whether element `i` of the group at `v` is poisoned. -/
def State.vpois (s : State) (v : VReg) (w i : Nat) : Bool :=
  let a := s.vAddr v w i
  s.ctx.pvec.any fun p => p / 32 < a + w / 8 && a < p / 32 + p % 32

/-- The register that holds element `i` of the group at `v`. -/
def State.vregOf (s : State) (v : VReg) (w i : Nat) : Nat := s.vAddr v w i / s.vregBytes

/-- The first poisoned source element of element `i`, by its register number (R326). -/
def State.srcPois (s : State) (srcs : List (VReg × Nat)) (i : Nat) : Option Nat :=
  (srcs.find? fun x => s.vpois x.1 x.2 i).map fun x => s.vregOf x.1 x.2 i

/-! Masks (R66). -/

/-- Bit `i` of a mask. -/
def State.mbit (s : State) (m : MReg) (i : Nat) : Bool := readBit s.ctx.masks (8192 * m.toNat) i

/-- The state with bit `i` of a mask written. -/
def State.mput (s : State) (m : MReg) (i : Nat) (v : Bool) : State :=
  s.updCtx fun c => { c with masks := writeBit c.masks (8192 * m.toNat) i v }

/-- Whether a mask is poisoned. -/
def State.mpois (s : State) (m : MReg) : Bool := s.ctx.pmasks.getLsbD m.toNat

/-- A mask whose every bit has been written loses its poison (R326). -/
def State.munpois (s : State) (m : MReg) : State :=
  s.updCtx fun c => { c with pmasks := c.pmasks &&& ~~~(1#8 <<< m.toNat) }

/-- active(i) of R110 for a mask field. -/
def State.active (s : State) (m : MReg) (i : Nat) : Bool := m = 0 || s.mbit m i

/-- The poisoned mask among those read. -/
def State.maskPois (s : State) (ms : List MReg) : Option Nat := (ms.find? s.mpois).map (·.toNat)

/-- The masks a predicate reads. -/
def predMask (m : MReg) : List MReg := if m = 0 then [] else [m]

/-! Scalar operands captured at the push. -/

/-- The scalar b of a b operand, s0 for a vector. -/
def bReg : BOp → SReg
  | .v _ => 0
  | .s r => r

/-- The vector registers of a b operand. -/
def bVecs : BOp → List VReg
  | .v r => [r]
  | .s _ => []

/-- A captured scalar at SEW `w` (R110): its low bits, or sign-extended to 128. -/
def scalarAt (x : Dword) (w : Nat) : Nat := if w ≤ 64 then x.toNat % 2 ^ w else intBits x.toInt 128

/-- bval(i) of R110. -/
def bval (s : State) (e : Entry) (b : BOp) (w i : Nat) : Nat :=
  match b with
  | .v r => s.vget r w i
  | .s _ => scalarAt e.b w

/-! The push. -/

/-- The outcome of the checks made before a push (R75). -/
inductive PushChk | ok | illins | illvt
deriving DecidableEq, Repr

/-- The largest derived group (R148): NV / 8, and one register for Mordant (R35). -/
def State.maxGroup (s : State) : Nat := if s.nv < 8 then 1 else s.nv / 8

/-- A group of `g` registers at `r` (R109). -/
def State.groupOk (s : State) (r : VReg) (g : Nat) : Bool := g ≤ s.maxGroup && r.toNat % g = 0 && r.toNat + g ≤ s.nv

/-- Groups of G registers each. -/
def State.groupsOk (s : State) (rs : List VReg) (g : Nat) : Bool := rs.all fun r => s.groupOk r g

/-- The checks of R75 steps 1 and 2: `pre` are those that need neither SEW nor G, `enc` those made only while
VTYPE.ILL = 0; `dep` says whether the instruction depends on VTYPE (R71). -/
def vchk (s : State) (dep : Bool) (regs : List VReg) (pre : Bool) (enc : Nat → Nat → Bool) : PushChk :=
  let vt := s.ctx.vtype
  if !(pre && regs.all fun r => r.toNat < s.nv) then .illins
  else if !dep then .ok
  else if illOf vt then .illvt
  else if enc (sewOf vt) (grpOf vt) then .ok else .illins

/-- Entries the acting context's queue holds (R25, R34). -/
def State.queueCap (s : State) : Nat := if s.isM then Config.mordantQueueDepth else Config.queueDepth

/-- Whether the acting context's queue is full. -/
def State.queueFull (s : State) : Bool := s.queueCap ≤ s.ctx.queue.length

/-- The first poisoned register among scalars that are read (R326). -/
def State.sregPois (s : State) (rs : List SReg) : Option Nat :=
  (rs.find? fun r => r ≠ 0 && s.ctx.pregs.getLsbD r.toNat).map (·.toNat)

/-- An entry at the end of the acting context's queue (R25). -/
def State.enqueue (s : State) (i : Instr) (a b c : SReg) : State :=
  s.updCtx fun x => { x with queue := x.queue ++
    [{ ins := i, pc := x.pc, a := x.reg a, b := x.reg b, c := x.reg c, vl := x.vl, vtype := x.vtype }] }

/-- The push of an instruction by the scalar thread (R25): its checks, poison of the scalars it names, a stall while the
queue is full; the instruction retires at its push. -/
def pushIns (i : Instr) (ck : PushChk) (a b c : SReg) (s : State) : State :=
  match ck with
  | .illins => s.illins
  | .illvt => s.trap 0x04 0
  | .ok =>
    match s.sregPois [a, b, c] with
    | some r => s.trap 0x11 r
    | none => if s.queueFull then s.stall else (s.enqueue i a b c).retire

/-! The sequencer. -/

/-- VSTART of the acting context set. -/
def State.setVstart (s : State) (n : Nat) : State := s.updCtx fun c => { c with vstart := .ofNat 64 n }

/-- Engine commands pushed after the entry that completes wait for one entry fewer (R236). -/
def State.settle (s : State) : State :=
  if s.isM then s
  else s.updMe fun c => { c with eng := c.eng.map fun g =>
    { g with entries := g.entries.map fun e => if !e.fr && 0 < e.w then { e with w := e.w - 1 } else e } }

/-- The entry at VCP completes and leaves the queue (R28). -/
def State.popHead (s : State) : State := (s.updCtx fun c => { c with queue := c.queue.drop 1 }).settle

/-- Completion of an instruction that sets VSTART := 0 (R112). -/
def State.vdone (s : State) : State := (s.setVstart 0).popHead

/-- A trap of the vector stream with the instruction standing at element `i` (R116, R152, R220). -/
def State.vtrapAt (s : State) (i cause addr : Nat) : State := (s.setVstart i).vtrap cause addr

/-- The head entry runs; with an empty queue the sequencer idles. -/
def runHead (run : Entry → State → State) (s : State) : State :=
  match s.ctx.queue with
  | [] => s
  | e :: _ => run e s

/-- A vector instruction in its two phases: its push by the scalar thread, its execution by the sequencer. -/
def vecOp (i : Instr) (ck : State → PushChk) (a b c : SReg) (run : Entry → State → State) (s : State) : Out :=
  nx (if s.actor.seq then runHead run s else pushIns i (ck s) a b c s)

/-- What one active element gives: a result with its flags, or a trap. -/
inductive El
  | val (r : Cv)
  | trap (cause addr : Nat)

/-- A result with no flags. -/
def El.plain (x : Nat) : El := .val ⟨x, 0, false⟩

/-- An element whose sources are poisoned traps; otherwise its result (R326). -/
def elemOf (s : State) (srcs : List (VReg × Nat)) (f : Nat → Cv) (i : Nat) : El :=
  match s.srcPois srcs i with
  | some r => .trap 0x11 r
  | none => .val (f i)

/-- Elements from `i`, `n` of them (R110, R116): an active element's flags are ORed into FFLAGS, an enabled one stops
the instruction before the element is written; `z` writes inactive elements with zero. -/
def runElems (act : Nat → Bool) (z : Bool) (f : Nat → El) (put : Nat → Nat → State → State) (clip : Bool → State → State) :
    (n i : Nat) → State → State × Option (Nat × Nat × Nat)
  | 0, _, s => (s, none)
  | n + 1, i, s =>
    if act i then
      match f i with
      | .trap c a => (s, some (i, c, a))
      | .val r =>
        let s := s.orFlags r.flags
        if enabledFlags s.ctx.fmode r.flags ≠ 0 then (s, some (i, 0x0E, r.flags))
        else runElems act z f put clip n (i + 1) (clip r.clip (put i r.bits s))
    else runElems act z f put clip n (i + 1) (if z then put i 0 s else s)

/-- The element at which a run from VSTART to VL stops: a freeze's strip boundary, or VL (R114, R219). -/
def State.stopAt (s : State) (vs vl strip : Nat) : Nat :=
  match s.actor.stop with
  | some k => if k % strip = 0 ∧ vs < k ∧ k < vl then k else vl
  | none => vl

/-- Elements of a strip at SEW `w` (R114), the whole ones where `w` does not divide a strip (assumption 64). -/
def stripOf (w : Nat) : Nat := 16384 / w

/-- The end of an elementwise run: a trap at an element, a freeze at a strip boundary, or completion. -/
def elemEnd (stop vl : Nat) (r : State × Option (Nat × Nat × Nat)) : State :=
  match r with
  | (t, some (i, c, a)) => t.vtrapAt i c a
  | (t, none) => if stop < vl then t.setVstart stop else t.vdone

/-- An elementwise instruction (R110, R112, R116) of strip width `w`, with predicate `p`. -/
def elemRun (e : Entry) (w : Nat) (p : Pred) (f : Nat → El) (put : Nat → Nat → State → State)
    (clip : Bool → State → State) (s : State) : State :=
  let vs := s.ctx.vstart.toNat
  if e.n ≤ vs then s.vdone
  else match s.maskPois (predMask p.m) with
    | some m => s.vtrapAt vs 0x11 m
    | none =>
      let stop := s.stopAt vs e.n (stripOf w)
      elemEnd stop e.n (runElems (s.active p.m) p.z f put clip (stop - vs) vs s)

/-- Clipped elements are not counted. -/
def noClip (_ : Bool) (s : State) : State := s

/-- An elementwise instruction writing `vd` at SEW from sources at SEW (R110). -/
def elementwise (e : Entry) (p : Pred) (vd : VReg) (srcs : List VReg) (f : Nat → Cv) (s : State) : State :=
  elemRun e e.sew p (elemOf s (srcs.map fun r => (r, e.sew)) f) (fun i x t => t.vput vd e.sew i x) noClip s

/-- An elementwise instruction writing mask `md` (R123); the last of all its bits written clears its poison (R326). -/
def elementMask (e : Entry) (p : Pred) (md : MReg) (srcs : List VReg) (f : Nat → Cv) (s : State) : State :=
  let whole := s.ctx.vstart = 0 && s.maskBits ≤ e.n && (p.m = 0 || p.z)
  elemRun e e.sew p (elemOf s (srcs.map fun r => (r, e.sew)) f) (fun i x t =>
    let t := t.mput md i (x = 1)
    if whole && i + 1 = e.n then t.munpois md else t) noClip s

/-- A whole-vector instruction (R112, R116): poison among what it reads, then enabled flags, stop it with nothing written. -/
def wholeOp (pois : Option Nat) (fl : Nat) (wr : State → State) (s : State) : State :=
  match pois with
  | some a => s.vtrapAt 0 0x11 a
  | none =>
    let s := s.orFlags fl
    if enabledFlags s.ctx.fmode fl ≠ 0 then s.vtrapAt 0 0x0E fl else (wr s).vdone

/-- The first poisoned element of `r`, among elements below `n` that `use` names. -/
def State.rangePois (s : State) (r : VReg) (w n : Nat) (use : Nat → Bool) : Option Nat :=
  ((List.range n).find? fun i => use i && s.vpois r w i).map fun i => s.vregOf r w i

/-- The first of two. -/
def orElse (a b : Option Nat) : Option Nat := if a.isSome then a else b

/-- Elements `0 .. n-1` written where `f` gives a value. -/
def putAll (vd : VReg) (w : Nat) (f : Nat → Option Nat) (n : Nat) (s : State) : State :=
  (List.range n).foldl (fun s i => match f i with | some x => s.vput vd w i x | none => s) s

/-- Bits `0 .. n-1` of a mask written where `f` gives a value; all of them written, its poison clears. -/
def putMask (md : MReg) (f : Nat → Option Bool) (n : Nat) (s : State) : State :=
  let t := (List.range n).foldl (fun s i => match f i with | some x => s.mput md i x | none => s) s
  if s.maskBits ≤ n && (List.range n).all fun i => (f i).isSome then t.munpois md else t

/-- The scalar result of a vector instruction is written as it completes (R26). -/
def scalarDone (d : SReg) (x : Dword) (s : State) : State := (s.wr d x).vdone

end Sys2Proof.Machine
end

