-- ==== Sys2Proof/Machine/VFp.lean ====
section
/-! DEFINITION. Vector floating point (R120 to R122) and the compares (R123, R124). -/

namespace Sys2Proof.Machine

open Sys2Proof

/-- The SEW a format needs (R120). -/
def fmtSew (f : FFmt) : Nat := (fmtOf f).w

/-- The mode of a rounding field: its own, or FMODE's when dynamic (R63, R122). -/
def modeOf (s : State) (rm : BitVec 3) : Nat := if rm = 0 then rmField s.ctx.fmode else rm.toNat

/-- Whether a rounding field is allowed where SR is not (R64, R122). -/
def modeOk (s : State) (rm : BitVec 3) : Bool := rmArith (modeOf s rm)

/-- The checks of a VFP instruction (R109, R120, R122). -/
def vfpChk (f : FFmt) (regs : List VReg) (rmOk : State → Bool) (s : State) : PushChk :=
  vchk s true regs (rmOk s) fun w g => s.groupsOk regs g && w = fmtSew f

/-- A result of an arithmetic operation, with its flags. -/
def cvOf (r : Nat × Nat) : Cv := ⟨r.1, r.2, false⟩

/-- A rounding operation on va[i] and bval(i) (R121, R122). -/
def vfpRound (i : Instr) (g : Fmt → Nat → Nat → Nat → Nat × Nat) (f : FFmt) (vd va : VReg) (b : BOp) (rm : BitVec 3)
    (p : Pred) (s : State) : Out :=
  vecOp i (vfpChk f (vd :: va :: bVecs b) fun s => modeOk s rm) 0 (bReg b) 0 (fun e s =>
    elementwise e p vd (va :: bVecs b)
      (fun j => cvOf (g (fmtOf f) (modeOf s rm) (s.vget va e.sew j) (bval s e b e.sew j))) s) s

/-- The meaning of VFADD (R121). -/
def execVfadd (f : FFmt) (vd va : VReg) (b : BOp) (rm : BitVec 3) (p : Pred) (s : State) : Out :=
  vfpRound (.vfadd f vd va b rm p) fpAdd f vd va b rm p s

/-- The meaning of VFSUB (R121). -/
def execVfsub (f : FFmt) (vd va : VReg) (b : BOp) (rm : BitVec 3) (p : Pred) (s : State) : Out :=
  vfpRound (.vfsub f vd va b rm p) fpSub f vd va b rm p s

/-- The meaning of VFMUL (R121). -/
def execVfmul (f : FFmt) (vd va : VReg) (b : BOp) (rm : BitVec 3) (p : Pred) (s : State) : Out :=
  vfpRound (.vfmul f vd va b rm p) fpMul f vd va b rm p s

/-- The meaning of VFDIV (R121). -/
def execVfdiv (f : FFmt) (vd va : VReg) (b : BOp) (rm : BitVec 3) (p : Pred) (s : State) : Out :=
  vfpRound (.vfdiv f vd va b rm p) fpDiv f vd va b rm p s

/-- The meaning of VFSQRT (R121). -/
def execVfsqrt (f : FFmt) (vd va : VReg) (rm : BitVec 3) (p : Pred) (s : State) : Out :=
  vfpRound (.vfsqrt f vd va rm p) (fun g m x _ => fpSqrt g m x) f vd va (.s 0) rm p s

/-- VFMIN and VFMAX (R121): they do not round. -/
def vfpMinMax (i : Instr) (max : Bool) (f : FFmt) (vd va : VReg) (b : BOp) (p : Pred) (s : State) : Out :=
  vecOp i (vfpChk f (vd :: va :: bVecs b) fun _ => true) 0 (bReg b) 0 (fun e s =>
    elementwise e p vd (va :: bVecs b)
      (fun j => cvOf (fpMinMax (fmtOf f) max (s.vget va e.sew j) (bval s e b e.sew j))) s) s

/-- The meaning of VFMIN (R121). -/
def execVfmin (f : FFmt) (vd va : VReg) (b : BOp) (p : Pred) (s : State) : Out :=
  vfpMinMax (.vfmin f vd va b p) false f vd va b p s

/-- The meaning of VFMAX (R121). -/
def execVfmax (f : FFmt) (vd va : VReg) (b : BOp) (p : Pred) (s : State) : Out :=
  vfpMinMax (.vfmax f vd va b p) true f vd va b p s

/-- VFMA and VFNMS (R121): vd[i] ± va[i] × bval(i) with one rounding. -/
def vfpFma (i : Instr) (sub : Bool) (f : FFmt) (vd va : VReg) (b : BOp) (rm : BitVec 3) (p : Pred) (s : State) : Out :=
  vecOp i (vfpChk f (vd :: va :: bVecs b) fun s => modeOk s rm) 0 (bReg b) 0 (fun e s =>
    elementwise e p vd (vd :: va :: bVecs b)
      (fun j => cvOf (fpFma (fmtOf f) (modeOf s rm) (s.vget vd e.sew j) (s.vget va e.sew j) (bval s e b e.sew j) sub)) s) s

/-- The meaning of VFMA (R121). -/
def execVfma (f : FFmt) (vd va : VReg) (b : BOp) (rm : BitVec 3) (p : Pred) (s : State) : Out :=
  vfpFma (.vfma f vd va b rm p) false f vd va b rm p s

/-- The meaning of VFNMS (R121). -/
def execVfnms (f : FFmt) (vd va : VReg) (b : BOp) (rm : BitVec 3) (p : Pred) (s : State) : Out :=
  vfpFma (.vfnms f vd va b rm p) true f vd va b rm p s

/-- VFABS and VFNEG (R121, R122): only the sign bit changes, and only NF is raised. -/
def vfpSign (i : Instr) (g : Nat → Nat → Nat) (f : FFmt) (vd va : VReg) (p : Pred) (s : State) : Out :=
  vecOp i (vfpChk f [vd, va] fun _ => true) 0 0 0 (fun e s =>
    elementwise e p vd [va] (fun j =>
      let x := g (fmtOf f).w (s.vget va e.sew j)
      ⟨x, nfOf (fmtOf f) x, false⟩) s) s

/-- The meaning of VFABS (R121). -/
def execVfabs (f : FFmt) (vd va : VReg) (p : Pred) (s : State) : Out :=
  vfpSign (.vfabs f vd va p) (fun w x => x % 2 ^ (w - 1)) f vd va p s

/-- The meaning of VFNEG (R121). -/
def execVfneg (f : FFmt) (vd va : VReg) (p : Pred) (s : State) : Out :=
  vfpSign (.vfneg f vd va p) (fun w x => x ^^^ 2 ^ (w - 1)) f vd va p s

/-- An integer condition at `w` bits (R123). -/
def icondHolds (c : ICond) (w x y : Nat) : Bool :=
  match c with
  | .eq => decide (x = y)
  | .ne => decide (x ≠ y)
  | .lt => decide (sextN x w < sextN y w)
  | .le => decide (sextN x w ≤ sextN y w)
  | .ltu => decide (x < y)
  | .leu => decide (x ≤ y)

/-- The meaning of an integer VCMP (R123). -/
def execVcmp (cc : ICond) (md : MReg) (va : VReg) (b : BOp) (p : Pred) (s : State) : Out :=
  vecOp (.vcmp cc md va b p) (fun s => vchk s true (va :: bVecs b) true fun _ g => s.groupsOk (va :: bVecs b) g)
    0 (bReg b) 0 (fun e s =>
    elementMask e p md (va :: bVecs b)
      (fun j => ⟨(icondHolds cc e.sew (s.vget va e.sew j) (bval s e b e.sew j)).toNat, 0, false⟩) s) s

/-- The meaning of a float VCMP (R123, R124). -/
def execVfcmp (cc : FCond) (f : FFmt) (md : MReg) (va : VReg) (b : BOp) (p : Pred) (s : State) : Out :=
  vecOp (.vfcmp cc f md va b p) (vfpChk f (va :: bVecs b) fun _ => true) 0 (bReg b) 0 (fun e s =>
    elementMask e p md (va :: bVecs b) (fun j =>
      let r := fcondHolds (fmtOf f) cc (s.vget va e.sew j) (bval s e b e.sew j)
      ⟨r.1.toNat, r.2, false⟩) s) s

end Sys2Proof.Machine
end

