-- ==== Sys2Proof/Machine/Convert.lean ====
section
/-! DEFINITION. VCVT (R172, R173) and the quantising instructions VQ4, VDQ4, VQT8, VDT8 and VABSMAX (R174 to R179). -/

namespace Sys2Proof.Machine

open Sys2Proof

/-- Bits of an element of a format code (R158). -/
def codeBits (c : Nat) : Nat :=
  if c < 8 then 8 * 2 ^ (c % 4) else if c < 10 then 16 else if c = 10 then 32 else if c = 11 then 64 else 8

/-- The group size of elements of `w` bits that number as those of G registers at SEW do (R172, R174). -/
def derived (g w sew : Nat) : Nat := if g * w < sew then 1 else g * w / sew

/-- Whether a conversion's rounding field is allowed (R63, R64): SR included. -/
def cvtModeOk (s : State) (rm : BitVec 3) : Bool := rm = 6 || modeOk s rm

/-- The checks of VCVT (R172). -/
def vcvtChk (src dst : BitVec 4) (vd va : VReg) (rm : BitVec 3) (s : State) : PushChk :=
  let sw := codeBits src.toNat
  let dw := codeBits dst.toNat
  vchk s true [vd, va] ((src.toNat < 8 && dst.toNat < 8) || cvtModeOk s rm) fun w g =>
    w = sw && s.groupOk va g && s.groupOk vd (derived g dw sw)

/-- QCNT and CLIPCNT raised (R171). -/
def count (q c : Nat) (s : State) : State :=
  s.updCtx fun x => { x with qcnt := x.qcnt + .ofNat 64 q, clipcnt := x.clipcnt + .ofNat 64 c }

/-- VCVT at VCP (R173): elements of the source at the source width, of the destination at its own. Restarted at VSTART over a
destination that overlaps its source, it reads the source group as it then stands (assumption 64). -/
def vcvtRun (src dst : BitVec 4) (vd va : VReg) (rm : BitVec 3) (ns : Bool) (p : Pred) (e : Entry) (s : State) : State :=
  let sw := codeBits src.toNat
  let dw := codeBits dst.toNat
  let conv (i : Nat) : Cv := convertElem src.toNat dst.toNat (modeOf s rm) ns (s.vget va sw i)
    (srBits s.ctx.seed.toNat s.ctx.vbase.toNat dst.toNat i)
  let counted (c : Bool) (t : State) : State := if dst.toNat = 12 ∨ dst.toNat = 13 then count 1 c.toNat t else t
  elemRun e (if sw < dw then dw else sw) p (elemOf s [(va, sw)] conv) (fun i x t => t.vput vd dw i x) counted s

/-- The meaning of VCVT (R172, R173). -/
def execVcvt (src dst : BitVec 4) (vd va : VReg) (rm : BitVec 3) (ns : Bool) (p : Pred) (s : State) : Out :=
  vecOp (.vcvt src dst vd va rm ns p) (vcvtChk src dst vd va rm) 0 0 0 (vcvtRun src dst vd va rm ns p) s

/-- The float format of a quantising instruction (R174). -/
def qfmt : QFmt → Fmt
  | .f32 => fmt32
  | .f16 => fmt16
  | .bf16 => fmtB16

/-- The checks of a quantising instruction (R174, R181): `data` and `codes` groups, and a register of scales. -/
def quantChk (f : QFmt) (cb : Nat) (data : VReg) (codes : List VReg) (one : List VReg) (pre : State → Bool)
    (s : State) : PushChk :=
  vchk s true (data :: codes ++ one) (pre s) fun w g =>
    w = (qfmt f).w && s.groupOk data g && codes.all fun r => s.groupOk r (derived g cb w)

/-- Nibble `j` of a group (R161). -/
def State.nibble (s : State) (v : VReg) (j : Nat) : Nat := fld (s.vget v 8 (j / 2)) (j % 2 * 4) 4

/-- Whether a value is finite. -/
def FV.isFin : FV → Bool
  | .fin .. => true
  | _ => false

/-- The magnitude of a finite value as an integer times 2^e0. -/
def magAt (v : FV) (e0 : Int) : Nat :=
  match v with
  | .fin _ m e => m * 2 ^ (e - e0).toNat
  | _ => 0

/-- The least X of 0 to 62 whose scale covers the absmax `a` × 2^-149 under M+ (R175), or 62. -/
def autoX (t a : Nat) : Nat :=
  -- M+ is c4Max × 2^-k; M+ × 2^(X - 32) ≥ a × 2^-149
  let k := (c4Int t 0).2
  ((List.range 63).find? fun x => decide (a ≤ c4Max t false * 2 ^ (117 + x - k))).getD 62

/-- One element of a finite block coded under type `t` and exponent X: the code, and whether it clips (R175). -/
def c4Elem (t rm x : Nat) (v : FV) (srh : Nat) : Nat × Bool :=
  match v with
  | .fin neg m e =>
    let k := (c4Int t 0).2
    -- |q| = m × 2^(e - (X - 32)); in integer form × 2^k
    let nd := atQuantum m 1 (e - ((x : Int) - 32) + k) 0
    let mx := c4Max t neg
    if mx * nd.2 < nd.1 then (c4Code t neg mx, true)
    else
      let g := roundGrid rm ((c4Grid t).filter (· ≤ mx)) nd.1 nd.2 srh
      (c4Code t neg g, false)
  | _ => (0, false)

/-- A coded block: its codes, scale byte, flags and clips. -/
structure Blk where
  codes : List Nat
  scale : Nat
  flags : Nat
  clips : Nat
deriving DecidableEq, Repr

/-- A block of 48 elements coded as C4 (R175); `i0` is its first element, `xs` its encodings. A block of zeros under a delayed exponent
takes that exponent, as the rule's pseudocode has it (assumption 82). -/
def c4Block (s : State) (f : Fmt) (t rm : Nat) (del : Option Nat) (i0 : Nat) (xs : List Nat) : Blk :=
  let vs := xs.map (unpack f)
  if vs.any fun v => !v.isFin then ⟨xs.map fun _ => 0, t * 64 + 63, fNF, 0⟩
  else
    let a := vs.foldl (fun m v => if m < magAt v (-149) then magAt v (-149) else m) 0
    let x := del.getD (autoX t a)
    let cs := (vs.zip (List.range vs.length)).map fun y =>
      c4Elem t rm x y.1 (srBits s.ctx.seed.toNat s.ctx.vbase.toNat 0xE (i0 + y.2))
    let n := (cs.filter (·.2)).length
    ⟨cs.map (·.1), t * 64 + x, if n = 0 then 0 else fCL, n⟩

/-- What a quantising instruction reads among elements below `n` of its data (R326). -/
def quantPois (s : State) (n : Nat) (xs : List (VReg × Nat × Nat)) : Option Nat :=
  if n = 0 then none
  else (xs.findSome? fun x => s.rangePois x.1 x.2.1 x.2.2 fun _ => true)

/-- VQ4 at VCP (R175). Where vd and vc overlap, the scale bytes are written last (assumption 83). -/
def vq4Run (t : BitVec 2) (f : QFmt) (del : Bool) (vd va vc : VReg) (rm : BitVec 3) (e : Entry) (s : State) : State :=
  let w := (qfmt f).w
  let blks := (List.range (e.n / 48)).map fun b =>
    c4Block s (qfmt f) t.toNat rm.toNat (if del then some e.c.toNat else none) (48 * b)
      ((List.range 48).map fun j => s.vget va w (48 * b + j))
  let fl := blks.foldl (fun a b => a ||| b.flags) 0
  let codes := blks.flatMap (·.codes)
  wholeOp (quantPois s e.n [(va, w, e.n)]) fl (fun u =>
    let u := putAll vd 8 (fun j => some (codes.getD (2 * j) 0 + 16 * codes.getD (2 * j + 1) 0)) (e.n / 2) u
    let u := putAll vc 8 (fun b => (blks[b]?).map (·.scale)) (e.n / 48) u
    count e.n (blks.foldl (fun a b => a + b.clips) 0) u) s

/-- The meaning of VQ4 (R174, R175): VL a multiple of 48 and a delayed exponent of at most 62, before the push. -/
def execVq4 (t : BitVec 2) (f : QFmt) (del : Bool) (vd va vc : VReg) (c : SReg) (rm : BitVec 3) (s : State) : Out :=
  vecOp (.vq4 t f del vd va vc c rm) (fun s =>
    match quantChk f 4 va [vd] [vc] (fun s => s.ctx.vl.toNat % 48 = 0) s with
    | .ok => if del && (s.sregPois [c]).isNone && 62 < (s.rd c).toNat then .illins else .ok
    | r => r) 0 0 c (vq4Run t f del vd va vc rm) s

/-- A decoding at VCP (R176, R178): element `i` becomes `f i`, with its flags. -/
def decodeRun (vd : VReg) (w : Nat) (pois : Option Nat) (f : Nat → Cv) (e : Entry) (s : State) : State :=
  wholeOp pois ((List.range e.n).foldl (fun a i => a ||| (f i).flags) 0) (putAll vd w (fun i => some (f i).bits) e.n) s

/-- VDQ4 at VCP (R176). -/
def vdq4Run (f : QFmt) (vd va vc : VReg) (rm : BitVec 3) (ns : Bool) (e : Entry) (s : State) : State :=
  let w := (qfmt f).w
  decodeRun vd w (quantPois s e.n [(va, 8, e.n / 2), (vc, 8, e.n / 48)])
    (fun i => valToFloat (qfmt f) (modeOf s rm) ns (c4Val (s.vget vc 8 (i / 48)) (s.nibble va i)) 0) e s

/-- The meaning of VDQ4 (R176). -/
def execVdq4 (f : QFmt) (vd va vc : VReg) (rm : BitVec 3) (ns : Bool) (s : State) : Out :=
  vecOp (.vdq4 f vd va vc rm ns) (quantChk f 4 vd [va] [vc] fun s => modeOk s rm && s.ctx.vl.toNat % 48 = 0)
    0 0 0 (vdq4Run f vd va vc rm ns) s

/-! T8 (R164, R177, R178). -/

/-- Entry `k` of the strand's code table. -/
def ctWord (st : Option Strand) (k : Nat) : Nat :=
  match st with
  | some st => readN st.ct (4 * k) 4
  | none => 0

/-- Whose code table an instruction reads: Mordant has none (R180), and reads zeros (assumption 18). -/
def State.ctOwner (s : State) : Option Strand := if s.isM then none else s.strand?

/-- The finite entries of the code table, by index, as integers times 2^-149. -/
def ctFinite (st : Option Strand) : List (Nat × Int) :=
  (List.range 256).filterMap fun k => match unpack fmt32 (ctWord st k) with
    | .fin n m e => some (k, scaled n m e (-149))
    | _ => none

/-- The first candidate of a list, in index order, that no other is strictly better than. -/
def bestOf (better : Int → Int → Bool) : List (Nat × Int) → Option (Nat × Int)
  | [] => none
  | x :: r => some (r.foldl (fun a y => if better y.2 a.2 then y else a) x)

/-- The code of q = qn/qd × 2^149 among finite candidates, and whether it clips (R177). -/
def t8Code (cs : List (Nat × Int)) (rm : Nat) (qn qd : Int) (srh : Nat) : Nat × Bool :=
  match bestOf (fun a b => decide (b < a)) cs, bestOf (fun a b => decide (a < b)) cs with
  | some hi, some lo =>
    if hi.2 * qd < qn then (hi.1, true)
    else if qn < lo.2 * qd then (lo.1, true)
    else if rm = 6 then
      let l := (bestOf (fun a b => decide (b < a)) (cs.filter fun x => x.2 * qd ≤ qn)).getD lo
      let h := (bestOf (fun a b => decide (a < b)) (cs.filter fun x => qn ≤ x.2 * qd)).getD hi
      if l.2 = h.2 then (l.1, false)
      else if (srh : Int) < (qn - l.2 * qd) * 65536 / ((h.2 - l.2) * qd) then (h.1, false) else (l.1, false)
    else
      let dist (x : Int) : Nat := (x * qd - qn).natAbs
      let r := bestOf (fun a b => dist a < dist b || (dist a = dist b && b.natAbs < a.natAbs)) cs
      ((r.map (·.1)).getD 0, false)
  | _, _ => (0, true)

/-- A block of T8 (R177): codes, the absmax entry, flags and clips. -/
def t8Block (s : State) (f : Fmt) (rm i0 : Nat) (xs : List Nat) : Blk :=
  let vs := xs.map (unpack f)
  if vs.any fun v => !v.isFin then ⟨xs.map fun _ => 0, canonNaN fmt32, fNF, 0⟩
  else
    let a := vs.foldl (fun m v => if m < magAt v (-149) then magAt v (-149) else m) 0
    let cand := ctFinite s.ctOwner
    let cs := (vs.zip (List.range vs.length)).map fun y =>
      let qn : Int := if a = 0 then 0 else (match y.1 with | .fin n m e => scaled n m e (-149) | _ => 0) * 2 ^ 149
      t8Code cand rm qn (if a = 0 then 1 else a) (srBits s.ctx.seed.toNat s.ctx.vbase.toNat 0xF (i0 + y.2))
    let n := (cs.filter (·.2)).length
    ⟨cs.map (·.1), (roundIeee fmt32 3 false a 1 (-149)).1, if n = 0 then 0 else fCL, n⟩

/-- The code table read at VCP: its poison traps (R326). -/
def ctPois (s : State) (n : Nat) : Option Nat := if n ≠ 0 && (s.ctOwner.map (·.pct)).getD false then some 0 else none

/-- VQT8 at VCP (R177). Where vd and vc overlap, the absmax entries are written last (assumption 83). -/
def vqt8Run (f : QFmt) (vd va vc : VReg) (rm : BitVec 3) (e : Entry) (s : State) : State :=
  let w := (qfmt f).w
  let nb := (e.n + 2047) / 2048
  let blks := (List.range nb).map fun b =>
    let len := if e.n - 2048 * b < 2048 then e.n - 2048 * b else 2048
    t8Block s (qfmt f) rm.toNat (2048 * b) ((List.range len).map fun j => s.vget va w (2048 * b + j))
  let fl := blks.foldl (fun a b => a ||| b.flags) 0
  let codes := blks.flatMap (·.codes)
  wholeOp (orElse (ctPois s e.n) (quantPois s e.n [(va, w, e.n)])) fl (fun u =>
    let u := putAll vd 8 (fun j => codes[j]?) e.n u
    let u := putAll vc 32 (fun b => (blks[b]?).map (·.scale)) nb u
    count e.n (blks.foldl (fun a b => a + b.clips) 0) u) s

/-- The meaning of VQT8 (R177). -/
def execVqt8 (f : QFmt) (vd va vc : VReg) (rm : BitVec 3) (s : State) : Out :=
  vecOp (.vqt8 f vd va vc rm) (quantChk f 8 va [vd] [vc] fun _ => true) 0 0 0 (vqt8Run f vd va vc rm) s

/-- One T8 element decoded (R178): the exact product rounded once; an invalid product is NaN with NV (assumption 18). -/
def t8Elem (f : Fmt) (rm : Nat) (ns : Bool) (ct absmax : Nat) : Cv :=
  let a := unpack fmt32 ct
  let b := unpack fmt32 absmax
  let bad := !a.isNaN && !b.isNaN && (mulFV a b).isNone
  let r := valToFloat f rm ns (t8Val ct absmax) 0
  ⟨r.bits, r.flags ||| sigNV [a, b] ||| (if bad then fNV else 0), r.clip⟩

/-- VDT8 at VCP (R178). -/
def vdt8Run (f : QFmt) (vd va vc : VReg) (rm : BitVec 3) (ns : Bool) (e : Entry) (s : State) : State :=
  let w := (qfmt f).w
  decodeRun vd w (orElse (ctPois s e.n) (quantPois s e.n [(va, 8, e.n), (vc, 32, (e.n + 2047) / 2048)]))
    (fun i => t8Elem (qfmt f) (modeOf s rm) ns (ctWord s.ctOwner (s.vget va 8 i)) (s.vget vc 32 (i / 2048))) e s

/-- The meaning of VDT8 (R178). -/
def execVdt8 (f : QFmt) (vd va vc : VReg) (rm : BitVec 3) (ns : Bool) (s : State) : Out :=
  vecOp (.vdt8 f vd va vc rm ns) (quantChk f 8 vd [va] [vc] fun s => modeOk s rm) 0 0 0 (vdt8Run f vd va vc rm ns) s

/-- The block length of VABSMAX (R179). -/
def absLen (b : AbsBlk) (n : Nat) : Nat :=
  match b with
  | .whole => n
  | .b48 => 48
  | .b2048 => 2048

/-- The largest magnitude of a block (R179): a NaN wins, made canonical; encodings of one sign order as their values do. -/
def absMaxOf (f : Fmt) (xs : List Nat) : Nat :=
  if xs.any fun x => (unpack f x).isNaN then canonNaN f
  else xs.foldl (fun m x => if m < x % 2 ^ (f.w - 1) then x % 2 ^ (f.w - 1) else m) 0

/-- VABSMAX at VCP (R179). -/
def vabsmaxRun (blk : AbsBlk) (f : QFmt) (vd va : VReg) (e : Entry) (s : State) : State :=
  let w := (qfmt f).w
  let len := absLen blk e.n
  let nb := if e.n = 0 then 0 else (e.n + len - 1) / len
  let r (b : Nat) : Nat :=
    absMaxOf (qfmt f) ((List.range (if e.n - len * b < len then e.n - len * b else len)).map fun j => s.vget va w (len * b + j))
  wholeOp (quantPois s e.n [(va, w, e.n)]) ((List.range nb).foldl (fun a b => a ||| nfOf (qfmt f) (r b)) 0)
    (putAll vd w (fun b => some (r b)) nb) s

/-- The meaning of VABSMAX (R179). -/
def execVabsmax (blk : AbsBlk) (f : QFmt) (vd va : VReg) (s : State) : Out :=
  vecOp (.vabsmax blk f vd va) (quantChk f 8 va [] [vd] fun _ => true) 0 0 0 (vabsmaxRun blk f vd va) s

end Sys2Proof.Machine
end

