-- ==== Sys2Proof/Machine/Engine.lean ====
section
/-! DEFINITION. The engine instructions (R268 to R275): CPY, CPYABORT and TLPOST. -/

namespace Sys2Proof.Machine

open Sys2Proof

/-- Whether a C0..C3, transform word, flags and multicast pass the checks of R271 to R275, for a launch of `size`. -/
def cmdOk (c : Cmd) (size : Nat) : Bool :=
  let one := c.c1 = 1 && c.c2 = 1 && c.c3 = 1
  let dz := c.d1 = 0 && c.d2 = 0 && c.d3 = 0
  let rmOk := 1 ≤ c.rm && c.rm ≤ 5
  let fltDst := c.df = 8 || c.df = 9 || c.df = 10
  let port := inPort c.src || inPort c.dst
  1 ≤ c.c0 && 1 ≤ c.c1 && 1 ≤ c.c2 && 1 ≤ c.c3 &&
  fld c.xf 22 10 = 0 && fld c.xf 4 4 = 0 &&
  (match c.op with
   | 0 => c.xf = 0
   | 1 => fld c.xf 20 2 = 0 && rmOk && c.sf < 14 && c.df < 14 && c.c0 % fmtBytes c.sf = 0 && !(c.ns && 8 ≤ c.sf && c.df < 8)
   | 2 => fld c.xf 20 2 = 0 && c.sf = 0 && rmOk && fltDst && 2 * c.c0 % 48 = 0 && one && c.s2 = 0 && c.s3 = 0 && dz
   | 3 => fld c.xf 20 2 = 0 && c.sf = 0 && rmOk && fltDst && one && c.s3 = 0 && dz
   | 4 => c.rm = 0 && !c.ns && c.df = 0 && c.sf = 0 && c.c0 % c.te = 0
   | _ => false) &&
  fld c.flg 0 2 ≠ 3 && fld c.flg 2 2 ≠ 3 && fld c.flg 4 28 = 0 &&
  c.naddr % 8 = 0 && c.baddr % 16 = 0 && c.caddr % 4 = 0 &&
  (!port || (c.op = 0 && one && c.mcast = 0)) &&
  (c.mcast = 0 ||
    (fld c.mcast 48 8 = 0 && localBase ≤ c.dst && c.dst < localBase + 0x1000000 &&
     (List.range 48).all fun j => fld c.mcast j 1 = 0 || fld c.mcast 56 8 + j < size))

/-- The scoreboard entries a command takes (R146). -/
def cmdRanges (c : Cmd) (k idx : Nat) : Nat := (c.srcRange k).isSome.toNat + (c.dstRange k idx).isSome.toNat

/-- The scoreboard entries in use on a core. -/
def sbUsed (c : Core) (k idx : Nat) : Nat :=
  c.eng.toList.foldl (fun n g => g.entries.foldl (fun n e => if e.marker then n else n + cmdRanges (parseCmd e.blk) k idx) n) 0

/-- The place of the next command in the order of issue. -/
def nextOrd (c : Core) : Nat :=
  c.eng.toList.foldl (fun n g => g.entries.foldl (fun n e => if n ≤ e.ord then e.ord + 1 else n) n) 0

/-- A context in error state is cleared (R269): the timeline goes to LAST. -/
def EngCtx.clearErr (g : EngCtx) : EngCtx := if g.err.isSome then { g with tl := g.last, err := none, errNo := 0 } else g

/-- A context with an entry issued under number LAST + 1 (R267). -/
def EngCtx.issue (g : EngCtx) (ord : Nat) (port : BitVec 3) (marker : Bool) (blk : List Dword) (w : Nat) : EngCtx :=
  { g with last := g.last + 1,
           entries := g.entries ++ [{ no := (g.last + 1).toNat, ord, port, marker, blk, progress := 0, ahead := [], left := [], w, fr := false }] }

/-- The sixteen doublewords of a number. -/
def blockWords (n : Nat) : List Dword := (List.range 16).map fun i => .ofNat 64 (n / 2 ^ (64 * i))

/-- A fault met at the second line of a read at `va`, reported as the one read's own; a walk names its node (R105). -/
def Acc.faultAt (a : Acc) (va : Nat) : Acc :=
  match a with
  | .fault f s => .fault ⟨f.cause, if f.cause = 0x09 then f.addr else va⟩ s
  | .ok s v ver => .ok s v ver
  | .wait s => .wait s

/-- 128 bytes at `va` as one scalar-stream read (R268): its faults are those of a load at `va`. -/
def readBlock (s : State) (va : Nat) (f : State → Nat → State) : State :=
  s.scalarAcc (s.acc .s 0 .r true false va 64 anyPlace fun _ => none) fun t lo _ =>
    t.scalarAcc ((t.acc .s 0 .r true false (va + 64) 64 anyPlace fun _ => none).faultAt va) fun t hi _ => f t (lo + hi * 2 ^ 512)

/-- The meaning of CPY (R268 to R275). An error clears once the context holds no entry (assumption 58). -/
def execCpy (p : BitVec 3) (k : BitVec 2) (d a : SReg) (s : State) : Out :=
  nx (s.userOnly fun s =>
    let va := (s.rd a).toNat
    if va % 128 ≠ 0 then s.trap 0x05 va
    else readBlock s va fun t n =>
      let blk := blockWords n
      let c := parseCmd blk
      let st := t.strand?
      let idx := (st.map (·.idx)).getD 0
      let core := t.actor.core.val
      let g := t.me.eng[k.toFin]
      if !cmdOk c ((st.map (·.size)).getD 0) then t.illins
      else if 6 ≤ g.entries.length ∨ (g.err.isSome ∧ g.entries ≠ []) then s.stall
      else if 16 < sbUsed t.me core idx + cmdRanges c core idx then s.stall
      else
        let t := t.updEng t.actor.core k.toFin fun g =>
          g.clearErr.issue (nextOrd t.me) p false blk t.ctx.queue.length
        t.ret d t.me.eng[k.toFin].last)

/-- The meaning of TLPOST (R270), which clears an error as CPY does (assumption 58). -/
def execTlpost (k : BitVec 2) (d : SReg) (s : State) : Out :=
  nx (s.userOnly fun s =>
    let g := s.me.eng[k.toFin]
    if 6 ≤ g.entries.length ∨ (g.err.isSome ∧ g.entries ≠ []) then s.stall
    else
      let t := s.updEng s.actor.core k.toFin fun g => g.clearErr.issue (nextOrd s.me) 0 true [] 0
      t.ret d t.me.eng[k.toFin].last)

/-- The meaning of CPYABORT (R269). -/
def execCpyabort (k : BitVec 2) (d : SReg) (s : State) : Out :=
  nx (s.userOnly fun s =>
    let t := abandonFrom s s.actor.core k.toFin 0 0x07
    t.ret d t.me.eng[k.toFin].tl)

end Sys2Proof.Machine
end

