-- ==== Sys2Proof/Machine/System.lean ====
section
/-! DEFINITION. System registers (R29, R35, R36, R100 to R104, R211, R279, R288, R315, R324) and the SYS and TRAP majors (R31, R97 to R99, R222, R227). -/

namespace Sys2Proof.Machine

open Sys2Proof

/-- The state code of a tile (R193). -/
def TileSt.code : TileSt → Nat
  | .free => 0
  | .active => 1
  | .lost => 2

/-- One tile's byte of TSTATE's low half. -/
def Tile.stateBits (t : Tile) : Nat := t.st.code + t.pers.toNat * 4

/-- The configuration bits TSTATE shows: 0 when Free (R193). -/
def Tile.cfgBits (t : Tile) : Nat := if t.st = .free then 0 else t.cfg.toNat

/-- TSTATE (R193). -/
def Strand.tstate (st : Strand) : Dword :=
  .ofNat 64 (st.z0.stateBits + st.z1.stateBits * 2 ^ 4 + st.z0.cfgBits * 2 ^ 16 + st.z1.cfgBits * 2 ^ 32)

/-- VCP (R30): the PC of the oldest vector instruction not completed, 1 when the queue is empty. -/
def Ctx.vcp (c : Ctx) : Dword := (c.queue.head?.map (·.pc)).getD 1

/-- CYCLE (R101): cycles since the partition was last formed or reset. -/
def State.cycle (s : State) : Dword :=
  match s.partOfCore s.actor.core with
  | some p => .ofNat 64 (s.now - p.born)
  | none => 0

/-- PART_ID (R101). -/
def State.partId (s : State) : Dword :=
  match s.partOfCore s.actor.core with
  | some p => .ofNat 64 (p.n * 16 + p.first)
  | none => 0

/-- A register of the acting core's partition, 0 where none is formed. -/
def State.partReg (s : State) (f : Partition → Dword) : Dword := ((s.partOfCore s.actor.core).map f).getD 0

/-- MSIRAISE as read (R315): the last vector raised, and whether it is pending; 0 while none has been raised since reset
(assumption 72). -/
def Partition.msiraise (p : Partition) : Dword :=
  match p.msiVec with
  | some v => .ofNat 64 (v.toNat + fld p.msiPend.toNat v.toNat 1 * 16)
  | none => 0

/-- The value of a system register for the acting context (R29, R35, R101, R211, R279, R288, R315, R324). What the
user strand placed on the core shows is 0 to Mordant when none is placed (R35); an index from 0x8E up reads 0
(assumption 15). -/
def sysRead (s : State) (i : Nat) : Dword :=
  let c := s.ctx
  let me := s.me
  let ofStrand (f : Strand → Dword) : Dword := (me.strand.map f).getD 0
  match i with
  | 0x00 => ofStrand fun st => .ofNat 64 st.idx
  | 0x01 => ofStrand fun st => .ofNat 64 st.size
  | 0x02 => ofStrand fun _ => .ofNat 64 s.actor.core.val
  | 0x03 => ofStrand fun _ => s.partId
  | 0x04 => ofStrand fun _ => s.cycle
  | 0x05 => c.vl
  | 0x06 => c.vtype
  | 0x07 => .ofNat 64 s.nv
  | 0x08 => c.vstart
  | 0x09 => c.vbase
  | 0x0A => c.vcp
  | 0x0B => c.fflags
  | 0x0C => c.fmode
  | 0x0D => c.seed
  | 0x0E => c.clipcnt
  | 0x0F => c.qcnt
  | 0x10 => ofStrand (·.trapvec)
  | 0x11 => ofStrand (·.trapcause)
  | 0x12 => ofStrand (·.trapaddr)
  | 0x13 => ofStrand (·.trappc)
  | 0x14 => c.padlo
  | 0x15 => c.padhi
  | 0x16 => c.padval
  | 0x17 => ofStrand Strand.tstate
  | 0x18 => ofStrand fun _ => me.modes
  | 0x80 => me.fwshare
  | 0x81 => me.ptbase
  | 0x82 => me.fcause
  | 0x83 => me.faddr
  | 0x84 => me.fpc
  | 0x85 => me.fret
  | 0x86 => me.engctl
  | 0x87 => me.efault
  | 0x89 => s.partReg (·.qtbase)
  | 0x8B => s.partReg (·.sercnt)
  | 0x8C => s.partReg (·.mepoch)
  | 0x8D => s.partReg Partition.msiraise
  | _ => 0

/-- Whether SYSR of an index waits for an empty queue (R29): the queue of the context that executes it, for Mordant too (assumption 65). -/
def sysrWaits (i : Nat) : Bool :=
  i = 0x08 || i = 0x09 || (0x0B ≤ i && i ≤ 0x0F) || (0x14 ≤ i && i ≤ 0x18)

/-- Whether SYSW of an index waits for an empty queue (R29): the queue of the context that executes it, for Mordant too (assumption 65). -/
def syswWaits (i : Nat) : Bool :=
  i = 0x08 || i = 0x09 || (0x0B ≤ i && i ≤ 0x10) || (0x14 ≤ i && i ≤ 0x18)

/-- The answer to a held engine fault (R279): 0b01 retries the paused command from a fresh walk, 0b10 fails it with code PAGE; either
clears EFAULT.V, and the fields beside it read 0 from then on (assumption 78). -/
def efact (s : State) (k : Fin 96) (act : Nat) : State :=
  let c := s.core k
  match c.efaultNo with
  | none => s
  | some no =>
    let s' := s.updCore k fun c => { c with efault := 0, efaultNo := none }
    let va := fld c.efault.toNat 0 55
    match act with
    | 1 => s'.updCore k fun c => { c with tlbE := c.tlbE.filter fun e => (tlbFind [e] e.asid va).isNone }
    | 2 => abandonFrom s' k (Fin.ofNat 4 (fld c.efault.toNat 58 2)) no 0x01
    | _ => s

/-- A message to the host (R315), appended to what has been sent. -/
def sendMsi (s : State) (p : Partition) (v : Nat) : State :=
  match p.msi[v]? with
  | some e => { s with sent := s.sent ++ [(e.addr, e.data)] }
  | none => s

/-- Whether a vector's message can be sent now (R315). -/
def Partition.msiClear (p : Partition) (v : Nat) : Bool := p.msiOn && !((p.msi[v]?.map (·.masked)).getD true)

/-- A write of MSIRAISE (R315): the vector's message is sent, or stays pending under its mask. -/
def msiRaise (s : State) (v : Dword) : State :=
  match s.partOfCore s.actor.core with
  | none => s
  | some p =>
    if !p.vfOn then s
    else
      let vec := fld v.toNat 0 4
      if p.msiClear vec then
        (sendMsi s p vec).updPart p.first fun p => { p with msiVec := some (.ofNat 4 vec) }
      else s.updPart p.first fun p => { p with msiVec := some (.ofNat 4 vec), msiPend := p.msiPend ||| (1#16 <<< vec) }

/-- A write of WDOG (R324): the partition's watchdog is refreshed. -/
def wdogRefresh (s : State) : State :=
  match s.partOfCore s.actor.core with
  | none => s
  | some p => s.updPart p.first fun p => { p with wdogAt := s.now }

/-- A register of the acting core's partition written. -/
def State.setPartReg (s : State) (f : Partition → Partition) : State :=
  match s.partOfCore s.actor.core with
  | none => s
  | some p => s.updPart p.first f

/-- A system register written (R29, R35, R36, R100 to R103, R211, R279, R288, R315, R324): writable fields as given,
reserved and read-only ones kept at zero or unchanged (R5, R6). -/
def sysWrite (s : State) (i : Nat) (x : Dword) : State :=
  match i with
  | 0x08 => s.updCtx fun c => { c with vstart := x }
  | 0x09 => s.updCtx fun c => { c with vbase := x }
  | 0x0B => s.updCtx fun c => { c with fflags := x &&& 0xFF#64 }
  | 0x0C => s.updCtx fun c => { c with fmode := x &&& 0x3F07#64 }
  | 0x0D => s.updCtx fun c => { c with seed := x }
  | 0x0E => s.updCtx fun c => { c with clipcnt := x }
  | 0x0F => s.updCtx fun c => { c with qcnt := x }
  | 0x10 => s.updStrand fun st => { st with trapvec := x }
  | 0x14 => s.updCtx fun c => { c with padlo := x }
  | 0x15 => s.updCtx fun c => { c with padhi := x }
  | 0x16 => s.updCtx fun c => { c with padval := x }
  | 0x80 => s.updMe fun c => { c with fwshare := .ofNat 64 (if 16 < fld x.toNat 0 5 then 16 else fld x.toNat 0 5) }
  | 0x81 => s.updMe fun c => { c with ptbase := x &&& 0xFFFF03FFFFFF0300#64 }
  | 0x85 => s.updMe fun c => { c with fret := x &&& 3#64 }
  | 0x86 => s.updMe fun c => { c with engctl := x &&& 1#64 }
  | 0x88 => efact s s.actor.core (fld x.toNat 0 2)
  | 0x89 => s.setPartReg fun p => { p with qtbase := x &&& 0x3FFFFFF0300#64 }
  | 0x8A => wdogRefresh s
  | 0x8B => s.setPartReg fun p => { p with sercnt := x }
  | 0x8D => msiRaise s x
  | _ => s

/-- The meaning of SYSR (R100): firmware indices are Mordant's alone (R74). -/
def execSysr (d : SReg) (i : BitVec 8) (s : State) : Out :=
  nx (if 0x80 ≤ i.toNat ∧ !s.isM then s.illins
      else if sysrWaits i.toNat ∧ !s.qEmpty then s.stall
      else s.ret d (sysRead s i.toNat))

/-- The meaning of SYSW (R100): a read-only index retires and changes nothing (R74). -/
def execSysw (i : BitVec 8) (a : SReg) (s : State) : Out :=
  nx (if 0x80 ≤ i.toNat ∧ !s.isM then s.illins
      else if syswWaits i.toNat ∧ !s.qEmpty then s.stall
      else (sysWrite s i.toNat (s.rd a)).retire)

/-- The meaning of NOP (R97). -/
def execNop (s : State) : Out := nx s.retire

/-- Whether HALT's conditions hold (R31): an empty queue, every access performed, no engine entry outstanding. -/
def State.canHalt (s : State) : Bool := s.qEmpty && s.me.eng.toList.all fun g => g.entries.isEmpty

/-- HALT (R31): the strand stops once its conditions hold, and its launch's count of halted strands grows; until then it
waits. Mordant at HALT stops until its next start (assumption 16). -/
def haltOp (s : State) : State :=
  if s.isM then (if s.qEmpty then s.updMe fun c => { c with mOn := false } else s.stall)
  else if s.canHalt then
    match s.strand? with
    | none => s.retire
    | some st =>
      (s.retire.updStrand fun st => { st with run := .halted }).updLaunch st.part st.launch fun l =>
        { l with halted := st.idx :: l.halted }
  else s.stall

/-- The meaning of HALT (R31, R97). -/
def execHalt (s : State) : Out := nx (haltOp s)

/-- The meaning of YIELD (R97): the core's scalar slots are offered to Mordant for at most 64 cycles. Mordant's own only retires
(assumption 88). -/
def execYield (s : State) : Out :=
  nx (if s.isM then s.retire else (s.updMe fun c => { c with yieldTo := s.now + 64 }).retire)

/-- An instruction that retires and then traps, TRAPPC the successor (R97, R99, R220). -/
def retireTrap (s : State) (cause : Nat) (addr : Dword) : State :=
  takeTrap s.retire cause addr false (some s.ctx.pc)

/-- The meaning of BRK (R97). -/
def execBrk (s : State) : Out := nx (retireTrap s 0x12 0)

/-- The meaning of TRAP (R99). -/
def execTrap (n : BitVec 8) (s : State) : Out := nx (retireTrap s 0x13 (n.zeroExtend 64))

/-- The meaning of FENCE.V2S (R98): every pushed vector instruction's accesses have performed once the queue is empty. -/
def execFenceV2s (s : State) : Out := nx (if s.qEmpty then s.retire else s.stall)

/-- The meaning of FENCE.S2V (R98): every earlier scalar access has performed already. -/
def execFenceS2v (s : State) : Out := nx s.retire

/-- The meaning of FENCE.ALL (R98): both, and instruction fetch is refreshed (R61). -/
def execFenceAll (s : State) : Out :=
  nx (if s.qEmpty then (s.updCtx fun c => { c with icache := [] }).retire else s.stall)

/-- The meaning of VDRAIN (R98). -/
def execVdrain (s : State) : Out := nx (if s.qEmpty then s.retire else s.stall)

/-- The meaning of ERET (R222). -/
def execEret (s : State) : Out :=
  nx (s.fwOnly fun s =>
    let r := eretOn s s.actor.core
    if r.2 then r.1.retire else r.1)

end Sys2Proof.Machine
end

