-- ==== Sys2Proof/Machine/EngEvents.lean ====
section
/-! DEFINITION. The events of a core's copy engine (R266, R267, R270, R272, R277 to R281): dispatch, completion with checksum
and notify, markers, errors, and faults held for Mordant. All act on the acting core. -/

namespace Sys2Proof.Machine

open Sys2Proof

/-- The entry of a port that stands first in the order of issue, with its context (R266). -/
def Core.oldest (c : Core) (p : BitVec 3) : Option (Fin 4 × EngEntry) :=
  ([0, 1, 2, 3] : List (Fin 4)).foldl (fun m i => c.eng[i].entries.foldl (fun m e =>
    if e.marker || e.port ≠ p then m
    else match m with
      | none => some (i, e)
      | some x => if e.ord < x.2.ord then some (i, e) else m) m) none

/-- Whether an entry may issue accesses: the vector accesses before it have performed (R236), its strand is placed and not
being swapped out (R281), and ENGQ has not stopped the engine (R227). -/
def Core.engMay (c : Core) (e : EngEntry) : Bool :=
  e.w = 0 && !c.engOff && match c.strand with
    | some st => st.frz ≠ .swap
    | none => false

/-- Whether a held fault pauses an entry of context `i` (R279). -/
def Core.paused (c : Core) (i : Fin 4) (e : EngEntry) : Bool :=
  c.efaultNo = some e.no && fld c.efault.toNat 58 2 = i.val

/-- An entry of a context changed. -/
def EngCtx.updEntry (g : EngCtx) (no : Nat) (f : EngEntry → EngEntry) : EngCtx :=
  { g with entries := g.entries.map fun e => if e.no = no then f e else e }

/-- The meaning of COMMAND_DISPATCH (R266, R272): the first command of a port moves up to `n` more units, and reads up to
`n` ahead; one that cannot perform yet, or meets an error or a fault, is left unmoved. -/
def execCommandDispatch (p : BitVec 3) (n : Nat) (s : State) : Out :=
  let k := s.actor.core
  nx (match s.me.oldest p with
      | none => s
      | some (i, e) =>
        if !s.me.engMay e || s.me.paused i e then s
        else
          let c := parseCmd e.blk
          let last := c.total / c.unit
          let r := moveUnits k c last n (e.progress / c.unit) e.ahead e.left s
          let q := readAhead k c last n (r.1 + r.2.1.length) r.2.2.2.1
          q.2.updEng k i fun g => g.updEntry e.no fun e =>
            { e with progress := r.1 * c.unit, ahead := r.2.1 ++ q.1, left := r.2.2.1 })

/-! The checksum (R277). -/

/-- One byte of CRC-32C, `n` bits of it left, reflected. -/
def crcBits : Nat → Nat → Nat
  | 0, x => x
  | n + 1, x => crcBits n (if x % 2 = 1 then (x / 2) ^^^ 0x82F63B78 else x / 2)

/-- CRC-32C of RFC 3720. -/
def crc32c (bs : List Nat) : Nat := bs.foldl (fun x b => crcBits 8 (x ^^^ b)) 0xFFFFFFFF ^^^ 0xFFFFFFFF

/-- An address added to a strictly rising list. -/
def insertAddr (a : Nat) : List Nat → List Nat
  | [] => [a]
  | b :: r => if a < b then a :: b :: r else if a = b then b :: r else b :: insertAddr a r

/-- Every destination address of a command once, rising. -/
def Cmd.dstAddrs (c : Cmd) : List Nat := (List.range c.total).foldl (fun l i => insertAddr (c.dstAt i) l) []

/-- The byte at a destination address now; under multicast, in the copy of the lowest selected strand. One that selects none has no copy, and
`checksum` asks for none of its bytes (assumption 20). -/
def dstByte (k : Fin 96) (c : Cmd) (a : Nat) (s : State) : Mv (State × Nat) :=
  if c.mcast = 0 then
    (access s k false false .e (fld c.flg 2 2) .w true false a 1 (sepiaOk c.op) fun _ => none).mv
  else match (mcTargets s k c).head? with
    | none => .err 0x04
    | some t => match mcKey s t a with
      | some key => if s.poisonedAt key 1 then .err 0x05 else .ok (s, s.readKey key 1)
      | none => .err 0x04

/-- What a command with a checksum has left, as its destination stands at a resume (R281). -/
def relearn (k : Fin 96) (s : State) (e : EngEntry) : State × EngEntry :=
  let c := parseCmd e.blk
  if e.marker || c.caddr = 0 || inPort c.dst then (s, e)
  else
    let r := (List.range e.progress).foldl (fun (m : State × List (Nat × Byte)) i =>
      match dstByte k c (c.dstAt i) m.1 with
      | .ok q => (q.1, leaveByte (c.dstAt i) (.ofNat 8 q.2) m.2)
      | _ => m) (s, [])
    (r.1, { e with left := r.2 })

/-- The byte a command left at a destination address (R277); one it left before a resume that could not read it is read now
(R281). -/
def leftByte (k : Fin 96) (c : Cmd) (l : List (Nat × Byte)) (a : Nat) (s : State) : Mv (State × Nat) :=
  match l.find? fun x => x.1 = a with
  | some x => .ok (s, x.2.toNat)
  | none => dstByte k c a s

/-- The bytes a command left, in increasing address order. -/
def dstBytes (k : Fin 96) (c : Cmd) (l : List (Nat × Byte)) : List Nat → State → Mv (State × List Nat)
  | [], s => .ok (s, [])
  | a :: r, s => (leftByte k c l a s).bind fun x => (dstBytes k c l r x.1).bind fun y => .ok (y.1, x.2 :: y.2)

/-- The checksum of a command; at a FIFO port, whose one address holds no byte, a free value, and of no bytes under a multicast that
selects no strand (assumption 20). -/
def checksum (k : Fin 96) (c : Cmd) (l : List (Nat × Byte)) (s : State) : Mv (State × Nat) :=
  if inPort c.dst then
    let r := s.free Config.fifoChecksum
    .ok (r.2, r.1.toNat)
  else if c.mcast ≠ 0 && fld c.mcast 0 48 = 0 then .ok (s, crc32c [])
  else (dstBytes k c l c.dstAddrs s).bind fun r => .ok (r.1, crc32c r.2)

/-- One engine write of `n` bytes as one access. -/
def engStore (k : Fin 96) (va n v : Nat) (s : State) : Mv State :=
  (access s k false false .e 0 .w false false va n anyPlace fun _ => some v).mv.bind fun r => .ok r.1

/-- The writes that follow the payload: the checksum, then the notify (R277). -/
def finishWrites (k : Fin 96) (c : Cmd) (l : List (Nat × Byte)) (s : State) : Mv State :=
  (if c.caddr = 0 then .ok s else (checksum k c l s).bind fun r => engStore k c.caddr 4 r.2 r.1).bind fun s =>
    if c.naddr = 0 then .ok s else engStore k c.naddr 8 c.nval s

/-- An entry leaves its context, and the timeline may advance (R267). -/
def EngCtx.remove (g : EngCtx) (no : Nat) : EngCtx := { g with entries := g.entries.filter fun e => e.no ≠ no }.advance

/-- The command of a context whose payload is done and whose port it leads. -/
def Core.payloadDone (c : Core) (i : Fin 4) : Option EngEntry :=
  c.eng[i].entries.find? fun e => !e.marker && e.progress = (parseCmd e.blk).total && c.engMay e &&
    (c.oldest e.port).any fun x => x.1 = i && x.2.no = e.no

/-- The meaning of COMMAND_COMPLETE (R277): checksum and notify are written, and the command completes. -/
def execCommandComplete (i : BitVec 2) (s : State) : Out :=
  let k := s.actor.core
  nx (match s.me.payloadDone i.toFin with
      | none => s
      | some e =>
        if s.me.paused i.toFin e then s
        else match finishWrites k (parseCmd e.blk) e.left s with
          | .ok s => s.updEng k i.toFin fun g => g.remove e.no
          | _ => s)

/-- The meaning of MARKER_COMPLETE (R270): the oldest entry of a context, if it is a marker, completes. -/
def execMarkerComplete (i : BitVec 2) (s : State) : Out :=
  nx (match s.me.eng[i.toFin].entries.head? with
      | none => s
      | some e => if e.marker then s.updEng s.actor.core i.toFin fun g => g.remove e.no else s)

/-! Errors and held faults. -/

/-- What the next access of an entry meets. -/
def entryNext (s : State) (k : Fin 96) (e : EngEntry) : Mv State :=
  let c := parseCmd e.blk
  if e.progress < c.total then (moveUnit k c (e.progress / c.unit) e.ahead s).bind fun r => .ok r.1
  else finishWrites k c e.left s

/-- Whether core `k`'s strand is frozen: its trap is held, or a swap-out or debugger holds it. -/
def Core.frozen (c : Core) : Bool :=
  match c.strand with
  | some st => st.run = .held || st.frz ≠ .none
  | none => false

/-- Whether the next unit of a command waits on a FIFO (R227, R275), its source's or its destination's. An access through the CLUSTER
window that another core's scoreboard delays (R147) is no such wait. -/
def fifoWaits (s : State) (k : Fin 96) (e : EngEntry) : Bool :=
  let c := parseCmd e.blk
  let u := e.progress / c.unit
  e.progress < c.total && match takeUnit k c u e.ahead s with
    | .wait => inPort c.src
    | .ok r => inPort c.dst && (match unitDeliver k c u r.2 r.1 with | .wait => true | _ => false)
    | _ => false

/-- Whether a command waits on a FIFO or a held fault, or on vector accesses of the frozen strand (R227). -/
def entryWaits (s : State) (k : Fin 96) (i : Fin 4) (e : EngEntry) : Bool :=
  !e.marker && ((0 < e.w && (s.core k).frozen) || (s.core k).paused i e ||
    (e.w = 0 && (fifoWaits s k e || match entryNext s k e with
      | .flt _ => (s.core k).efaultNo.isSome
      | _ => false)))

/-- Whether every entry of core `k` waits, or stands behind one that does: a command behind one of its port (R266), a marker
behind an earlier entry of its context (R227, R270). An engine that ENGQ has stopped stays drained till the strand resumes. -/
def engDrained (s : State) (k : Fin 96) : Bool :=
  let c := s.core k
  let any (f : Fin 4 → EngEntry → Bool) : Bool := ([0, 1, 2, 3] : List (Fin 4)).any fun i => c.eng[i].entries.any (f i)
  c.engOff || !any fun i e =>
    if e.marker then !c.eng[i].entries.any fun f => f.no < e.no
    else !entryWaits s k i e && !any fun j f => !f.marker && f.port = e.port && f.ord < e.ord && entryWaits s k j f

/-- The meaning of ENGQ (R227): drain or abort; a frozen strand's engine then stays stopped until it resumes. -/
def execEngq (s : State) : Out :=
  nx (s.fwOnly fun s =>
    let k := s.actor.core
    if s.me.strand.isNone then s.retire
    else if fld s.me.engctl.toNat 0 1 = 1 then (abortAll s k).retire
    else if engDrained s k then (s.updMe fun c => { c with engOff := c.frozen }).retire
    else s.stall)

/-- Whether an entry meets an error of a code. -/
def meets (s : State) (k : Fin 96) (i : Fin 4) (e : EngEntry) (code : BitVec 8) : Bool :=
  !e.marker && s.me.engMay e && ((s.me.oldest e.port).any fun x => x.1 = i && x.2.no = e.no) &&
  match entryNext s k e with
  | .err c => c = code
  | _ => false

/-- The meaning of ENGINE_ERROR (R278, R280): the command of a context that meets the error is abandoned with every later
entry, and the context enters error state. -/
def execEngineError (i : BitVec 2) (code : BitVec 8) (s : State) : Out :=
  let k := s.actor.core
  nx (match s.me.eng[i.toFin].entries.find? fun e => meets s k i.toFin e code with
      | none => s
      | some e => abandonFrom s k i.toFin e.no code)

/-- EFAULT for a held fault (R279). -/
def efaultWord (ctx : Fin 4) (f : Flt) : Dword :=
  let kind := if f.cause = 0x06 then 0 else if f.cause = 0x09 then 2 else 1
  .ofNat 64 (2 ^ 63 + ctx.val * 2 ^ 58 + kind * 2 ^ 56 + f.addr % 2 ^ 55)

/-- The meaning of ENGINE_FAULT_HOLD (R279): a PFLT or WALK of the first command of a port pauses it, unless a fault is
held already. -/
def execEngineFaultHold (p : BitVec 3) (s : State) : Out :=
  nx (match s.me.oldest p with
      | none => s
      | some (i, e) =>
        if !s.me.engMay e || s.me.efaultNo.isSome then s
        else match entryNext s s.actor.core e with
          | .flt f => s.updMe fun c => { c with efault := efaultWord i f, efaultNo := some e.no }
          | _ => s)

/-- The meaning of EFACT_RETRY (R279): firmware retries the paused command. -/
def execEfactRetry (s : State) : Out := nx (s.fwOnly fun s => efact s s.actor.core 1)

/-- The meaning of EFACT_FAIL (R279): firmware fails the paused command with code PAGE. -/
def execEfactFail (s : State) : Out := nx (s.fwOnly fun s => efact s s.actor.core 2)

end Sys2Proof.Machine
end

