-- ==== Sys2Proof/Machine/LoadStore.lean ====
section
/-! DEFINITION. Scalar loads and stores (R93 to R96), with LDV (R94, R246). -/

namespace Sys2Proof.Machine

open Sys2Proof

/-- The effective address of a load or store (R93). -/
def effAddr (s : State) (a : SReg) (k : BitVec 22) : Dword := s.rd a + k.signExtend 64

/-- A scalar load of `n` bytes (R93, R95); `f` makes the register's value of the bytes. -/
def loadOp (n : Nat) (f : Nat → Dword) (d a : SReg) (k : BitVec 22) (s : State) : Out :=
  let ea := (effAddr s a k).toNat
  nx (if ea % n ≠ 0 then s.trap 0x05 ea
      else s.scalarAcc (s.acc .s 0 .r true true ea n anyPlace fun _ => none) fun t v _ => t.ret d (f v))

/-- A scalar store of `n` bytes (R93, R95). -/
def storeOp (n : Nat) (a : SReg) (k : BitVec 22) (d : SReg) (s : State) : Out :=
  let ea := (effAddr s a k).toNat
  nx (if ea % n ≠ 0 then s.trap 0x05 ea
      else s.scalarAcc (s.acc .s 0 .w false true ea n anyPlace fun _ => some ((s.rd d).toNat % 256 ^ n)) fun t _ _ => t.retire)

/-- The sign extension of the low `w` bits. -/
def sextD (w x : Nat) : Dword := .ofInt 64 (sextN x w)

/-- The meaning of LDB (R93). -/
def execLdb (d a : SReg) (k : BitVec 22) (s : State) : Out := loadOp 1 (sextD 8) d a k s
/-- The meaning of LDBU (R93). -/
def execLdbu (d a : SReg) (k : BitVec 22) (s : State) : Out := loadOp 1 (.ofNat 64) d a k s
/-- The meaning of LDH (R93). -/
def execLdh (d a : SReg) (k : BitVec 22) (s : State) : Out := loadOp 2 (sextD 16) d a k s
/-- The meaning of LDHU (R93). -/
def execLdhu (d a : SReg) (k : BitVec 22) (s : State) : Out := loadOp 2 (.ofNat 64) d a k s
/-- The meaning of LDW (R93). -/
def execLdw (d a : SReg) (k : BitVec 22) (s : State) : Out := loadOp 4 (sextD 32) d a k s
/-- The meaning of LDWU (R93). -/
def execLdwu (d a : SReg) (k : BitVec 22) (s : State) : Out := loadOp 4 (.ofNat 64) d a k s
/-- The meaning of LDD (R93). -/
def execLdd (d a : SReg) (k : BitVec 22) (s : State) : Out := loadOp 8 (.ofNat 64) d a k s

/-- Where LDV may read (R94, R246): not a window, an uncached page or the host tier. -/
def ldvPlace : Place → Bool
  | .xl x => x.pol ≠ 2 && x.tier ≠ 2
  | _ => false

/-- The meaning of LDV (R94): the doubleword and the version of its line at the access. -/
def execLdv (d a : SReg) (k : BitVec 22) (s : State) : Out :=
  let ea := (effAddr s a k).toNat
  nx (if ea % 8 ≠ 0 then s.trap 0x05 ea
      else s.scalarAcc (s.acc .s 0 .r true false ea 8 ldvPlace fun _ => none) fun t v ver =>
        (t.wr d (.ofNat 64 v)).ret (d + 1) ver)

/-- The meaning of STB (R93). -/
def execStb (a : SReg) (k : BitVec 22) (d : SReg) (s : State) : Out := storeOp 1 a k d s
/-- The meaning of STH (R93). -/
def execSth (a : SReg) (k : BitVec 22) (d : SReg) (s : State) : Out := storeOp 2 a k d s
/-- The meaning of STW (R93). -/
def execStw (a : SReg) (k : BitVec 22) (d : SReg) (s : State) : Out := storeOp 4 a k d s
/-- The meaning of STD (R93). -/
def execStd (a : SReg) (k : BitVec 22) (d : SReg) (s : State) : Out := storeOp 8 a k d s

end Sys2Proof.Machine
end

