-- ==== Sys2Proof/Machine/Mask.lean ====
section
/-! DEFINITION. The mask operations (R125, R126) and the delivery of a scalar result (R26). -/

namespace Sys2Proof.Machine

open Sys2Proof

/-- Mask logic on bits 0 to VL−1 (R125). -/
def maskRun (d : MReg) (srcs : List MReg) (f : Nat → Bool) (e : Entry) (s : State) : State :=
  wholeOp (if e.n = 0 then none else s.maskPois srcs) 0 (putMask d (fun i => some (f i)) e.n) s

/-- A mask operation over two masks. -/
def maskOp (i : Instr) (f : Bool → Bool → Bool) (d a b : MReg) (s : State) : Out :=
  vecOp i (fun s => vchk s true [] true fun _ _ => true) 0 0 0 (fun e s =>
    maskRun d [a, b] (fun j => f (s.mbit a j) (s.mbit b j)) e s) s

/-- The meaning of MAND (R125). -/
def execMand (d a b : MReg) (s : State) : Out := maskOp (.mand d a b) (fun x y => x && y) d a b s
/-- The meaning of MOR (R125). -/
def execMor (d a b : MReg) (s : State) : Out := maskOp (.mor d a b) (fun x y => x || y) d a b s
/-- The meaning of MXOR (R125). -/
def execMxor (d a b : MReg) (s : State) : Out := maskOp (.mxor d a b) (fun x y => x != y) d a b s
/-- The meaning of MANDN (R125). -/
def execMandn (d a b : MReg) (s : State) : Out := maskOp (.mandn d a b) (fun x y => x && !y) d a b s
/-- The meaning of MNOT (R125). -/
def execMnot (d a : MReg) (s : State) : Out := maskOp (.mnot d a) (fun x _ => !x) d a a s

/-- A mask filled with one bit. -/
def maskFill (i : Instr) (v : Bool) (d : MReg) (s : State) : Out :=
  vecOp i (fun s => vchk s true [] true fun _ _ => true) 0 0 0 (fun e s => maskRun d [] (fun _ => v) e s) s

/-- The meaning of MSET (R125). -/
def execMset (d : MReg) (s : State) : Out := maskFill (.mset d) true d s
/-- The meaning of MCLR (R125). -/
def execMclr (d : MReg) (s : State) : Out := maskFill (.mclr d) false d s

/-- A scalar result read from a mask over bits 0 to VL−1 (R126), delivered under R26. -/
def maskScalar (i : Instr) (f : State → Nat → Dword) (d : SReg) (a : MReg) (s : State) : Out :=
  vecOp i (fun s => vchk s true [] true fun _ _ => true) 0 0 0 (fun e s =>
    match (if e.n = 0 then none else s.maskPois [a]) with
    | some r => s.vtrapAt 0 0x11 r
    | none => scalarDone d (f s e.n) s) s

/-- The meaning of MPOPC (R126). -/
def execMpopc (d : SReg) (a : MReg) (s : State) : Out :=
  maskScalar (.mpopc d a) (fun s n => .ofNat 64 ((List.range n).filter (s.mbit a)).length) d a s

/-- The meaning of MFIRST (R126). -/
def execMfirst (d : SReg) (a : MReg) (s : State) : Out :=
  maskScalar (.mfirst d a) (fun s n => match (List.range n).find? (s.mbit a) with
    | some j => .ofNat 64 j
    | none => BitVec.allOnes 64) d a s

/-- The meaning of MTOV (R125). -/
def execMtov (vd : VReg) (a : MReg) (s : State) : Out :=
  vecOp (.mtov vd a) (fun s => vchk s true [vd] true fun _ g => s.groupOk vd g) 0 0 0 (fun e s =>
    wholeOp (if e.n = 0 then none else s.maskPois [a]) 0 (putAll vd e.sew (fun j => some (s.mbit a j).toNat) e.n) s) s

/-- The meaning of VTOM (R125). -/
def execVtom (d : MReg) (va : VReg) (s : State) : Out :=
  vecOp (.vtom d va) (fun s => vchk s true [va] true fun _ g => s.groupOk va g) 0 0 0 (fun e s =>
    wholeOp (s.rangePois va e.sew e.n fun _ => true) 0 (putMask d (fun j => some (decide (s.vget va e.sew j ≠ 0))) e.n) s) s

end Sys2Proof.Machine
end

