-- ==== Sys2Proof/Machine/VCfg.lean ====
section
/-! DEFINITION. VCFG (R27, R68), VSETVL and VSETVLI (R69, R117), LMCFG (R138, R139), FLSET and FLGET (R184). -/

namespace Sys2Proof.Machine

open Sys2Proof

/-- VCFG once its queue is empty (R68): the new NV, a zeroed vector file, VTYPE and VL 0. -/
def setNv (n : Nat) (s : State) : State :=
  (s.updStrand fun st => { st with nv := n }).updCtx fun c => { c with vfile := [], pvec := [], vtype := 0, vl := 0 }

/-- The meaning of VCFG (R27, R68). -/
def execVcfg (a : SReg) (s : State) : Out :=
  nx (s.userOnly fun s =>
    if !s.qEmpty then s.stall
    else
      let x := (s.rd a).toNat
      if x = 8 ∨ x = 16 ∨ x = 32 ∨ x = 64 then (setNv x s).retire else s.illins)

/-- Whether a vtype request is unsupported (R69). -/
def vtBad (s : State) (req : Nat) : Bool :=
  5 ≤ fld req 0 3 || 32 ≤ req || s.maxGroup < 2 ^ fld req 3 2

/-- VTYPE and VL of a request (R117). -/
def vtSet (s : State) (avl req : Nat) : Dword × Dword :=
  if vtBad s req then (0x100, 0)
  else
    let vt : Dword := .ofNat 64 (fld req 0 5)
    let m := s.vlmax (grpOf vt) (sewOf vt)
    (vt, .ofNat 64 (if avl < m then avl else m))

/-- VSETVL and VSETVLI (R26, R117): VL, VTYPE, d and the push, as one step; in the queue the entry changes nothing, VSTART
included. The entry captures the new VL and VTYPE, and its scalars as they are before d is written (assumption 75). -/
def setvlOp (i : Instr) (d a b : SReg) (req : State → Nat) (s : State) : Out :=
  nx (if s.actor.seq then runHead (fun _ s => s.popHead) s
      else match s.sregPois [a, b] with
      | some r => s.trap 0x11 r
      | none =>
        if s.queueFull then s.stall
        else
          let x := vtSet s (s.rd a).toNat (req s)
          let t := s.updCtx fun c => { c with vtype := x.1, vl := x.2 }
          ((t.enqueue i a b 0).wr d x.2).retire)

/-- The meaning of VSETVL (R117). -/
def execVsetvl (d a b : SReg) (s : State) : Out := setvlOp (.vsetvl d a b) d a b (fun s => (s.rd b).toNat) s

/-- The meaning of VSETVLI (R117). -/
def execVsetvli (d a : SReg) (req : BitVec 8) (s : State) : Out :=
  setvlOp (.vsetvli d a req) d a 0 (fun _ => req.toNat) s

/-! LMCFG. -/

/-- Whether a window range reaches a byte of bank `b` under a mode word (R140, R142). -/
def rangeHits (modes : Dword) (b lo hi : Nat) : Bool :=
  match bankMode modes b with
  | 2 =>
    let bs := spBanks modes
    let p := bs.length
    let j := (bs.findIdx? (· = b)).getD 0
    let end_ := if hi < p * Config.bankBytes then hi else p * Config.bankBytes
    -- the first chunk of bank b at or after the range's first chunk
    let c := lo / 64 + (j + p - lo / 64 % p) % p
    decide (lo < end_) && decide (64 * c < end_)
  | 3 => decide (lo < 0xF00000 + 64 * b + 64) && decide (0xF00000 + 64 * b < hi)
  | _ => false

/-- The banks whose mode changes (R138). -/
def changed (old new : Dword) : List Nat := (List.range 32).filter fun b => bankMode old b ≠ bankMode new b

/-- Whether a copy that precedes the LMCFG at VCP still has a range over a bank that changes (R138): one that follows it
counts it in its W (R236). -/
def lmcfgHeld (s : State) (bs : List Nat) : Bool :=
  let k := s.actor.core.val
  let idx := (s.strand?.map (·.idx)).getD 0
  let hits (r : Option (Nat × Nat)) : Bool := match r with
    | some (lo, hi) => bs.any fun b => rangeHits s.me.modes b lo hi
    | none => false
  s.me.eng.toList.any fun g => g.entries.any fun e =>
    !e.marker && (e.w = 0 || e.fr) && (hits ((parseCmd e.blk).srcRange k) || hits ((parseCmd e.blk).dstRange k idx))

/-- A bank's bytes and their poison are lost. -/
def wipeBank (core b : Nat) (s : State) : State :=
  let lo := bankKey core b 0
  { s with mem := eraseRange s.mem lo (lo + Config.bankBytes),
           poison := s.poison.filter fun p => !(lo ≤ p && p < lo + Config.bankBytes) }

/-- A mode word takes effect on a core (R138): banks that change lose their contents, scratchpad reads zero, a FIFO is
empty; a bank that leaves cache-way mode takes its own lines with it. -/
def setModes (k : Fin 96) (x : Dword) (s : State) : State :=
  let c := s.core k
  let bs := changed c.modes x
  let s := bs.foldl (fun s b => wipeBank k.val b s) s
  s.updCore k fun c => { c with
    modes := x
    fifos := c.fifos.filter fun f => !bs.contains f.bank
    stable := c.stable.filter fun e => !bs.contains e.2.2 }

/-- LMCFG at VCP (R138): an unpermitted count traps ILLINS, a held range waits, else the change is made at one instant. -/
def lmcfgRun (e : Entry) (s : State) : State :=
  if !modesOk' e.a then s.vtrap 0x03 0
  else if lmcfgHeld s (changed s.me.modes e.a) then s.stall
  else (setModes s.actor.core e.a s).vdone
where
  /-- The permitted scratchpad bank counts (R138). -/
  modesOk' (m : Dword) : Bool := [0, 1, 3, 5, 7, 11, 13, 17, 19, 23, 29, 31].contains (spBanks m).length

/-- The meaning of LMCFG (R138, R139). -/
def execLmcfg (a : SReg) (s : State) : Out :=
  vecOp (.lmcfg a) (fun s => vchk s false [] (!s.isM) fun _ _ => true) a 0 0 lmcfgRun s

/-! Field-layout registers (R182, R184). -/

/-- FLSET at VCP. -/
def flsetRun (k : BitVec 3) (e : Entry) (s : State) : State :=
  (s.updStrand fun st => { st with fl := st.fl.set k.toFin e.a, pfl := st.pfl &&& ~~~(1#8 <<< k.toNat) }).vdone

/-- The meaning of FLSET (R184). -/
def execFlset (k : BitVec 3) (a : SReg) (s : State) : Out :=
  vecOp (.flset k a) (fun s => vchk s false [] (!s.isM) fun _ _ => true) a 0 0 (flsetRun k) s

/-- A layout register read at VCP: its poison traps, with its number (R326). -/
def withFl (k : BitVec 3) (f : Nat → State → State) (s : State) : State :=
  match s.strand? with
  | none => f 0 s
  | some st => if st.pfl.getLsbD k.toNat then s.vtrap 0x11 k.toNat else f st.fl[k.toFin].toNat s

/-- FLGET at VCP. -/
def flgetRun (k : BitVec 3) (d : SReg) (_ : Entry) (s : State) : State :=
  withFl k (fun x s => scalarDone d (.ofNat 64 x) s) s

/-- The meaning of FLGET (R26, R184). -/
def execFlget (k : BitVec 3) (d : SReg) (s : State) : Out :=
  vecOp (.flget k d) (fun s => vchk s false [] (!s.isM) fun _ _ => true) 0 0 0 (flgetRun k d) s

end Sys2Proof.Machine
end

