-- ==== Sys2Proof/Machine/Packed.lean ====
section
/-! DEFINITION. Packed arithmetic in joined form (R182 to R191). -/

namespace Sys2Proof.Machine

open Sys2Proof

/-- A field layout (R182). -/
structure Layout where
  k  : Nat
  p  : Nat
  wa : Nat
  wb : Nat
  sa : Bool
  sb : Bool
  wr : Nat
  ov : Nat
  cw : Nat
  rv : Bool
  hi : Nat
deriving DecidableEq, Repr

/-- The fields of a layout register (R182). -/
def layoutOf (x : Nat) : Layout where
  k := fld x 0 4
  p := fld x 4 7
  wa := fld x 11 5
  wb := fld x 16 5
  sa := fld x 21 1 = 1
  sb := fld x 22 1 = 1
  wr := fld x 23 7
  ov := fld x 30 2
  cw := if fld x 32 1 = 1 then 128 else 64
  rv := fld x 33 1 = 1
  hi := fld x 34 30

/-- Whether a layout is valid (R183). -/
def Layout.ok (l : Layout) : Bool :=
  1 ≤ l.k && 1 ≤ l.p && l.k * l.p ≤ l.cw && 1 ≤ l.wa && l.wa ≤ l.p && 1 ≤ l.wb && l.wb ≤ l.p && 1 ≤ l.wr &&
  l.wr ≤ l.cw && l.ov ≠ 3 && l.hi = 0

/-- sR of a layout (R183). -/
def Layout.sr (l : Layout) : Bool := l.sa || l.sb

/-- val(x, s) of R185. -/
def contVal (x : Nat) (sgn : Bool) (cw : Nat) : Int := if sgn then sextN x cw else (x % 2 ^ cw : Nat)

/-- The lowest `n` pitch-P digits of a value, lowest first, and what is left, still at its place (R185). -/
def digits (x : Int) (sgn : Bool) (p : Nat) : (n k : Nat) → List Int × Int
  | 0, _ => ([], x)
  | n + 1, k =>
    let y := (x / 2 ^ (k * p) % 2 ^ p).toNat
    let d : Int := if sgn then sextN y p else y
    let r := digits (x - d * 2 ^ (k * p)) sgn p n (k + 1)
    (d :: r.1, r.2)

/-- The K fields of an operand, whose sum at their pitch is the operand (R185). -/
def operandFields (x : Int) (sgn : Bool) (l : Layout) : List Int :=
  let r := digits x sgn l.p (l.k - 1) 0
  r.1 ++ [r.2 / 2 ^ ((l.k - 1) * l.p)]

/-- S_c for c in 0 .. 2K−2 (R185). -/
def fieldSums (a b : List Int) (k : Nat) : List Int :=
  (List.range (2 * k - 1)).map fun c =>
    (List.range k).foldl (fun s j => if j ≤ c ∧ c - j < k then s + a.getD j 0 * b.getD (c - j) 0 else s) 0

/-- The product and result fields of an element (R185, R186), and whether a field overflows (R187). -/
structure Joined where
  prod : Int
  f    : List Int
  ovf  : Bool
deriving DecidableEq, Repr

/-- The joined multiplication of two containers. -/
def joined (l : Layout) (x y : Nat) : Joined :=
  let A := contVal x l.sa l.cw
  let B := contVal y l.sb l.cw
  let sums := fieldSums (operandFields A l.sa l) (operandFields B l.sb l) l.k
  let w := if l.p < l.wr then l.wr else l.p
  let fits (v : Int) : Bool :=
    if l.sr then decide (-(2 ^ (w - 1) : Int) ≤ v) && decide (v < 2 ^ (w - 1)) else decide (0 ≤ v) && decide (v < 2 ^ w)
  { prod := A * B
    f := if l.wr ≤ l.p then (digits (A * B) l.sr l.p (2 * l.k - 1) 0).1
         else sums.map fun v => if l.sr then sextN (intBits v l.wr) l.wr else (intBits v l.wr : Nat)
    ovf := sums.any fun v => !fits v }

/-! Running a VPACKED instruction at VCP. -/

/-- The checks of R188 made before the push. -/
def packedChk (groups : Nat → List (VReg × Nat)) (regs : List VReg) (s : State) : PushChk :=
  vchk s true regs (!s.isM) fun _ g => (groups g).all fun x => s.groupOk x.1 x.2

/-- The layout read and checked at VCP (R183, R188): an invalid one, a SEW that is not cw, or a failed check of the
instruction's own traps ILLINS with nothing written. -/
def withLayout (fl : BitVec 3) (e : Entry) (own : Layout → Bool) (f : Layout → State → State) (s : State) : State :=
  withFl fl (fun x s =>
    let l := layoutOf x
    if l.ok && e.sew = l.cw && own l then f l s else s.vtrap 0x03 0) s

/-- A product of an element with the policy of R187: FOVF under OV 2, else FO in the flags under OV 1. -/
def joinElem (s : State) (l : Layout) (va vb : VReg) (more : List (VReg × Nat)) (g : Joined → Nat → Nat) (i : Nat) : El :=
  match s.srcPois ((va, l.cw) :: (vb, l.cw) :: more) i with
  | some r => .trap 0x11 r
  | none =>
    let j := joined l (s.vget va l.cw i) (s.vget vb l.cw i)
    if j.ovf ∧ l.ov = 2 then .trap 0x0D 0
    else .val ⟨g j i, if j.ovf ∧ l.ov = 1 then fFO else 0, false⟩

/-- A VPACKED product form with one result per element (R189). -/
def vpOne (i : Instr) (vd va vb : VReg) (fl : BitVec 3) (p : Pred) (own : Layout → Bool) (g : Layout → Joined → Int)
    (s : State) : Out :=
  vecOp i (packedChk (fun n => [(vd, n), (va, n), (vb, n)]) [vd, va, vb]) 0 0 0 (fun e s =>
    withLayout fl e own (fun l s =>
      elemRun e l.cw p (joinElem s l va vb [] fun j _ => intBits (g l j) l.cw) (fun k x t => t.vput vd l.cw k x) noClip s) s) s

/-- The meaning of VPMUL.LO (R189). -/
def execVpmulLo (vd va vb : VReg) (fl : BitVec 3) (p : Pred) (s : State) : Out :=
  vpOne (.vpmulLo vd va vb fl p) vd va vb fl p (fun _ => true) (fun _ j => j.prod) s

/-- The meaning of VPMUL.HI (R189). -/
def execVpmulHi (vd va vb : VReg) (fl : BitVec 3) (p : Pred) (s : State) : Out :=
  vpOne (.vpmulHi vd va vb fl p) vd va vb fl p (fun _ => true) (fun l j => j.prod / 2 ^ l.cw) s

/-- The meaning of VPFLD (R189). -/
def execVpfld (vd va vb : VReg) (fl : BitVec 3) (ix : BitVec 5) (p : Pred) (s : State) : Out :=
  vpOne (.vpfld vd va vb fl ix p) vd va vb fl p (fun l => ix.toNat ≤ 2 * l.k - 2) (fun _ j => j.f.getD ix.toNat 0) s

/-- The fields packed in one number, `cw` bits each, lowest first. -/
def joinFields (cw : Nat) : List Int → Nat
  | [] => 0
  | f :: r => intBits f cw + 2 ^ cw * joinFields cw r

/-- VPSPLIT at VCP (R189): field c of element i goes to element i of group vd + c·G. -/
def vpsplitRun (vd va vb : VReg) (fl : BitVec 3) (p : Pred) (e : Entry) (s : State) : State :=
  let g := grpOf e.vtype
  withLayout fl e (fun l => vd.toNat + (2 * l.k - 1) * g ≤ s.nv) (fun l s =>
    let put (i x : Nat) (t : State) : State :=
      (List.range (2 * l.k - 1)).foldl (fun t c =>
        t.vput (.ofNat 6 (vd.toNat + c * g)) l.cw i (x / 2 ^ (l.cw * c) % 2 ^ l.cw)) t
    elemRun e l.cw p (joinElem s l va vb [] fun j _ => joinFields l.cw j.f) put noClip s) s

/-- The meaning of VPSPLIT (R189). -/
def execVpsplit (vd va vb : VReg) (fl : BitVec 3) (p : Pred) (s : State) : Out :=
  vecOp (.vpsplit vd va vb fl p) (packedChk (fun n => [(vd, n), (va, n), (vb, n)]) [vd, va, vb]) 0 0 0
    (vpsplitRun vd va vb fl p) s

/-- VPMAC at VCP (R189): 128-bit accumulators in a 2G group. -/
def vpmacRun (vd va vb : VReg) (fl : BitVec 3) (p : Pred) (e : Entry) (s : State) : State :=
  withLayout fl e (fun l => l.cw = 64) (fun l s =>
    elemRun e 128 p (joinElem s l va vb [(vd, 128)] fun j i => intBits ((s.vget vd 128 i : Nat) + j.prod) 128)
      (fun i x t => t.vput vd 128 i x) noClip s) s

/-- The meaning of VPMAC (R189). -/
def execVpmac (vd va vb : VReg) (fl : BitVec 3) (p : Pred) (s : State) : Out :=
  vecOp (.vpmac vd va vb fl p) (packedChk (fun n => [(vd, 2 * n), (va, n), (vb, n)]) [vd, va, vb]) 0 0 0
    (vpmacRun vd va vb fl p) s

/-- The least power of two at least `x`, tried from `p` on. -/
def pow2From : (n p x : Nat) → Nat
  | 0, p, _ => p
  | n + 1, p, x => if x ≤ p then p else pow2From n (2 * p) x

/-- Gw of R188: the least power of two ≥ G × 32K / cw. -/
def wordGroup (l : Layout) (g : Nat) : Nat := pow2From 10 1 ((g * 32 * l.k + l.cw - 1) / l.cw)

/-- Field width and signedness of a side. -/
def Layout.side (l : Layout) (b : Bool) : Nat × Bool := if b then (l.wb, l.sb) else (l.wa, l.sa)

/-- The word of field `k` of element `i` (R189). -/
def Layout.word (l : Layout) (b : Bool) (i k : Nat) : Nat := i * l.k + (if b && l.rv then l.k - 1 - k else k)

/-- One container packed (R189): fields clamped to their side's range, with CL. -/
def packElem (s : State) (l : Layout) (b : Bool) (va : VReg) (i : Nat) : El :=
  match (List.range l.k).findSome? fun k => s.srcPois [(va, 32)] (l.word b i k) with
  | some r => .trap 0x11 r
  | none =>
    let w := (l.side b).1
    let sg := (l.side b).2
    let lo : Int := if sg then -(2 ^ (w - 1) : Int) else 0
    let hi : Int := if sg then 2 ^ (w - 1) - 1 else 2 ^ w - 1
    let r := (List.range l.k).foldl (fun (a : Int × Bool) k =>
      let y := s.vget va 32 (l.word b i k)
      let x : Int := if sg then sextN y 32 else y
      let g := if x < lo then lo else if hi < x then hi else x
      (a.1 + g * 2 ^ (k * l.p), a.2 || decide (g ≠ x))) (0, false)
    .val ⟨intBits r.1 l.cw, if r.2 then fCL else 0, false⟩

/-- The word group's limits (R188). -/
def wordOk (s : State) (r : VReg) (e : Entry) (l : Layout) : Bool := s.groupOk r (wordGroup l (grpOf e.vtype))

/-- The meaning of VPACK (R189). -/
def execVpack (side : Bool) (vd va : VReg) (fl : BitVec 3) (p : Pred) (s : State) : Out :=
  vecOp (.vpack side vd va fl p) (packedChk (fun n => [(vd, n)]) [vd, va]) 0 0 0 (fun e s =>
    withLayout fl e (wordOk s va e) (fun l s =>
      elemRun e (if l.cw < 32 * l.k then 32 * l.k else l.cw) p (packElem s l side va)
        (fun i x t => t.vput vd l.cw i x) noClip s) s) s

/-- The meaning of VPUNPK (R189). -/
def execVpunpk (side : Bool) (vd va : VReg) (fl : BitVec 3) (p : Pred) (s : State) : Out :=
  vecOp (.vpunpk side vd va fl p) (packedChk (fun n => [(va, n)]) [vd, va]) 0 0 0 (fun e s =>
    withLayout fl e (wordOk s vd e) (fun l s =>
      let sg := (l.side side).2
      let conv (i : Nat) : Cv :=
        ⟨joinFields 32 (digits (contVal (s.vget va l.cw i) sg l.cw) sg l.p l.k 0).1, 0, false⟩
      let put (i x : Nat) (t : State) : State :=
        (List.range l.k).foldl (fun t k => t.vput vd 32 (l.word side i k) (x / 2 ^ (32 * k) % 2 ^ 32)) t
      elemRun e (if l.cw < 32 * l.k then 32 * l.k else l.cw) p (elemOf s [(va, l.cw)] conv) put noClip s) s) s

end Sys2Proof.Machine
end

