-- ==== Sys2Proof/Machine/VMemory.lean ====
section
/-! DEFINITION. Vector loads and stores (R148 to R155), VSLD (R151) and TABLD (R180). -/

namespace Sys2Proof.Machine

open Sys2Proof

/-- The base address (R148). -/
def baseOf (e : Entry) (k : BitVec 16) : Nat := (e.a + k.signExtend 64).toNat

/-- The alignment a vector element needs (R152). -/
def elemAlign (n : Nat) : Nat := if n < 16 then n else 16

/-- An element's access as it ends (R152): MISALIGN before the address checks. -/
def memElem (hint : Nat) (kd : Kind) (rd fifo : Bool) (ea n : Nat) (ok : Place → Bool) (f : Nat → Option Nat)
    (s : State) : Acc :=
  if ea % elemAlign n ≠ 0 then .fault ⟨0x05, ea⟩ s else s.acc .v hint kd rd fifo ea n ok f

/-- How a run of memory elements ended: all done, a fault at an element, or a wait at one. -/
inductive MemEnd
  | done
  | fault (i : Nat) (f : Flt)
  | wait (i : Nat)

/-- Elements from `i`, `n` of them, in increasing index (R150, assumption 8): `step` is an active element's access, `put`
what its result does, `skip` what an inactive element does. -/
def memLoop (act : Nat → Bool) (step : Nat → State → Acc) (put : Nat → Nat → Dword → State → State)
    (skip : Nat → State → State) : (n i : Nat) → State → State × MemEnd
  | 0, _, s => (s, .done)
  | n + 1, i, s =>
    if act i then
      match step i s with
      | .ok t v ver => memLoop act step put skip n (i + 1) (put i v ver t)
      | .fault f t => (t, .fault i f)
      | .wait t => (t, .wait i)
    else memLoop act step put skip n (i + 1) (skip i s)

/-- The end of a run (R150, R152, R153, R219): a trap or a wait leaves VSTART at its element. -/
def memEnd (stop vl : Nat) (fin : State → State) (r : State × MemEnd) : State :=
  match r.2 with
  | .fault i f => r.1.vtrapAt i f.cause f.addr
  | .wait i => r.1.setVstart i
  | .done => if stop < vl then r.1.setVstart stop else (fin r.1).vdone

/-- A memory instruction over elements VSTART to VL−1 (R112, R150), of strip width `w`, under mask `m`. -/
def memRun (e : Entry) (w : Nat) (m : MReg) (step : Nat → State → Acc) (put : Nat → Nat → Dword → State → State)
    (skip : Nat → State → State) (fin : State → State) (s : State) : State :=
  let vs := s.ctx.vstart.toNat
  if e.n ≤ vs then s.vdone
  else match s.maskPois (predMask m) with
    | some r => s.vtrapAt vs 0x11 r
    | none =>
      let stop := s.stopAt vs e.n (stripOf w)
      memEnd stop e.n fin (memLoop (s.active m) step put skip (stop - vs) vs s)

/-- An element whose index registers are poisoned has no address, and traps before its access (R326). -/
def guardPois (s : State) (srcs : List (VReg × Nat)) (i : Nat) (f : State → Acc) (t : State) : Acc :=
  match s.srcPois srcs i with
  | some r => .fault ⟨0x11, r⟩ t
  | none => f t

/-- An element whose data come from a poisoned source, of register `r`, traps after the other checks of its access, and performs nothing
(R152, R326). -/
def lastPois (r : Option Nat) (f : State → Acc) (t : State) : Acc :=
  match f t, r with
  | .ok _ _ _, some r => .fault ⟨0x11, r⟩ t
  | a, _ => a

/-- Loads (R150): `ea` gives the address of an element, `ix` the registers its address reads. -/
def loadRun (v : VReg) (p : Pred) (hint : Nat) (fifo : Bool) (ix : List (VReg × Nat)) (ea : Nat → Nat) (e : Entry)
    (s : State) : State :=
  let w := e.sew
  memRun e w p.m (fun i => guardPois s ix i (memElem hint .r true fifo (ea i) (w / 8) anyPlace fun _ => none))
    (fun i x _ t => t.vput v w i x) (fun i t => if p.z then t.vput v w i 0 else t) id s

/-- Stores (R150). -/
def storeRun (v : VReg) (p : Pred) (hint : Nat) (fifo : Bool) (ix : List (VReg × Nat)) (ea : Nat → Nat) (e : Entry)
    (s : State) : State :=
  let w := e.sew
  memRun e w p.m
    (fun i => guardPois s ix i <| lastPois (s.srcPois [(v, w)] i) <|
      memElem hint .w false fifo (ea i) (w / 8) anyPlace fun _ => some (s.vget v w i))
    (fun _ _ _ t => t) (fun _ t => t) id s

/-- The checks of a load or store of one data group (R109, R148). -/
def memChk (v : VReg) (s : State) : PushChk := vchk s true [v] true fun _ g => s.groupOk v g

/-- Unit-stride addresses (R149); at a FIFO port the address does not advance (R153). -/
def unitEa (e : Entry) (k : BitVec 16) (i : Nat) : Nat :=
  if inPort (baseOf e k) then baseOf e k else addrAdd (baseOf e k) (i * (e.sew / 8) : Nat)

/-- Strided addresses (R149). -/
def strideEa (e : Entry) (k : BitVec 16) (i : Nat) : Nat := addrAdd (baseOf e k) ((i : Int) * e.b.toInt)

/-- Column addresses (R149), `n` elements per column. -/
def columnEa (e : Entry) (k : BitVec 16) (i : Nat) : Nat :=
  let n := e.c.toNat
  addrAdd (baseOf e k) ((i % n : Nat) * e.b.toInt + (i / n * (e.sew / 8) : Nat))

/-- The width of an index (R148). -/
def iwBits (iw : IW) (sew : Nat) : Nat :=
  match iw with
  | .sew => sew
  | .w32 => 32
  | .w64 => 64

/-- Indexed addresses (R149). -/
def indexEa (s : State) (e : Entry) (k : BitVec 16) (vi : VReg) (iw : IW) (x : Bool) (i : Nat) : Nat :=
  addrAdd (baseOf e k) (s.vget vi (iwBits iw e.sew) i * (if x then e.sew / 8 else 1) : Nat)

/-- The checks of an indexed form (R148): the index group spans max(1, G × IW / SEW) registers. -/
def indexChk (v vi : VReg) (iw : IW) (s : State) : PushChk :=
  vchk s true [v, vi] true fun w g => s.groupOk v g && s.groupOk vi (derived g (iwBits iw w) w)

/-- A column form with n = 0 that has elements to execute traps ILLINS before any of them (R149). -/
def columnRun (run : Entry → State → State) (e : Entry) (s : State) : State :=
  if e.c = 0 ∧ s.ctx.vstart.toNat < e.n then s.vtrap 0x03 0 else run e s

/-- The meaning of VLD (R148 to R153). -/
def execVld (v : VReg) (a : SReg) (k : BitVec 16) (h : Hint) (p : Pred) (s : State) : Out :=
  vecOp (.vld v a k h p) (memChk v) a 0 0 (fun e s => loadRun v p h.code (inPort (baseOf e k)) [] (unitEa e k) e s) s

/-- The meaning of VLDS (R148 to R152). -/
def execVlds (v : VReg) (a b : SReg) (k : BitVec 16) (h : Hint) (p : Pred) (s : State) : Out :=
  vecOp (.vlds v a b k h p) (memChk v) a b 0 (fun e s => loadRun v p h.code false [] (strideEa e k) e s) s

/-- The meaning of VLD2 (R148 to R152). -/
def execVld2 (v : VReg) (a b c : SReg) (k : BitVec 16) (h : Hint) (p : Pred) (s : State) : Out :=
  vecOp (.vld2 v a b c k h p) (memChk v) a b c
    (columnRun fun e s => loadRun v p h.code false [] (columnEa e k) e s) s

/-- A gather (R148 to R152), its indices read before it writes (R111). -/
def gathRun (v : VReg) (vi : VReg) (k : BitVec 16) (h : Hint) (iw : IW) (x : Bool) (p : Pred) (e : Entry) (s : State) : State :=
  loadRun v p h.code false [(vi, iwBits iw e.sew)] (indexEa s e k vi iw x) e s

/-- The meaning of VGATH (R148 to R152). -/
def execVgath (v : VReg) (a : SReg) (vi : VReg) (k : BitVec 16) (h : Hint) (iw : IW) (x : Bool) (p : Pred) (s : State) : Out :=
  vecOp (.vgath v a vi k h iw x p) (indexChk v vi iw) a 0 0 (gathRun v vi k h iw x p) s

/-- The meaning of VGATH.O (R148 to R152): elements in increasing index. -/
def execVgathO (v : VReg) (a : SReg) (vi : VReg) (k : BitVec 16) (h : Hint) (iw : IW) (x : Bool) (p : Pred) (s : State) : Out :=
  vecOp (.vgathO v a vi k h iw x p) (indexChk v vi iw) a 0 0 (gathRun v vi k h iw x p) s

/-- The meaning of VST (R148 to R153). -/
def execVst (v : VReg) (a : SReg) (k : BitVec 16) (h : Hint) (p : Pred) (s : State) : Out :=
  vecOp (.vst v a k h p) (memChk v) a 0 0 (fun e s => storeRun v p h.code (inPort (baseOf e k)) [] (unitEa e k) e s) s

/-- The meaning of VSTS (R148 to R152). -/
def execVsts (v : VReg) (a b : SReg) (k : BitVec 16) (h : Hint) (p : Pred) (s : State) : Out :=
  vecOp (.vsts v a b k h p) (memChk v) a b 0 (fun e s => storeRun v p h.code false [] (strideEa e k) e s) s

/-- The meaning of VST2 (R148 to R152). -/
def execVst2 (v : VReg) (a b c : SReg) (k : BitVec 16) (h : Hint) (p : Pred) (s : State) : Out :=
  vecOp (.vst2 v a b c k h p) (memChk v) a b c
    (columnRun fun e s => storeRun v p h.code false [] (columnEa e k) e s) s

/-- A scatter (R148 to R152). -/
def scatRun (v : VReg) (vi : VReg) (k : BitVec 16) (h : Hint) (iw : IW) (x : Bool) (p : Pred) (e : Entry) (s : State) : State :=
  storeRun v p h.code false [(vi, iwBits iw e.sew)] (indexEa s e k vi iw x) e s

/-- The meaning of VSCAT (R148 to R152). -/
def execVscat (v : VReg) (a : SReg) (vi : VReg) (k : BitVec 16) (h : Hint) (iw : IW) (x : Bool) (p : Pred) (s : State) : Out :=
  vecOp (.vscat v a vi k h iw x p) (indexChk v vi iw) a 0 0 (scatRun v vi k h iw x p) s

/-- The meaning of VSCAT.O (R148 to R152): elements in increasing index, the highest winning where they overlap. -/
def execVscatO (v : VReg) (a : SReg) (vi : VReg) (k : BitVec 16) (h : Hint) (iw : IW) (x : Bool) (p : Pred) (s : State) : Out :=
  vecOp (.vscatO v a vi k h iw x p) (indexChk v vi iw) a 0 0 (scatRun v vi k h iw x p) s

/-- An element of VSLD (R151): moved down, padded, or refilled from memory. -/
def slideElem (s : State) (e : Entry) (v : VReg) (k : BitVec 16) (h : Hint) (pad : Bool) (i : Nat) (t : State) : Acc :=
  let w := e.sew
  let n := e.b.toNat
  let m := e.n - (if n < e.n then n else e.n)
  if i < m then guardPois s [(v, w)] (i + n) (fun t => .ok t (s.vget v w (i + n)) 0) t
  else
    let j := i - m
    let x : Int := e.c.toInt + j
    if pad ∧ (x < s.ctx.padlo.toInt ∨ s.ctx.padhi.toInt ≤ x) then .ok t (scalarAt s.ctx.padval w) 0
    else memElem h.code .r true false (addrAdd (baseOf e k) (j * (w / 8) : Nat)) (w / 8) anyPlace (fun _ => none) t

/-- The meaning of VSLD (R151). -/
def execVsld (v : VReg) (a b c : SReg) (k : BitVec 16) (h : Hint) (pad : Bool) (s : State) : Out :=
  vecOp (.vsld v a b c k h pad) (memChk v) a b c (fun e s =>
    memRun e e.sew 0 (slideElem s e v k h pad) (fun i x _ t => t.vput v e.sew i x) (fun _ t => t) id s) s

/-- Word `k` of the code table loaded (R180). -/
def ctPut (k x : Nat) (s : State) : State := s.updStrand fun st => { st with ct := writeN st.ct (4 * k) 4 x }

/-- TABLD at VCP (R180): words VSTART to 255, each an element under R152. VSTART is 0 once it completes, and with VSTART of 256 or more
nothing is loaded (assumption 76). -/
def tabldRun (e : Entry) (s : State) : State :=
  let vs := s.ctx.vstart.toNat
  let whole := decide (vs = 0)
  memEnd 256 256 (fun t => if whole then t.updStrand fun st => { st with pct := false } else t)
    (memLoop (fun _ => true)
      (fun i => memElem 3 .r true false (addrAdd e.c.toNat (4 * i : Nat)) 4 anyPlace fun _ => none)
      (fun i x _ t => ctPut i x t) (fun _ t => t) (256 - vs) vs s)

/-- The meaning of TABLD (R180). -/
def execTabld (c : SReg) (s : State) : Out :=
  vecOp (.tabld c) (fun s => vchk s false [] (!s.isM) fun _ _ => true) 0 0 c tabldRun s

end Sys2Proof.Machine
end

