-- ==== Sys2Proof/Machine/VInt.lean ====
section
/-! DEFINITION. The vector integer instructions (R118, R119): VINT, with VMERGE and VMV; VCLZ and VPOPC (R134). -/

namespace Sys2Proof.Machine

open Sys2Proof

/-- The checks of a VINT instruction (R109, R118). -/
def vintChk (vd va : VReg) (b : BOp) (s : State) : PushChk :=
  vchk s true (vd :: va :: bVecs b) true fun _ g => s.groupsOk (vd :: va :: bVecs b) g

/-- A VINT instruction (R118): elementwise, `f` at SEW bits on va[i] and bval(i). -/
def vintOp (i : Instr) (f : Nat → Nat → Nat → Cv) (vd va : VReg) (b : BOp) (p : Pred) (s : State) : Out :=
  vecOp i (vintChk vd va b) 0 (bReg b) 0 (fun e s =>
    elementwise e p vd (va :: bVecs b) (fun j => f e.sew (s.vget va e.sew j) (bval s e b e.sew j)) s) s

/-- A result with no flag. -/
def noFlags (f : Nat → Nat → Nat → Nat) (w x y : Nat) : Cv := ⟨f w x y, 0, false⟩

/-- VADD at `w` bits (R118). -/
def vopAdd (w x y : Nat) : Nat := (x + y) % 2 ^ w
/-- The meaning of VADD (R118). -/
def execVadd (vd va : VReg) (b : BOp) (p : Pred) (s : State) : Out :=
  vintOp (.vadd vd va b p) (noFlags vopAdd) vd va b p s

/-- VSUB at `w` bits (R118). -/
def vopSub (w x y : Nat) : Nat := (x + (2 ^ w - y % 2 ^ w)) % 2 ^ w
/-- The meaning of VSUB (R118). -/
def execVsub (vd va : VReg) (b : BOp) (p : Pred) (s : State) : Out :=
  vintOp (.vsub vd va b p) (noFlags vopSub) vd va b p s

/-- VAND at `w` bits (R118). -/
def vopAnd (_w x y : Nat) : Nat := x &&& y
/-- The meaning of VAND (R118). -/
def execVand (vd va : VReg) (b : BOp) (p : Pred) (s : State) : Out :=
  vintOp (.vand vd va b p) (noFlags vopAnd) vd va b p s

/-- VOR at `w` bits (R118). -/
def vopOr (_w x y : Nat) : Nat := x ||| y
/-- The meaning of VOR (R118). -/
def execVor (vd va : VReg) (b : BOp) (p : Pred) (s : State) : Out :=
  vintOp (.vor vd va b p) (noFlags vopOr) vd va b p s

/-- VXOR at `w` bits (R118). -/
def vopXor (_w x y : Nat) : Nat := x ^^^ y
/-- The meaning of VXOR (R118). -/
def execVxor (vd va : VReg) (b : BOp) (p : Pred) (s : State) : Out :=
  vintOp (.vxor vd va b p) (noFlags vopXor) vd va b p s

/-- VSLL at `w` bits (R118). -/
def vopSll (w x y : Nat) : Nat := x * 2 ^ (y % w) % 2 ^ w
/-- The meaning of VSLL (R118). -/
def execVsll (vd va : VReg) (b : BOp) (p : Pred) (s : State) : Out :=
  vintOp (.vsll vd va b p) (noFlags vopSll) vd va b p s

/-- VSRL at `w` bits (R118). -/
def vopSrl (w x y : Nat) : Nat := x / 2 ^ (y % w)
/-- The meaning of VSRL (R118). -/
def execVsrl (vd va : VReg) (b : BOp) (p : Pred) (s : State) : Out :=
  vintOp (.vsrl vd va b p) (noFlags vopSrl) vd va b p s

/-- VSRA at `w` bits (R118). -/
def vopSra (w x y : Nat) : Nat := intBits (sextN x w / 2 ^ (y % w)) w
/-- The meaning of VSRA (R118). -/
def execVsra (vd va : VReg) (b : BOp) (p : Pred) (s : State) : Out :=
  vintOp (.vsra vd va b p) (noFlags vopSra) vd va b p s

/-- VMIN at `w` bits (R118). -/
def vopMin (w x y : Nat) : Nat := if sextN x w < sextN y w then x else y
/-- The meaning of VMIN (R118). -/
def execVmin (vd va : VReg) (b : BOp) (p : Pred) (s : State) : Out :=
  vintOp (.vmin vd va b p) (noFlags vopMin) vd va b p s

/-- VMAX at `w` bits (R118). -/
def vopMax (w x y : Nat) : Nat := if sextN x w < sextN y w then y else x
/-- The meaning of VMAX (R118). -/
def execVmax (vd va : VReg) (b : BOp) (p : Pred) (s : State) : Out :=
  vintOp (.vmax vd va b p) (noFlags vopMax) vd va b p s

/-- VMINU at `w` bits (R118). -/
def vopMinu (_w x y : Nat) : Nat := if x < y then x else y
/-- The meaning of VMINU (R118). -/
def execVminu (vd va : VReg) (b : BOp) (p : Pred) (s : State) : Out :=
  vintOp (.vminu vd va b p) (noFlags vopMinu) vd va b p s

/-- VMAXU at `w` bits (R118). -/
def vopMaxu (_w x y : Nat) : Nat := if x < y then y else x
/-- The meaning of VMAXU (R118). -/
def execVmaxu (vd va : VReg) (b : BOp) (p : Pred) (s : State) : Out :=
  vintOp (.vmaxu vd va b p) (noFlags vopMaxu) vd va b p s

/-- VMUL at `w` bits (R118). -/
def vopMul (w x y : Nat) : Nat := x * y % 2 ^ w
/-- The meaning of VMUL (R118). -/
def execVmul (vd va : VReg) (b : BOp) (p : Pred) (s : State) : Out :=
  vintOp (.vmul vd va b p) (noFlags vopMul) vd va b p s

/-- VMULH at `w` bits (R118). -/
def vopMulh (w x y : Nat) : Nat := intBits (sextN x w * sextN y w / 2 ^ w) w
/-- The meaning of VMULH (R118). -/
def execVmulh (vd va : VReg) (b : BOp) (p : Pred) (s : State) : Out :=
  vintOp (.vmulh vd va b p) (noFlags vopMulh) vd va b p s

/-- VMULHU at `w` bits (R118). -/
def vopMulhu (w x y : Nat) : Nat := x * y / 2 ^ w
/-- The meaning of VMULHU (R118). -/
def execVmulhu (vd va : VReg) (b : BOp) (p : Pred) (s : State) : Out :=
  vintOp (.vmulhu vd va b p) (noFlags vopMulhu) vd va b p s

/-- VADDSAT (R118): the signed sum clamped, with CL when it was. -/
def vopAddsat (w x y : Nat) : Cv :=
  let z := sextN x w + sextN y w
  let hi : Int := (2 ^ (w - 1) : Nat) - 1
  let lo : Int := -(2 ^ (w - 1) : Nat)
  if z < lo then ⟨intBits lo w, fCL, false⟩ else if hi < z then ⟨intBits hi w, fCL, false⟩ else ⟨intBits z w, 0, false⟩

/-- The meaning of VADDSAT (R118). -/
def execVaddsat (vd va : VReg) (b : BOp) (p : Pred) (s : State) : Out := vintOp (.vaddsat vd va b p) vopAddsat vd va b p s

/-- VMERGE (R119): the predicate selects, element by element, and every element is written. -/
def mergeElem (s : State) (e : Entry) (va : VReg) (b : BOp) (m : MReg) (j : Nat) : El :=
  if s.active m j then elemOf s [(va, e.sew)] (fun j => ⟨s.vget va e.sew j, 0, false⟩) j
  else elemOf s ((bVecs b).map fun r => (r, e.sew)) (fun j => ⟨bval s e b e.sew j, 0, false⟩) j

/-- VMERGE at VCP; its selector is read as a predicate is. -/
def mergeRun (vd va : VReg) (b : BOp) (m : MReg) (e : Entry) (s : State) : State :=
  if e.n ≤ s.ctx.vstart.toNat then s.vdone
  else match s.maskPois (predMask m) with
    | some r => s.vtrap 0x11 r
    | none => elemRun e e.sew ⟨0, false⟩ (mergeElem s e va b m) (fun j x t => t.vput vd e.sew j x) noClip s

/-- The meaning of VMERGE (R119). -/
def execVmerge (vd va : VReg) (b : BOp) (m : MReg) (s : State) : Out :=
  vecOp (.vmerge vd va b m) (vintChk vd va b) 0 (bReg b) 0 (mergeRun vd va b m) s

/-- The meaning of VMV (R118). -/
def execVmv (vd : VReg) (b : BOp) (p : Pred) (s : State) : Out :=
  vecOp (.vmv vd b p) (vintChk vd 0 b) 0 (bReg b) 0 (fun e s =>
    elementwise e p vd (bVecs b) (fun j => ⟨bval s e b e.sew j, 0, false⟩) s) s

/-- Leading zero bits among the low `w` bits. -/
def leadZ (x : Nat) : Nat → Nat
  | 0 => 0
  | w + 1 => if fld x w 1 = 1 then 0 else 1 + leadZ x w

/-- Set bits among the low `w` bits. -/
def setBits (x : Nat) : Nat → Nat
  | 0 => 0
  | w + 1 => fld x w 1 + setBits x w

/-- VCLZ and VPOPC (R134): elementwise counts. -/
def vcountOp (i : Instr) (f : Nat → Nat → Nat) (vd va : VReg) (p : Pred) (s : State) : Out :=
  vecOp i (vintChk vd va (.s 0)) 0 0 0 (fun e s =>
    elementwise e p vd [va] (fun j => ⟨f (s.vget va e.sew j) e.sew, 0, false⟩) s) s

/-- The meaning of VCLZ (R134). -/
def execVclz (vd va : VReg) (p : Pred) (s : State) : Out := vcountOp (.vclz vd va p) leadZ vd va p s

/-- The meaning of VPOPC (R134). -/
def execVpopc (vd va : VReg) (p : Pred) (s : State) : Out := vcountOp (.vpopc vd va p) setBits vd va p s

end Sys2Proof.Machine
end

