-- ==== Sys2Proof/Machine/VPerm.lean ====
section
/-! DEFINITION. The permutes (R127, R128). -/

namespace Sys2Proof.Machine

open Sys2Proof

/-- The checks of a permute over groups (R109, R127). -/
def permChk (regs : List VReg) (s : State) : PushChk := vchk s true regs true fun _ g => s.groupsOk regs g

/-- The first poisoned element among those read (R326). -/
def State.readPois (s : State) (w : Nat) (xs : List (VReg × Nat)) : Option Nat :=
  (xs.find? fun x => s.vpois x.1 w x.2).map fun x => s.vregOf x.1 w x.2

/-- A whole-vector permute (R112, R128): `reads i` are the elements element `i` reads when active, `f i` what is written
to element `i`, if anything. -/
def permRun (vd : VReg) (m : MReg) (reads : Nat → List (VReg × Nat)) (f : Nat → Option Nat) (e : Entry) (s : State) : State :=
  let pois :=
    if e.n = 0 then none
    else orElse (s.maskPois (predMask m)) (s.readPois e.sew (((List.range e.n).filter (s.active m)).flatMap reads))
  wholeOp pois 0 (putAll vd e.sew f e.n) s

/-- Element `i` under a predicate (R110): the value, zero, or nothing written. -/
def underPred (s : State) (p : Pred) (x : Nat) (i : Nat) : Option Nat :=
  if s.active p.m i then some x else if p.z then some 0 else none

/-- The active elements below `n`, in order. -/
def State.actives (s : State) (m : MReg) (n : Nat) : List Nat := (List.range n).filter (s.active m)

/-- The meaning of VCOMPRESS (R128). -/
def execVcompress (vd va : VReg) (p : Pred) (s : State) : Out :=
  vecOp (.vcompress vd va p) (permChk [vd, va]) 0 0 0 (fun e s =>
    let xs := (s.actives p.m e.n).map (s.vget va e.sew)
    permRun vd p.m (fun i => [(va, i)])
      (fun i => if i < xs.length then some (xs.getD i 0) else if p.z then some 0 else none) e s) s

/-- The meaning of VEXPAND (R128): the c-th active element takes va[c]. -/
def execVexpand (vd va : VReg) (p : Pred) (s : State) : Out :=
  vecOp (.vexpand vd va p) (permChk [vd, va]) 0 0 0 (fun e s =>
    let rank (i : Nat) : Nat := (s.actives p.m i).length
    permRun vd p.m (fun i => [(va, rank i)]) (fun i => underPred s p (s.vget va e.sew (rank i)) i) e s) s

/-- The meaning of VSLIDEUP (R128): elements below k are not written. -/
def execVslideup (vd va : VReg) (b : SReg) (p : Pred) (s : State) : Out :=
  vecOp (.vslideup vd va b p) (permChk [vd, va]) 0 b 0 (fun e s =>
    let k := e.b.toNat
    permRun vd p.m (fun i => if k ≤ i then [(va, i - k)] else [])
      (fun i => if k ≤ i then underPred s p (s.vget va e.sew (i - k)) i else none) e s) s

/-- The meaning of VSLIDEDN (R128). -/
def execVslidedn (vd va : VReg) (b : SReg) (p : Pred) (s : State) : Out :=
  vecOp (.vslidedn vd va b p) (permChk [vd, va]) 0 b 0 (fun e s =>
    let k := e.b.toNat
    permRun vd p.m (fun i => if i + k < e.n then [(va, i + k)] else [])
      (fun i => underPred s p (if i + k < e.n then s.vget va e.sew (i + k) else 0) i) e s) s

/-- The meaning of VPICK (R128): an index at or above VLMAX reads 0. -/
def execVpick (vd va vb : VReg) (p : Pred) (s : State) : Out :=
  vecOp (.vpick vd va vb p) (permChk [vd, va, vb]) 0 0 0 (fun e s =>
    let ix (i : Nat) : Nat := s.vget vb e.sew i
    permRun vd p.m (fun i => (vb, i) :: if ix i < e.vlmax s then [(va, ix i)] else [])
      (fun i => underPred s p (if ix i < e.vlmax s then s.vget va e.sew (ix i) else 0) i) e s) s

/-- The meaning of VBCAST (R128). -/
def execVbcast (vd va : VReg) (b : SReg) (p : Pred) (s : State) : Out :=
  vecOp (.vbcast vd va b p) (permChk [vd, va]) 0 b 0 (fun e s =>
    let k := e.b.toNat
    let x := if k < e.vlmax s then s.vget va e.sew k else 0
    permRun vd p.m (fun _ => if k < e.vlmax s then [(va, k)] else []) (fun i => underPred s p x i) e s) s

/-- The meaning of VEXTR (R128): it ignores VL, and delivers s[d] under R26. -/
def execVextr (d : SReg) (va : VReg) (b : SReg) (s : State) : Out :=
  vecOp (.vextr d va b) (permChk [va]) 0 b 0 (fun e s =>
    let k := e.b.toNat
    let x := if k < e.vlmax s then s.vget va e.sew k else 0
    match (if k < e.vlmax s then s.readPois e.sew [(va, k)] else none) with
    | some r => s.vtrapAt 0 0x11 r
    | none => scalarDone d (if e.sew = 128 then .ofNat 64 x else .ofInt 64 (sextN x e.sew)) s) s

/-- The meaning of VINS (R128): one element, or nothing, whatever VL is. -/
def execVins (vd : VReg) (a b : SReg) (s : State) : Out :=
  vecOp (.vins vd a b) (permChk [vd]) a b 0 (fun e s =>
    let k := e.b.toNat
    (if k < e.vlmax s then s.vput vd e.sew k (scalarAt e.a e.sew) else s).vdone) s

/-- The meaning of VIDX (R128): elementwise. -/
def execVidx (vd : VReg) (p : Pred) (s : State) : Out :=
  vecOp (.vidx vd p) (permChk [vd]) 0 0 0 (fun e s =>
    elementwise e p vd [] (fun i => ⟨i % 2 ^ e.sew, 0, false⟩) s) s

/-- The meaning of VREV (R128). -/
def execVrev (vd va : VReg) (p : Pred) (s : State) : Out :=
  vecOp (.vrev vd va p) (permChk [vd, va]) 0 0 0 (fun e s =>
    permRun vd p.m (fun i => [(va, e.n - 1 - i)]) (fun i => underPred s p (s.vget va e.sew (e.n - 1 - i)) i) e s) s

end Sys2Proof.Machine
end

