-- ==== Sys2Proof/Machine/VRed.lean ====
section
/-! DEFINITION. The reductions (R129 to R131), VCONFLICT (R132) and VRAND (R133). -/

namespace Sys2Proof.Machine

open Sys2Proof

/-- What a reduction reads (R129): vb[0], its mask, and the active elements of va. -/
def redPois (va vb : VReg) (m : MReg) (e : Entry) (s : State) : Option Nat :=
  orElse (s.maskPois (predMask m)) (s.readPois e.sew ((vb, 0) :: (s.actives m e.n).map fun i => (va, i)))

/-- A reduction at VCP (R129): `f` gives the result and flags of vb[0] and the active elements in order; with VL = 0
nothing is written. -/
def redRun (vd va vb : VReg) (m : MReg) (f : Nat → List Nat → Nat × Nat) (e : Entry) (s : State) : State :=
  if e.n = 0 then s.vdone
  else
    let r := f (s.vget vb e.sew 0) ((s.actives m e.n).map (s.vget va e.sew))
    wholeOp (redPois va vb m e s) r.2 (fun t => t.vput vd e.sew 0 r.1) s

/-- An integer reduction (R130). -/
def vredOp (i : Instr) (f : Nat → Nat → Nat → Nat) (vd va vb : VReg) (m : MReg) (s : State) : Out :=
  vecOp i (permChk [vd, va, vb]) 0 0 0 (fun e s =>
    redRun vd va vb m (fun x xs => (xs.foldl (fun a y => f e.sew a y) x, 0)) e s) s

/-- The meaning of VREDSUM (R130). -/
def execVredsum (vd va vb : VReg) (m : MReg) (s : State) : Out := vredOp (.vredsum vd va vb m) vopAdd vd va vb m s
/-- The meaning of VREDMAX (R130). -/
def execVredmax (vd va vb : VReg) (m : MReg) (s : State) : Out := vredOp (.vredmax vd va vb m) vopMax vd va vb m s
/-- The meaning of VREDMIN (R130). -/
def execVredmin (vd va vb : VReg) (m : MReg) (s : State) : Out := vredOp (.vredmin vd va vb m) vopMin vd va vb m s
/-- The meaning of VREDMAXU (R130). -/
def execVredmaxu (vd va vb : VReg) (m : MReg) (s : State) : Out := vredOp (.vredmaxu vd va vb m) vopMaxu vd va vb m s
/-- The meaning of VREDMINU (R130). -/
def execVredminu (vd va vb : VReg) (m : MReg) (s : State) : Out := vredOp (.vredminu vd va vb m) vopMinu vd va vb m s
/-- The meaning of VREDOR (R130). -/
def execVredor (vd va vb : VReg) (m : MReg) (s : State) : Out := vredOp (.vredor vd va vb m) vopOr vd va vb m s
/-- The meaning of VREDAND (R130). -/
def execVredand (vd va vb : VReg) (m : MReg) (s : State) : Out := vredOp (.vredand vd va vb m) vopAnd vd va vb m s

/-- Flags without NF. -/
def dropNF (fl : Nat) : Nat := fl - (fl &&& fNF)

/-- A result with NF exactly when it is not finite (R131). -/
def nfLast (f : Fmt) (x fl : Nat) : Nat × Nat := (x, dropNF fl ||| nfOf f x)

/-- A float reduction with no active element (R129). -/
def redNone (f : Fmt) (x : Nat) : Nat × Nat :=
  match unpack f x with
  | .nan sig => nfLast f (canonNaN f) (if sig then fNV else 0)
  | _ => nfLast f x 0

/-- A float reduction element by element, flags gathered (R131). -/
def redFold (f : Fmt) (g : Nat → Nat → Nat × Nat) (x : Nat) (xs : List Nat) : Nat × Nat :=
  match xs with
  | [] => redNone f x
  | _ =>
    let r := xs.foldl (fun (a : Nat × Nat) y => let z := g a.1 y; (z.1, a.2 ||| dropNF z.2)) (x, 0)
    nfLast f r.1 r.2

/-- The exact sum of finite values (R131): an integer at the least exponent, and that exponent. -/
def exactSum (vs : List FV) : Int × Int :=
  let q := vs.foldl (fun (q : Int) v => match v with | .fin _ _ e => if e < q then e else q | _ => q) 0
  (vs.foldl (fun (a : Int) v => match v with | .fin n m e => a + scaled n m e q | _ => a) 0, q)

/-- VFREDSUM.F (R131): one rounding of the exact sum. -/
def redExact (f : Fmt) (rm x : Nat) (xs : List Nat) : Nat × Nat :=
  match xs with
  | [] => redNone f x
  | _ =>
    let vs := (x :: xs).map (unpack f)
    if vs.any FV.isNaN then nfLast f (canonNaN f) (sigNV vs)
    else if vs.contains (.inf true) && vs.contains (.inf false) then nfLast f (canonNaN f) fNV
    else if vs.contains (.inf true) then nfLast f (packInf f true) 0
    else if vs.contains (.inf false) then nfLast f (packInf f false) 0
    else
      let sm := exactSum vs
      if sm.1 = 0 then
        let allNeg := vs.all fun v => match v with | .fin n m _ => n && m = 0 | _ => false
        let allPos := vs.all fun v => match v with | .fin n m _ => !n && m = 0 | _ => false
        nfLast f (signBit f (allNeg || (!allPos && rm = 5))) 0
      else
        let r := roundIeee f rm (decide (sm.1 < 0)) sm.1.natAbs 1 sm.2
        nfLast f r.1 r.2

/-- A float reduction (R131). -/
def vfredOp (i : Instr) (f : FFmt) (rmOk : State → Bool) (g : State → Nat → List Nat → Nat × Nat) (vd va vb : VReg)
    (m : MReg) (s : State) : Out :=
  vecOp i (vfpChk f [vd, va, vb] rmOk) 0 0 0 (fun e s => redRun vd va vb m (g s) e s) s

/-- The meaning of VFREDSUM.O (R131). -/
def execVfredsumO (f : FFmt) (vd va vb : VReg) (rm : BitVec 3) (m : MReg) (s : State) : Out :=
  vfredOp (.vfredsumO f vd va vb rm m) f (fun s => modeOk s rm)
    (fun s => redFold (fmtOf f) (fpAdd (fmtOf f) (modeOf s rm))) vd va vb m s

/-- The meaning of VFREDSUM.F (R131). -/
def execVfredsumF (f : FFmt) (vd va vb : VReg) (rm : BitVec 3) (m : MReg) (s : State) : Out :=
  vfredOp (.vfredsumF f vd va vb rm m) f (fun s => modeOk s rm) (fun s => redExact (fmtOf f) (modeOf s rm)) vd va vb m s

/-- The meaning of VFREDMAX (R131). -/
def execVfredmax (f : FFmt) (vd va vb : VReg) (m : MReg) (s : State) : Out :=
  vfredOp (.vfredmax f vd va vb m) f (fun _ => true) (fun _ => redFold (fmtOf f) (fpMinMax (fmtOf f) true)) vd va vb m s

/-- The meaning of VFREDMIN (R131). -/
def execVfredmin (f : FFmt) (vd va vb : VReg) (m : MReg) (s : State) : Out :=
  vfredOp (.vfredmin f vd va vb m) f (fun _ => true) (fun _ => redFold (fmtOf f) (fpMinMax (fmtOf f) false)) vd va vb m s

/-- VCONFLICT at VCP (R132). -/
def conflictRun (md : MReg) (va : VReg) (p : Pred) (e : Entry) (s : State) : State :=
  let x (i : Nat) : Nat := s.vget va e.sew i
  let hit (i : Nat) : Bool := (s.actives p.m i).any fun j => x j = x i
  let pois :=
    if e.n = 0 then none
    else orElse (s.maskPois (predMask p.m)) (s.readPois e.sew ((s.actives p.m e.n).map fun i => (va, i)))
  wholeOp pois 0
    (putMask md (fun i => if s.active p.m i then some (hit i) else if p.z then some false else none) e.n) s

/-- The meaning of VCONFLICT (R132). -/
def execVconflict (md : MReg) (va : VReg) (p : Pred) (s : State) : Out :=
  vecOp (.vconflict md va p) (permChk [va]) 0 0 0 (conflictRun md va p) s

/-- The meaning of VRAND (R133). -/
def execVrand (vd : VReg) (b : SReg) (p : Pred) (s : State) : Out :=
  vecOp (.vrand vd b p) (fun s => vchk s true [vd] true fun w g => s.groupOk vd g && w = 32) 0 b 0 (fun e s =>
    elementwise e p vd []
      (fun i => ⟨randAt s.ctx.seed.toNat s.ctx.vbase.toNat (e.b.toNat % 2 ^ 32) i, 0, false⟩) s) s

end Sys2Proof.Machine
end

