-- ==== Sys2Proof/Machine/Tile.lean ====
section
/-! DEFINITION. The tile array (R192 to R209) with the A80 accumulator (R165 to R167). -/

namespace Sys2Proof.Machine

open Sys2Proof

/-! A80 values, as 80-bit encodings (R165, R166). -/

/-- The value of an A80 encoding. -/
def a80Val (x : Nat) : FV :=
  let E := fld x 64 16
  let S := sextN x 64
  if E = 0xFFFF then (if S = 1 then .inf false else if S = -1 then .inf true else .nan false)
  else .fin (decide (S < 0)) S.natAbs ((E : Int) - 16445)

/-- The A80 NaN that results carry. -/
def a80NaN : Nat := 0xFFFF * 2 ^ 64

/-- An A80 infinity. -/
def a80Inf (neg : Bool) : Nat := 0xFFFF * 2 ^ 64 + (if neg then 2 ^ 64 - 1 else 1)

/-- The smallest E, of `n` tried from `E` up, whose RNA significand fits (R166). -/
def a80Try (m : Int) (e : Int) : (n E : Nat) → Nat × Nat
  | 0, _ => (a80Inf (decide (m < 0)), fOF + fNX)
  | n + 1, E =>
    if 0xFFFE < E then (a80Inf (decide (m < 0)), fOF + fNX)
    else
      let nd := atQuantum m.natAbs 1 e ((E : Int) - 16445)
      let q := roundQuot 1 (decide (m < 0)) nd.1 nd.2 0
      let S : Int := if m < 0 then -(q.1 : Int) else q.1
      if -(2 ^ 63) ≤ S ∧ S ≤ 2 ^ 63 - 1 then (E * 2 ^ 64 + intBits S 64, if q.2 then fNX else 0)
      else a80Try m e n (E + 1)

/-- a80_round of m × 2^e (R166), with NX, or OF and NX. The significand has at most 64 bits, so E lies within two of the
exponent that puts the leading bit at bit 63. -/
def a80Round (m e : Int) : Nat × Nat :=
  if m = 0 then (0, 0) else a80Try m e 4 ((Nat.log2 m.natAbs : Int) + e + 16445 - 63).toNat

/-- a80_add of R166, with NV for opposite infinities and NF for a result that is not finite (R201). -/
def a80Add (x : Nat) (y : FV) : Nat × Nat :=
  match a80Val x, y with
  | .nan _, _ => (a80NaN, fNF)
  | _, .nan _ => (a80NaN, fNF)
  | .inf a, .inf b => if a = b then (a80Inf a, fNF) else (a80NaN, fNV + fNF)
  | .inf a, _ => (a80Inf a, fNF)
  | _, .inf b => (a80Inf b, fNF)
  | .fin n m e, .fin n' m' e' =>
    let q := if e ≤ e' then e else e'
    let r := a80Round (scaled n m e q + scaled n' m' e' q) q
    (r.1, r.2 ||| (if fld r.2 2 1 = 1 then fNF else 0))

/-- The readout of R167. -/
def a80Read (f : Fmt) (x : Nat) : Nat × Nat :=
  withNF f (match a80Val x with
    | .nan _ => (canonNaN f, 0)
    | .inf n => (packInf f n, 0)
    | .fin n m e => if m = 0 then (0, 0) else roundIeee f 1 n m 1 e)

/-- A float written as A80 (R205). -/
def a80Of (f : Fmt) (x : Nat) : Nat × Nat :=
  match unpack f x with
  | .nan _ => (a80NaN, fNF)
  | .inf n => (a80Inf n, fNF)
  | .fin n m e => ((a80Round (if n then -(m : Int) else m) e).1, 0)

/-! Tiles. -/

/-- A tile of the acting strand. -/
def State.tile (s : State) (z : BitVec 1) : Tile :=
  match s.strand? with
  | some st => if z = 0 then st.z0 else st.z1
  | none => Tile.reset false

/-- The acting strand's tile changed. -/
def State.updTile (s : State) (z : BitVec 1) (f : Tile → Tile) : State :=
  s.updStrand fun st => if z = 0 then { st with z0 := f st.z0 } else { st with z1 := f st.z1 }

/-- Element `j` = 256m + n of a tile, at its place in R206's layout. -/
def Tile.get (t : Tile) (j : Nat) : Nat := readN t.data (10 * j) 10

/-- A tile with an element written. -/
def Tile.put (t : Tile) (j x : Nat) : Tile := { t with data := writeN t.data (10 * j) 10 x }

/-- Whether element `j` is poisoned. -/
def Tile.bad (t : Tile) (j : Nat) : Bool := t.poison.any fun p => p % 32768 = j

/-- Every element the zero with E = 0, poison cleared (R198, R208). -/
def Tile.zeroed (t : Tile) : Tile := { t with st := .active, data := [], poison := [] }

/-- The checks of R194 that need no VTYPE. -/
def tileChk (dep : Bool) (regs : List VReg) (enc : Nat → Nat → Bool) (s : State) : PushChk := vchk s dep regs (!s.isM) enc

/-- A tile instruction at VCP past the checks of R196: a Free tile traps ILLINS, a Lost one TLOST where it is read. -/
def withTile (z : BitVec 1) (free lost : Bool) (f : Tile → State → State) (s : State) : State :=
  let t := s.tile z
  if !free && t.st = .free then s.vtrap 0x03 0
  else if !lost && t.st = .lost then s.vtrap 0x0F z.toNat
  else f t s

/-- Whether a TCFG word is permitted (R197). -/
def tcfgOk (x : Nat) : Bool :=
  let af := fld x 0 4
  let bf := fld x 4 4
  let fp8 (f : Nat) : Bool := f = 0xC || f = 0xD
  fld x 11 53 = 0 && fld x 9 2 ≠ 3 &&
  ((fp8 af && fp8 bf) || (fld x 8 1 = 0 && af = bf && (af = 0 || af = 9 || af = 0xF)))

/-- The meaning of TCFG (R197). -/
def execTcfg (z : BitVec 1) (c : SReg) (s : State) : Out :=
  vecOp (.tcfg z c) (tileChk false [] fun _ _ => true) 0 0 c (fun e s =>
    let x := e.c.toNat
    if !tcfgOk x then s.vtrap 0x03 0
    else (s.updTile z fun t =>
      { t.zeroed with cfg := .ofNat 9 x, pers := if fld x 9 2 = 0 then t.pers else fld x 9 2 = 2 }).vdone) s

/-- The meaning of TZERO (R198). -/
def execTzero (z : BitVec 1) (s : State) : Out :=
  vecOp (.tzero z) (tileChk false [] fun _ _ => true) 0 0 0
    (fun _ s => withTile z false true (fun _ s => (s.updTile z Tile.zeroed).vdone) s) s

/-- The meaning of TFREE (R198). -/
def execTfree (z : BitVec 1) (s : State) : Out :=
  vecOp (.tfree z) (tileChk false [] fun _ _ => true) 0 0 0 (fun _ s =>
    (s.updTile z fun t => { t with st := .free, cfg := 0, data := [], poison := [] }).vdone) s

/-! TOP (R199 to R202). -/

/-- An FP8 value under its block scale (R199). -/
def scaleFV (v : FV) (b : Nat) : FV :=
  if b % 64 = 63 then .nan false
  else match v with
    | .fin n m e => .fin n m (e + ((b % 64 : Nat) : Int) - 32)
    | w => w

/-- Value `i` of step `k` of an operand with `cnt` values per step (R199). -/
def topVal (s : State) (v sc : VReg) (fmt : Nat) (scl : Bool) (cnt k i : Nat) : FV :=
  let b (_ : Unit) : Nat := s.vget sc 8 (cnt * (k / 48) + i)
  match fmt with
  | 0 =>
    let x := sextN (s.vget v 8 (cnt * k + i)) 8
    .fin (decide (x < 0)) x.natAbs 0
  | 9 => unpack fmtB16 (s.vget v 16 (cnt * k + i))
  | 15 => c4Val (b ()) (s.nibble v (48 * (cnt * (k / 48) + i) + k % 48))
  | f =>
    let x := unpack (fmtOfCode f) (s.vget v 8 (cnt * k + i))
    if scl then scaleFV x (b ()) else x

/-- xsum of R200 over the products of a unit, with the NV of R201: 0 × ∞ and opposite infinities raise it beside a NaN too. -/
def xsum (ps : List (FV × FV)) : FV × Nat :=
  let fl := ps.foldl (fun a p => a ||| sigNV [p.1, p.2]) 0
  let vs := ps.map fun p => if p.1.isNaN || p.2.isNaN then some (.nan false) else mulFV p.1 p.2
  let ws := vs.filterMap id
  if vs.contains none || (ws.contains (.inf true) && ws.contains (.inf false)) then (.nan false, fNV)
  else if ws.any FV.isNaN then (.nan false, fl)
  else
    if ws.contains (.inf true) then (.inf true, fl)
    else if ws.contains (.inf false) then (.inf false, fl)
    else
      let r := exactSum ws
      (.fin (decide (r.1 < 0)) r.1.natAbs r.2, fl)

/-- One unit of TOP: each element of the tile takes the unit's sum (R200); the new tile and the flags. -/
def topUnit (s : State) (va vb vc vs : VReg) (k0 k1 : Nat) (t : Tile) : Tile × Nat :=
  let af := fld t.cfg.toNat 0 4
  let bf := fld t.cfg.toNat 4 4
  let scl := fld t.cfg.toNat 8 1 = 1
  let steps := (List.range (k1 - k0)).map (k0 + ·)
  (List.range 32768).foldl (fun (r : Tile × Nat) j =>
    let x := xsum (steps.map fun k =>
      (topVal s va vc af scl 128 k (j / 256), topVal s vb vs bf scl 256 k (j % 256)))
    let y := a80Add (t.get j) x.1
    (r.1.put j y.1, r.2 ||| x.2 ||| y.2)) (t, 0)

/-- Units of `u` steps from step `k` to `stop` (R200), at most `n` of them. -/
def topUnits (s : State) (va vb vc vs : VReg) (u stop : Nat) : (n k : Nat) → Tile × Nat → Tile × Nat
  | 0, _, r => r
  | n + 1, k, r =>
    if stop ≤ k then r
    else
      let k1 := (k / u + 1) * u
      let k1 := if k1 < stop then k1 else stop
      let q := topUnit s va vb vc vs k k1 r.1
      topUnits s va vb vc vs u stop n k1 (q.1, r.2 ||| q.2)

/-- Bytes of `n` values of a format code. -/
def topBytes (fmt n : Nat) : Nat := if fmt = 9 then 2 * n else if fmt = 15 then n / 2 else n

/-- What the units of a TOP from step `k0` to `st` read is poisoned (R202, R208, R326): the trap comes before the first of them, the tile
first, then the operands in order (assumption 63). -/
def topPois (s : State) (t : Tile) (z : BitVec 1) (va vb vc vs : VReg) (scales : Bool) (k0 st : Nat) : Option Nat :=
  let af := fld t.cfg.toNat 0 4
  let bf := fld t.cfg.toNat 4 4
  -- the step of a byte of an operand, or the last of two steps of a C4 byte
  let from_ (fmt cnt : Nat) (i : Nat) : Bool :=
    if fmt = 15 then k0 ≤ 2 * i / (48 * cnt) * 48 + (2 * i + 1) % 48 else topBytes fmt (cnt * k0) ≤ i
  let blk (cnt : Nat) (i : Nat) : Bool := k0 / 48 ≤ i / cnt
  let nb := (st + 47) / 48
  if t.poison ≠ [] then some z.toNat
  else orElse (s.rangePois va 8 (topBytes af (128 * st)) (from_ af 128)) <|
    orElse (s.rangePois vb 8 (topBytes bf (256 * st)) (from_ bf 256)) <|
    if scales then orElse (s.rangePois vc 8 (128 * nb) (blk 128)) (s.rangePois vs 8 (256 * nb) (blk 256)) else none

/-- TOP at VCP (R199 to R202); `u` steps make a unit, 48 under C4. FMODE's enables have no effect. A step count of 0 makes
R199's checks all the same (assumption 63). -/
def topRun (z : BitVec 1) (u : Nat) (va vb vc vs : VReg) (e : Entry) (s : State) : State :=
  withTile z false false (fun t s =>
    let af := fld t.cfg.toNat 0 4
    let bf := fld t.cfg.toNat 4 4
    let scales := af = 15 || fld t.cfg.toNat 8 1 = 1
    let u := if af = 15 then 48 else u
    let n := e.c.toNat
    let grp := grpOf e.vtype * s.vregBytes
    let nb := (n + 47) / 48
    if grp < topBytes af (128 * n) ∨ grp < topBytes bf (256 * n) ∨ (scales ∧ (s.vregBytes < 128 * nb ∨ s.vregBytes < 256 * nb))
        ∨ (af = 15 ∧ n % 48 ≠ 0) ∨ (!scales ∧ (vc ≠ 0 ∨ vs ≠ 0)) then s.vtrap 0x03 0
    else
      let k0 := s.ctx.vstart.toNat
      if n ≤ k0 then s.vdone
      else match topPois s t z va vb vc vs scales k0 n with
        | some a => s.vtrap 0x11 a
        | none =>
          let stop := s.stopAt k0 n u
          let r := topUnits s va vb vc vs u stop (stop - k0) k0 (t, 0)
          let s := (s.updTile z fun _ => r.1).orFlags r.2
          if stop < n then s.setVstart stop else s.vdone) s

/-- TOP (R199 to R202). -/
def topOp (i : Instr) (z : BitVec 1) (u : Nat) (va vb : VReg) (c : SReg) (vc vs : VReg) (s : State) : Out :=
  vecOp i (tileChk true [va, vb, vc, vs] fun _ g => s.groupsOk [va, vb] g) 0 0 c (topRun z u va vb vc vs) s

/-- The meaning of TOP.O (R200): each step a unit. -/
def execTopO (z : BitVec 1) (va vb : VReg) (c : SReg) (vc vs : VReg) (s : State) : Out :=
  topOp (.topO z va vb c vc vs) z 1 va vb c vc vs s

/-- The meaning of TOP.F (R200): 48 steps a unit. -/
def execTopF (z : BitVec 1) (va vb : VReg) (c : SReg) (vc vs : VReg) (s : State) : Out :=
  topOp (.topF z va vb c vc vs) z 48 va vb c vc vs s

/-! TRD and TWR (R204, R205). -/

/-- The format of TRD and TWR. -/
def tileFmt (bf : Bool) : Fmt := if bf then fmtB16 else fmt32

/-- Whether rows from s[sc] hold VL elements (R204). -/
def rowsOk (e : Entry) : Bool := e.n = 0 || e.c.toNat + (e.n - 1) / 256 ≤ 127

/-- TRD at VCP (R204). -/
def trdRun (z : BitVec 1) (bf : Bool) (vd : VReg) (p : Pred) (e : Entry) (s : State) : State :=
  withTile z false false (fun t s =>
    if !rowsOk e then s.vtrap 0x03 0
    else
      let j (i : Nat) : Nat := 256 * e.c.toNat + i
      elementwise' e p (fun i => if t.bad (j i) then .trap 0x11 z.toNat
        else .val (cvOf (a80Read (tileFmt bf) (t.get (j i))))) (fun i x u => u.vput vd e.sew i x) s) s
where
  /-- Elementwise at SEW (R112). -/
  elementwise' (e : Entry) (p : Pred) (f : Nat → El) (put : Nat → Nat → State → State) (s : State) : State :=
    elemRun e e.sew p f put noClip s

/-- The meaning of TRD (R204). -/
def execTrd (z : BitVec 1) (bf : Bool) (vd : VReg) (c : SReg) (p : Pred) (s : State) : Out :=
  vecOp (.trd z bf vd c p) (tileChk true [vd] fun w g => s.groupOk vd g && w = (tileFmt bf).w) 0 0 c (trdRun z bf vd p) s

/-- Elements of TWR from `i`, `n` of them: NF is raised with no trap (R205). A write into a poisoned element traps, the zero of an
inactive one too (R208), a poisoned source element before it (assumption 63). -/
def twrLoop (s0 : State) (z : BitVec 1) (bf : Bool) (va : VReg) (m : MReg) (zero : Bool) (w row : Nat) :
    (n i : Nat) → State → State × Option (Nat × Nat × Nat)
  | 0, _, s => (s, none)
  | n + 1, i, s =>
    let j := 256 * row + i
    if s0.active m i then
      match s0.srcPois [(va, w)] i with
      | some r => (s, some (i, 0x11, r))
      | none =>
        if (s0.tile z).bad j then (s, some (i, 0x11, z.toNat))
        else
          let r := a80Of (tileFmt bf) (s0.vget va w i)
          twrLoop s0 z bf va m zero w row n (i + 1) ((s.updTile z fun t => t.put j r.1).orFlags r.2)
    else if zero then
      if (s0.tile z).bad j then (s, some (i, 0x11, z.toNat))
      else twrLoop s0 z bf va m zero w row n (i + 1) (s.updTile z fun t => t.put j 0)
    else twrLoop s0 z bf va m zero w row n (i + 1) s

/-- TWR at VCP (R205). -/
def twrRun (z : BitVec 1) (bf : Bool) (va : VReg) (p : Pred) (e : Entry) (s : State) : State :=
  withTile z false false (fun _ s =>
    let vs := s.ctx.vstart.toNat
    if !rowsOk e then s.vtrap 0x03 0
    else if e.n ≤ vs then s.vdone
    else match s.maskPois (predMask p.m) with
      | some r => s.vtrapAt vs 0x11 r
      | none =>
        let stop := s.stopAt vs e.n (stripOf e.sew)
        elemEnd stop e.n (twrLoop s z bf va p.m p.z e.sew e.c.toNat (stop - vs) vs s)) s

/-- The meaning of TWR (R205). -/
def execTwr (z : BitVec 1) (bf : Bool) (va : VReg) (c : SReg) (p : Pred) (s : State) : Out :=
  vecOp (.twr z bf va c p) (tileChk true [va] fun w g => s.groupOk va g && w = (tileFmt bf).w) 0 0 c (twrRun z bf va p) s

/-! TSAVE and TLOADT (R206). -/

/-- A chunk's access: MISALIGN where the base is no multiple of 64, at the chunk where VSTART stands (assumption 63). -/
def chunkAcc (kd : Kind) (rd : Bool) (va : Nat) (f : Nat → Option Nat) (s : State) : Acc :=
  if va % 64 ≠ 0 then .fault ⟨0x05, va⟩ s else s.acc .v 3 kd rd false va 64 anyPlace f

/-- The chunks of a tile from VSTART (R206); a freeze stops at any chunk (R219). At a VSTART of 5,120 or more there are none, and no check
of the base (assumption 63). -/
def chunkRun (step : Nat → State → Acc) (put : Nat → Nat → Dword → State → State) (fin : State → State) (s : State) : State :=
  let vs := s.ctx.vstart.toNat
  let stop := s.stopAt vs 5120 1
  memEnd stop 5120 fin (memLoop (fun _ => true) step put (fun _ t => t) (stop - vs) vs s)

/-- The meaning of TSAVE (R206). A poisoned element of a chunk traps after the chunk's other checks (R152, R208). -/
def execTsave (z : BitVec 1) (c : SReg) (s : State) : Out :=
  vecOp (.tsave z c) (tileChk false [] fun _ _ => true) 0 0 c (fun e s =>
    withTile z false false (fun t s =>
      chunkRun (fun q u =>
        match chunkAcc .w false (addrAdd e.c.toNat (64 * q : Nat)) (fun _ => some (readN t.data (64 * q) 64)) u with
        | .ok v x ver =>
          if t.poison.any fun p => 10 * (p % 32768) < 64 * q + 64 && 64 * q < 10 * (p % 32768) + 10 then .fault ⟨0x11, z.toNat⟩ u else .ok v x ver
        | a => a)
        (fun _ _ _ u => u) id s) s) s

/-- What the load of chunk `q` makes of a poisoned element: it clears one that it writes whole, or to its end where a chunk before has
written its head; of one whose head alone it writes, that much is noted (R206, R208, R326). -/
def chunkClears (q p : Nat) : Option Nat :=
  let a := 10 * (p % 32768)
  if a + 10 ≤ 64 * q || 64 * q + 64 ≤ a then some p
  else if a + 10 ≤ 64 * q + 64 && (64 * q ≤ a || 32768 ≤ p) then none
  else if 64 * q ≤ a then some (p % 32768 + 32768)
  else some p

/-- A chunk of a tile loaded (R206, R208). -/
def Tile.loadChunk (t : Tile) (q x : Nat) : Tile :=
  { t with data := writeN t.data (64 * q) 64 x, poison := t.poison.filterMap (chunkClears q) }

/-- The meaning of TLOADT (R206): the tile becomes Active as the last chunk is loaded. -/
def execTloadt (z : BitVec 1) (c : SReg) (s : State) : Out :=
  vecOp (.tloadt z c) (tileChk false [] fun _ _ => true) 0 0 c (fun e s =>
    withTile z false true (fun _ s =>
      chunkRun (fun q => chunkAcc .r true (addrAdd e.c.toNat (64 * q : Nat)) fun _ => none)
        (fun q x _ u => u.updTile z fun t => t.loadChunk q x)
        (fun u => u.updTile z fun t => { t with st := .active }) s) s) s

end Sys2Proof.Machine
end

