-- ==== Sys2Proof/Machine/Work.lean ====
section
/-! DEFINITION. SPAWN and CANCEL (R297, R298), and the validity of launch records (R296). -/

namespace Sys2Proof.Machine

open Sys2Proof

/-- The permitted scratchpad bank counts (R138). -/
def spCounts : List Nat := [0, 1, 3, 5, 7, 11, 13, 17, 19, 23, 29, 31]

/-- Whether a mode word has a permitted scratchpad count (R138). -/
def modesOk (m : Dword) : Bool := spCounts.contains (spBanks m).length

/-- A doubleword of a record, by its offset. -/
def recField (rcd : List Dword) (off : Nat) : Nat := (rcd.getD (off / 8) 0).toNat

/-- Whether a record is valid for a partition (R295, R296). -/
def recordValid (p : Partition) (rcd : List Dword) : Bool :=
  let cfg := recField rcd 0x18
  let n := fld cfg 0 16
  let nvp := fld cfg 32 8
  1 ≤ n && n ≤ 12 * p.n && fld cfg 16 8 ≤ 7 && (nvp = 8 || nvp = 16 || nvp = 32 || nvp = 64) &&
  (fld cfg 26 1 = 0 || modesOk (.ofNat 64 (recField rcd 0x58))) &&
  recField rcd 0x10 % 65536 = 0 &&
  ([0x20, 0x30, 0x40, 0x48, 0x50].all fun o => recField rcd o % 8 = 0) &&
  fld cfg 27 5 = 0 && fld cfg 40 24 = 0 && recField rcd 0x68 = 0 && recField rcd 0x78 = 0

/-- The append of R290, as accesses of the scalar stream; a fault of any leaves none performed (assumption 14). -/
def appendRecord (s : State) (p : Partition) (q r : Nat) (done : State → State) : State :=
  let fail (f : Flt) : State := s.trap f.cause f.addr
  match s.acc .s 0 .w false false (r + 0x70) 8 anyPlace fun _ => some 0 with
  | .wait _ => s.stall
  | .fault f _ => fail f
  | .ok t _ _ =>
    let old := descRead t p q 0x08
    let t := descWrite t p q 0x08 r
    if old = 0 then done (descWrite t p q 0x00 r)
    else match t.acc .s 0 .w false false (addrAdd old 0x70) 8 anyPlace fun _ => some r with
      | .wait _ => s.stall
      | .fault f _ => fail f
      | .ok t _ _ => done t

/-- The meaning of SPAWN (R297). A poisoned CTL or ERR traps POISON (R326, assumption 79); HEAD and TAIL lie in CTL's sector. -/
def execSpawn (d a b : SReg) (s : State) : Out :=
  let r := (s.rd a).toNat
  let q := (s.rd b).toNat
  nx (if r % 128 ≠ 0 then s.trap 0x05 r
      else match s.partOfCore s.actor.core with
        | none => s.ret d 1
        | some p =>
          if !p.descOk q then s.ret d 1
          else match descPois s p q [0x18] with
            | some a => s.trap 0x11 a
            | none =>
              if fld (descRead s p q 0x18) 0 1 = 0 then s.ret d 1
              else match descPois s p q [0x20] with
                | some a => s.trap 0x11 a
                | none =>
                  if descRead s p q 0x20 ≠ 0 then s.ret d 3
                  else readBlock s r fun t n =>
                    if !recordValid p (blockWords n) then t.ret d 2
                    else appendRecord t p q r fun t => t.ret d 0)

/-- The queues whose descriptors hold any byte. -/
def queuesInUse (s : State) (p : Partition) : List Nat :=
  if p.descOk 0 then
    let base := p.descKey 0 0
    ((s.mem.filter fun c => base ≤ c.1 && c.1 < base + 64 * 65536).map fun c => (c.1 - base) / 64).eraseDups.filter p.descOk
  else []

/-- Whether a launch's counters name an address (R46). -/
def countsTo (rcd : List Dword) (c : Dword) : Bool :=
  [0x40, 0x48, 0x50].any fun o => recField rcd o = c.toNat

/-- CANCEL's selection at one point (R298): the launches held are cancelled, and records appended but not yet read are
noted by their queue and its TAIL, unless that is poisoned (assumption 79). -/
def cancelAll (s : State) (part : Nat) (c : Dword) : State :=
  match s.part? part with
  | none => s
  | some p =>
    if c = 0 then s
    else
      let tails := (queuesInUse s p).filterMap fun q =>
        let t := descRead s p q 0x08
        let cur := ((p.qcache.find? (·.1 = q)).map (·.2.1)).getD 0
        if t ≠ 0 ∧ t ≠ cur ∧ (descPois s p q [0x08]).isNone then some (q, c, t) else none
      let s := s.updPart part fun p => { p with sel := p.sel ++ tails }
      (p.launches.filter fun l => countsTo l.rcd c && l.st ≠ .done).foldl (fun s l => cancelLaunch s part l.id) s

/-- The meaning of CANCEL (R298): it retires at its point, and the cancellations follow. -/
def execCancel (a : SReg) (s : State) : Out :=
  nx (match s.partOfCore s.actor.core with
      | none => s.retire
      | some p => cancelAll s.retire p.first (s.rd a))

end Sys2Proof.Machine
end

