-- ==== Sys2Proof/Machine/Image.lean ====
section
/-! DEFINITION. The context image of a strand (R224, R225, R207, R281): what a swap-out writes and a resume reloads. -/

namespace Sys2Proof.Machine

open Sys2Proof

/-- The scalar registers whose values an entry captures as a, b and c (R25, R225); s0 where none is named. -/
def capturedRegs : Instr → SReg × SReg × SReg
  | .vq4 _ _ _ _ _ _ c _ => (0, 0, c)
  | .tcfg _ c => (0, 0, c)
  | .topO _ _ _ c _ _ => (0, 0, c)
  | .topF _ _ _ c _ _ => (0, 0, c)
  | .trd _ _ _ c _ => (0, 0, c)
  | .twr _ _ _ c _ => (0, 0, c)
  | .tsave _ c => (0, 0, c)
  | .tloadt _ c => (0, 0, c)
  | .tabld c => (0, 0, c)
  | .vstash _ a b _ _ _ _ => (a, b, 0)
  | .vrestore _ a b _ _ _ => (a, b, 0)
  | .vsetvl _ a b => (a, b, 0)
  | .vsetvli _ a _ => (a, 0, 0)
  | .lmcfg a => (a, 0, 0)
  | .flset _ a => (a, 0, 0)
  | .vcmp _ _ _ b _ => (0, bReg b, 0)
  | .vfcmp _ _ _ _ b _ => (0, bReg b, 0)
  | .vadd _ _ b _ => (0, bReg b, 0)
  | .vsub _ _ b _ => (0, bReg b, 0)
  | .vand _ _ b _ => (0, bReg b, 0)
  | .vor _ _ b _ => (0, bReg b, 0)
  | .vxor _ _ b _ => (0, bReg b, 0)
  | .vsll _ _ b _ => (0, bReg b, 0)
  | .vsrl _ _ b _ => (0, bReg b, 0)
  | .vsra _ _ b _ => (0, bReg b, 0)
  | .vmin _ _ b _ => (0, bReg b, 0)
  | .vmax _ _ b _ => (0, bReg b, 0)
  | .vminu _ _ b _ => (0, bReg b, 0)
  | .vmaxu _ _ b _ => (0, bReg b, 0)
  | .vmul _ _ b _ => (0, bReg b, 0)
  | .vmulh _ _ b _ => (0, bReg b, 0)
  | .vmulhu _ _ b _ => (0, bReg b, 0)
  | .vaddsat _ _ b _ => (0, bReg b, 0)
  | .vmerge _ _ b _ => (0, bReg b, 0)
  | .vmv _ b _ => (0, bReg b, 0)
  | .vfadd _ _ _ b _ _ => (0, bReg b, 0)
  | .vfsub _ _ _ b _ _ => (0, bReg b, 0)
  | .vfmul _ _ _ b _ _ => (0, bReg b, 0)
  | .vfdiv _ _ _ b _ _ => (0, bReg b, 0)
  | .vfmin _ _ _ b _ => (0, bReg b, 0)
  | .vfmax _ _ _ b _ => (0, bReg b, 0)
  | .vfma _ _ _ b _ _ => (0, bReg b, 0)
  | .vfnms _ _ _ b _ _ => (0, bReg b, 0)
  | .vslideup _ _ b _ => (0, b, 0)
  | .vslidedn _ _ b _ => (0, b, 0)
  | .vbcast _ _ b _ => (0, b, 0)
  | .vextr _ _ b => (0, b, 0)
  | .vins _ a b => (a, b, 0)
  | .vrand _ b _ => (0, b, 0)
  | .vld _ a _ _ _ => (a, 0, 0)
  | .vlds _ a b _ _ _ => (a, b, 0)
  | .vld2 _ a b c _ _ _ => (a, b, c)
  | .vgath _ a _ _ _ _ _ _ => (a, 0, 0)
  | .vgathO _ a _ _ _ _ _ _ => (a, 0, 0)
  | .vsld _ a b c _ _ _ => (a, b, c)
  | .vgl _ a _ _ _ _ _ => (a, 0, 0)
  | .vst _ a _ _ _ => (a, 0, 0)
  | .vsts _ a b _ _ _ => (a, b, 0)
  | .vst2 _ a b c _ _ _ => (a, b, c)
  | .vscat _ a _ _ _ _ _ _ => (a, 0, 0)
  | .vscatO _ a _ _ _ _ _ _ => (a, 0, 0)
  | .vscc _ a _ _ _ _ _ _ => (a, 0, 0)
  | .vrred _ _ _ a _ _ _ => (a, 0, 0)
  | _ => (0, 0, 0)

/-- Whether a major opcode is a vector instruction's (R24). -/
def vectorMajor (maj : Nat) : Bool :=
  maj = 0x12 || maj = 0x13 || (0x20 ≤ maj && maj ≤ 0x2C) || maj = 0x30 || maj = 0x31

/-! The header. A header is a list of doublewords by their offsets. -/

/-- Doublewords laid down in sparse bytes. -/
def putWords (ws : List (Nat × Nat)) (m : Bytes) : Bytes := ws.foldl (fun m w => writeN m w.1 8 w.2) m

/-- Doublewords one after another from an offset. -/
def wordsAt (off : Nat) (vs : List Nat) : List (Nat × Nat) :=
  (List.range vs.length).map fun i => (off + 8 * i, vs.getD i 0)

/-- A queue image entry (R225). -/
def entryWords (e : Entry) (vs : Nat) : List Nat :=
  let ht := (encode e.ins).getD (0, 0)
  [ht.1 + ht.2 * 65536, e.pc.toNat, e.a.toNat, e.b.toNat, e.c.toNat, e.vl.toNat, e.vtype.toNat, vs]

/-- A queue image from an offset (R225). -/
def queueWords (off : Nat) (q : List Entry) (vs : Dword) : List (Nat × Nat) :=
  (List.range q.length).flatMap fun i => match q[i]? with
    | some e => wordsAt (off + 64 * i) (entryWords e (if i = 0 then vs.toNat else 0))
    | none => []

/-- An engine entry of an engine context's image (R281). -/
def engEntryWords (e : EngEntry) : List Nat :=
  (if e.marker then List.replicate 16 0 else (List.range 16).map fun i => (e.blk.getD i 0).toNat) ++
    [e.no, e.progress, e.port.toNat + e.marker.toNat * 256 + 512, e.w + e.fr.toNat * 256]

/-- An engine context's image (R281). -/
def engWords (off : Nat) (g : EngCtx) : List (Nat × Nat) :=
  wordsAt off [g.last.toNat, g.tl.toNat, match g.err with | some c => c.toNat + 256 | none => 0,
    if g.err.isSome then g.errNo else 0] ++
  (List.range g.entries.length).flatMap fun r => match g.entries[r]? with
    | some e => wordsAt (off + 0x40 + 160 * r) (engEntryWords e)
    | none => []

/-- The frame's 44 doublewords (R224). -/
def frameWords (f : Frame) : List Nat :=
  (List.range 32).map (fun i => if i = 0 then 0 else (f.regs.toList.getD i 0).toNat) ++
    [f.spc.toNat, f.vstart.toNat, f.vbase.toNat, f.fmode.toNat, f.seed.toNat, f.padlo.toNat, f.padhi.toNat,
     f.padval.toNat, f.vl.toNat, f.vtype.toNat, f.nv, f.image.length]

/-- The header of the strand on core `k` (R224). -/
def headerWords (s0 : State) (k : Fin 96) (st : Strand) : List (Nat × Nat) :=
  let s := { s0 with actor := { core := k, who := .user, seq := false, stop := none } }
  let c := s.core k
  let u := c.user
  wordsAt 0x000 ((List.range 32).map fun i => (u.reg (.ofNat 5 i)).toNat) ++
  [(0x100, u.pc.toNat), (0x108, u.queue.length + st.hs.toNat * 256 + st.frame.isSome.toNat * 512)] ++
  wordsAt 0x110 ((List.range 0x19).map fun i => (sysRead s i).toNat) ++
  [(0x1D8, c.ptbase.toNat)] ++
  wordsAt 0x200 (st.fl.toList.map (·.toNat)) ++
  [(0x240, c.modes.toNat)] ++
  wordsAt 0x300 ((List.range 32).map fun b =>
    if bankMode c.modes b = 3 then (c.fifo b).held + (c.fifo b).oldest * 2 ^ 18 else 0) ++
  (match st.frame with
   | some f => wordsAt 0x800 (frameWords f) ++ queueWords 0x3000 f.image f.vstart
   | none => []) ++
  queueWords 0x1000 u.queue u.vstart ++
  (List.range 4).flatMap fun i => engWords (0x2000 + 1024 * i) c.eng[Fin.ofNat 4 i]

/-- The 64 KiB pages of an image that hold anything: page 0, the vector file, the masks, Active persistent tiles (R207),
and the scratchpad and FIFO banks (R226). -/
def imagePages (modes : Dword) (t0 t1 : Bool) : List Nat :=
  List.range 10 ++ (if t0 then [10, 11, 12, 13, 14] else []) ++ (if t1 then [15, 16, 17, 18, 19] else []) ++
  (List.range 32).flatMap fun b =>
    if 2 ≤ bankMode modes b then [20 + 3 * b, 21 + 3 * b, 22 + 3 * b] else []

/-- Whether a tile's contents are saved (R207). -/
def Tile.saved (t : Tile) : Bool := t.st = .active && t.pers

/-- The image of the strand on core `k` (R224). -/
def imageBytes (s : State) (k : Fin 96) (st : Strand) : Bytes :=
  let c := s.core k
  let m := putWords (headerWords s k st) []
  let m := blit m 0x400 1024 st.ct
  let m := blit m 0x10000 Config.vfileBytes c.user.vfile
  let m := blit m 0x90000 65536 c.user.masks
  let m := if st.z0.saved then blit m 0xA0000 327680 st.z0.data else m
  let m := if st.z1.saved then blit m 0xF0000 327680 st.z1.data else m
  (List.range 32).foldl (fun m b =>
    if 2 ≤ bankMode c.modes b then
      blit m (0x140000 + b * Config.bankBytes) Config.bankBytes
        (sliceRange s.mem (bankKey k b 0) (bankKey k b 0 + Config.bankBytes))
    else m) m

/-- Whether the state of the strand on core `k` holds poison, which its image could not carry (R326). -/
def strandPoisoned (s : State) (k : Fin 96) (st : Strand) : Bool :=
  let c := s.core k
  c.user.pregs ≠ 0 || c.user.pmasks ≠ 0 || c.user.pvec ≠ [] || st.pfl ≠ 0 || st.pct ||
  (st.z0.saved && st.z0.poison ≠ []) || (st.z1.saved && st.z1.poison ≠ []) ||
  (st.frame.any fun f => f.pregs ≠ 0) ||
  (List.range 32).any fun b => 2 ≤ bankMode c.modes b && s.poisonedAt (bankKey k b 0) Config.bankBytes

/-- A whole page of memory written: its granules are clean, present lines rise (R235, R326), once each (assumption 81). -/
def writePage (s0 : State) (key : Nat) (bs : Bytes) : State :=
  let s := (s0.rawRange key (key + 65536)).raisePage key
  { s with mem := blit s.mem key 65536 bs, poison := clearPoison s.poison 32 key 65536 }

/-- The engine contexts of core `k` come to rest for a pre-emption: what each command has read is delivered (R281). -/
def restEngine (s : State) (k : Fin 96) : State :=
  ([0, 1, 2, 3] : List (Fin 4)).foldl (fun s i => (s.core k).eng[i].entries.foldl (fun s e =>
    let r := finishAhead k s e
    r.1.updEng k i fun g => { g with entries := g.entries.map fun d => if d.no = e.no then r.2 else d }) s) s

/-- The image of the strand on core `k`, its engine at rest, written to its save area; none where the area lies outside R224, an access to
it faults, or the strand's state is poisoned (R226). -/
def saveImage (s : State) (p : Partition) (x : Launch) (k : Fin 96) : Option State :=
  match (s.core k).strand with
  | none => none
  | some st =>
    let b := x.saveBase st.idx
    if !saveOk s p x.ptb b || strandPoisoned s k st then none
    else
      let img := imageBytes s k st
      (imagePages (s.core k).modes st.z0.saved st.z1.saved).foldl (fun m j => m.bind fun s =>
        match translateSched s p x.ptb .w (b + 65536 * j) with
        | .ok y => if s.otherClass y.key then none else some (writePage s y.key (sliceRange img (65536 * j) (65536 * j + 65536)))
        | .error _ => none) (some s)

/-! Reloading. -/

/-- Pages of a save area read into sparse bytes; none at a fault or poison (R226). -/
def loadPages (s : State) (p : Partition) (x : Launch) (base : Nat) (js : List Nat) (m : Bytes) : Option Bytes :=
  js.foldl (fun m j => m.bind fun m =>
    match translateSched s p x.ptb .r (base + 65536 * j) with
    | .ok y =>
      let t := s.rawRange y.key (y.key + 65536)
      if s.otherClass y.key || t.poisonedAt y.key 65536 then none
      else some (blit m (65536 * j) 65536 (sliceRange t.mem y.key (y.key + 65536)))
    | .error _ => none) (some m)

/-- A doubleword of an image. -/
def imgWord (m : Bytes) (off : Nat) : Nat := readN m off 8

/-- Whether every byte of a range of an image is zero. -/
def imgZero (m : Bytes) (lo hi : Nat) : Bool := m.all fun c => !(lo ≤ c.1 && c.1 < hi && c.2 ≠ 0)

/-- Whether a VTYPE value is one that VSETVL can leave at an NV (R69, R70). -/
def vtypeOk (nv vt : Nat) : Bool :=
  vt = 0x100 || (vt < 32 && fld vt 0 3 < 5 && 2 ^ fld vt 3 2 ≤ nv / 8)

/-- The permitted NV values (R67). -/
def nvOk (n : Nat) : Bool := n = 8 || n = 16 || n = 32 || n = 64

/-- Whether VL lies in 0..VLMAX of VTYPE at an NV (R70). -/
def vlOk (nv vl vt : Nat) : Bool :=
  vl ≤ if fld vt 8 1 = 1 then 0 else Config.vfileBytes / nv * 2 ^ fld vt 3 2 / 2 ^ fld vt 0 3

/-- A queue image entry read back: a vector instruction, its tail zero beyond its length, unused operands zero (R225), VL and
VTYPE as the strand's NV allows (R69, R70). -/
def entryOf (m : Bytes) (off nv : Nat) (first : Bool) : Option Entry :=
  let w := imgWord m off
  let head := w % 65536
  let tail := w / 65536
  let g (i : Nat) : Dword := .ofNat 64 (imgWord m (off + 8 * i))
  if !vectorMajor (fld head 8 6) || 2 ^ (16 * fld head 14 2) ≤ tail || (!first && g 7 ≠ 0) then none
  else match decodeInstr head tail with
    | none => none
    | some (.vcfg _) => none
    | some i =>
      let r := capturedRegs i
      if !vtypeOk nv (g 6).toNat || !vlOk nv (g 5).toNat (g 6).toNat || (r.1 = 0 && g 2 ≠ 0) || (r.2.1 = 0 && g 3 ≠ 0) || (r.2.2 = 0 && g 4 ≠ 0) then none
      else some { ins := i, pc := g 1, a := g 2, b := g 3, c := g 4, vl := g 5, vtype := g 6 }

/-- `n` queue image entries read back. -/
def queueOf (m : Bytes) (off n nv : Nat) : Option (List Entry) :=
  (List.range n).foldl (fun q i => q.bind fun q => (entryOf m (off + 64 * i) nv (i = 0)).map fun e => q ++ [e]) (some [])

/-- The registers of a header or frame, s0 stored as 0. -/
def regsOf (m : Bytes) (off : Nat) : Vector Dword 32 := Vector.ofFn fun i => .ofNat 64 (imgWord m (off + 8 * i.val))

/-- The frame read back (R224). -/
def frameOf' (m : Bytes) : Option Frame :=
  let g (i : Nat) : Dword := .ofNat 64 (imgWord m (0x800 + 8 * i))
  let n := (g 43).toNat
  let nv := (g 42).toNat
  if g 0 ≠ 0 || 64 < n || !nvOk nv || !vtypeOk nv (g 41).toNat || !vlOk nv (g 40).toNat (g 41).toNat || g 35 &&& ~~~0x3F07#64 ≠ 0 then none
  else (queueOf m 0x3000 n nv).map fun q =>
    { regs := regsOf m 0x800, pregs := 0, spc := g 32, image := q, vstart := if n = 0 then g 33 else .ofNat 64 (imgWord m 0x3038),
      vbase := g 34, fmode := g 35, seed := g 36, padlo := g 37, padhi := g 38, padval := g 39, vl := g 40, vtype := g 41, nv }

/-- An engine entry read back (R281): a block that passes CPY's checks, progress within it, W within its queue image. -/
def engEntryOf (m : Bytes) (off size live frame ord : Nat) : Option (Option EngEntry) :=
  let st := imgWord m (off + 0x90)
  let wf := imgWord m (off + 0x98)
  let blk := (List.range 16).map fun i => (.ofNat 64 (imgWord m (off + 8 * i)) : Dword)
  let c := parseCmd blk
  let marker := fld st 8 1 = 1
  let fr := fld wf 8 1 = 1
  let w := fld wf 0 7
  let prog := imgWord m (off + 0x88)
  if st &&& 0x307 ≠ st ∨ wf &&& 0x17F ≠ wf ∨ 64 < w then none
  else if fld st 9 1 = 0 then some none
  else if (if fr then frame else live) < w then none
  else if marker then (if imgZero m off (off + 128) then
      some (some { no := imgWord m (off + 0x80), ord, port := .ofNat 3 st, marker := true, blk := [], progress := 0, ahead := [], left := [], w, fr })
    else none)
  else if cmdOk c size && prog ≤ c.total && prog % c.unit = 0 then
    some (some { no := imgWord m (off + 0x80), ord, port := .ofNat 3 st, marker := false, blk, progress := prog, ahead := [], left := [], w, fr })
  else none

/-- Whether the numbers of an engine context are such as its issues leave (R267, R278): the entries rise from above the timeline to LAST,
in error state below the first abandoned one, and the timeline stands where they let it. -/
def EngCtx.numbered (g : EngCtx) : Bool :=
  decide ((g.entries.map (·.no)).Pairwise (· < ·)) && g.entries.all (fun e => g.tl.toNat < e.no && e.no ≤ g.last.toNat) &&
  g.tl.toNat = g.reach && (g.err.isNone || (g.errNo ≤ g.last.toNat && g.entries.all fun e => e.no < g.errNo))

/-- An engine context read back (R281); entries take the order of issue of their place in the image. -/
def engCtxOf (m : Bytes) (i size live frame : Nat) : Option EngCtx :=
  let off := 0x2000 + 1024 * i
  let ew := imgWord m (off + 0x10)
  let no := imgWord m (off + 0x18)
  if 2 ^ 9 ≤ ew ∨ (ew < 256 ∧ (no ≠ 0 ∨ ew ≠ 0)) ∨ (256 ≤ ew ∧ (ew = 256 ∨ 263 < ew)) ∨ !imgZero m (off + 0x20) (off + 0x40) then none
  else
    ((List.range 6).foldl (fun es r => es.bind fun es =>
      (engEntryOf m (off + 0x40 + 160 * r) size live frame (6 * i + r)).map fun e => es ++ e.toList) (some [])).bind fun es =>
      let g : EngCtx := { last := .ofNat 64 (imgWord m off), tl := .ofNat 64 (imgWord m (off + 8)),
                          err := if fld ew 8 1 = 1 then some (.ofNat 8 ew) else none, errNo := no, entries := es }
      if g.numbered then some g else none

/-- The four engine contexts read back. -/
def engOf (m : Bytes) (size live frame : Nat) : Option (Vector EngCtx 4) :=
  match engCtxOf m 0 size live frame, engCtxOf m 1 size live frame, engCtxOf m 2 size live frame,
      engCtxOf m 3 size live frame with
  | some a, some b, some c, some d => some #v[a, b, c, d]
  | _, _, _, _ => none

/-- A tile read back from TSTATE and its pages (R207): volatile Active comes back Lost. None for a code or
configuration that R193 and R197 do not assign. -/
def tileOf (m : Bytes) (ts z : Nat) : Option Tile :=
  let code := fld ts (4 * z) 2
  let pers := fld ts (4 * z + 2) 1 = 1
  let cfg := fld ts (16 + 16 * z) 9
  if code = 3 ∨ (code = 0 ∧ cfg ≠ 0) ∨ (code ≠ 0 ∧ !tcfgOk cfg) then none
  else if code = 0 then some { st := .free, pers, cfg := 0, data := [], poison := [] }
  else if code = 1 ∧ pers then
    let off := 0xA0000 + 0x50000 * z
    some { st := .active, pers, cfg := .ofNat 9 cfg, data := sliceRange m off (off + 327680), poison := [] }
  else some { st := .lost, pers, cfg := .ofNat 9 cfg, data := [], poison := [] }

/-- The FIFOs read back (R224). -/
def fifosOf (m : Bytes) (modes : Dword) : Option (List Fifo) :=
  (List.range 32).foldl (fun fs b => fs.bind fun fs =>
    let w := imgWord m (0x300 + 8 * b)
    if 2 ^ 36 ≤ w ∨ Config.bankBytes < fld w 0 18 ∨ Config.bankBytes ≤ fld w 18 18 then none
    else some (if bankMode modes b = 3 then fs ++ [⟨b, fld w 0 18, fld w 18 18⟩] else fs)) (some [])

/-- VCP as the live queue image gives it (R30). -/
def imageVcp (m : Bytes) : Nat := if fld (imgWord m 0x108) 0 7 = 0 then 1 else imgWord m 0x1008

/-- Whether PART_ID names slices of a layout (R101, R305). -/
def partIdOk (v : Nat) : Bool :=
  let n := v / 16
  (n = 1 || n = 2 || n = 4 || n = 8) && v % 16 % n = 0 && v % 16 + n ≤ 8

/-- Whether the header's single fields hold values that R224 assigns, for a gang of `size` (R30, R101, R137; assumption 36). -/
def headerOk (m : Bytes) (size : Nat) : Bool :=
  let g (i : Nat) : Nat := imgWord m (0x110 + 8 * i)
  let w := imgWord m 0x108
  imgWord m 0 = 0 && w &&& 0x37F = w && fld w 0 7 ≤ 64 &&
  g 0x00 < size && g 0x01 = size && g 0x02 < 96 && partIdOk (g 0x03) && g 0x0A = imageVcp m && g 0x18 = imgWord m 0x240 &&
  g 0x0B < 256 && g 0x0C &&& 0x3F07 = g 0x0C && g 0x11 ≤ 0x14 && g 0x17 &&& 0x1FF01FF0077 = g 0x17 &&
  nvOk (g 0x07) && vtypeOk (g 0x07) (g 0x06) && vlOk (g 0x07) (g 0x05) (g 0x06) && modesOk (.ofNat 64 (imgWord m 0x240)) &&
  (let ptb := imgWord m 0x1D8
   ptb &&& 0xFFFF03FFFFFF0300 = ptb) &&
  imgZero m 0x4000 0x10000

/-- The user context an image holds. -/
def ctxOf (m : Bytes) (q : List Entry) : Ctx :=
  let g (i : Nat) : Dword := .ofNat 64 (imgWord m (0x110 + 8 * i))
  { Ctx.reset with
    regs := regsOf m 0, pc := .ofNat 64 (imgWord m 0x100), vl := g 0x05, vtype := g 0x06,
    vstart := if q.isEmpty then g 0x08 else .ofNat 64 (imgWord m 0x1038),
    vbase := g 0x09, fflags := g 0x0B, fmode := g 0x0C, seed := g 0x0D, clipcnt := g 0x0E, qcnt := g 0x0F,
    padlo := g 0x14, padhi := g 0x15, padval := g 0x16, queue := q,
    vfile := sliceRange m 0x10000 (0x10000 + Config.vfileBytes), masks := sliceRange m 0x90000 0xA0000 }

/-- The strand an image holds. -/
def strandOf (p : Partition) (x : Launch) (i : Nat) (m : Bytes) (f : Option Frame) (z0 z1 : Tile) : Strand :=
  let g (j : Nat) : Dword := .ofNat 64 (imgWord m (0x110 + 8 * j))
  { Strand.start p.first x.id i ((x.field 0x18).toNat % 65536) (g 0x07).toNat false false with
    fl := Vector.ofFn fun j => .ofNat 64 (imgWord m (0x200 + 8 * j.val)), ct := sliceRange m 0x400 0x800, z0, z1,
    trapvec := g 0x10, trapcause := g 0x11, trapaddr := g 0x12, trappc := g 0x13, hs := fld (imgWord m 0x108) 8 1 = 1,
    frame := f, run := if x.halted.contains i then .halted else .running, frz := if x.dbg then .debug else .none }

/-- The banks' contents an image holds, in the core's own local memory. -/
def loadBanks (m : Bytes) (k : Fin 96) (modes : Dword) (s : State) : State :=
  (List.range 32).foldl (fun s b =>
    if 2 ≤ bankMode modes b then
      let o := 0x140000 + b * Config.bankBytes
      { s with mem := blit s.mem (bankKey k b 0) Config.bankBytes (sliceRange m o (o + Config.bankBytes)) }
    else s) s

/-- What an image holds beside its plain fields: the queue, the frame, the tiles, the FIFOs and the engine contexts. -/
structure Held where
  q : List Entry
  f : Option Frame
  z0 : Tile
  z1 : Tile
  fifos : List Fifo
  eng : Vector EngCtx 4

/-- An image read back; none where it holds a value that R224 and R281 do not assign. -/
def heldOf (m : Bytes) (size : Nat) : Option Held :=
  let w := imgWord m 0x108
  let ts := imgWord m (0x110 + 8 * 0x17)
  if !headerOk m size then none
  else
    (queueOf m 0x1000 (fld w 0 7) (imgWord m (0x110 + 8 * 7))).bind fun q =>
    (if fld w 9 1 = 1 then (frameOf' m).map some else some none).bind fun f =>
    (tileOf m ts 0).bind fun z0 =>
    (tileOf m ts 1).bind fun z1 =>
    (fifosOf m (.ofNat 64 (imgWord m 0x240))).bind fun fifos =>
    (engOf m size q.length ((f.map (·.image.length)).getD 0)).map fun eng => { q, f, z0, z1, fifos, eng }

/-- The image of strand `i` reloaded on core `k` (R226); none where the save area or the image lies outside R224, or a
read of it faults or meets poison. -/
def loadImage (s : State) (p : Partition) (x : Launch) (i : Nat) (k : Fin 96) : Option State :=
  let b := x.saveBase i
  let size := (x.field 0x18).toNat % 65536
  if !saveOk s p x.ptb b then none
  else (loadPages s p x b (List.range 10) []).bind fun m =>
    let modes : Dword := .ofNat 64 (imgWord m 0x240)
    let ts := imgWord m (0x110 + 8 * 0x17)
    (loadPages s p x b ((imagePages modes (fld ts 0 3 = 5) (fld ts 4 3 = 5)).drop 10) m).bind fun m =>
      (heldOf m size).map fun h =>
        let s := loadBanks m k modes (setModes k modes (setModes k 0 s))
        s.updCore k fun c => { c with
          user := ctxOf m h.q, strand := some (strandOf p x i m h.f h.z0 h.z1), ptbase := .ofNat 64 (imgWord m 0x1D8),
          fifos := h.fifos, eng := h.eng, efault := 0, efaultNo := none, engOff := false, yieldTo := 0 }

/-! A debugger's access to a halted strand (R227). -/

/-- The strand on core `k`, if a debugger has halted it. -/
def State.halted? (s : State) (k : Fin 96) : Option Strand := (s.core k).strand.filter fun st => st.frz = .debug

/-- A doubleword of a halted strand's state, read as the image of R224 (R227). -/
def debugRead (s : State) (k : Fin 96) (off : Nat) : Option Dword :=
  (s.halted? k).map fun st => .ofNat 64 (imgWord (imageBytes s k st) off)

/-- Whether an offset of an image lies in a range. -/
def inRange (off lo len : Nat) : Bool := lo ≤ off && off < lo + len

/-- A context whose doubleword at an image offset was written: what the image does not hold stays, and the poison of what the
write does not cover whole (R326). -/
def Ctx.debugged (old new : Ctx) (off : Nat) : Ctx :=
  { new with
    icache := old.icache
    pregs := if off < 0x100 then old.pregs &&& ~~~(1#32 <<< (off / 8)) else old.pregs
    pmasks := old.pmasks
    pvec := old.pvec.filter fun p => !(off ≤ 0x10000 + p / 32 && 0x10000 + p / 32 + p % 32 ≤ off + 8) }

/-- A doubleword written at an offset of the image of the strand that a debugger has halted on core `k` (R227). A write that leaves
a value R224 does not assign changes nothing (assumption 66). Tiles and engine contexts take only a write of their own part of the
image, and the scratchpad and FIFO banks only one of theirs. -/
def debugWrite (s : State) (k : Fin 96) (off : Nat) (v : Dword) : State :=
  match s.halted? k with
  | none => s
  | some st =>
    if off % 8 ≠ 0 ∨ Config.saveBytes < off + 8 then s
    else
      let m := writeN (imageBytes s k st) off 8 v.toNat
      -- VCP and LMSTATE show what the write has made of the queue and the mode word
      let m := if off = 0x160 then m else writeN m 0x160 8 (imageVcp m)
      let m := if off = 0x1D0 then m else writeN m 0x1D0 8 (imgWord m 0x240)
      match heldOf m st.size with
      | none => s
      | some h =>
        let modes : Dword := .ofNat 64 (imgWord m 0x240)
        let ts := off = 0x1C8
        let tile (old new : Tile) (lo : Nat) : Tile :=
          if ts || (old.saved && inRange off lo 0x50000) then { new with poison := old.poison } else old
        let c := s.core k
        let s := if off = 0x240 then setModes k modes s else s
        let s := if inRange off 0x140000 (32 * Config.bankBytes) && 2 ≤ bankMode modes ((off - 0x140000) / Config.bankBytes) then
            s.writeKey (bankKey k 0 (off - 0x140000)) 8 v.toNat else s
        s.updCore k fun d => { d with
          user := c.user.debugged (ctxOf m h.q) off
          ptbase := .ofNat 64 (imgWord m 0x1D8)
          fifos := if inRange off 0x300 0x100 then h.fifos else d.fifos
          eng := if inRange off 0x2000 0x1000 then h.eng else d.eng
          strand := some { st with
            nv := imgWord m (0x110 + 8 * 7)
            fl := Vector.ofFn fun j => .ofNat 64 (imgWord m (0x200 + 8 * j.val))
            pfl := if inRange off 0x200 0x40 then st.pfl &&& ~~~(1#8 <<< ((off - 0x200) / 8)) else st.pfl
            ct := sliceRange m 0x400 0x800
            z0 := tile st.z0 h.z0 0xA0000
            z1 := tile st.z1 h.z1 0xF0000
            trapvec := .ofNat 64 (imgWord m 0x190)
            trapcause := .ofNat 64 (imgWord m 0x198)
            trapaddr := .ofNat 64 (imgWord m 0x1A0)
            trappc := .ofNat 64 (imgWord m 0x1A8)
            hs := fld (imgWord m 0x108) 8 1 = 1
            frame := if off = 0x108 || inRange off 0x800 0x800 || inRange off 0x3000 0x1000 then
                h.f.map fun f => { f with pregs := (st.frame.map (·.pregs)).getD 0 }
              else st.frame } }

end Sys2Proof.Machine
end

