-- ==== Sys2Proof/Machine/Sched.lean ====
section
/-! DEFINITION. What the scheduler of a partition does (R38 to R46, R226, R263, R288 to R300): records, dependences, completion,
placement, pre-emption and resume. Each event names its partition by its first slice. -/

namespace Sys2Proof.Machine

open Sys2Proof

/-! Placement order (R299). -/

/-- Whether `a` stands before `b`. -/
def Launch.before (a b : Launch) : Bool :=
  if a.pri ≠ b.pri then b.pri < a.pri
  else if a.readySeq ≠ b.readySeq then a.readySeq < b.readySeq
  else if a.q ≠ b.q then a.q < b.q
  else a.readSeq < b.readSeq

/-- Whether a launch is in the ready set: ready, or swapped out, its images for a placement all written (R226, R299). -/
def Launch.inReady (l : Launch) : Bool := l.st = .ready || l.st = .swapped || (l.st = .swapping && l.imgs = [])

/-- The first launch of a list that satisfies `f`, in placement order. -/
def firstOf (ls : List Launch) (f : Launch → Bool) : Option Launch :=
  ls.foldl (fun m l => if f l then (match m with | none => some l | some x => if l.before x then some l else some x) else m) none

/-- The first launch in order. -/
def Partition.first? (p : Partition) : Option Launch := firstOf p.launches Launch.inReady

/-- The cores of a partition on which nothing is placed. -/
def freeCores (s : State) (p : Partition) : List Nat := p.coreList.filter fun k => (s.core (coreId k)).strand.isNone

/-- Whether a gang of `n` fits on a set of cores (R38, R39). -/
def fits (n : Nat) (cs : List Nat) : Bool :=
  if n % 4 = 0 then n ≤ 4 * (cs.filter fun c => c % 4 = 0 && [1, 2, 3].all fun j => cs.contains (c + j)).length
  else n ≤ cs.length

/-- Whether a list of cores places a gang of `n` on a set of cores (R38, R39). -/
def arranged (n : Nat) (cores avail : List Nat) : Bool :=
  cores.length = n && (cores.eraseDups).length = n && cores.all avail.contains &&
  (n % 4 ≠ 0 || (List.range n).all fun i => cores.getD i 0 = cores.getD (i / 4 * 4) 0 / 4 * 4 + i % 4)

/-- Whether strand `i` of a launch that is swapped out is still frozen in place (R226). -/
def Launch.inPlaceAt (x : Launch) (i : Nat) : Bool := x.inPlace.contains (x.cores.getD i 96)

/-- Whether a list of cores places a launch on a set of cores (R38, R39), a strand still in place on its own core (R226). -/
def Launch.arrangedOn (x : Launch) (cores avail : List Nat) : Bool :=
  arranged x.size cores avail &&
  (List.range x.size).all fun i =>
    if x.inPlaceAt i then cores.getD i 0 = x.cores.getD i 96 else !x.inPlace.contains (cores.getD i 0)

/-- Whether a launch fits on a set of cores that holds those its strands are still in place on: of a gang placed by clusters, a cluster
with a strand in place is its own (R38, R39, R226; assumption 89). -/
def Launch.fitsOn (x : Launch) (cs : List Nat) : Bool :=
  if x.size % 4 = 0 then
    let whole (c : Nat) : Bool := c % 4 = 0 && [0, 1, 2, 3].all fun j => cs.contains (c + j)
    let own (g : Nat) : Bool := [0, 1, 2, 3].any fun j => x.inPlaceAt (4 * g + j)
    let gs := List.range (x.size / 4)
    gs.all (fun g => !own g || whole (x.cores.getD (4 * g) 96)) &&
    (gs.filter fun g => !own g).length ≤ (cs.filter fun c => whole c && [0, 1, 2, 3].all fun j => !x.inPlace.contains (c + j)).length
  else x.size ≤ cs.length

/-! Records. -/

/-- A counter read by the scheduler (R294): a stable page counts as PFLT.R. -/
def counterRead (s : State) (p : Partition) (ptb : Dword) (va : Nat) : Except Flt (Nat × State) :=
  match translateSched s p ptb .r va with
  | .error f => .error f
  | .ok x => if x.pol = 3 then .error ⟨0x06, va⟩ else schedAccess s p ptb va none

/-- How one dependence stands (R42, R43): absent or met, unmet, met under a mark, or its read faulted. -/
inductive Dep
  | met (s : State)
  | unmet (s : State)
  | marked (s : State)
  | flt (f : Flt)

/-- One dependence evaluated (R42, R43). -/
def depEval (s : State) (p : Partition) (x : Launch) (off : Nat) : Dep :=
  let a := (x.field off).toNat
  let req := (x.field (off + 8)).toNat
  if a = 0 then .met s
  else match counterRead s p x.ptb a with
    | .error f => .flt f
    | .ok (v, s) =>
      if v % 2 ^ 63 < req % 2 ^ 63 then .unmet s
      else if fld v 63 1 = 1 ∧ fld req 63 1 = 0 then .marked s
      else .met s

/-- A held dependence read: ERR and FADR are set, and the launch waits (R294). -/
def depHold (s : State) (p : Partition) (x : Launch) (f : Flt) : State :=
  (setErr s p x.q f true).updLaunch p.first x.id fun y => { y with depHeld := true }

/-- Dependences evaluated (R42, R43, R294): the launch becomes ready, is cancelled, or waits. -/
def evalDeps (s : State) (part l : Nat) : State :=
  match s.part? part, s.launch? part l with
  | some p, some x =>
    if x.st ≠ .waiting then s
    else if !p.descOk x.q || errHolds s p x.q then s.updLaunch part l fun y => { y with depHeld := true }
    else match depEval s p x 0x20 with
      | .flt f => depHold s p x f
      | .marked s => cancelLaunch s part l
      | .unmet s =>
        (match depEval s p x 0x30 with
         | .flt f => depHold s p x f
         | .marked s => cancelLaunch s part l
         | .unmet s => s
         | .met s => s)
      | .met s =>
        (match depEval s p x 0x30 with
         | .flt f => depHold s p x f
         | .marked s => cancelLaunch s part l
         | .unmet s => s
         | .met s => s.updLaunch part l fun y => { y with st := .ready, readySeq := s.now, depHeld := false })
  | _, _ => s

/-- The meaning of DEPENDENCE_EVALUATION (R42, R43). -/
def execDependenceEvaluation (part l : Nat) (s : State) : Out :=
  nx (if (s.alive? part).isSome then evalDeps s part l else s)

/-- The read, unplaced launches of a partition (R293). -/
def Partition.unplaced (p : Partition) : Nat := (p.launches.filter fun l => l.st = .waiting || l.st = .ready).length

/-- The record just read joins the scheduler (R291, R296, R298): invalid, or selected by an earlier CANCEL, it completes
with the mark; otherwise its dependences are evaluated. Its counters are reached under the PTB that its record was read with
(assumption 85). -/
def takeRecord (s : State) (p : Partition) (q r ptb : Nat) (rcd : List Dword) : State :=
  let pmax := fld (descRead s p q 0x18) 1 3
  let pri := fld (recField rcd 0x18) 16 8
  let hit := p.sel.any fun x => x.1 = q && countsTo rcd x.2.1
  let l : Launch :=
    { id := p.nextId
      q := q
      ptb := .ofNat 64 ptb
      rcd := rcd
      pri := if pmax < pri then pmax else pri
      st := .waiting
      everRun := false
      readSeq := p.nextId
      readySeq := 0
      placedAt := 0
      cores := []
      halted := []
      barB := []
      barL := 0
      arrived := []
      imgs := []
      inPlace := []
      dbg := false
      mark := false
      pend := []
      depHeld := false }
  let s := s.updPart p.first fun p =>
    { p with launches := p.launches ++ [l], nextId := p.nextId + 1, sel := p.sel.filter fun x => !(x.1 = q && x.2.2 = r) }
  if !recordValid p rcd || hit then complete s p.first l.id true else evalDeps s p.first l.id

/-- The queue-state cache's entry of a queue set (R292). -/
def Partition.setCur (p : Partition) (q cur want : Nat) : Partition :=
  { p with qcache := (q, cur, want) :: p.qcache.filter (·.1 ≠ q) }

/-- `n` doublewords read by the scheduler, one access each (R291): the values, or the fault met. -/
def schedWords (p : Partition) (ptb : Dword) : (n va : Nat) → State → State × Except Flt (List Dword)
  | 0, _, s => (s, .ok [])
  | n + 1, va, s =>
    match schedAccess s p ptb va none with
    | .error f => (s, .error f)
    | .ok (v, t) =>
      match schedWords p ptb n (addrAdd va 8) t with
      | (t, .ok vs) => (t, .ok (.ofNat 64 v :: vs))
      | (t, .error f) => (t, .error f)

/-- The record at `r` read (R291): a misaligned pointer is MISALIGN; a fault stops the queue at the same record. -/
def readRecord (s : State) (p : Partition) (q cur r : Nat) : State :=
  let s := s.updPart p.first fun p => p.setCur q cur r
  if r % 128 ≠ 0 then setErr s p q ⟨0x05, r⟩ false
  else
    let ptb := descRead s p q 0x10
    match schedWords p (.ofNat 64 ptb) 16 r s with
    | (s, .error f) => setErr s p q f false
    | (s, .ok rcd) => takeRecord (s.updPart p.first fun p => p.setCur q r 0) p q r ptb rcd

/-- consume(q) of R291. A poisoned descriptor stops its queue, FADR holding the offset in the tier (R326, assumption 79). -/
def consume (s : State) (part q : Nat) : State :=
  match s.alive? part with
  | none => s
  | some p =>
    let ent := p.qcache.find? (·.1 = q)
    if !p.descOk q || 4096 ≤ p.unplaced || (ent.isNone && 512 ≤ p.qcache.length) then s
    else match descPois s p q [0x18, 0x20] with
    | some a => setErr s p q ⟨0x11, a⟩ false
    | none =>
    if fld (descRead s p q 0x18) 0 1 = 0 || descRead s p q 0x20 ≠ 0 then s
    else
      let cur := (ent.map (·.2.1)).getD 0
      let want := (ent.map (·.2.2)).getD 0
      if want ≠ 0 then readRecord s p q cur want
      else if cur = 0 then
        let r := descRead s p q 0x00
        if r = 0 then s else readRecord (descWrite s p q 0x00 0) p q 0 r
      else match schedAccess s p (.ofNat 64 (descRead s p q 0x10)) (addrAdd cur 0x70) none with
        | .error f => setErr s p q f false
        | .ok (r, s) =>
          if r ≠ 0 then readRecord s p q cur r
          else if descRead s p q 0x08 = cur then
            (descWrite s p q 0x08 0).updPart part fun p => p.setCur q 0 0
          else s

/-- The meaning of RECORD_READ (R291). -/
def execRecordRead (part q : Nat) (s : State) : Out := nx (consume s part q)

/-- The meaning of QUEUE_STATE_EVICT (R292). -/
def execQueueStateEvict (part q : Nat) (s : State) : Out :=
  nx (match s.alive? part with
      | none => s
      | some p =>
        match p.qcache.find? (·.1 = q) with
        | none => s
        | some x =>
          let r := evictQueue s p q x.2.1 x.2.2
          if r.2 then r.1.updPart part fun p => { p with qcache := p.qcache.filter (·.1 ≠ q) } else r.1)

/-- The meaning of HELD_COUNTER_ACCESS_RETRY (R294): once ERR is clear, held increments are made in order, and held
dependence reads are made again. -/
def execHeldCounterAccessRetry (part q : Nat) (s : State) : Out :=
  nx (match s.alive? part with
      | none => s
      | some p =>
        if !p.descOk q || errHolds s p q then s
        else
          let s := (p.launches.filter fun l => l.q = q && l.st = .done).foldl (fun s l => makeIncrements s part l.id) s
          (p.launches.filter fun l => l.q = q && l.st = .waiting && l.depHeld).foldl (fun s l => evalDeps s part l.id) s)

/-! Completion and cancellation. -/

/-- The meaning of COMPLETE_LAUNCH (R38, R41): after the last HALT the cores are free and the counters rise. -/
def execCompleteLaunch (part l : Nat) (s : State) : Out :=
  nx (match (s.alive? part).bind (·.launch? l) with
      | none => s
      | some x =>
        if x.st = .running && x.allHalted then
          complete (x.cores.foldl (fun s k => s.updCore (coreId k) Core.vacate) s) part l false
        else s)

/-- The meaning of LAUNCH_CANCELLATION (R46). -/
def execLaunchCancellation (part l : Nat) (s : State) : Out :=
  nx (if (s.alive? part).isSome then cancelLaunch s part l else s)

/-- Whether the instruction at a context's PC is BARL. -/
def Ctx.atBarl (c : Ctx) : Bool :=
  match c.line with
  | some (la, img) => la = lineAddr c.pc && decodeSlot img (pcSlot c.pc) = some .barl
  | none => false

/-- The meaning of BARL_RELEASE (R263): the release count rises once every strand has arrived or halted, and the strands
that wait retire BARL. A strand frozen meanwhile retires it at its resume (R264). -/
def execBarlRelease (part l : Nat) (s : State) : Out :=
  nx (match s.launch? part l with
      | none => s
      | some x =>
        if x.st ≠ .running then s
        else
          let s := s.updLaunch part l Launch.release
          match s.launch? part l with
          | none => s
          | some y =>
            (List.range y.cores.length).foldl (fun s i =>
              let k := coreId (y.cores.getD i 0)
              let c := s.core k
              if y.barB.getD i 0 < y.barL && c.user.atBarl && c.user.queue.isEmpty &&
                 c.strand.any fun st => st.part = part && st.launch = l && st.run = .running && st.frz = .none then
                (s.updCore k fun c => c.updCtx .user Ctx.advance).updLaunch part l fun z =>
                  { z with barB := z.barB.set i (z.barB.getD i 0 + 1) }
              else s) s)

/-! Placement. -/

/-- When the next placement stands among the others. -/
def Partition.nextPlaced (p : Partition) : Nat := p.launches.foldl (fun n l => if n ≤ l.placedAt then l.placedAt + 1 else n) 1

/-- Strand `i` at its start on core `k` (R45). -/
def startStrand (p : Partition) (x : Launch) (i : Nat) (k : Fin 96) (s : State) : State :=
  let cfg := (x.field 0x18).toNat
  let s := setModes k 0 s
  let s := if fld cfg 26 1 = 1 then setModes k (x.field 0x58) s else s
  s.updCore k fun c => { c with
    user := { Ctx.reset with pc := x.field 0x00, regs := (Vector.replicate 32 0).set 1 (x.field 0x08) }
    strand := some (Strand.start p.first x.id i x.size (fld cfg 32 8) (fld cfg 24 1 = 1) (fld cfg 25 1 = 1))
    ptbase := x.ptb &&& 0xFFFF03FFFFFF0300#64
    eng := Vector.replicate 4 .reset
    efault := 0, efaultNo := none, engOff := false, yieldTo := 0 }

/-- A launch placed on cores (R38, R45). -/
def place (s : State) (p : Partition) (x : Launch) (cores : List Nat) : State :=
  let s := (List.range cores.length).foldl (fun s i => startStrand p x i (coreId (cores.getD i 0)) s) s
  s.updLaunch p.first x.id fun y =>
    { y with st := .running, everRun := true, placedAt := p.nextPlaced, cores, halted := [], barB := List.replicate x.size 0,
             barL := 0, arrived := [], imgs := [], inPlace := [] }

/-- The launch for which gangs were swapped out has its cores (R301). -/
def State.taken (s : State) (part : Nat) : State := s.updPart part fun p => { p with taking := none }

/-- The meaning of PLACEMENT (R38, R39, R45, R299): the first launch in order, if it has never run, on cores that fit it;
none behind it is placed. -/
def execPlacement (part : Nat) (cores : List Nat) (s : State) : Out :=
  nx (match s.alive? part with
      | none => s
      | some p =>
        match p.first? with
        | none => s
        | some x =>
          if p.st = 0 && x.st = .ready && arranged x.size cores (freeCores s p) then (place s p x cores).taken part else s)

/-! Pre-emption (R226, R300). -/

/-- A core's strand frozen for a swap-out, or for QUIESCE (R219, R226, R254, R281): a held trap and a held engine fault are dropped, a
held BRK or TRAP stands at itself again, and an ERET that was draining ends. -/
def Core.freezeSwap (frz : Freeze) (c0 : Core) : Core :=
  let c := c0.endDrain
  match c.strand with
  | none => c
  | some st =>
    { c with
        user := Ctx.refetch { c.user with pc := if st.run = .held then st.selfPc.getD c.user.pc else c.user.pc }
        fcause := c.fcause &&& ~~~(0x200#64)
        efault := 0
        efaultNo := none
        strand := some { st with
          run := if st.run = .held then .running else st.run
          frz
          links := []
          selfPc := none } }

/-- The engines of some cores come to rest for a pre-emption: what their commands have read is delivered, and nothing more is read
(R281). -/
def restEngines (s : State) (ks : List Nat) : State := ks.foldl (fun s k => restEngine s (coreId k)) s

/-- The strands of some cores frozen. -/
def freezeCores (s : State) (ks : List Nat) (frz : Freeze) : State :=
  ks.foldl (fun s k => s.updCore (coreId k) (Core.freezeSwap frz)) s

/-- A gang frozen for a swap-out, with the cores whose images are written first (R226): its engines come to rest while every strand that a
multicast selects is still placed (R275, R281), but under QUIESCE, which lets them drain (R311). -/
def swapGang (s : State) (part : Nat) (x : Launch) (imgs : List Nat) (frz : Freeze) : State :=
  let s := freezeCores (if frz = .drain then s else restEngines s x.cores) x.cores frz
  s.updLaunch part x.id fun y =>
    { y with st := .swapping, imgs, inPlace := y.cores.filter fun k => !imgs.contains k }

/-- Whether a running gang is taken before another (R300): lowest priority first, most recently placed first. -/
def Launch.takenBefore (a b : Launch) : Bool := if a.pri ≠ b.pri then a.pri < b.pri else b.placedAt < a.placedAt

/-- Gangs in the order they would be taken. -/
def insertVictim (x : Launch) : List Launch → List Launch
  | [] => [x]
  | y :: r => if x.takenBefore y then x :: y :: r else y :: insertVictim x r

/-- Whole gangs taken until a launch fits, with the cores then free (R300). -/
def takeVictims (l : Launch) : List Launch → List Nat → List Launch → Option (List Launch × List Nat)
  | [], avail, taken => if l.fitsOn avail then some (taken, avail) else none
  | x :: r, avail, taken => if l.fitsOn avail then some (taken, avail) else takeVictims l r (avail ++ x.cores) (taken ++ [x])

/-- The meaning of SWAP_OUT (R226, R300): the gangs that the first launch in order takes, if it does not fit, freeze. -/
def execSwapOut (part : Nat) (cores : List Nat) (s : State) : Out :=
  nx (match s.alive? part with
      | none => s
      | some p =>
        match p.first? with
        | none => s
        | some x =>
          let free := freeCores s p ++ x.inPlace
          let low := p.launches.filter fun y => y.st = .running && decide (y.pri < x.pri) && !y.allHalted
          if p.st ≠ 0 || x.fitsOn free || p.launches.any (fun y => y.imgs ≠ []) then s
          else match takeVictims x (low.foldr insertVictim []) free [] with
            | none => s
            | some (vs, avail) =>
              if x.arrangedOn cores avail then
                (vs.foldl (fun s y => swapGang s part y (y.cores.filter cores.contains) .swap) s).updPart part fun p =>
                  { p with taking := some x.id }
              else s)

/-- The cores on which strands of a gang that is swapped out still stand. -/
def Launch.standing (x : Launch) : List Nat := x.imgs ++ x.inPlace

/-- A gang whose images are about to be written: its engines come to rest, those that QUIESCE has drained too, and its held engine faults
are dropped (R281). -/
def settleGang (s : State) (x : Launch) : State := freezeCores (restEngines s x.standing) x.standing .swap

/-- The image of the launch's strand on core `k` is complete: it is written, and the core is free; a save area outside
R224 cancels the launch (R226). -/
def imageDone (s0 : State) (p : Partition) (x : Launch) (k : Fin 96) : State :=
  let s := settleGang s0 x
  match saveImage s p x k with
  | none => cancelLaunch s p.first x.id
  | some s =>
    (s.updCore k Core.vacate).updLaunch p.first x.id fun y =>
      let imgs := y.imgs.filter (· ≠ k.val)
      let inPlace := y.inPlace.filter (· ≠ k.val)
      if imgs = [] ∧ inPlace = [] then { y with imgs, inPlace, st := .swapped, cores := [] } else { y with imgs, inPlace }

/-- Whether the images that no placement waits for may be written (R226, R301): every image that one waits for is, and the launch for
which the gangs were swapped out has been placed, or stands first in order no more, unless nothing is placed any more. -/
def Partition.restMay (p : Partition) : Bool :=
  p.launches.all (fun y => y.imgs = []) &&
  (p.st ≠ 0 || !p.first?.any fun y => p.taking = some y.id)

/-- Whether every engine of a gang that QUIESCE freezes has drained (R227, R311). -/
def gangDrained (s : State) (x : Launch) : Bool :=
  x.standing.all fun k => ((s.core (coreId k)).strand.all fun st => st.frz ≠ .drain) || engDrained s (coreId k)

/-- The meaning of IMAGE_WRITE_COMPLETE (R226), on the acting core: images for a placement first. Under QUIESCE the gang's engines have
drained before (R227, R311), whose multicasts reach each of its cores (R275). -/
def execImageWriteComplete (s : State) : Out :=
  let k := s.actor.core
  nx (match s.partOfCore k with
      | none => s
      | some p =>
        match p.launches.find? fun y => y.st = .swapping && y.standing.contains k.val with
        | none => s
        | some x => if p.st ≠ 3 && gangDrained s x && (x.imgs.contains k.val || p.restMay) then imageDone s p x k else s)

/-- A strand still frozen in place runs again on its own core, its engine with it (R226, R227); in a halted launch it stays
with the debugger. -/
def Core.thaw (c : Core) (dbg : Bool) : Core :=
  { c with user := c.user.refetch, engOff := c.engOff && dbg,
           strand := c.strand.map fun st => { st with frz := if dbg then .debug else .none } }

/-- The strands of a swapped-out gang reloaded on their cores, but those still frozen in place (R226). -/
def reload (p : Partition) (x : Launch) (cores : List Nat) (s : State) : Option State :=
  (List.range x.size).foldl (fun m i => m.bind fun s =>
    let k := cores.getD i 0
    if x.inPlaceAt i then
      some (s.updCore (coreId k) fun c => c.thaw x.dbg)
    else loadImage s p x i (coreId k)) (some s)

/-- On a core that resumes, what each command with a checksum has left is what its destination holds now (R281). -/
def relearnCore (s : State) (k : Fin 96) : State :=
  ([0, 1, 2, 3] : List (Fin 4)).foldl (fun s i => (s.core k).eng[i].entries.foldl (fun s e =>
    let r := relearn k s e
    r.1.updEng k i fun g => g.updEntry e.no fun _ => r.2) s) s

/-- The meaning of RESUME_LAUNCH (R226, R299, R304): the first launch in order, if it is swapped out, on cores that fit
it; a save area outside R224 cancels it, and a gang above the partition's cores completes with the mark. -/
def execResumeLaunch (part : Nat) (cores : List Nat) (s : State) : Out :=
  nx (match s.alive? part with
      | none => s
      | some p =>
        match p.first? with
        | none => s
        | some x =>
          if p.st ≠ 0 || x.st = .ready then s
          else if 12 * p.n < x.size then complete s part x.id true
          else if !x.arrangedOn cores (freeCores s p ++ x.inPlace) then s
          else match reload p x cores s with
            | none => cancelLaunch s part x.id
            | some s =>
              let s := s.updLaunch part x.id fun y =>
                { y with st := .running, placedAt := p.nextPlaced, cores, imgs := [], inPlace := [] }
              (cores.filter fun k => !x.inPlace.contains k).foldl (fun s k => relearnCore s (coreId k)) (s.taken part))

end Sys2Proof.Machine
end

