-- ==== Sys2Proof/Machine/Part.lean ====
section
/-! DEFINITION. The control window of a partition (R308): claims and ownership (R309, R310), the owner's commands (R311 to
R313), the watchdog (R312, R324), and writes of registers (R5, R6, R74). -/

namespace Sys2Proof.Machine

open Sys2Proof

/-! Ownership. -/

/-- Whether a master is the host's physical function 0, which has access only to claims, STATUS and telemetry (R314); it stands as the
class-2 master numbered 0, virtual functions being numbered from 1 (assumption 70). -/
def isPf0 (w : Master) : Bool := w.cls = 2 && w.id = 0

/-- Whether a master owns a partition. -/
def Partition.ownedBy (p : Partition) (w : Master) : Bool := p.owner.any fun c => c.who = w

/-- Whether claim `a` beats a later claim `b` (R309): the lower class, then the lower nonce, then the earlier. -/
def Claim.beats (a b : Claim) : Bool :=
  a.who.cls.toNat < b.who.cls.toNat || (a.who.cls = b.who.cls && a.nonce.toNat ≤ b.nonce.toNat)

/-- The claim that wins, in order of arrival (R309). -/
def winner (cs : List Claim) : Option Claim :=
  cs.foldl (fun m c => match m with | none => some c | some x => if x.beats c then some x else some c) none

/-- CLAIMST for a reading master (R308, R309). -/
def Partition.claimst (p : Partition) (w : Master) : Nat :=
  if p.ownedBy w then 2
  else if p.claims.any fun c => c.who = w then 1
  else if p.readOnly.contains w then 3 else 0

/-- STATUS (R308). -/
def Partition.status (p : Partition) : Nat :=
  p.st.toNat + p.n * 16 + p.first * 256 + p.owner.isSome.toNat * 4096 + ((p.owner.map (·.who.cls.toNat)).getD 0) * 8192

/-- A read of the control window that changes nothing (R308, R314); LIDQ is read by LIDQ_READ. -/
def Partition.windowRead (p : Partition) (w : Master) (off : Nat) : Nat :=
  match off with
  | 0x000 => p.status
  | 0x010 => p.claimst w
  | 0x020 => if isPf0 w then 0 else p.cmdOp.toNat + p.cmdSt.toNat * 256
  | 0x040 => if isPf0 w then 0 else p.lidq.length
  | _ => 0

/-- The telemetry a master reads, SERCNT and MEPOCH (R324): the owner's, a read-only master's (R309) and that of physical function 0
(R314). -/
def Partition.telemetry (p : Partition) (w : Master) : Option (Dword × Dword) :=
  if p.ownedBy w || p.readOnly.contains w || isPf0 w then some (p.sercnt, p.mepoch) else none

/-- A class-0 claim takes ownership at once, whoever holds it (R310, R329). -/
def override (s : State) (part : Nat) (c : Claim) : State :=
  s.updPart part fun p =>
    { p with owner := some c, openAt := none, losing := false, claims := p.claims.filter fun x => x.who ≠ c.who,
             readOnly := p.readOnly.filter (· ≠ c.who) }

/-- Cycles of the claim window, 50 µs (R309). -/
def claimWindow : Nat := 125000

/-- The window of a partition closes once its time is up: the claims in it are decided (R309). -/
def Partition.decide (p : Partition) (now : Nat) : Partition :=
  match p.openAt with
  | none => p
  | some t =>
    if now < t + claimWindow ∨ p.owner.isSome then p
    else match winner p.claims with
      | none => { p with openAt := none }
      | some c => { p with owner := some c, openAt := none, claims := [],
                           readOnly := (p.claims.map (·.who)).filter (· ≠ c.who) }

/-- A claim over a control window (R309): of 0 ignored; the first while there is no owner opens the window; later ones join it while it
is open, or stay pending. A claim of class 0 is Ochre's own, and comes by no window (R329). -/
def claimOp (s : State) (part : Nat) (who : Master) (nonce : Dword) : State :=
  if nonce = 0 ∨ who.cls = 0 then s
  else s.updPart part fun p =>
    let p := p.decide s.now
    { p with claims := p.claims ++ [{ who, nonce }],
             openAt := if p.owner.isNone && p.openAt.isNone then some s.now else p.openAt }

/-- The meaning of CLAIM (R309). -/
def execClaim (part : Nat) (who : Master) (nonce : Dword) (s : State) : Out := nx (claimOp s part who nonce)

/-- The meaning of CLAIM_WINDOW_EXPIRY (R309). -/
def execClaimWindowExpiry (part : Nat) (s : State) : Out := nx (s.updPart part fun p => p.decide s.now)

/-- HANDOVER (R310, R314): a nonce that matches no pending claim is refused and changes nothing. -/
def handoverOp (s : State) (part : Nat) (who : Master) (nonce : Dword) : State :=
  s.updPart part fun p =>
    if !p.ownedBy who || isPf0 who then p
    else match p.claims.find? fun c => c.nonce = nonce with
      | none => p
      | some c => { p with owner := some c, losing := false, claims := p.claims.filter (· ≠ c) }

/-- The meaning of HANDOVER (R310). -/
def execHandover (part : Nat) (who : Master) (nonce : Dword) (s : State) : Out := nx (handoverOp s part who nonce)

/-- Loss of the owner (R310): a new window opens with the pending claims. -/
def Partition.loseOwner (p : Partition) (now : Nat) : Partition :=
  if p.owner.isNone then { p with losing := false }
  else { p with owner := none, losing := false, openAt := if p.claims = [] then none else some now }

/-- The meaning of OWNER_LOSS (R310): the partition does not stop. -/
def execOwnerLoss (part : Nat) (s : State) : Out := nx (s.updPart part fun p => p.loseOwner s.now)

/-- The meaning of CLASS0_OVERRIDE (R310, R329): the session's certificate chain must end in the operator key. -/
def execClass0Override (part : Nat) (sess : Session) (nonce : Dword) (s : State) : Out :=
  nx (if nonce = 0 ∨ sess.root ≠ some s.otp.opKey then s else override s part { who := { cls := 0, id := sess.id }, nonce })

/-- Whether a master is a virtual function of the host (R309, R314). -/
def isVf (w : Master) : Bool := w.cls = 2 && !isPf0 w

/-- The meaning of FUNCTION_LEVEL_RESET (R310, R314, R318): the function's sessions and ownership end, the ownership once a command
under way has completed; the partition does not reset. -/
def execFunctionLevelReset (part : Nat) (s : State) : Out :=
  nx (s.updPart part fun p =>
    let p := { p with claims := p.claims.filter fun c => !isVf c.who, readOnly := p.readOnly.filter fun w => !isVf w }
    if !p.owner.any fun c => isVf c.who then p
    else if p.under ≠ 0 then { p with losing := true }
    else p.loseOwner s.now)

/-- The meaning of LIDQ_READ (R308): the next LID, or 0. -/
def execLidqRead (part : Nat) (s : State) : Out :=
  nx (match s.part? part with
      | none => s
      | some p => { s.updPart part fun p => { p with lidq := p.lidq.drop 1 } with
                    reply := natBytes 8 ((p.lidq.head?.map (·.toNat)).getD 0) })

/-! Commands. `arg` is the doubleword written to CMD. -/

/-- CMDST set (R308). -/
def setCmd (s : State) (part op st : Nat) : State :=
  s.updPart part fun p => { p with cmdOp := .ofNat 8 op, cmdSt := .ofNat 2 st }

/-- A command (R311): a write by another master is ignored, and by physical function 0 (R314); one not permitted reads back
refused. -/
def command (part op : Nat) (who : Master) (ok : Partition → Bool) (f : State → State) (s : State) : State :=
  match s.part? part with
  | none => s
  | some p => if !p.ownedBy who || isPf0 who then s else if ok p then f (setCmd s part op 2) else setCmd s part op 3

/-- The argument of a CMD doubleword. -/
def cmdArg (arg : Dword) : Nat := fld arg.toNat 8 56

/-- A strand that a swap-out has frozen, whose gang is all in place yet, drains its engine as one that QUIESCE freezes (R227, R311); once
an image of the gang is written its engines stay at rest (R281, assumption 87). -/
def Core.drainFrozen (c : Core) : Core :=
  c.updStrand fun st => { st with frz := if st.frz = .swap then .drain else st.frz }

/-- QUIESCE (R311): no further placement; every placed launch freezes, its engine contexts drain, and it is swapped out. -/
def quiesceOp (part : Nat) (who : Master) (arg : Dword) (s : State) : State :=
  command part 1 who (fun p => p.st = 0 && cmdArg arg = 0) (fun s =>
    let s := (setCmd s part 1 1).updPart part fun p => { p with st := 1, under := 1 }
    match s.part? part with
    | none => s
    | some p =>
      let s := (p.launches.filter fun l => l.st = .running && !l.allHalted).foldl (fun s l => swapGang s part l l.cores .drain) s
      (p.launches.filter fun l => l.st = .swapping && l.standing.length = l.cores.length).foldl
        (fun s l => l.cores.foldl (fun s k => s.updCore (coreId k) Core.drainFrozen) s) s) s

/-- The meaning of QUIESCE (R311). -/
def execQuiesce (part : Nat) (who : Master) (arg : Dword) (s : State) : Out := nx (quiesceOp part who arg s)

/-- The meaning of QUIESCE_COMPLETE (R311, R318): nothing is placed any more, so every engine context has drained; an owner whose
function was reset meanwhile is lost. -/
def execQuiesceComplete (part : Nat) (s : State) : Out :=
  nx (s.updPart part fun p =>
    if p.st = 1 && p.launches.all (fun l => l.st ≠ .running && l.st ≠ .swapping) then
      let p := { p with st := 2, under := 0, lowAt := none, cmdSt := if p.cmdOp = 1 && p.cmdSt = 1 then 2 else p.cmdSt }
      if p.losing then p.loseOwner s.now else p
    else p)

/-- RESUME (R311). -/
def resumeOp (part : Nat) (who : Master) (arg : Dword) (s : State) : State :=
  command part 2 who (fun p => (p.st = 2 || p.st = 4) && cmdArg arg = 0)
    (fun s => s.updPart part fun p => { p with st := 0 }) s

/-- The meaning of RESUME (R311). -/
def execResume (part : Nat) (who : Master) (arg : Dword) (s : State) : Out := nx (resumeOp part who arg s)

/-- RESET (R311, R312): argument bit [8] asks for scrub. The command is busy until the reset has ended
(assumption 45). -/
def resetOp (part : Nat) (who : Master) (arg : Dword) (s : State) : State :=
  command part 3 who (fun _ => true) (fun s =>
    (setCmd (resetPartition s part (fld arg.toNat 8 1 = 1)) part 3 1).updPart part fun p => { p with under := 3 }) s

/-- The meaning of RESET (R311, R312). -/
def execReset (part : Nat) (who : Master) (arg : Dword) (s : State) : Out := nx (resetOp part who arg s)

/-- The meaning of PARTITION_RESET (R312): a reset under way ends; else one that no owner asked for starts, without scrub. -/
def execPartitionReset (part : Nat) (s : State) : Out :=
  nx (match s.part? part with
      | none => s
      | some p => if p.st = 3 then finishReset s part else resetPartition s part false)

/-- Debugger halt of a core's strand (R219, R227, R254). -/
def Core.debugHalt (c0 : Core) : Core :=
  let c := c0.endDrain
  { c with user := c.user.refetch, strand := c.strand.map fun st => { st with frz := .debug, links := [] } }

/-- Launches in placement order. -/
def insertPlaced (x : Launch) : List Launch → List Launch
  | [] => [x]
  | y :: r => if x.placedAt < y.placedAt then x :: y :: r else y :: insertPlaced x r

/-- DHALT (R227, R311): every placed launch whose LID equals DHLID halts. -/
def dhaltOp (part : Nat) (who : Master) (arg : Dword) (s : State) : State :=
  command part 5 who (fun p => p.st = 0 && cmdArg arg = 0) (fun s =>
    match s.part? part with
    | none => s
    | some p =>
      let hit := (p.launches.filter fun l => l.st = .running && l.field 0x60 = p.dhlid).foldr insertPlaced []
      if hit = [] then s.updPart part fun p => { p with lidq := [] }
      else
        let s := hit.foldl (fun s l => l.cores.foldl (fun s k => s.updCore (coreId k) Core.debugHalt)
          (s.updLaunch part l.id fun y => { y with dbg := true })) s
        s.updPart part fun p => { p with st := 4, lidq := hit.map (·.field 0x60) }) s

/-- The meaning of DHALT (R227, R311). -/
def execDhalt (part : Nat) (who : Master) (arg : Dword) (s : State) : Out := nx (dhaltOp part who arg s)

/-- DRESUME (R311): every halted launch continues; an engine that ENGQ stopped stays so where the strand's trap is still held (R227). -/
def dresumeOp (part : Nat) (who : Master) (arg : Dword) (s : State) : State :=
  command part 6 who (fun p => p.st = 4 && cmdArg arg = 0) (fun s =>
    match s.part? part with
    | none => s
    | some p =>
      let s := (p.launches.filter (·.dbg)).foldl (fun s l => (l.cores.foldl (fun s k => s.updCore (coreId k) fun c =>
        { c with engOff := c.engOff && c.strand.any (fun st => st.run = .held), user := c.user.refetch,
                 strand := c.strand.map fun st => { st with frz := if st.frz = .debug then .none else st.frz } }) s).updLaunch
          part l.id fun y => { y with dbg := false }) s
      s.updPart part fun p => { p with st := 0, lidq := [] }) s

/-- The meaning of DRESUME (R311). -/
def execDresume (part : Nat) (who : Master) (arg : Dword) (s : State) : Out := nx (dresumeOp part who arg s)

/-! Resize (R313). -/

/-- 1, 2, 4 or 8. -/
def pow8 (n : Nat) : Bool := n = 1 || n = 2 || n = 4 || n = 8

/-- Whether a partition lies in the block of `k` slices from `b`, and whether it meets it. -/
def Partition.within (p : Partition) (b k : Nat) : Bool := b ≤ p.first && p.first + p.n ≤ b + k
/-- Whether a partition meets the block of `k` slices from `b`. -/
def Partition.meetsBlock (p : Partition) (b k : Nat) : Bool := p.first < b + k && b < p.first + p.n

/-- Whether a RESIZE is not refused (R313). -/
def resizeOk (s : State) (who : Master) (b k m : Nat) (arg : Dword) : Bool :=
  pow8 k && b % k = 0 && b + k ≤ 8 && pow8 m && m ≤ k && fld arg.toNat 20 44 = 0 &&
  s.parts.all fun p => !p.meetsBlock b k || (p.within b k && p.ownedBy who && p.st = 2)

/-- The increments that a completed launch still holds are made as the partition leaves, but for one that faults (assumption 71). -/
def forceIncrements (s : State) (p : Partition) (l : Launch) : State :=
  l.pend.foldl (fun (s : State) (a : Dword) =>
    if a = 0 then s
    else match schedAccess s p l.ptb a.toNat (some (incrCtr l.mark)) with
      | .ok (_, s) => s
      | .error _ => s) s

/-- A partition leaves: its launches are cancelled (R313), its queues keep their unread records. -/
def dissolve (s : State) (p : Partition) : State :=
  let s := p.launches.foldl (fun s l => cancelLaunch s p.first l.id) (evictAll s p.first p)
  ((s.part? p.first).map (·.launches)).getD [] |>.foldl (fun s l => forceIncrements s p l) s

/-- The largest floor of the L2 slices of a run of slices (R245). -/
def topFloor (s : State) (g m : Nat) : Dword :=
  (List.range (24 * m)).foldl (fun v i => if v.toNat < (s.floor (24 * g + i)).toNat then s.floor (24 * g + i) else v) 0

/-- Floors of a new partition's L2 slices (R245). -/
def levelFloors (g m : Nat) (s : State) : State :=
  let v := topFloor s g m
  (List.range (24 * m)).foldl (fun s i => s.setFloor (24 * g + i) v) s

/-- The new partition at slice `g` of `m` slices: it carries the firmware state of the old one that began there (R313). -/
def newPartition (s : State) (who : Claim) (g m : Nat) : Partition :=
  match s.part? g with
  | some o => { o with n := m, st := 2, born := s.now, wdogAt := s.now, sercnt := 0, lidq := [], dhlid := 0, tlb := [],
                       lowAt := none, plan := false, msiVec := none, taking := none, losing := false, under := 0 }
  | none => { Partition.fresh g m s.now with st := 2, owner := some who,
                                             mepoch := ((s.partOfSlice g).map (·.mepoch)).getD 0 }

/-- Carried launches that no longer fit the partition complete with the mark (R304, R313): the read ones as the partition is formed,
a swapped-out one at its resume. -/
def shedLarge (s : State) (p : Partition) : State :=
  (p.launches.filter fun l => (l.st = .waiting || l.st = .ready) && decide (12 * p.n < l.size)).foldl
    (fun s l => complete s p.first l.id true) s

/-- A former firmware gigabyte is zeroed, unless it is a new partition's (R313). -/
def wipeFirmware (news : List Partition) (o : Partition) (s : State) : State :=
  if news.any fun p => p.fwKey = o.fwKey then s
  else { s with mem := eraseRange s.mem o.fwKey (o.fwKey + 1000000000),
                c1 := eraseRange s.c1 (o.fwKey / 256) ((o.fwKey + 1000000000) / 256),
                poison := s.poison.filter fun k => !(o.fwKey ≤ k && k < o.fwKey + 1000000000) }

/-- A record of the attestation log appended (R322). -/
def logAdd (s : State) (r : LogRec) : State := { s with log := s.log ++ [r] }

/-- The partition layout measured at index 5 (R322). -/
def logLayout (s : State) : State :=
  logAdd s { ix := 5, kind := 0, sver := 0, digest := Config.shake256 (s.parts.flatMap fun p => [.ofNat 8 p.first, .ofNat 8 p.n]) }

/-- The block regrouped (R313). -/
def regroup (s : State) (who : Claim) (b k m : Nat) : State :=
  let olds := s.parts.filter fun p => p.within b k
  let s := (olds.filter fun o => (o.first - b) % m ≠ 0).foldl dissolve s
  let s := s.dropLines fun key => olds.any fun o => o.ownsKey key
  let news := (List.range (k / m)).map fun i => newPartition s who (b + m * i) m
  let s := news.foldl (fun s p => levelFloors p.first p.n s) s
  let s := olds.foldl (fun s o => wipeFirmware news o s) s
  let s := { s with parts := (s.parts.filter fun p => !p.within b k) ++ news }
  let s := news.foldl shedLarge s
  let s := news.foldl (fun s p => p.coreList.foldl (fun s c => s.updCore (coreId c) fun _ => Core.reset) s) s
  logLayout (news.foldl startFirmware s)

/-- RESIZE (R311, R313): [11:8] b, [15:12] k, [19:16] m. -/
def resizeOp (part : Nat) (who : Master) (arg : Dword) (s : State) : State :=
  let b := fld arg.toNat 8 4
  let k := fld arg.toNat 12 4
  let m := fld arg.toNat 16 4
  command part 4 who (fun p => p.st = 2 && resizeOk s who b k m arg) (fun s =>
    match (s.part? part).bind (·.owner) with
    | none => s
    | some c => regroup s c b k m) s

/-- The meaning of RESIZE (R311, R313). -/
def execResize (part : Nat) (who : Master) (arg : Dword) (s : State) : Out := nx (resizeOp part who arg s)

/-! The watchdog. -/

/-- Cycles of the watchdog, 100 ms (R312). -/
def watchdogCycles : Nat := 250000000

/-- The meaning of WATCHDOG_EXPIRY (R312, R330): a reset once 100 ms have passed since the last refresh. -/
def execWatchdogExpiry (part : Nat) (s : State) : Out :=
  nx (match s.part? part with
      | none => s
      | some p => if p.st ≠ 3 && decide (p.wdogAt + watchdogCycles ≤ s.now) then resetPartition s part false else s)

/-- The meaning of WDOG (R324): any value refreshes the watchdog. -/
def execWdog (_v : Dword) (s : State) : Out := nx (s.fwOnly wdogRefresh)

/-- The meaning of MSIRAISE (R315). -/
def execMsiraise (v : Dword) (s : State) : Out := nx (s.fwOnly fun s => msiRaise s v)

/-! Writes of registers. -/

/-- A write to the control window (R308, R311, R319): what a read-only offset or one above 0x040 takes is ignored. -/
def windowWrite (part : Nat) (who : Master) (off : Nat) (v : Dword) (s : State) : State :=
  match off with
  | 0x008 => claimOp s part who v
  | 0x018 =>
    (match fld v.toNat 0 8 with
     | 1 => quiesceOp part who v s
     | 2 => resumeOp part who v s
     | 3 => resetOp part who v s
     | 4 => resizeOp part who v s
     | 5 => dhaltOp part who v s
     | 6 => dresumeOp part who v s
     | op => command part op who (fun _ => false) id s)
  | 0x028 => handoverOp s part who v
  | 0x038 => s.updPart part fun p => if p.ownedBy who && !isPf0 who then { p with dhlid := v } else p
  | _ => s

/-- A field of an MSI-X table entry written. -/
def msiSet (part vec : Nat) (f : MsiEnt → MsiEnt) (s : State) : State :=
  s.updPart part fun p => { p with msi := (p.msi.zipIdx).map fun x => if x.2 = vec then f x.1 else x.1 }

/-- The meaning of REGISTER_WRITE (R5, R6, R74, R227, R308, R315). -/
def execRegisterWrite (r : RegTarget) (v : Dword) (s : State) : Out :=
  nx (match r with
      | .sys i =>
        if 0x80 ≤ i.toNat then s.fwOnly fun s => sysWrite s i.toNat v
        else if 0x19 ≤ i.toNat then s.illins
        else sysWrite s i.toNat v
      | .window part who off => windowWrite part who off v s
      | .msixAddr part vec => msiSet part vec (fun e => { e with addr := v }) s
      | .msixData part vec => msiSet part vec (fun e => { e with data := v }) s
      | .msixMask part vec => msiSet part vec (fun e => { e with masked := fld v.toNat 0 1 = 1 }) s
      | .image core off => if core < 96 then debugWrite s (coreId core) off v else s
      | .msixEnable part => s.updPart part fun p => { p with msiOn := fld v.toNat 0 1 = 1 })

/-- The meaning of MSIX_PENDING_SEND (R315): a pending vector is sent once when it can be. -/
def execMsixPendingSend (part vec : Nat) (s : State) : Out :=
  nx (match s.part? part with
      | none => s
      | some p =>
        if vec < 16 && p.vfOn && fld p.msiPend.toNat vec 1 = 1 && p.msiClear vec then
          (sendMsi s p vec).updPart part fun p => { p with msiPend := p.msiPend &&& ~~~(1#16 <<< vec) }
        else s)

end Sys2Proof.Machine
end

