-- ==== Sys2Proof/Machine/Scalar.lean ====
section
/-! DEFINITION. The scalar integer instructions: ALU (R83, R84), ALUI (R85) and LI (R86). -/

namespace Sys2Proof.Machine

open Sys2Proof

/-- s[d] := x and the instruction retires (R80). -/
def aluRet (d : SReg) (x : Dword) (s : State) : Out := nx (s.ret d x)

/-- 1 or 0. -/
def boolD (b : Bool) : Dword := if b then 1 else 0

/-- DIV of R84: truncated toward zero; a quotient that does not fit, and division by zero, saturate by sign. -/
def divS (x y : Dword) : Dword :=
  if y = 0 then (if x = 0 then 0 else if x.toInt < 0 then .ofInt 64 (-(2 ^ 63)) else .ofInt 64 (2 ^ 63 - 1))
  else
    let q := x.toInt.tdiv y.toInt
    if 2 ^ 63 ≤ q then .ofInt 64 (2 ^ 63 - 1) else .ofInt 64 q

/-- DIVU of R84. -/
def divU (x y : Dword) : Dword := if y = 0 then (if x = 0 then 0 else BitVec.allOnes 64) else .ofNat 64 (x.toNat / y.toNat)

/-- REM of R84: the sign of x; x itself for division by zero. -/
def remS (x y : Dword) : Dword := if y = 0 then x else .ofInt 64 (x.toInt.tmod y.toInt)

/-- REMU of R84. -/
def remU (x y : Dword) : Dword := if y = 0 then x else .ofNat 64 (x.toNat % y.toNat)

/-- Leading zero bits of the low `w` bits of `x`. -/
def clzN (x : Nat) : Nat → Nat
  | 0 => 0
  | w + 1 => if fld x w 1 = 1 then 0 else 1 + clzN x w

/-- Trailing zero bits of `x` among bits `i` to `i + n - 1`. -/
def ctzN (x i : Nat) : Nat → Nat
  | 0 => 0
  | n + 1 => if fld x i 1 = 1 then 0 else 1 + ctzN x (i + 1) n

/-- Set bits of the low `w` bits of `x`. -/
def popcN (x : Nat) : Nat → Nat
  | 0 => 0
  | w + 1 => fld x w 1 + popcN x w

/-- The low `n` bytes of `x` in reverse order. -/
def bswapN : Nat → Nat → Nat
  | 0, _ => 0
  | n + 1, x => x % 256 * 256 ^ n + bswapN n (x / 256)

/-- Bits [127:64] of an integer product. -/
def highOf (p : Int) : Dword := .ofInt 64 (p / 2 ^ 64)

/-- ADD (R83). -/
def aluAdd (x y : Dword) : Dword := x + y
/-- The meaning of ADD. -/
def execAdd (d a b : SReg) (s : State) : Out := aluRet d (aluAdd (s.rd a) (s.rd b)) s

/-- SUB (R83). -/
def aluSub (x y : Dword) : Dword := x - y
/-- The meaning of SUB. -/
def execSub (d a b : SReg) (s : State) : Out := aluRet d (aluSub (s.rd a) (s.rd b)) s

/-- AND (R83). -/
def aluAnd (x y : Dword) : Dword := x &&& y
/-- The meaning of AND. -/
def execAnd (d a b : SReg) (s : State) : Out := aluRet d (aluAnd (s.rd a) (s.rd b)) s

/-- OR (R83). -/
def aluOr (x y : Dword) : Dword := x ||| y
/-- The meaning of OR. -/
def execOr (d a b : SReg) (s : State) : Out := aluRet d (aluOr (s.rd a) (s.rd b)) s

/-- XOR (R83). -/
def aluXor (x y : Dword) : Dword := x ^^^ y
/-- The meaning of XOR. -/
def execXor (d a b : SReg) (s : State) : Out := aluRet d (aluXor (s.rd a) (s.rd b)) s

/-- SLL (R83). -/
def aluSll (x y : Dword) : Dword := x <<< (y.toNat % 64)
/-- The meaning of SLL. -/
def execSll (d a b : SReg) (s : State) : Out := aluRet d (aluSll (s.rd a) (s.rd b)) s

/-- SRL (R83). -/
def aluSrl (x y : Dword) : Dword := x >>> (y.toNat % 64)
/-- The meaning of SRL. -/
def execSrl (d a b : SReg) (s : State) : Out := aluRet d (aluSrl (s.rd a) (s.rd b)) s

/-- SRA (R83). -/
def aluSra (x y : Dword) : Dword := x.sshiftRight (y.toNat % 64)
/-- The meaning of SRA. -/
def execSra (d a b : SReg) (s : State) : Out := aluRet d (aluSra (s.rd a) (s.rd b)) s

/-- SLT (R83). -/
def aluSlt (x y : Dword) : Dword := boolD (decide (x.toInt < y.toInt))
/-- The meaning of SLT. -/
def execSlt (d a b : SReg) (s : State) : Out := aluRet d (aluSlt (s.rd a) (s.rd b)) s

/-- SLTU (R83). -/
def aluSltu (x y : Dword) : Dword := boolD (decide (x.toNat < y.toNat))
/-- The meaning of SLTU. -/
def execSltu (d a b : SReg) (s : State) : Out := aluRet d (aluSltu (s.rd a) (s.rd b)) s

/-- MIN (R83). -/
def aluMin (x y : Dword) : Dword := if x.toInt < y.toInt then x else y
/-- The meaning of MIN. -/
def execMin (d a b : SReg) (s : State) : Out := aluRet d (aluMin (s.rd a) (s.rd b)) s

/-- MAX (R83). -/
def aluMax (x y : Dword) : Dword := if x.toInt < y.toInt then y else x
/-- The meaning of MAX. -/
def execMax (d a b : SReg) (s : State) : Out := aluRet d (aluMax (s.rd a) (s.rd b)) s

/-- MINU (R83). -/
def aluMinu (x y : Dword) : Dword := if x.toNat < y.toNat then x else y
/-- The meaning of MINU. -/
def execMinu (d a b : SReg) (s : State) : Out := aluRet d (aluMinu (s.rd a) (s.rd b)) s

/-- MAXU (R83). -/
def aluMaxu (x y : Dword) : Dword := if x.toNat < y.toNat then y else x
/-- The meaning of MAXU. -/
def execMaxu (d a b : SReg) (s : State) : Out := aluRet d (aluMaxu (s.rd a) (s.rd b)) s

/-- MUL (R83). -/
def aluMul (x y : Dword) : Dword := x * y
/-- The meaning of MUL. -/
def execMul (d a b : SReg) (s : State) : Out := aluRet d (aluMul (s.rd a) (s.rd b)) s

/-- MULH (R83). -/
def aluMulh (x y : Dword) : Dword := highOf (x.toInt * y.toInt)
/-- The meaning of MULH. -/
def execMulh (d a b : SReg) (s : State) : Out := aluRet d (aluMulh (s.rd a) (s.rd b)) s

/-- MULHU (R83). -/
def aluMulhu (x y : Dword) : Dword := .ofNat 64 (x.toNat * y.toNat / 2 ^ 64)
/-- The meaning of MULHU. -/
def execMulhu (d a b : SReg) (s : State) : Out := aluRet d (aluMulhu (s.rd a) (s.rd b)) s

/-- DIV (R83, R84). -/
def aluDiv (x y : Dword) : Dword := divS x y
/-- The meaning of DIV. -/
def execDiv (d a b : SReg) (s : State) : Out := aluRet d (aluDiv (s.rd a) (s.rd b)) s

/-- DIVU (R83, R84). -/
def aluDivu (x y : Dword) : Dword := divU x y
/-- The meaning of DIVU. -/
def execDivu (d a b : SReg) (s : State) : Out := aluRet d (aluDivu (s.rd a) (s.rd b)) s

/-- REM (R83, R84). -/
def aluRem (x y : Dword) : Dword := remS x y
/-- The meaning of REM. -/
def execRem (d a b : SReg) (s : State) : Out := aluRet d (aluRem (s.rd a) (s.rd b)) s

/-- REMU (R83, R84). -/
def aluRemu (x y : Dword) : Dword := remU x y
/-- The meaning of REMU. -/
def execRemu (d a b : SReg) (s : State) : Out := aluRet d (aluRemu (s.rd a) (s.rd b)) s

/-- The meaning of SEL (R83): the old s[d] chooses. -/
def execSel (d a b : SReg) (s : State) : Out := aluRet d (if s.rd d ≠ 0 then s.rd a else s.rd b) s

/-- The meaning of CLZ (R83). -/
def execClz (d a : SReg) (s : State) : Out := aluRet d (.ofNat 64 (clzN (s.rd a).toNat 64)) s
/-- The meaning of CTZ (R83). -/
def execCtz (d a : SReg) (s : State) : Out := aluRet d (.ofNat 64 (ctzN (s.rd a).toNat 0 64)) s
/-- The meaning of POPC (R83). -/
def execPopc (d a : SReg) (s : State) : Out := aluRet d (.ofNat 64 (popcN (s.rd a).toNat 64)) s
/-- The meaning of BSWAP (R83). -/
def execBswap (d a : SReg) (s : State) : Out := aluRet d (.ofNat 64 (bswapN 8 (s.rd a).toNat)) s

/-- The meaning of ADDI (R85): the immediate is sign-extended. -/
def execAddi (d a : SReg) (k : BitVec 22) (s : State) : Out := aluRet d (aluAdd (s.rd a) (k.signExtend 64)) s
/-- The meaning of ANDI (R85): the immediate is sign-extended. -/
def execAndi (d a : SReg) (k : BitVec 22) (s : State) : Out := aluRet d (aluAnd (s.rd a) (k.signExtend 64)) s
/-- The meaning of ORI (R85): the immediate is sign-extended. -/
def execOri (d a : SReg) (k : BitVec 22) (s : State) : Out := aluRet d (aluOr (s.rd a) (k.signExtend 64)) s
/-- The meaning of XORI (R85): the immediate is sign-extended. -/
def execXori (d a : SReg) (k : BitVec 22) (s : State) : Out := aluRet d (aluXor (s.rd a) (k.signExtend 64)) s
/-- The meaning of SLTI (R85): the immediate is sign-extended. -/
def execSlti (d a : SReg) (k : BitVec 22) (s : State) : Out := aluRet d (aluSlt (s.rd a) (k.signExtend 64)) s
/-- The meaning of SLTIU (R85): the immediate is sign-extended. -/
def execSltiu (d a : SReg) (k : BitVec 22) (s : State) : Out := aluRet d (aluSltu (s.rd a) (k.signExtend 64)) s
/-- The meaning of SLLI (R85). -/
def execSlli (d a : SReg) (k : BitVec 6) (s : State) : Out := aluRet d (s.rd a <<< k.toNat) s
/-- The meaning of SRLI (R85). -/
def execSrli (d a : SReg) (k : BitVec 6) (s : State) : Out := aluRet d (s.rd a >>> k.toNat) s
/-- The meaning of SRAI (R85). -/
def execSrai (d a : SReg) (k : BitVec 6) (s : State) : Out := aluRet d ((s.rd a).sshiftRight k.toNat) s
/-- The meaning of LI (R86). -/
def execLi (d : SReg) (k : BitVec 32) (s : State) : Out := aluRet d (k.signExtend 64) s
/-- The meaning of LIU (R86). -/
def execLiu (d : SReg) (k : BitVec 32) (s : State) : Out := aluRet d (k.zeroExtend 64) s
/-- The meaning of LIH (R86). -/
def execLih (d : SReg) (k : BitVec 32) (s : State) : Out := aluRet d (k ++ (s.rd d).extractLsb' 0 32) s

end Sys2Proof.Machine
end

