-- ==== Sys2Proof/Machine/ScalarFp.lean ====
section
/-! DEFINITION. The scalar floating-point instructions (R87 to R90). -/

namespace Sys2Proof.Machine

open Sys2Proof

/-- The meaning of FADD (R87, R88). -/
def execFadd (f : FFmt) (d a b : SReg) (s : State) : Out :=
  nx (s.fpRound fun rm => s.fpRet d (fpAdd (fmtOf f) rm (s.rd a).toNat (s.rd b).toNat).1 (fpAdd (fmtOf f) rm (s.rd a).toNat (s.rd b).toNat).2)

/-- The meaning of FSUB (R87, R88). -/
def execFsub (f : FFmt) (d a b : SReg) (s : State) : Out :=
  nx (s.fpRound fun rm => s.fpRet d (fpSub (fmtOf f) rm (s.rd a).toNat (s.rd b).toNat).1 (fpSub (fmtOf f) rm (s.rd a).toNat (s.rd b).toNat).2)

/-- The meaning of FMUL (R87, R88). -/
def execFmul (f : FFmt) (d a b : SReg) (s : State) : Out :=
  nx (s.fpRound fun rm => s.fpRet d (fpMul (fmtOf f) rm (s.rd a).toNat (s.rd b).toNat).1 (fpMul (fmtOf f) rm (s.rd a).toNat (s.rd b).toNat).2)

/-- The meaning of FDIV (R87, R88). -/
def execFdiv (f : FFmt) (d a b : SReg) (s : State) : Out :=
  nx (s.fpRound fun rm => s.fpRet d (fpDiv (fmtOf f) rm (s.rd a).toNat (s.rd b).toNat).1 (fpDiv (fmtOf f) rm (s.rd a).toNat (s.rd b).toNat).2)

/-- The low `w` bits of a register (R87). -/
def lowBits (f : FFmt) (x : Dword) : Nat := x.toNat % 2 ^ (fmtOf f).w

/-- The meaning of FSQRT (R87, R88). -/
def execFsqrt (f : FFmt) (d a : SReg) (s : State) : Out :=
  nx (s.fpRound fun rm => s.fpRet d (fpSqrt (fmtOf f) rm (s.rd a).toNat).1 (fpSqrt (fmtOf f) rm (s.rd a).toNat).2)

/-- The meaning of FMIN (R87). -/
def execFmin (f : FFmt) (d a b : SReg) (s : State) : Out :=
  let r := fpMinMax (fmtOf f) false (lowBits f (s.rd a)) (lowBits f (s.rd b))
  nx (s.fpRet d r.1 r.2)

/-- The meaning of FMAX (R87). -/
def execFmax (f : FFmt) (d a b : SReg) (s : State) : Out :=
  let r := fpMinMax (fmtOf f) true (lowBits f (s.rd a)) (lowBits f (s.rd b))
  nx (s.fpRet d r.1 r.2)

/-- The meaning of FMA (R87, R88): the old s[d] is the addend. -/
def execFma (f : FFmt) (d a b : SReg) (s : State) : Out :=
  nx (s.fpRound fun rm =>
    let r := fpFma (fmtOf f) rm (s.rd d).toNat (s.rd a).toNat (s.rd b).toNat false
    s.fpRet d r.1 r.2)

/-- A compare of R87. -/
def fcmpRet (f : FFmt) (op : Nat) (d a b : SReg) (s : State) : State :=
  let r := fpCmp (fmtOf f) op (s.rd a).toNat (s.rd b).toNat
  s.fpRet d r.1.toNat r.2

/-- The meaning of FEQ (R87). -/
def execFeq (f : FFmt) (d a b : SReg) (s : State) : Out := nx (fcmpRet f 0 d a b s)
/-- The meaning of FLT (R87). -/
def execFlt (f : FFmt) (d a b : SReg) (s : State) : Out := nx (fcmpRet f 1 d a b s)
/-- The meaning of FLE (R87). -/
def execFle (f : FFmt) (d a b : SReg) (s : State) : Out := nx (fcmpRet f 2 d a b s)

/-- The meaning of FCLASS (R89). -/
def execFclass (f : FFmt) (d a : SReg) (s : State) : Out := nx (s.ret d (.ofNat 64 (fpClass (fmtOf f) (s.rd a).toNat)))

/-- The meaning of FCVT.I (R87, R88): to a signed 64-bit integer. -/
def execFcvtI (f : FFmt) (d a : SReg) (s : State) : Out :=
  nx (s.fpRound fun rm =>
    let r := fpToInt (fmtOf f) rm (s.rd a).toNat (-(2 ^ 63)) (2 ^ 63 - 1) 0
    s.fpRet d (intBits r.1 64) r.2)

/-- The meaning of FCVT.F (R87): from a signed 64-bit integer. -/
def execFcvtF (f : FFmt) (d a : SReg) (s : State) : Out :=
  nx (s.fpRound fun rm =>
    let r := fpOfInt (fmtOf f) rm (s.rd a).toInt
    s.fpRet d r.1 r.2)

/-- The meaning of FCVT.X (R87, R88): from format f to format g. -/
def execFcvtX (f g : FFmt) (d a : SReg) (s : State) : Out :=
  nx (s.fpRound fun rm =>
    let r := fpConv (fmtOf f) (fmtOf g) rm (s.rd a).toNat
    s.fpRet d r.1 r.2)

end Sys2Proof.Machine
end

