-- ==== Sys2Proof/Machine/Sepia.lean ====
section
/-! DEFINITION. The Sepia coder: VSTASH and VRESTORE (R282 to R285). -/

namespace Sys2Proof.Machine

open Sys2Proof

/-- Bytes of a block's code field (R282). -/
def stashBytes (s4 : Bool) : Nat := if s4 then 32 else 64

/-- The float format of Sepia data (R283). -/
def stashFmt (f32 : Bool) : Fmt := if f32 then fmt32 else fmtB16

/-- The checks of VSTASH and VRESTORE (R283, R287). -/
def stashChk (v : VReg) (f32 : Bool) (s : State) : PushChk :=
  vchk s true [v] (!s.isM && s.ctx.vl.toNat % 64 = 0) fun w g => s.groupOk v g && w = (stashFmt f32).w

/-- Where a Sepia block lies (R285): a page of CMP 0b10 outside the host tier. -/
def stashPlace : Place → Bool
  | .xl x => x.cmp = 2 && x.tier ≠ 2
  | _ => false

/-- The places of a block's code field and side byte, each line reached; the block being one access, a write raises the version of each
line it touches by one, also where both lie in one (R235, R244). -/
def stashPlaces (s : State) (kd : Kind) (wr : Bool) (cb code side : Nat) : State × Except Flt (Xl × Xl) :=
  if code % cb ≠ 0 then (s, .error ⟨0x05, code⟩)
  else match placeOf s s.actor.core s.isM .v kd code cb with
    | (s, .error f) => (s, .error f)
    | (s, .ok p) =>
      if !stashPlace p then (s, .error ⟨0x0A, code⟩)
      else match placeOf s s.actor.core s.isM .v kd side 1 with
        | (s, .error f) => (s, .error f)
        | (s, .ok q) =>
          if !stashPlace q then (s, .error ⟨0x0A, side⟩)
          else match p, q with
            | .xl x, .xl y =>
              match s.touch x wr code with
              | .error f => (s, .error f)
              | .ok t =>
                match if lineOf y.key = lineOf x.key then .ok t else t.touch y wr side with
                | .error f => (s, .error f)
                | .ok t => ((t.inForm x).inForm y, .ok (x, y))
            | _, _ => (s, .error ⟨0x0A, code⟩)

/-- floor(log2) of a finite nonzero value. -/
def fvLog2 : FV → Int
  | .fin _ m e => (Nat.log2 m : Int) + e
  | _ => 0

/-- Whether a finite value is zero. -/
def FV.isZero : FV → Bool
  | .fin _ m _ => m = 0
  | _ => false

/-- The code of one element under exponent E (R284). -/
def stashCode (s4 sr : Bool) (E : Int) (v : FV) (srh : Nat) : Nat :=
  match v with
  | .fin neg m e =>
    let nd := atQuantum m 1 e (E - (if s4 then 2 else 6))
    let q := (roundQuot (if sr then 6 else 1) neg nd.1 nd.2 srh).1
    let top := if s4 then 7 else 127
    let q := if q < top then q else top
    if neg && q ≠ 0 then q + top + 1 else q
  | _ => 0

/-- A block coded (R282, R284): its side byte and code field. -/
def stashBlock (s : State) (s4 sr : Bool) (f : Fmt) (i0 : Nat) (xs : List Nat) : Nat × Nat :=
  let vs := xs.map (unpack f)
  if vs.any fun v => !v.isFin then (1, 0)
  else if vs.all FV.isZero then (0, 0)
  else
    let E := vs.foldl (fun (m : Int) v => if v.isZero then m else if m < fvLog2 v then fvLog2 v else m) (-120)
    let cs := (vs.zip (List.range 64)).map fun y =>
      stashCode s4 sr E y.1 (srBits s.ctx.seed.toNat s.ctx.vbase.toNat (if s4 then 0x11 else 0x10) (i0 + y.2))
    ((E + 128).toNat, cs.foldr (fun c n => c + n * 2 ^ (if s4 then 4 else 8)) 0)

/-- Element `j` of a block decoded (R282). -/
def restoreElem (s4 : Bool) (f : Fmt) (side codes j : Nat) : Nat :=
  if side = 0 then 0
  else if side < 8 then canonNaN f
  else
    let b := if s4 then 4 else 8
    let c := fld codes (b * j) b
    (roundTo f 3 (fld c (b - 1) 1 = 1) (fld c 0 (b - 1)) 1 ((side : Int) - 128 - (if s4 then 2 else 6)) 0).bits

/-- How blocks of 64 elements run (R284, R285): from VSTART, a multiple of 64, to VL or a freeze's strip boundary. -/
def blockRun (w : Nat) (step : Nat → State → Acc) (put : Nat → Nat → Dword → State → State) (e : Entry) (s : State) : State :=
  let vs := s.ctx.vstart.toNat
  if e.n = 0 then s.vdone
  else if vs % 64 ≠ 0 then s.vtrap 0x03 0
  else if e.n ≤ vs then s.vdone
  else
    let stop := s.stopAt vs e.n (stripOf w)
    let r := memLoop (fun _ => true) step put (fun _ t => t) ((stop - vs) / 64) (vs / 64) s
    match r.2 with
    | .fault b f => r.1.vtrapAt (64 * b) f.cause f.addr
    | .wait b => r.1.setVstart (64 * b)
    | .done => if stop < e.n then r.1.setVstart stop else r.1.vdone

/-- VSTASH at VCP (R284): each block one ordered access, coded at its home slice. -/
def vstashRun (v : VReg) (k : BitVec 16) (s4 f32 sr : Bool) (e : Entry) (s : State) : State :=
  let f := stashFmt f32
  let cb := stashBytes s4
  blockRun f.w (fun b t =>
    lastPois ((List.range 64).findSome? fun j => s.srcPois [(v, f.w)] (64 * b + j)) (fun t =>
      match stashPlaces t .w true cb (addrAdd (baseOf e k) (b * cb : Nat)) (addrAdd e.b.toNat (b : Int)) with
      | (t, .error g) => .fault g t
      | (t, .ok (x, y)) =>
        let r := stashBlock s s4 sr f (64 * b) ((List.range 64).map fun j => s.vget v f.w (64 * b + j))
        let t := (t.writeKey x.key cb r.2).writeKey y.key 1 r.1
        .ok (t.updMe fun c => { c with l1 := c.l1.filter fun l => l.1 ≠ lineOf x.key && l.1 ≠ lineOf y.key }) 0 0) t)
    (fun _ _ _ t => t) e s

/-- The meaning of VSTASH (R283 to R285). -/
def execVstash (v : VReg) (a b : SReg) (k : BitVec 16) (s4 f32 sr : Bool) (s : State) : Out :=
  vecOp (.vstash v a b k s4 f32 sr) (stashChk v f32) a b 0 (vstashRun v k s4 f32 sr) s

/-- The elements of a restored block written; NF for a NaN, which never traps (R284). -/
def restorePut (v : VReg) (s4 : Bool) (f : Fmt) (b x : Nat) (t : State) : State :=
  let side := x % 256
  let t := (List.range 64).foldl (fun t j => t.vput v f.w (64 * b + j) (restoreElem s4 f side (x / 256) j)) t
  if 0 < side && side < 8 then t.orFlags fNF else t

/-- VRESTORE at VCP (R284). -/
def vrestoreRun (v : VReg) (k : BitVec 16) (s4 f32 : Bool) (e : Entry) (s : State) : State :=
  let f := stashFmt f32
  let cb := stashBytes s4
  blockRun f.w (fun b t =>
    let code := addrAdd (baseOf e k) (b * cb : Nat)
    let side := addrAdd e.b.toNat (b : Int)
    match stashPlaces t .r false cb code side with
    | (t, .error g) => .fault g t
    | (t, .ok (x, y)) =>
      if t.poisonedAt x.key cb then .fault ⟨0x11, code⟩ t
      else if t.poisonedAt y.key 1 then .fault ⟨0x11, side⟩ t
      else .ok t (t.readKey y.key 1 + 256 * t.readKey x.key cb) 0)
    (fun b x _ t => restorePut v s4 f b x t) e s

/-- The meaning of VRESTORE (R283 to R285). -/
def execVrestore (v : VReg) (a b : SReg) (k : BitVec 16) (s4 f32 : Bool) (s : State) : Out :=
  vecOp (.vrestore v a b k s4 f32) (stashChk v f32) a b 0 (vrestoreRun v k s4 f32) s

end Sys2Proof.Machine
end

