-- ==== Sys2Proof/Machine/VSync.lean ====
section
/-! DEFINITION. VGL and VSCC with the link set (R251 to R254), and VRRED (R255, R256). -/

namespace Sys2Proof.Machine

open Sys2Proof

/-- Where VGL and VSCC may act (R254). -/
def linkPlace : Place → Bool
  | .xl x => x.pol ≠ 2 && x.tier < 2
  | _ => false

/-- The acting strand's link set; Mordant holds none. -/
def State.links (s : State) : List (Nat × Nat × Dword) := if s.isM then [] else (s.strand?.map (·.links)).getD []

/-- The acting strand's link set changed. -/
def State.setLinks (s : State) (f : List (Nat × Nat × Dword) → List (Nat × Nat × Dword)) : State :=
  if s.isM then s else s.updStrand fun st => { st with links := f st.links }

/-- A link made, or invalidated, for element `i` (R252). -/
def State.link (s : State) (i : Nat) (x : Option (Nat × Dword)) : State :=
  s.setLinks fun ls =>
    let rest := ls.filter (·.1 ≠ i)
    match x with
    | some (line, ver) => (i, line, ver) :: rest
    | none => rest

/-- VGL at VCP (R252). -/
def vglRun (v vi : VReg) (k : BitVec 16) (iw : IW) (x : Bool) (p : Pred) (e : Entry) (s0 : State) : State :=
  let w := e.sew
  let s := if s0.ctx.vstart = 0 then s0.setLinks fun _ => [] else s0
  let ea := indexEa s e k vi iw x
  memRun e w p.m
    (fun i => guardPois s [(vi, iwBits iw w)] i (memElem 3 .r true false (ea i) (w / 8) linkPlace fun _ => none))
    (fun i y ver t => (t.vput v w i y).link i (some (lineOf (ea i), ver)))
    (fun i t => (if p.z then t.vput v w i 0 else t).link i none) id s

/-- The meaning of VGL (R251, R252). -/
def execVgl (v : VReg) (a : SReg) (vi : VReg) (k : BitVec 16) (iw : IW) (x : Bool) (p : Pred) (s : State) : Out :=
  vecOp (.vgl v a vi k iw x p) (indexChk v vi iw) a 0 0 (vglRun v vi k iw x p) s

/-- One element of VSCC (R253): one conditional access at its home slice; 1 when it wrote. A version at its largest value
never passes (R244). -/
def vsccElem (ea n y : Nat) (lk : Option (Nat × Dword)) (s : State) : Acc :=
  if ea % elemAlign n ≠ 0 then .fault ⟨0x05, ea⟩ s
  else match placeOf s s.actor.core s.isM .v .w ea n with
    | (s, .error f) => .fault f s
    | (s, .ok pl) =>
      match pl with
      | .xl x =>
        if !linkPlace pl then .fault ⟨0x0A, ea⟩ s
        else match s.touch x false ea with
          | .error f => .fault f s
          | .ok s =>
            let v := s.version x.key
            if lk = some (lineOf ea, v) ∧ v ≠ BitVec.allOnes 64 then
              let t := (s.touchPresent x.key).writeAt x n y
              .ok (if t.isM then t else t.updMe fun c => { c with l1 := c.l1.filter (·.1 ≠ lineOf x.key) }) 1 0
            else .ok s 0 0
      | _ => .fault ⟨0x0A, ea⟩ s

/-- VSCC at VCP (R253): ordered, its successes written to mask `md`. -/
def vsccRun (v vi : VReg) (k : BitVec 16) (iw : IW) (x : Bool) (md : MReg) (p : Pred) (e : Entry) (s : State) : State :=
  let w := e.sew
  let ea := indexEa s e k vi iw x
  let ls := s.links
  let lk (i : Nat) : Option (Nat × Dword) := (ls.find? (·.1 = i)).map (·.2)
  let drop (t : State) : State := t.setLinks fun _ => []
  let t := if e.n ≤ s.ctx.vstart.toNat then drop s else s
  memRun e w p.m
    (fun i => guardPois s [(vi, iwBits iw w)] i <| lastPois (s.srcPois [(v, w)] i) <|
      vsccElem (ea i) (w / 8) (s.vget v w i) (lk i))
    (fun i y _ t => t.mput md i (y = 1)) (fun i t => if p.z then t.mput md i false else t) drop t

/-- The meaning of VSCC (R251, R253). -/
def execVscc (v : VReg) (a : SReg) (vi : VReg) (k : BitVec 16) (iw : IW) (x : Bool) (md : MReg) (p : Pred) (s : State) : Out :=
  vecOp (.vscc v a vi k iw x md p) (indexChk v vi iw) a 0 0 (vsccRun v vi k iw x md p) s

/-- Where VRRED may act (R256): not a window or the host tier. -/
def redPlace : Place → Bool
  | .xl x => x.tier ≠ 2
  | _ => false

/-- The SEW of a VRRED source (R255). -/
def redSew : RedSrc → Nat
  | .w32 => 32
  | .bf16 => 16
  | .f16 => 16
  | .c4 => 8

/-- The checks of VRRED (R255). -/
def vrredChk (op : RedOp) (src : RedSrc) (v vs : VReg) (s : State) : PushChk :=
  vchk s true [v, vs] (op = .fadd || src = .w32) fun w g =>
    s.groupOk v g && w = redSew src && (src ≠ .c4 || s.ctx.vl.toNat % 48 = 0)

/-- Source element `i` of VRRED as an exact value (R256). -/
def redVal (s : State) (src : RedSrc) (v vs : VReg) (i : Nat) : FV :=
  match src with
  | .w32 => unpack fmt32 (s.vget v 32 i)
  | .bf16 => unpack fmtB16 (s.vget v 16 i)
  | .f16 => unpack fmt16 (s.vget v 16 i)
  | .c4 => c4Val (s.vget vs 8 (i / 48)) (s.nibble v i)

/-- The new word of a remote reduction (R256). -/
def redWord (op : RedOp) (x : FV) (y old : Nat) : Nat :=
  match op with
  | .fadd => (addFV fmt32 1 (unpack fmt32 old) x).1
  | .iadd => (old + y) % 2 ^ 32
  | .or => old ||| y

/-- The source elements that element `i` of VRRED reads are poisoned. -/
def redPoisoned (s : State) (src : RedSrc) (v vs : VReg) (i : Nat) : Option Nat :=
  match src with
  | .c4 => orElse (s.srcPois [(v, 8)] (i / 2)) (s.srcPois [(vs, 8)] (i / 48))
  | _ => s.srcPois [(v, redSew src)] i

/-- VRRED at VCP (R256): each element an ordered read-and-write access at its target. -/
def vrredRun (op : RedOp) (src : RedSrc) (v vs : VReg) (k : BitVec 16) (p : Pred) (e : Entry) (s : State) : State :=
  memRun e (redSew src) p.m
    (fun i => lastPois (redPoisoned s src v vs i) <| memElem 0 .w true false (addrAdd (baseOf e k) (4 * i : Nat)) 4 redPlace
      fun old => some (redWord op (redVal s src v vs i) (s.vget v 32 i) old))
    (fun _ _ _ t => t) (fun _ t => t) id s

/-- The meaning of VRRED (R255, R256). -/
def execVrred (op : RedOp) (src : RedSrc) (v : VReg) (a : SReg) (vs : VReg) (k : BitVec 16) (p : Pred) (s : State) : Out :=
  vecOp (.vrred op src v a vs k p) (vrredChk op src v vs) a 0 0 (vrredRun op src v vs k p) s

end Sys2Proof.Machine
end

