-- ==== Sys2Proof/Machine/VecExec.lean ====
section
/-! DEFINITION. The vector instructions (R24) by constructor, for the events that push one or complete one: the push by the
scalar thread and the execution by the sequencer are phases of one meaning. -/

namespace Sys2Proof.Machine

open Sys2Proof

/-- A vector instruction in the acting phase; nothing for any other constructor. -/
def vecExec (i : Instr) (s : State) : Out :=
  match i with
  | .lmcfg a => execLmcfg a s
  | .flset k a => execFlset k a s
  | .flget k d => execFlget k d s
  | .vsetvl d a b => execVsetvl d a b s
  | .vsetvli d a req => execVsetvli d a req s
  | .vadd vd va b p => execVadd vd va b p s
  | .vsub vd va b p => execVsub vd va b p s
  | .vand vd va b p => execVand vd va b p s
  | .vor vd va b p => execVor vd va b p s
  | .vxor vd va b p => execVxor vd va b p s
  | .vsll vd va b p => execVsll vd va b p s
  | .vsrl vd va b p => execVsrl vd va b p s
  | .vsra vd va b p => execVsra vd va b p s
  | .vmin vd va b p => execVmin vd va b p s
  | .vmax vd va b p => execVmax vd va b p s
  | .vminu vd va b p => execVminu vd va b p s
  | .vmaxu vd va b p => execVmaxu vd va b p s
  | .vmul vd va b p => execVmul vd va b p s
  | .vmulh vd va b p => execVmulh vd va b p s
  | .vmulhu vd va b p => execVmulhu vd va b p s
  | .vaddsat vd va b p => execVaddsat vd va b p s
  | .vmerge vd va b m => execVmerge vd va b m s
  | .vmv vd b p => execVmv vd b p s
  | .vfadd f vd va b rm p => execVfadd f vd va b rm p s
  | .vfsub f vd va b rm p => execVfsub f vd va b rm p s
  | .vfmul f vd va b rm p => execVfmul f vd va b rm p s
  | .vfdiv f vd va b rm p => execVfdiv f vd va b rm p s
  | .vfsqrt f vd va rm p => execVfsqrt f vd va rm p s
  | .vfmin f vd va b p => execVfmin f vd va b p s
  | .vfmax f vd va b p => execVfmax f vd va b p s
  | .vfma f vd va b rm p => execVfma f vd va b rm p s
  | .vfnms f vd va b rm p => execVfnms f vd va b rm p s
  | .vfabs f vd va p => execVfabs f vd va p s
  | .vfneg f vd va p => execVfneg f vd va p s
  | .vcmp cc md va b p => execVcmp cc md va b p s
  | .vfcmp cc f md va b p => execVfcmp cc f md va b p s
  | .mand d a b => execMand d a b s
  | .mor d a b => execMor d a b s
  | .mxor d a b => execMxor d a b s
  | .mandn d a b => execMandn d a b s
  | .mnot d a => execMnot d a s
  | .mset d => execMset d s
  | .mclr d => execMclr d s
  | .mpopc d a => execMpopc d a s
  | .mfirst d a => execMfirst d a s
  | .mtov vd a => execMtov vd a s
  | .vtom d va => execVtom d va s
  | .vcompress vd va p => execVcompress vd va p s
  | .vexpand vd va p => execVexpand vd va p s
  | .vslideup vd va b p => execVslideup vd va b p s
  | .vslidedn vd va b p => execVslidedn vd va b p s
  | .vpick vd va vb p => execVpick vd va vb p s
  | .vbcast vd va b p => execVbcast vd va b p s
  | .vextr d va b => execVextr d va b s
  | .vins vd a b => execVins vd a b s
  | .vidx vd p => execVidx vd p s
  | .vrev vd va p => execVrev vd va p s
  | .vredsum vd va vb m => execVredsum vd va vb m s
  | .vredmax vd va vb m => execVredmax vd va vb m s
  | .vredmin vd va vb m => execVredmin vd va vb m s
  | .vredmaxu vd va vb m => execVredmaxu vd va vb m s
  | .vredminu vd va vb m => execVredminu vd va vb m s
  | .vredor vd va vb m => execVredor vd va vb m s
  | .vredand vd va vb m => execVredand vd va vb m s
  | .vfredsumO f vd va vb rm m => execVfredsumO f vd va vb rm m s
  | .vfredsumF f vd va vb rm m => execVfredsumF f vd va vb rm m s
  | .vfredmax f vd va vb m => execVfredmax f vd va vb m s
  | .vfredmin f vd va vb m => execVfredmin f vd va vb m s
  | .vconflict md va p => execVconflict md va p s
  | .vrand vd b p => execVrand vd b p s
  | .vclz vd va p => execVclz vd va p s
  | .vpopc vd va p => execVpopc vd va p s
  | .vld v a k h p => execVld v a k h p s
  | .vlds v a b k h p => execVlds v a b k h p s
  | .vld2 v a b c k h p => execVld2 v a b c k h p s
  | .vgath v a vi k h iw x p => execVgath v a vi k h iw x p s
  | .vgathO v a vi k h iw x p => execVgathO v a vi k h iw x p s
  | .vsld v a b c k h pad => execVsld v a b c k h pad s
  | .vgl v a vi k iw x p => execVgl v a vi k iw x p s
  | .vrestore v a b k s4 f32 => execVrestore v a b k s4 f32 s
  | .vst v a k h p => execVst v a k h p s
  | .vsts v a b k h p => execVsts v a b k h p s
  | .vst2 v a b c k h p => execVst2 v a b c k h p s
  | .vscat v a vi k h iw x p => execVscat v a vi k h iw x p s
  | .vscatO v a vi k h iw x p => execVscatO v a vi k h iw x p s
  | .vscc v a vi k iw x md p => execVscc v a vi k iw x md p s
  | .vrred op src v a vs k p => execVrred op src v a vs k p s
  | .vstash v a b k s4 f32 sr => execVstash v a b k s4 f32 sr s
  | .vcvt src dst vd va rm ns p => execVcvt src dst vd va rm ns p s
  | .vq4 t f del vd va vc c rm => execVq4 t f del vd va vc c rm s
  | .vdq4 f vd va vc rm ns => execVdq4 f vd va vc rm ns s
  | .vqt8 f vd va vc rm => execVqt8 f vd va vc rm s
  | .vdt8 f vd va vc rm ns => execVdt8 f vd va vc rm ns s
  | .vabsmax blk f vd va => execVabsmax blk f vd va s
  | .tabld c => execTabld c s
  | .vpmulLo vd va vb fl p => execVpmulLo vd va vb fl p s
  | .vpmulHi vd va vb fl p => execVpmulHi vd va vb fl p s
  | .vpfld vd va vb fl ix p => execVpfld vd va vb fl ix p s
  | .vpsplit vd va vb fl p => execVpsplit vd va vb fl p s
  | .vpmac vd va vb fl p => execVpmac vd va vb fl p s
  | .vpack side vd va fl p => execVpack side vd va fl p s
  | .vpunpk side vd va fl p => execVpunpk side vd va fl p s
  | .tcfg z c => execTcfg z c s
  | .tzero z => execTzero z s
  | .topO z va vb c vc vs => execTopO z va vb c vc vs s
  | .topF z va vb c vc vs => execTopF z va vb c vc vs s
  | .trd z bf vd c p => execTrd z bf vd c p s
  | .twr z bf va c p => execTwr z bf va c p s
  | .tsave z c => execTsave z c s
  | .tloadt z c => execTloadt z c s
  | .tfree z => execTfree z s
  | _ => nx s

/-- Whether an instruction is pushed into the vector queue (R24, R27). -/
def pushed (i : Instr) : Bool :=
  match i with
  | .lmcfg _ => true
  | .flset _ _ => true
  | .flget _ _ => true
  | .vsetvl _ _ _ => true
  | .vsetvli _ _ _ => true
  | .vadd _ _ _ _ => true
  | .vsub _ _ _ _ => true
  | .vand _ _ _ _ => true
  | .vor _ _ _ _ => true
  | .vxor _ _ _ _ => true
  | .vsll _ _ _ _ => true
  | .vsrl _ _ _ _ => true
  | .vsra _ _ _ _ => true
  | .vmin _ _ _ _ => true
  | .vmax _ _ _ _ => true
  | .vminu _ _ _ _ => true
  | .vmaxu _ _ _ _ => true
  | .vmul _ _ _ _ => true
  | .vmulh _ _ _ _ => true
  | .vmulhu _ _ _ _ => true
  | .vaddsat _ _ _ _ => true
  | .vmerge _ _ _ _ => true
  | .vmv _ _ _ => true
  | .vfadd _ _ _ _ _ _ => true
  | .vfsub _ _ _ _ _ _ => true
  | .vfmul _ _ _ _ _ _ => true
  | .vfdiv _ _ _ _ _ _ => true
  | .vfsqrt _ _ _ _ _ => true
  | .vfmin _ _ _ _ _ => true
  | .vfmax _ _ _ _ _ => true
  | .vfma _ _ _ _ _ _ => true
  | .vfnms _ _ _ _ _ _ => true
  | .vfabs _ _ _ _ => true
  | .vfneg _ _ _ _ => true
  | .vcmp _ _ _ _ _ => true
  | .vfcmp _ _ _ _ _ _ => true
  | .mand _ _ _ => true
  | .mor _ _ _ => true
  | .mxor _ _ _ => true
  | .mandn _ _ _ => true
  | .mnot _ _ => true
  | .mset _ => true
  | .mclr _ => true
  | .mpopc _ _ => true
  | .mfirst _ _ => true
  | .mtov _ _ => true
  | .vtom _ _ => true
  | .vcompress _ _ _ => true
  | .vexpand _ _ _ => true
  | .vslideup _ _ _ _ => true
  | .vslidedn _ _ _ _ => true
  | .vpick _ _ _ _ => true
  | .vbcast _ _ _ _ => true
  | .vextr _ _ _ => true
  | .vins _ _ _ => true
  | .vidx _ _ => true
  | .vrev _ _ _ => true
  | .vredsum _ _ _ _ => true
  | .vredmax _ _ _ _ => true
  | .vredmin _ _ _ _ => true
  | .vredmaxu _ _ _ _ => true
  | .vredminu _ _ _ _ => true
  | .vredor _ _ _ _ => true
  | .vredand _ _ _ _ => true
  | .vfredsumO _ _ _ _ _ _ => true
  | .vfredsumF _ _ _ _ _ _ => true
  | .vfredmax _ _ _ _ _ => true
  | .vfredmin _ _ _ _ _ => true
  | .vconflict _ _ _ => true
  | .vrand _ _ _ => true
  | .vclz _ _ _ => true
  | .vpopc _ _ _ => true
  | .vld _ _ _ _ _ => true
  | .vlds _ _ _ _ _ _ => true
  | .vld2 _ _ _ _ _ _ _ => true
  | .vgath _ _ _ _ _ _ _ _ => true
  | .vgathO _ _ _ _ _ _ _ _ => true
  | .vsld _ _ _ _ _ _ _ => true
  | .vgl _ _ _ _ _ _ _ => true
  | .vrestore _ _ _ _ _ _ => true
  | .vst _ _ _ _ _ => true
  | .vsts _ _ _ _ _ _ => true
  | .vst2 _ _ _ _ _ _ _ => true
  | .vscat _ _ _ _ _ _ _ _ => true
  | .vscatO _ _ _ _ _ _ _ _ => true
  | .vscc _ _ _ _ _ _ _ _ => true
  | .vrred _ _ _ _ _ _ _ => true
  | .vstash _ _ _ _ _ _ _ => true
  | .vcvt _ _ _ _ _ _ _ => true
  | .vq4 _ _ _ _ _ _ _ _ => true
  | .vdq4 _ _ _ _ _ _ => true
  | .vqt8 _ _ _ _ _ => true
  | .vdt8 _ _ _ _ _ _ => true
  | .vabsmax _ _ _ _ => true
  | .tabld _ => true
  | .vpmulLo _ _ _ _ _ => true
  | .vpmulHi _ _ _ _ _ => true
  | .vpfld _ _ _ _ _ _ => true
  | .vpsplit _ _ _ _ _ => true
  | .vpmac _ _ _ _ _ => true
  | .vpack _ _ _ _ _ => true
  | .vpunpk _ _ _ _ _ => true
  | .tcfg _ _ => true
  | .tzero _ => true
  | .topO _ _ _ _ _ _ => true
  | .topF _ _ _ _ _ _ => true
  | .trd _ _ _ _ _ => true
  | .twr _ _ _ _ _ => true
  | .tsave _ _ => true
  | .tloadt _ _ => true
  | .tfree _ => true
  | _ => false

end Sys2Proof.Machine
end

