-- ==== Sys2Proof/Machine/Thread.lean ====
section
/-! DEFINITION. The events of a strand's own streams: the fetch of a line (R56, R61), pushes and deliveries (R25, R26), waits
(R49, R258, R262). -/

namespace Sys2Proof.Machine

open Sys2Proof

/-- The instruction at the acting context's PC, when its line is in execution (R61). -/
def State.atPc (s : State) : Option Instr :=
  match s.ctx.line with
  | some (la, img) => if la = lineAddr s.ctx.pc then decodeSlot img (pcSlot s.ctx.pc) else none
  | none => none

/-- Whether an instruction's result is awaited by the scalar thread (R26). -/
def awaitedIns : Instr → Bool
  | .mpopc _ _ => true
  | .mfirst _ _ => true
  | .vextr _ _ _ => true
  | .flget _ _ => true
  | _ => false

/-- Whether the scalar thread awaits a result from its queue (R26). -/
def Ctx.awaits (c : Ctx) : Bool := c.queue.any fun e => awaitedIns e.ins

/-- Whether the acting context stands on a core of a partition and is not stopped: a strand placed and not frozen, or
Mordant running. -/
def State.live (s : State) : Bool :=
  (s.partOfCore s.actor.core).isSome &&
  match s.actor.who with
  | .mordant => s.me.mOn
  | .user => match s.strand? with
    | some st => st.frz = .none && (st.run = .running || st.run = .draining)
    | none => false

/-- Whether the acting scalar thread may issue (R26, R31, R219). -/
def State.mayIssue (s : State) : Bool :=
  s.live && !s.ctx.awaits &&
  match s.actor.who with
  | .mordant => true
  | .user => match s.strand? with
    | some st => st.run = .running
    | none => false

/-! Fetch. -/

/-- The core's instruction cache holds 64 KiB (R14): a context keeps what the other's images leave of it, the latest fetched. -/
def State.icacheRoom (s : State) : Nat :=
  Config.icacheLines - (s.me.ctx (match s.actor.who with | .user => .mordant | .mordant => .user)).icache.length

/-- A line image enters execution (R55, R56, R59): ILLINE, then ILLTGT. -/
def enterLine (s : State) (la img : Nat) : State :=
  let pc := s.ctx.pc
  if !lineLegal img then s.trap 0x01 la
  else if pcSlot pc = 0 ∨ lineH img < pcSlot pc ∨ fld pc.toNat 0 1 = 1 then s.trap 0x02 pc.toNat
  else s.updCtx fun c => { c with line := some (la, img), icache := ((la, img) :: c.icache.filter (· ≠ (la, img))).take s.icacheRoom }

/-- The images a fetch may return (R61): the line as it stands, or as it was fetched since the last FENCE.ALL. -/
def Ctx.images (c : Ctx) (la img : Nat) : List Nat := img :: ((c.icache.filter fun x => x.1 = la && x.2 ≠ img).map (·.2))

/-- The fetch of the line at the PC (R56, R61). Its PFLT.X reports the line's address, the address of the access (R105; assumption 67). -/
def fetchLine (s : State) : State :=
  let la := lineAddr s.ctx.pc
  match placeOf s s.actor.core s.isM .s .x la 64 with
  | (s, .error f) => s.trap f.cause f.addr
  | (s, .ok (.xl x)) =>
    match s.touch x false la with
    | .error f => s.trap f.cause f.addr
    | .ok s =>
      let s := s.inForm x
      if s.poisonedAt x.key 64 then s.trap 0x11 la
      else
        let img := s.readKey x.key 64
        let is := s.ctx.images la img
        let r := s.free Config.staleFetch
        enterLine r.2 la (is.getD (r.1 % is.length) img)
  | (s, .ok _) => s.trap 0x08 la

/-- The meaning of LINE_FETCH (R56, R61). -/
def execLineFetch (s : State) : Out := nx (if s.mayIssue then fetchLine s else s)

/-- The meaning of UNASSIGNED_ENCODING (R64, R74): the slot at the PC names no instruction, and traps ILLINS. -/
def execUnassignedEncoding (s : State) : Out :=
  nx (if s.mayIssue && (s.ctx.line.any fun x => x.1 = lineAddr s.ctx.pc) && s.atPc.isNone then s.illins else s)

/-- The meaning of MISPREDICT_SQUASH (R33): a mispredicted path leaves no trace. -/
def execMispredictSquash (s : State) : Out := nx s

/-! Pushes and deliveries. -/

/-- The meaning of VECTOR_PUSH (R25): the vector instruction at the PC is pushed, under the checks and the stall of its
own meaning. -/
def execVectorPush (s : State) : Out :=
  match s.atPc with
  | some i => if s.mayIssue && pushed i then vecExec i { s with actor := { s.actor with seq := false } } else nx s
  | none => nx s

/-- The entry at VCP runs on the acting context's sequencer, if it is one of a predicate. -/
def seqHead (s : State) (f : Instr → Bool) : Out :=
  match s.ctx.queue with
  | [] => nx s
  | e :: _ => if s.live && f e.ins then vecExec e.ins { s with actor := { s.actor with seq := true } } else nx s

/-- The meaning of SCALAR_RESULT_DELIVERY (R26): the entry at VCP completes and d is written. -/
def execScalarResultDelivery (s : State) : Out := seqHead s awaitedIns

/-- Whether an instruction is LMCFG. -/
def isLmcfg : Instr → Bool
  | .lmcfg _ => true
  | _ => false

/-- The meaning of LMCFG_APPLY: the instant of change of an LMCFG that waits at VCP (R138, R139); a frozen strand leaves it there with
nothing changed (R219). -/
def execLmcfgApply (s : State) : Out := seqHead s isLmcfg

/-- Whether an instruction may wait on a FIFO in the vector stream (R153). -/
def fifoVec : Instr → Bool
  | .vld _ _ _ _ _ => true
  | .vst _ _ _ _ _ => true
  | _ => false

/-- A waiting access of the vector or the scalar stream is tried again (R142, R143). -/
def resumeAccess (s : State) : Out :=
  if s.actor.seq then seqHead s fifoVec
  else if !s.mayIssue then nx s
  else match s.atPc with
    | some (.ldb d a k) => execLdb d a k s
    | some (.ldbu d a k) => execLdbu d a k s
    | some (.ldh d a k) => execLdh d a k s
    | some (.ldhu d a k) => execLdhu d a k s
    | some (.ldw d a k) => execLdw d a k s
    | some (.ldwu d a k) => execLdwu d a k s
    | some (.ldd d a k) => execLdd d a k s
    | some (.stb a k d) => execStb a k d s
    | some (.sth a k d) => execSth a k d s
    | some (.stw a k d) => execStw a k d s
    | some (.std a k d) => execStd a k d s
    | _ => nx s

/-- The meaning of FIFO_ACCESS_RESUME (R142, R143). -/
def execFifoAccessResume (s : State) : Out := resumeAccess s

/-- The meaning of HALT_RETIRE (R31): the HALT at the PC retires once its conditions hold. -/
def execHaltRetire (s : State) : Out := nx (if s.mayIssue && s.atPc = some .halt then haltOp s else s)

/-! Waits. -/

/-- The meaning of WAIT_REEVALUATE (R49): the wait at the PC is evaluated again. -/
def execWaitReevaluate (s : State) : Out :=
  if !s.mayIssue then nx s
  else match s.atPc with
    | some (.waitaEq a b) => execWaitaEq a b s
    | some (.waitaNe a b) => execWaitaNe a b s
    | some (.waitaGeu a b) => execWaitaGeu a b s
    | some (.waitt k d b) => execWaitt k d b s
    | some (.barwt d a) => execBarwt d a s
    | some .barl => execBarl s
    | _ => nx s

/-- The meaning of WAITA_REMOTE_POLL (R258): a WAITA reads its word again. -/
def execWaitaRemotePoll (s : State) : Out :=
  if !s.mayIssue then nx s
  else match s.atPc with
    | some (.waitaEq a b) => execWaitaEq a b s
    | some (.waitaNe a b) => execWaitaNe a b s
    | some (.waitaGeu a b) => execWaitaGeu a b s
    | _ => nx s

/-- The access that fails a barrier still closed TMO µs after `t0` (R262). -/
def failBarrier (now t0 old : Nat) : Option Nat :=
  if fld old 64 16 = 0 ∧ fld old 80 16 ≠ 0 ∧ t0 + fld old 80 16 * Config.cyclesPerMicro ≤ now then
    some (old + 2 * 2 ^ 64)
  else none

/-- The meaning of BARRIER_TIMEOUT (R262): at TMO the waiting core fails the barrier if it is still closed. -/
def execBarrierTimeout (s : State) : Out :=
  nx (match s.atPc, s.ctx.barFrom with
      | some (.barwt _ a), some t0 =>
        if s.mayIssue then
          match s.acc .s 0 .w true false (s.rd a).toNat 16 barrierPlace (failBarrier s.now t0) with
          | .ok t _ _ => t
          | .fault f t => t.trap f.cause f.addr
          | .wait _ => s
        else s
      | _, _ => s)

end Sys2Proof.Machine
end

