-- ==== Sys2Proof/Machine/Fetch.lean ====
section
/-! DEFINITION. What a step does around `exec`: where the acting context's instruction comes from (R61), firmware
instructions of a user strand (R74), poisoned scalar sources (R326), which constructors are events, and the state in which a given word is the next instruction. -/

namespace Sys2Proof.Machine

open Sys2Proof

/-- The scalar registers a scalar instruction reads; a vector instruction's are checked at its push. -/
def scalarSrcs (i : Instr) : List SReg :=
  match i with
  | .sysw _ a => [a]
  | .add _ a b => [a, b]
  | .sub _ a b => [a, b]
  | .and _ a b => [a, b]
  | .or _ a b => [a, b]
  | .xor _ a b => [a, b]
  | .sll _ a b => [a, b]
  | .srl _ a b => [a, b]
  | .sra _ a b => [a, b]
  | .slt _ a b => [a, b]
  | .sltu _ a b => [a, b]
  | .min _ a b => [a, b]
  | .max _ a b => [a, b]
  | .minu _ a b => [a, b]
  | .maxu _ a b => [a, b]
  | .sel d a b => [a, b, d]
  | .mul _ a b => [a, b]
  | .mulh _ a b => [a, b]
  | .mulhu _ a b => [a, b]
  | .div _ a b => [a, b]
  | .divu _ a b => [a, b]
  | .rem _ a b => [a, b]
  | .remu _ a b => [a, b]
  | .clz _ a => [a]
  | .ctz _ a => [a]
  | .popc _ a => [a]
  | .bswap _ a => [a]
  | .addi _ a _ => [a]
  | .andi _ a _ => [a]
  | .ori _ a _ => [a]
  | .xori _ a _ => [a]
  | .slli _ a _ => [a]
  | .srli _ a _ => [a]
  | .srai _ a _ => [a]
  | .slti _ a _ => [a]
  | .sltiu _ a _ => [a]
  | .lih d _ => [d]
  | .fadd _ _ a b => [a, b]
  | .fsub _ _ a b => [a, b]
  | .fmul _ _ a b => [a, b]
  | .fdiv _ _ a b => [a, b]
  | .fsqrt _ _ a => [a]
  | .fmin _ _ a b => [a, b]
  | .fmax _ _ a b => [a, b]
  | .fma _ d a b => [a, b, d]
  | .feq _ _ a b => [a, b]
  | .flt _ _ a b => [a, b]
  | .fle _ _ a b => [a, b]
  | .fclass _ _ a => [a]
  | .fcvtI _ _ a => [a]
  | .fcvtF _ _ a => [a]
  | .fcvtX _ _ _ a => [a]
  | .beq a b _ _ => [a, b]
  | .bne a b _ _ => [a, b]
  | .blt a b _ _ => [a, b]
  | .bge a b _ _ => [a, b]
  | .bltu a b _ _ => [a, b]
  | .bgeu a b _ _ => [a, b]
  | .jalr _ a => [a]
  | .ldb _ a _ => [a]
  | .ldbu _ a _ => [a]
  | .ldh _ a _ => [a]
  | .ldhu _ a _ => [a]
  | .ldw _ a _ => [a]
  | .ldwu _ a _ => [a]
  | .ldd _ a _ => [a]
  | .ldv _ a _ => [a]
  | .stb a _ d => [a, d]
  | .sth a _ d => [a, d]
  | .stw a _ d => [a, d]
  | .std a _ d => [a, d]
  | .amoadd _ _ a b => [a, b]
  | .amoand _ _ a b => [a, b]
  | .amoor _ _ a b => [a, b]
  | .amoxor _ _ a b => [a, b]
  | .amomax _ _ a b => [a, b]
  | .amomin _ _ a b => [a, b]
  | .amomaxu _ _ a b => [a, b]
  | .amominu _ _ a b => [a, b]
  | .amoswap _ _ a b => [a, b]
  | .amocas _ d a b => [a, b, d]
  | .valset _ a b => [a, b]
  | .waitaEq a b => [a, b]
  | .waitaNe a b => [a, b]
  | .waitaGeu a b => [a, b]
  | .waitt _ _ b => [b]
  | .bararr a b => [a, b]
  | .barwt _ a => [a]
  | .cpy _ _ _ a => [a]
  | .spawn _ a b => [a, b]
  | .cancel a => [a]
  | .tlbinvEnt a b => [a, b]
  | .tlbinvPg a b => [a, b]
  | .tlbinvAs a => [a]
  | .cacheFline a => [a]
  | .cacheFpage a => [a]
  | .cacheWdrop a => [a]
  | .vcfg a => [a]
  | _ => []

/-- The state with an actor. -/
def State.withActor (s : State) (k : Fin 96) (w : Who) (seq : Bool) (stop : Option Nat) : State :=
  { s with actor := { core := k, who := w, seq, stop } }

/-- Whether a constructor is an event of the part, which the agenda may name, and not an instruction of a strand. -/
def isEvent (i : Instr) : Bool :=
  match i with
  | .haltRetire => true
  | .lmcfgApply => true
  | .scalarResultDelivery => true
  | .lineFetch => true
  | .vectorPush => true
  | .mispredictSquash => true
  | .fifoAccessResume => true
  | .waitReevaluate => true
  | .waitaRemotePoll => true
  | .barrierTimeout => true
  | .barlRelease _ _ => true
  | .trapDelivery _ _ => true
  | .mordantTrapHold _ _ => true
  | .launchCancellation _ _ => true
  | .completeLaunch _ _ => true
  | .dependenceEvaluation _ _ => true
  | .recordRead _ _ => true
  | .queueStateEvict _ _ => true
  | .heldCounterAccessRetry _ _ => true
  | .placement _ _ => true
  | .swapOut _ _ => true
  | .imageWriteComplete => true
  | .resumeLaunch _ _ => true
  | .commandDispatch _ _ => true
  | .commandComplete _ => true
  | .markerComplete _ => true
  | .engineError _ _ => true
  | .engineFaultHold _ => true
  | .efactRetry => true
  | .efactFail => true
  | .lineEviction _ => true
  | .naeriRequest _ _ _ => true
  | .flitReplay _ => true
  | .naeriPortDown _ => true
  | .bar2Request _ _ _ => true
  | .functionLevelReset _ => true
  | .claim _ _ _ => true
  | .claimWindowExpiry _ => true
  | .handover _ _ _ => true
  | .ownerLoss _ => true
  | .class0Override _ _ _ => true
  | .lidqRead _ => true
  | .quiesce _ _ _ => true
  | .quiesceComplete _ => true
  | .resume _ _ _ => true
  | .reset _ _ _ => true
  | .partitionReset _ => true
  | .resize _ _ _ => true
  | .dhalt _ _ _ => true
  | .dresume _ _ _ => true
  | .watchdogExpiry _ => true
  | .wdog _ => true
  | .msiraise _ => true
  | .msixPendingSend _ _ => true
  | .registerWrite _ _ => true
  | .thermalShutdown _ => true
  | .boot _ _ _ => true
  | .getMeasurements _ => true
  | .correctedError _ => true
  | .uncorrectableError _ => true
  | .marginPlanApply _ => true
  | .marginQuiesceTimeout _ => true
  | .unassignedEncoding => true
  | .naeriPortUp _ => true
  | .powerDown => true
  | .marginReport _ => true
  | _ => false

/-- What the acting scalar thread or sequencer does next: an instruction or event for `exec`, a state reached without one,
or nothing. -/
inductive Job
  | run (i : Instr)
  | trap (r : Nat)
  | idle
deriving DecidableEq, Repr

/-- Whether an instruction is marked FW: a user strand that reaches it traps ILLINS (R74). -/
def firmwareOnly (i : Instr) : Bool :=
  match i with
  | .eret => true
  | .engq => true
  | .sysr _ x => 0x80 ≤ x.toNat
  | .sysw x _ => 0x80 ≤ x.toNat
  | .tlbinvEnt _ _ => true
  | .tlbinvPg _ _ => true
  | .tlbinvAs _ => true
  | .tlbinvAll => true
  | _ => false

/-- The acting context's next job (R25, R56, R61, R74, R326). An encoding that a user strand may not use traps before its sources
are read (R75). -/
def State.job (s : State) : Job :=
  if s.actor.seq then
    (match s.ctx.queue with
     | e :: _ => if s.live then .run e.ins else .idle
     | [] => .idle)
  else if !s.mayIssue then .idle
  else match s.ctx.line with
    | none => .run .lineFetch
    | some (la, img) =>
      if la ≠ lineAddr s.ctx.pc then .run .lineFetch
      else match decodeSlot img (pcSlot s.ctx.pc) with
        | none => .run .unassignedEncoding
        | some i =>
          if firmwareOnly i && !s.isM then .run i
          else match s.sregPois (scalarSrcs i) with
            | some r => .trap r
            | none => .run i

/-- POISON at the acting scalar thread's instruction (R326). -/
def State.poisonTrap (s : State) (r : Nat) : State := s.trap 0x11 r

/-- The line a word of the opcode table stands in, in execution on core 0, as the next instruction of a running strand whose
queue is empty. -/
def placeWord (s : State) (nbits w : Nat) : State :=
  let s := { s with agenda := [], powered := true, actor := { core := 0, who := .user, seq := false, stop := none },
                    parts := if (s.partOfCore 0).isSome then s.parts else Partition.fresh 0 1 s.now :: s.parts }
  s.updCore 0 fun c => { c with
    mOn := false
    strand := some (Strand.start 0 0 0 1 64 false false)
    user := { Ctx.reset with pc := slotPc 0 1, line := some (0, tableLine nbits w) } }

end Sys2Proof.Machine
end

