-- ==== Sys2Proof/Machine/Tlb.lean ====
section
/-! DEFINITION. TLBINV (R218) and CACHE (R156). -/

namespace Sys2Proof.Machine

open Sys2Proof

/-- Entries of a predicate leave every TLB of the acting core's partition (R218). -/
def tlbDrop (s : State) (f : TlbEnt → Bool) : State :=
  match s.partOfCore s.actor.core with
  | none => s
  | some p =>
    let keep (t : List TlbEnt) : List TlbEnt := t.filter fun e => !f e
    let s := p.coreList.foldl (fun s k => s.updCore (coreId k) fun c =>
      { c with tlbS := keep c.tlbS, tlbV := keep c.tlbV, tlbE := keep c.tlbE }) s
    s.updPart p.first fun p => { p with tlb := keep p.tlb }

/-- Whether an entry translates an address. -/
def TlbEnt.covers (e : TlbEnt) (va : Nat) : Bool :=
  if e.big then e.page / 2 ^ 29 = va / 2 ^ 29 else e.page / 2 ^ 16 = va / 2 ^ 16

/-- Whether an entry's leaf maps any byte of the 64 KiB physical page holding an offset (R218). -/
def TlbEnt.maps (e : TlbEnt) (tier chip off : Nat) : Bool :=
  let pg := fld off 16 36
  fld e.leaf 8 2 = tier && (tier ≠ 3 || fld e.leaf 52 12 = chip) &&
    (if e.big then fld e.leaf 29 23 = pg / 2 ^ 13 else fld e.leaf 16 36 = pg)

/-- The meaning of TLBINV.ENT (R218). -/
def execTlbinvEnt (a b : SReg) (s : State) : Out :=
  nx (s.fwOnly fun s =>
    (tlbDrop s fun e => e.asid = fld (s.rd b).toNat 0 16 && e.covers (s.rd a).toNat).retire)

/-- The meaning of TLBINV.PG (R218). -/
def execTlbinvPg (a b : SReg) (s : State) : Out :=
  nx (s.fwOnly fun s =>
    (tlbDrop s fun e => e.maps (fld (s.rd b).toNat 0 2) (fld (s.rd b).toNat 2 12) (s.rd a).toNat).retire)

/-- The meaning of TLBINV.AS (R218). -/
def execTlbinvAs (a : SReg) (s : State) : Out :=
  nx (s.fwOnly fun s => (tlbDrop s fun e => e.asid = fld (s.rd a).toNat 0 16).retire)

/-- The meaning of TLBINV.ALL (R218). -/
def execTlbinvAll (s : State) : Out := nx (s.fwOnly fun s => (tlbDrop s fun _ => true).retire)

/-- The place a CACHE operation acts on (R156): translated with no permission check, on a resident or migrating page;
none where it has no effect, as on a page whose offset lies beyond its tier or whose peer is out of reach (assumption 84); a WALK
fault traps. -/
def cachePlace (s : State) (va : Nat) : Except Flt (Option Nat) :=
  if 2 ^ 55 ≤ va ∨ (0x7FFE00000000 ≤ va ∧ va < 0x800000000000) then .ok none
  else match s.partOfCore s.actor.core with
    | none => .ok none
    | some p =>
      let leaf (e : Nat) (big : Bool) : Except Flt (Option Nat) :=
        let off := fld e 16 36 * 65536 + (if big then fld va 0 29 else fld va 0 16)
        let tier := fld e 8 2
        if fld e 14 2 = 1 then .ok none
        else if tier < 2 then .ok (if off < tierSize p.n tier then some (tierKey p.first tier off) else none)
        else if tier = 2 then .ok (some (spaceKey 2 (off % 2 ^ 52)))
        else .ok (s.peerKey p (fld e 52 12) off)
      match tlbFind s.me.tlbS (fld s.me.ptbase.toNat 48 16) va with
      | some e => leaf e.leaf e.big
      | none =>
        match walk s p s.me.ptbase va with
        | .bad node => .error ⟨0x09, node⟩
        | .invalid => .ok none
        | .leaf e big => leaf e big

/-- A CACHE operation on the place of s[a]. -/
def cacheOp (a : SReg) (f : Nat → State → State) (s : State) : Out :=
  nx (match cachePlace s (s.rd a).toNat with
      | .error e => s.trap e.cause e.addr
      | .ok none => s.retire
      | .ok (some key) => (f key s).retire)

/-- The meaning of CACHE.FLINE (R156): the line leaves the scalar L1, written back. -/
def execCacheFline (a : SReg) (s : State) : Out :=
  cacheOp a (fun key s => s.updMe fun c => { c with l1 := c.l1.filter (·.1 ≠ lineOf key) }) s

/-- The meaning of CACHE.FPAGE (R156). -/
def execCacheFpage (a : SReg) (s : State) : Out :=
  cacheOp a (fun key s =>
    let lo := key - (s.rd a).toNat % 65536
    s.updMe fun c => { c with l1 := c.l1.filter fun l => !(lo ≤ l.1 && l.1 < lo + 65536) }) s

/-- The meaning of CACHE.ISTAB (R156): the stable cache is emptied. -/
def execCacheIstab (s : State) : Out := nx (s.updMe fun c => { c with stable := [] }).retire

/-- The meaning of CACHE.WDROP (R156): the block's lines leave their home slices, each raising its floor (R244). -/
def execCacheWdrop (a : SReg) (s : State) : Out :=
  cacheOp a (fun key s =>
    let lo := key - (s.rd a).toNat % 65536
    s.dropLines fun l => lo ≤ l && l < lo + 65536) s

end Sys2Proof.Machine
end

