-- ==== Sys2Proof/Machine/Standing.lean ====
section
/-! DEFINITION. The instruction that stands next for a context, the scalar ones by constructor as `vecExec` has the vector ones, the trap
it raises, and the events that take that trap (R105, R220, R221, R223). -/

namespace Sys2Proof.Machine

open Sys2Proof

/-- An instruction at the PC of the acting scalar thread, the fetch of its line among them: the push of a vector instruction, and
nothing for any other event. -/
def scalarExec (i : Instr) (s : State) : Out :=
  match i with
  | .nop => execNop s
  | .halt => execHalt s
  | .eret => execEret s
  | .yield => execYield s
  | .brk => execBrk s
  | .fenceV2s => execFenceV2s s
  | .fenceS2v => execFenceS2v s
  | .fenceAll => execFenceAll s
  | .vdrain => execVdrain s
  | .engq => execEngq s
  | .trap n => execTrap n s
  | .sysr d r => execSysr d r s
  | .sysw r a => execSysw r a s
  | .add d a b => execAdd d a b s
  | .sub d a b => execSub d a b s
  | .and d a b => execAnd d a b s
  | .or d a b => execOr d a b s
  | .xor d a b => execXor d a b s
  | .sll d a b => execSll d a b s
  | .srl d a b => execSrl d a b s
  | .sra d a b => execSra d a b s
  | .slt d a b => execSlt d a b s
  | .sltu d a b => execSltu d a b s
  | .min d a b => execMin d a b s
  | .max d a b => execMax d a b s
  | .minu d a b => execMinu d a b s
  | .maxu d a b => execMaxu d a b s
  | .sel d a b => execSel d a b s
  | .mul d a b => execMul d a b s
  | .mulh d a b => execMulh d a b s
  | .mulhu d a b => execMulhu d a b s
  | .div d a b => execDiv d a b s
  | .divu d a b => execDivu d a b s
  | .rem d a b => execRem d a b s
  | .remu d a b => execRemu d a b s
  | .clz d a => execClz d a s
  | .ctz d a => execCtz d a s
  | .popc d a => execPopc d a s
  | .bswap d a => execBswap d a s
  | .addi d a k => execAddi d a k s
  | .andi d a k => execAndi d a k s
  | .ori d a k => execOri d a k s
  | .xori d a k => execXori d a k s
  | .slli d a k => execSlli d a k s
  | .srli d a k => execSrli d a k s
  | .srai d a k => execSrai d a k s
  | .slti d a k => execSlti d a k s
  | .sltiu d a k => execSltiu d a k s
  | .li d k => execLi d k s
  | .liu d k => execLiu d k s
  | .lih d k => execLih d k s
  | .fadd f d a b => execFadd f d a b s
  | .fsub f d a b => execFsub f d a b s
  | .fmul f d a b => execFmul f d a b s
  | .fdiv f d a b => execFdiv f d a b s
  | .fsqrt f d a => execFsqrt f d a s
  | .fmin f d a b => execFmin f d a b s
  | .fmax f d a b => execFmax f d a b s
  | .fma f d a b => execFma f d a b s
  | .feq f d a b => execFeq f d a b s
  | .flt f d a b => execFlt f d a b s
  | .fle f d a b => execFle f d a b s
  | .fclass f d a => execFclass f d a s
  | .fcvtI f d a => execFcvtI f d a s
  | .fcvtF f d a => execFcvtF f d a s
  | .fcvtX f g d a => execFcvtX f g d a s
  | .beq a b off slot => execBeq a b off slot s
  | .bne a b off slot => execBne a b off slot s
  | .blt a b off slot => execBlt a b off slot s
  | .bge a b off slot => execBge a b off slot s
  | .bltu a b off slot => execBltu a b off slot s
  | .bgeu a b off slot => execBgeu a b off slot s
  | .jal d off slot => execJal d off slot s
  | .jalr d a => execJalr d a s
  | .ldb d a k => execLdb d a k s
  | .ldbu d a k => execLdbu d a k s
  | .ldh d a k => execLdh d a k s
  | .ldhu d a k => execLdhu d a k s
  | .ldw d a k => execLdw d a k s
  | .ldwu d a k => execLdwu d a k s
  | .ldd d a k => execLdd d a k s
  | .ldv d a k => execLdv d a k s
  | .stb a k d => execStb a k d s
  | .sth a k d => execSth a k d s
  | .stw a k d => execStw a k d s
  | .std a k d => execStd a k d s
  | .amoadd w d a b => execAmoadd w d a b s
  | .amoand w d a b => execAmoand w d a b s
  | .amoor w d a b => execAmoor w d a b s
  | .amoxor w d a b => execAmoxor w d a b s
  | .amomax w d a b => execAmomax w d a b s
  | .amomin w d a b => execAmomin w d a b s
  | .amomaxu w d a b => execAmomaxu w d a b s
  | .amominu w d a b => execAmominu w d a b s
  | .amoswap w d a b => execAmoswap w d a b s
  | .amocas w d a b => execAmocas w d a b s
  | .valset d a b => execValset d a b s
  | .waitaEq a b => execWaitaEq a b s
  | .waitaNe a b => execWaitaNe a b s
  | .waitaGeu a b => execWaitaGeu a b s
  | .waitt k d b => execWaitt k d b s
  | .bararr a b => execBararr a b s
  | .barwt d a => execBarwt d a s
  | .barl => execBarl s
  | .tlread k d => execTlread k d s
  | .cpy p k d a => execCpy p k d a s
  | .cpyabort k d => execCpyabort k d s
  | .tlpost k d => execTlpost k d s
  | .spawn d a b => execSpawn d a b s
  | .cancel a => execCancel a s
  | .tlbinvEnt a b => execTlbinvEnt a b s
  | .tlbinvPg a b => execTlbinvPg a b s
  | .tlbinvAs a => execTlbinvAs a s
  | .tlbinvAll => execTlbinvAll s
  | .cacheFline a => execCacheFline a s
  | .cacheFpage a => execCacheFpage a s
  | .cacheIstab => execCacheIstab s
  | .cacheWdrop a => execCacheWdrop a s
  | .vcfg a => execVcfg a s
  | .lineFetch => execLineFetch s
  | .unassignedEncoding => execUnassignedEncoding s
  | i => vecExec i s

/-- The acting context's next job done (R25, R56, R61, R326): that of the entry at VCP, or of the scalar thread. -/
def standing (s : State) : State :=
  match s.job with
  | .idle => s
  | .trap r => s.poisonTrap r
  | .run i => match (if s.actor.seq then vecExec i s else scalarExec i s) with
    | .next t => t
    | _ => s

/-- The cause and address of the trap that the acting strand's next job raises, if it raises one (R105): those with which it would be
delivered or held, whatever the strand's handler and its state. -/
def raised (s : State) : Option (Nat × Nat) :=
  let t := standing (s.updStrand fun st => { st with hs := false, trapvec := 2 })
  match t.strand? with
  | none => none
  | some st =>
    if st.hs then some (st.trapcause.toNat, st.trapaddr.toNat)
    else if st.run = .held then some (fld t.me.fcause.toNat 0 8, t.me.faddr.toNat)
    else none

/-- The acting strand takes the trap that its next job raises, if it is this one and is held for Mordant or not as `toMordant` says (R220,
R221). -/
def takeRaised (cause : BitVec 8) (addr : Dword) (toMordant : Bool) (s : State) : State :=
  match s.actor.who, s.strand? with
  | .user, some st =>
    if raised s = some (cause.toNat, addr.toNat) && heldCause cause.toNat st.hs = toMordant then standing s else s
  | _, _ => s

/-- The meaning of TRAP_DELIVERY (R220, R221, R223): a trap routed to TRAPVEC is taken by the placed strand whose next job raises it. -/
def execTrapDelivery (cause : BitVec 8) (addr : Dword) (s : State) : Out := nx (takeRaised cause addr false s)

/-- The meaning of MORDANT_TRAP_HOLD (R220, R221): a trap routed to Mordant freezes the placed strand whose next job raises it. -/
def execMordantTrapHold (cause : BitVec 8) (addr : Dword) (s : State) : Out := nx (takeRaised cause addr true s)

end Sys2Proof.Machine
end

