-- ==== Sys2Proof/Machine/Service.lean ====
section
/-! DEFINITION. What reaches a partition from outside and what Ochre does: requests over PCIe and Naeri (R238, R243, R314),
ports (R316, R317), evictions (R244), boot, trust and measurements (R320 to R323), soft errors (R325, R326), margins (R327),
thermal shutdown (R18) and the loss of power (R245). -/

namespace Sys2Proof.Machine

open Sys2Proof

/-! Requests. -/

/-- Bytes a request touches. -/
def reqLen : MemReq → Nat
  | .read n => n
  | .write bs => bs.length
  | .amo _ w _ _ => if w then 4 else 8
  | .ldv => 8
  | .reduce _ _ => 4
  | .arrive _ => 16

/-- The alignment a request needs. -/
def reqAlign : MemReq → Nat
  | .read _ => 1
  | .write _ => 1
  | .amo _ w _ _ => if w then 4 else 8
  | .ldv => 8
  | .reduce _ _ => 4
  | .arrive _ => 16

/-- `n` bytes written at a home slice by one access: each present line it touches rises once (R235, R244). -/
def homeWrite (s : State) (key n v : Nat) : State :=
  ((List.range ((key % 64 + n + 63) / 64)).foldl (fun s i => s.touchPresent (lineOf key + 64 * i)) s).writeKey key n v

/-- LDV fills an absent line at the floor (R244, R246). -/
def ldvFill (s : State) (key : Nat) : State :=
  if (s.l2Line? key).isSome then s
  else s.fillLine { line := lineOf key, ver := s.floor (homeOf key), cmp := 0, dirty := false, tier := 0, tierBad := 0 } false

/-- A read-and-write request at a home slice. -/
def homeRmw (s : State) (key n : Nat) (f : Nat → Option Nat) : State × List Byte :=
  let old := s.readKey key n
  match f old with
  | some w => (homeWrite s key n w, natBytes n old)
  | none => (s, natBytes n old)

/-- A request performs at its home slice (R238, R314, R340): the state and the completion's bytes, none for poisoned data. A block with
the metadata byte of a C1 page is expanded (R276, assumption 55). -/
def performReq (s0 : State) (key : Nat) (r : MemReq) : State × List Byte :=
  let s := s0.expandRange key (reqLen r)
  match r with
  | .write bs => (homeWrite s key bs.length (bytesNat bs), [])
  | r =>
    if s.poisonedAt key (reqLen r) then (s, [])
    else match r with
      | .read n => (s, natBytes n (s.readKey key n))
      | .write _ => (s, [])
      | .amo op w y e =>
        let b := if w then 32 else 64
        homeRmw s key (b / 8) (amoNew op b (y.toNat % 2 ^ b) (e.toNat % 2 ^ b))
      | .ldv =>
        let s := ldvFill s key
        (s, natBytes 8 (s.readKey key 8) ++ natBytes 8 (s.version key).toNat)
      | .reduce op x => homeRmw s key 4 fun old => some (redWord op (unpack fmt32 x.toNat) x.toNat old)
      | .arrive c => homeRmw s key 16 (contribFn c.toNat)

/-- A request answered. -/
def answer (r : State × List Byte) : State := { r.1 with reply := r.2 }

/-- The meaning of NAERI_REQUEST (R238, R317): a peer's request, by peer tier offset, performs at its home slice; a
partition under reset, or an offset beyond the tier, completes REMOTE, with no bytes. -/
def execNaeriRequest (part off : Nat) (r : MemReq) (s : State) : Out :=
  let tier := fld off 42 1
  let o := fld off 0 42
  nx (match s.part? part with
      | none => { s with reply := [] }
      | some p =>
        if p.st = 3 || tierSize p.n tier < o + reqLen r || o % reqAlign r ≠ 0 then { s with reply := [] }
        else answer (performReq s (tierKey p.first tier o) r))

/-- Whether the host can issue a request (R243, R314): reads, writes, FetchAdd, Swap and CAS. -/
def hostMay : MemReq → Bool
  | .read _ => true
  | .write _ => true
  | .amo op _ _ _ => op = .add || op = .swap || op = .cas
  | .ldv => false
  | .reduce _ _ => false
  | .arrive _ => false

/-- The meaning of BAR2_REQUEST (R314): the GDDR-7 tier, then the LPDDR-6 tier, under the uncached policy. -/
def execBar2Request (part off : Nat) (r : MemReq) (s : State) : Out :=
  nx (match s.part? part with
      | none => s
      | some p =>
        let g := tierSize p.n 0
        let tier := if off < g then 0 else 1
        let o := if off < g then off else off - g
        if p.st = 3 || !p.vfOn || !hostMay r || tierSize p.n tier < o + reqLen r || o % reqAlign r ≠ 0 then { s with reply := [] }
        else answer (performReq s (tierKey p.first tier o) r))

/-- The meaning of LINE_EVICTION (R244). -/
def execLineEviction (key : Nat) (s : State) : Out := nx (s.dropLine (lineOf key))

/-! Naeri ports. -/

/-- A port changed. -/
def updPort (s : State) (i : Nat) (f : Port → Port) : State :=
  if h : i < 16 then { s with ports := s.ports.set i (f s.ports[i]) } else s

/-- The peers to which a partition's traffic uses port `i`: it is their lowest-numbered live port (R317). -/
def Partition.via (s : State) (p : Partition) (i : Nat) : List Nat :=
  let ports := (s.ports.toList.zipIdx).filter fun q => 2 * p.first ≤ q.2 && q.2 < 2 * (p.first + p.n) && q.1.live
  (((s.ports.toList[i]?).map (·.reach)).getD []).filter fun chip => ((ports.find? fun q => q.1.reach.contains chip).map (·.2)) = some i

/-- The state with some peers out of reach. -/
def State.without (s : State) (chips : List Nat) : State :=
  { s with ports := s.ports.map fun q => { q with reach := q.reach.filter fun c => !chips.contains c } }

/-- What shows that the acting context has trapped, and with what: the strand placed, its delivered or held trap, and ST of every
partition. -/
structure TrapSign where
  placed : Bool
  held   : Option RunSt
  hs     : Option Bool
  fcause : Dword
  faddr  : Dword
  cause  : Option Dword
  addr   : Option Dword
  sts    : List (BitVec 3)
deriving DecidableEq, Repr

/-- The sign of a trap that a state shows. -/
def State.trapSign (s : State) : TrapSign where
  placed := s.strand?.isSome
  held := s.strand?.map (·.run)
  hs := s.strand?.map (·.hs)
  fcause := s.me.fcause
  faddr := s.me.faddr
  cause := s.strand?.map (·.trapcause)
  addr := s.strand?.map (·.trapaddr)
  sts := s.parts.map (·.st)

/-- The acting context's access in flight on a port that fails traps REMOTE (R317, R318): the access standing next, if it goes to one of
the peers `cut`. A barrier arrival was added or not, a free value saying which (assumption 56). -/
def lostAccess (cut : List Nat) (s : State) : State :=
  let v := standing s
  let u := standing (s.without cut)
  if u.trapSign = s.trapSign ∨ u.trapSign = v.trapSign then s
  else
    let r := s.free Config.arrivalLands
    let landed := r.1 && !s.actor.seq && (match s.atPc with | some (.bararr _ _) => true | _ => false)
    let t := if landed then { r.2 with mem := v.mem, c1 := v.c1, poison := v.poison, l2 := v.l2, floors := v.floors } else r.2
    { standing (t.without cut) with ports := s.ports }

/-- Whether an engine entry in flight goes to one of the peers `cut`: the first of its engine port, its next access errs without them
alone. -/
def cutEntry (cut : List Nat) (s : State) (k : Fin 96) (i : Fin 4) (e : EngEntry) : Bool :=
  !e.marker && (s.core k).engMay e && ((s.core k).oldest e.port).any (fun x => x.1 = i && x.2.no = e.no) &&
  (match entryNext (s.without cut) k e with | .err c => c = 0x02 | _ => false) &&
  (match entryNext s k e with | .err _ => false | _ => true)

/-- Every engine command of core `k` in flight to one of the peers `cut` errs REMOTE (R278, R317). -/
def lostCommands (cut : List Nat) (k : Fin 96) (s : State) : State :=
  ([0, 1, 2, 3] : List (Fin 4)).foldl (fun s i =>
    match (s.core k).eng[i].entries.find? (cutEntry cut s k i) with
    | some e => abandonFrom s k i e.no 0x02
    | none => s) s

/-- A port goes down (R216, R317): what is in flight on it traps or errs REMOTE; the translations to its peers leave the TLBs of its
partition. -/
def portDown (s : State) (i : Nat) : State :=
  let reach := ((s.ports.toList[i]?).map (·.reach)).getD []
  let s := match s.partOfSlice (i / 2) with
    | none => s
    | some p =>
      let cut := p.via s i
      let s := if p.coreList.contains s.actor.core.val then lostAccess cut s else s
      p.coreList.foldl (fun s k => lostCommands cut (coreId k) s) s
  dropPeers (updPort s i fun p => { p with live := false, replay := none })
    (fun p => 2 * p.first ≤ i && i < 2 * (p.first + p.n)) reach.contains

/-- The meaning of NAERI_PORT_DOWN (R317). -/
def execNaeriPortDown (i : Nat) (s : State) : Out := nx (portDown s i)

/-- The meaning of NAERI_PORT_UP (R317). -/
def execNaeriPortUp (i : Nat) (s : State) : Out := nx (updPort s i fun p => { p with live := true, replay := none })

/-- Cycles for which a replay may fail, 20 µs (R317). -/
def replayLimit : Nat := 50000

/-- The meaning of FLIT_REPLAY (R316, R317): the replay brings the flit through, or fails again; 20 µs of failing take the
port down. A free value says which (assumption 19). -/
def execFlitReplay (i : Nat) (s : State) : Out :=
  nx (let r := s.free Config.replayFails
      let since := (((r.2.ports.toList[i]?).bind (·.replay))).getD s.now
      if !r.1 then updPort r.2 i fun p => { p with replay := none }
      else if since + replayLimit ≤ s.now then portDown r.2 i
      else updPort r.2 i fun p => { p with replay := some since })

/-! Boot (R320 to R323). -/

/-- The XMSS parameter sets of R321, by their OIDs in NIST SP 800-208 (assumption 21). -/
def xmssSets : List Nat := [0x10, 0x11, 0x12]

/-- Bytes `lo` to `lo + n` of an image as a number. -/
def imgField (img : List Byte) (lo n : Nat) : Nat := bytesNat ((img.drop lo).take n)

/-- Header and payload of an image (R321). -/
def imgBody (img : List Byte) : List Byte := img.take (0x60 + imgField img 0x0C 4)

/-- Whether an image is accepted (R321). -/
def imageOk (otp : Otp) (kind : Nat) (img : List Byte) : Bool :=
  let pk := (img.drop 0x20).take 64
  let oid := imgField img 0x18 8
  imgField img 0 4 = 0x4E5A5049 && imgField img 4 4 = kind && Config.shake256 pk = otp.keyDigest &&
  otp.floor ≤ imgField img 8 4 && xmssSets.contains oid &&
  Config.xmssVerifies oid pk (imgBody img) (img.drop (imgBody img).length)

/-- An image measured into the log (R322). -/
def measure (kind : Nat) (img : List Byte) (s : State) : State :=
  logAdd s { ix := kind, kind, sver := imgField img 8 4, digest := Config.shake256 (imgBody img) }

/-- The configuration block measured at index 4 (R322). -/
def measureOtp (s : State) : State :=
  logAdd s { ix := 4, kind := 0, sver := 0,
             digest := Config.shake256 (s.otp.keyDigest ++ natBytes 4 s.otp.floor ++ s.otp.target ++
               s.otp.layout.map (.ofNat 8) ++ s.otp.opKey) }

/-- What Ochre reports on the management port. -/
def report (r : Report) (s : State) : State := { s with reports := s.reports ++ [r] }

/-- Partitions of the default layout from slice `f` on (R320 step 5), one after another as the block gives their sizes, unchecked
(assumption 69). -/
def layoutParts (now : Nat) : (sizes : List Nat) → (f : Nat) → List Partition
  | [], _ => []
  | n :: r, f => Partition.fresh f n now :: layoutParts now r (f + n)

/-- The default layout formed: each partition starts (R320 step 5, R323). -/
def formLayout (s : State) : State :=
  let s := logLayout { s with parts := layoutParts s.now s.otp.layout 0 }
  s.parts.foldl startFirmware s

/-- The meaning of BOOT (R320, R321), once at each power-up: images are verified and measured; a refused Ochre image leaves Ochre in
ROM; else PCIe and the ports come up, and a refused firmware or training image starts no partition. -/
def execBoot (ochre fw train : List Byte) (s : State) : Out :=
  nx (if s.booted then s
      else
        let s := { s with powered := true, booted := true, ochreUp := false }
        let s := measureOtp (measure 3 train (measure 2 fw (measure 1 ochre s)))
        if !imageOk s.otp 1 ochre then report (.refused 1) s
        else
          let s := { s with ochreUp := true, ports := s.ports.map fun p => { p with live := true, replay := none } }
          if !imageOk s.otp 2 fw then report (.refused 2) s
          else if !imageOk s.otp 3 train then report (.refused 3) s
          else formLayout { s with fwImage := fw })

/-- A record of the log as it is returned. -/
def LogRec.bytes (r : LogRec) : List Byte := natBytes 4 r.ix ++ natBytes 4 r.kind ++ natBytes 4 r.sver ++ r.digest

/-- The meaning of GET_MEASUREMENTS (R322): the records of an index, every record for index 0. Ochre in ROM answers only on the
management port (R321). -/
def execGetMeasurements (q : MeasReq) (s : State) : Out :=
  nx (if q.path = .doe && !s.ochreUp then { s with reply := [] }
      else { s with reply := (s.log.filter fun r => q.ix = 0 || r.ix = q.ix).flatMap LogRec.bytes })

/-! Power. -/

/-- The compute dies lose power: no partition exists, their memory and versions are gone; what lies beyond the module
stays. -/
def diesOff (s : State) : State :=
  let mine (key : Nat) : Bool := key / 2 ^ 60 ≠ 2 && key / 2 ^ 60 ≠ 3
  { s with powered := false, booted := false, parts := [], cores := Vector.replicate 96 Core.reset, l2 := [], floors := [],
           mem := s.mem.filter fun c => !mine c.1, c1 := s.c1.filter fun c => !mine (256 * c.1), poison := s.poison.filter fun k => !mine k,
           ports := s.ports.map fun p => { p with live := false, replay := none } }

/-- The meaning of THERMAL_SHUTDOWN (R18): every partition is reset, the dies are powered down, Ochre reports. -/
def execThermalShutdown (die : Nat) (s : State) : Out :=
  nx (report (.thermal die) (diesOff (s.parts.foldl (fun s p => finishReset (resetPartition s p.first false) p.first) s)))

/-- The loss of the module's power (R245, R322): versions and the attestation log go with it. -/
def powerDown (s : State) : State := { diesOff s with ochreUp := false, log := [], reports := [], fwImage := [] }

/-- The meaning of POWER_DOWN (R245, R322). -/
def execPowerDown (s : State) : Out := nx (powerDown s)

/-! Soft errors. -/

/-- A saturating count of 32 bits at bit `lo` of SERCNT raised (R324). -/
def serUp (lo : Nat) (x : Dword) : Dword :=
  if fld x.toNat lo 32 = 2 ^ 32 - 1 then x else x + .ofNat 64 (2 ^ lo)

/-- The meaning of CORRECTED_ERROR (R325). -/
def execCorrectedError (slice : Nat) (s : State) : Out :=
  nx (match s.partOfSlice slice with
      | none => s
      | some p => s.updPart p.first fun p => { p with sercnt := serUp 0 p.sercnt })

/-- UNC raised for the partition of a core (R326). -/
def uncCore (k : Nat) (s : State) : State :=
  match s.partOfCore k with
  | none => s
  | some p => s.updPart p.first fun p => { p with sercnt := serUp 32 p.sercnt }

/-- A reset of the partition of a core, an error having hit Mordant's state (R326). -/
def resetOfCore (k : Nat) (s : State) : State :=
  match s.partOfCore k with
  | none => s
  | some p => resetPartition s p.first false

/-- An error in a granule of memory or local memory (R326): it is poisoned; in firmware memory it resets the partition. -/
def poisonMem (key : Nat) (s : State) : State :=
  match s.parts.find? fun p => p.ownsKey key with
  | none => s
  | some p =>
    let g := granuleOf key
    let s := { s.updPart p.first (fun p => { p with sercnt := serUp 32 p.sercnt }) with
      poison := key / g * g :: s.poison.filter (· ≠ key / g * g) }
    if p.fwKey ≤ key && key < p.fwKey + 1000000000 then resetPartition s p.first false else s

/-- An error in a core's own storage: Mordant's state resets the partition, a placed strand's is poisoned (R326). -/
def poisonCore (core : Nat) (mordant : Bool) (f : Core → Core) (s : State) : State :=
  if 96 ≤ core then s
  else
    let s := uncCore core s
    if mordant then resetOfCore core s
    else if (s.core (coreId core)).strand.isSome then s.updCore (coreId core) f else s

/-- An error in the vector file: the element at the SEW in force (R326). -/
def poisonElem (byte : Nat) (c : Core) : Core :=
  let n := sewOf c.user.vtype / 8
  let p := byte / n * n * 32 + n
  { c with user := { c.user with pvec := p :: c.user.pvec.filter (· ≠ p) } }

/-- The meaning of UNCORRECTABLE_ERROR (R326). An element of a Lost tile is poisoned too: a TLOADT may have loaded it (R206, R208). -/
def execUncorrectableError (g : Granule) (s : State) : Out :=
  nx (match g with
      | .mem key => poisonMem key s
      | .velem core m byte => poisonCore core m (poisonElem byte) s
      | .tile core z e => poisonCore core false (fun c => c.updStrand fun st =>
          let f (t : Tile) : Tile :=
            if t.st ≠ .free && e < 32768 then { t with poison := e :: t.poison.filter fun p => p % 32768 ≠ e } else t
          if z = 0 then { st with z0 := f st.z0 } else { st with z1 := f st.z1 }) s
      | .sreg core m r => poisonCore core m (fun c =>
          if r = 0 then c else { c with user := { c.user with pregs := c.user.pregs ||| (1#32 <<< r.toNat) } }) s
      | .mask core m k => poisonCore core m (fun c =>
          { c with user := { c.user with pmasks := c.user.pmasks ||| (1#8 <<< k.toNat) } }) s
      | .fl core k => poisonCore core false (fun c => c.updStrand fun st => { st with pfl := st.pfl ||| (1#8 <<< k.toNat) }) s
      | .ct core => poisonCore core false (fun c => c.updStrand fun st => { st with pct := true }) s
      | .scheduler part => resetPartition (s.updPart part fun p => { p with sercnt := serUp 32 p.sercnt }) part false)

/-! Margins (R327). -/

/-- The meaning of MARGIN_REPORT (R327): a plan waits, and the deadline of 1 s starts unless the partition is quiesced. -/
def execMarginReport (part : Nat) (s : State) : Out :=
  nx (if (s.part? part).isSome then
        report (.lowMargin part) (s.updPart part fun p => { p with plan := true, lowAt := if p.st = 2 then none else some s.now })
      else s)

/-- The meaning of MARGIN_PLAN_APPLY (R327, R330): a new plan takes effect while the partition is quiesced, and MEPOCH rises by one;
else it waits for the next quiesce or reset. -/
def execMarginPlanApply (part : Nat) (s : State) : Out :=
  nx (s.updPart part fun p => if p.st = 2 then { p with mepoch := p.mepoch + 1, plan := false, lowAt := none } else { p with plan := true })

/-- Cycles to quiesce after a low-margin report, 1 s (R327). -/
def quiesceCycles : Nat := 2500000000

/-- The meaning of MARGIN_QUIESCE_TIMEOUT (R327): the partition is reset without scrub, and its plan applied in the
reset. -/
def execMarginQuiesceTimeout (part : Nat) (s : State) : Out :=
  nx (match s.part? part with
      | none => s
      | some p =>
        match p.lowAt with
        | none => s
        | some t => if t + quiesceCycles ≤ s.now ∧ p.st ≠ 2 ∧ p.st ≠ 3 then resetPartition s part false else s)

end Sys2Proof.Machine
end

