-- ==== Sys2Proof/Machine/Dispatch.lean ====
section
/-! DEFINITION. The one arm of each operation and event: a direct call of its meaning. -/

namespace Sys2Proof.Machine

open Sys2Proof

def exec (i : Instr) (s : State) : Host.Outcome State Fault Refusal :=
  match i with
  | .nop => Sys2Proof.Machine.execNop s
  | .halt => Sys2Proof.Machine.execHalt s
  | .haltRetire => Sys2Proof.Machine.execHaltRetire s
  | .eret => Sys2Proof.Machine.execEret s
  | .yield => Sys2Proof.Machine.execYield s
  | .brk => Sys2Proof.Machine.execBrk s
  | .fenceV2s => Sys2Proof.Machine.execFenceV2s s
  | .fenceS2v => Sys2Proof.Machine.execFenceS2v s
  | .fenceAll => Sys2Proof.Machine.execFenceAll s
  | .vdrain => Sys2Proof.Machine.execVdrain s
  | .engq => Sys2Proof.Machine.execEngq s
  | .trap n => Sys2Proof.Machine.execTrap n s
  | .sysr d r => Sys2Proof.Machine.execSysr d r s
  | .sysw r a => Sys2Proof.Machine.execSysw r a s
  | .add d a b => Sys2Proof.Machine.execAdd d a b s
  | .sub d a b => Sys2Proof.Machine.execSub d a b s
  | .and d a b => Sys2Proof.Machine.execAnd d a b s
  | .or d a b => Sys2Proof.Machine.execOr d a b s
  | .xor d a b => Sys2Proof.Machine.execXor d a b s
  | .sll d a b => Sys2Proof.Machine.execSll d a b s
  | .srl d a b => Sys2Proof.Machine.execSrl d a b s
  | .sra d a b => Sys2Proof.Machine.execSra d a b s
  | .slt d a b => Sys2Proof.Machine.execSlt d a b s
  | .sltu d a b => Sys2Proof.Machine.execSltu d a b s
  | .min d a b => Sys2Proof.Machine.execMin d a b s
  | .max d a b => Sys2Proof.Machine.execMax d a b s
  | .minu d a b => Sys2Proof.Machine.execMinu d a b s
  | .maxu d a b => Sys2Proof.Machine.execMaxu d a b s
  | .sel d a b => Sys2Proof.Machine.execSel d a b s
  | .mul d a b => Sys2Proof.Machine.execMul d a b s
  | .mulh d a b => Sys2Proof.Machine.execMulh d a b s
  | .mulhu d a b => Sys2Proof.Machine.execMulhu d a b s
  | .div d a b => Sys2Proof.Machine.execDiv d a b s
  | .divu d a b => Sys2Proof.Machine.execDivu d a b s
  | .rem d a b => Sys2Proof.Machine.execRem d a b s
  | .remu d a b => Sys2Proof.Machine.execRemu d a b s
  | .clz d a => Sys2Proof.Machine.execClz d a s
  | .ctz d a => Sys2Proof.Machine.execCtz d a s
  | .popc d a => Sys2Proof.Machine.execPopc d a s
  | .bswap d a => Sys2Proof.Machine.execBswap d a s
  | .addi d a k => Sys2Proof.Machine.execAddi d a k s
  | .andi d a k => Sys2Proof.Machine.execAndi d a k s
  | .ori d a k => Sys2Proof.Machine.execOri d a k s
  | .xori d a k => Sys2Proof.Machine.execXori d a k s
  | .slli d a k => Sys2Proof.Machine.execSlli d a k s
  | .srli d a k => Sys2Proof.Machine.execSrli d a k s
  | .srai d a k => Sys2Proof.Machine.execSrai d a k s
  | .slti d a k => Sys2Proof.Machine.execSlti d a k s
  | .sltiu d a k => Sys2Proof.Machine.execSltiu d a k s
  | .li d k => Sys2Proof.Machine.execLi d k s
  | .liu d k => Sys2Proof.Machine.execLiu d k s
  | .lih d k => Sys2Proof.Machine.execLih d k s
  | .fadd f d a b => Sys2Proof.Machine.execFadd f d a b s
  | .fsub f d a b => Sys2Proof.Machine.execFsub f d a b s
  | .fmul f d a b => Sys2Proof.Machine.execFmul f d a b s
  | .fdiv f d a b => Sys2Proof.Machine.execFdiv f d a b s
  | .fsqrt f d a => Sys2Proof.Machine.execFsqrt f d a s
  | .fmin f d a b => Sys2Proof.Machine.execFmin f d a b s
  | .fmax f d a b => Sys2Proof.Machine.execFmax f d a b s
  | .fma f d a b => Sys2Proof.Machine.execFma f d a b s
  | .feq f d a b => Sys2Proof.Machine.execFeq f d a b s
  | .flt f d a b => Sys2Proof.Machine.execFlt f d a b s
  | .fle f d a b => Sys2Proof.Machine.execFle f d a b s
  | .fclass f d a => Sys2Proof.Machine.execFclass f d a s
  | .fcvtI f d a => Sys2Proof.Machine.execFcvtI f d a s
  | .fcvtF f d a => Sys2Proof.Machine.execFcvtF f d a s
  | .fcvtX f g d a => Sys2Proof.Machine.execFcvtX f g d a s
  | .beq a b off slot => Sys2Proof.Machine.execBeq a b off slot s
  | .bne a b off slot => Sys2Proof.Machine.execBne a b off slot s
  | .blt a b off slot => Sys2Proof.Machine.execBlt a b off slot s
  | .bge a b off slot => Sys2Proof.Machine.execBge a b off slot s
  | .bltu a b off slot => Sys2Proof.Machine.execBltu a b off slot s
  | .bgeu a b off slot => Sys2Proof.Machine.execBgeu a b off slot s
  | .jal d off slot => Sys2Proof.Machine.execJal d off slot s
  | .jalr d a => Sys2Proof.Machine.execJalr d a s
  | .ldb d a k => Sys2Proof.Machine.execLdb d a k s
  | .ldbu d a k => Sys2Proof.Machine.execLdbu d a k s
  | .ldh d a k => Sys2Proof.Machine.execLdh d a k s
  | .ldhu d a k => Sys2Proof.Machine.execLdhu d a k s
  | .ldw d a k => Sys2Proof.Machine.execLdw d a k s
  | .ldwu d a k => Sys2Proof.Machine.execLdwu d a k s
  | .ldd d a k => Sys2Proof.Machine.execLdd d a k s
  | .ldv d a k => Sys2Proof.Machine.execLdv d a k s
  | .stb a k d => Sys2Proof.Machine.execStb a k d s
  | .sth a k d => Sys2Proof.Machine.execSth a k d s
  | .stw a k d => Sys2Proof.Machine.execStw a k d s
  | .std a k d => Sys2Proof.Machine.execStd a k d s
  | .amoadd w d a b => Sys2Proof.Machine.execAmoadd w d a b s
  | .amoand w d a b => Sys2Proof.Machine.execAmoand w d a b s
  | .amoor w d a b => Sys2Proof.Machine.execAmoor w d a b s
  | .amoxor w d a b => Sys2Proof.Machine.execAmoxor w d a b s
  | .amomax w d a b => Sys2Proof.Machine.execAmomax w d a b s
  | .amomin w d a b => Sys2Proof.Machine.execAmomin w d a b s
  | .amomaxu w d a b => Sys2Proof.Machine.execAmomaxu w d a b s
  | .amominu w d a b => Sys2Proof.Machine.execAmominu w d a b s
  | .amoswap w d a b => Sys2Proof.Machine.execAmoswap w d a b s
  | .amocas w d a b => Sys2Proof.Machine.execAmocas w d a b s
  | .valset d a b => Sys2Proof.Machine.execValset d a b s
  | .waitaEq a b => Sys2Proof.Machine.execWaitaEq a b s
  | .waitaNe a b => Sys2Proof.Machine.execWaitaNe a b s
  | .waitaGeu a b => Sys2Proof.Machine.execWaitaGeu a b s
  | .waitt k d b => Sys2Proof.Machine.execWaitt k d b s
  | .bararr a b => Sys2Proof.Machine.execBararr a b s
  | .barwt d a => Sys2Proof.Machine.execBarwt d a s
  | .barl => Sys2Proof.Machine.execBarl s
  | .tlread k d => Sys2Proof.Machine.execTlread k d s
  | .cpy p k d a => Sys2Proof.Machine.execCpy p k d a s
  | .cpyabort k d => Sys2Proof.Machine.execCpyabort k d s
  | .tlpost k d => Sys2Proof.Machine.execTlpost k d s
  | .spawn d a b => Sys2Proof.Machine.execSpawn d a b s
  | .cancel a => Sys2Proof.Machine.execCancel a s
  | .lmcfg a => Sys2Proof.Machine.execLmcfg a s
  | .lmcfgApply => Sys2Proof.Machine.execLmcfgApply s
  | .flset k a => Sys2Proof.Machine.execFlset k a s
  | .flget k d => Sys2Proof.Machine.execFlget k d s
  | .tlbinvEnt a b => Sys2Proof.Machine.execTlbinvEnt a b s
  | .tlbinvPg a b => Sys2Proof.Machine.execTlbinvPg a b s
  | .tlbinvAs a => Sys2Proof.Machine.execTlbinvAs a s
  | .tlbinvAll => Sys2Proof.Machine.execTlbinvAll s
  | .cacheFline a => Sys2Proof.Machine.execCacheFline a s
  | .cacheFpage a => Sys2Proof.Machine.execCacheFpage a s
  | .cacheIstab => Sys2Proof.Machine.execCacheIstab s
  | .cacheWdrop a => Sys2Proof.Machine.execCacheWdrop a s
  | .vcfg a => Sys2Proof.Machine.execVcfg a s
  | .vsetvl d a b => Sys2Proof.Machine.execVsetvl d a b s
  | .vsetvli d a req => Sys2Proof.Machine.execVsetvli d a req s
  | .vadd vd va b p => Sys2Proof.Machine.execVadd vd va b p s
  | .vsub vd va b p => Sys2Proof.Machine.execVsub vd va b p s
  | .vand vd va b p => Sys2Proof.Machine.execVand vd va b p s
  | .vor vd va b p => Sys2Proof.Machine.execVor vd va b p s
  | .vxor vd va b p => Sys2Proof.Machine.execVxor vd va b p s
  | .vsll vd va b p => Sys2Proof.Machine.execVsll vd va b p s
  | .vsrl vd va b p => Sys2Proof.Machine.execVsrl vd va b p s
  | .vsra vd va b p => Sys2Proof.Machine.execVsra vd va b p s
  | .vmin vd va b p => Sys2Proof.Machine.execVmin vd va b p s
  | .vmax vd va b p => Sys2Proof.Machine.execVmax vd va b p s
  | .vminu vd va b p => Sys2Proof.Machine.execVminu vd va b p s
  | .vmaxu vd va b p => Sys2Proof.Machine.execVmaxu vd va b p s
  | .vmul vd va b p => Sys2Proof.Machine.execVmul vd va b p s
  | .vmulh vd va b p => Sys2Proof.Machine.execVmulh vd va b p s
  | .vmulhu vd va b p => Sys2Proof.Machine.execVmulhu vd va b p s
  | .vaddsat vd va b p => Sys2Proof.Machine.execVaddsat vd va b p s
  | .vmerge vd va b m => Sys2Proof.Machine.execVmerge vd va b m s
  | .vmv vd b p => Sys2Proof.Machine.execVmv vd b p s
  | .vfadd f vd va b rm p => Sys2Proof.Machine.execVfadd f vd va b rm p s
  | .vfsub f vd va b rm p => Sys2Proof.Machine.execVfsub f vd va b rm p s
  | .vfmul f vd va b rm p => Sys2Proof.Machine.execVfmul f vd va b rm p s
  | .vfdiv f vd va b rm p => Sys2Proof.Machine.execVfdiv f vd va b rm p s
  | .vfsqrt f vd va rm p => Sys2Proof.Machine.execVfsqrt f vd va rm p s
  | .vfmin f vd va b p => Sys2Proof.Machine.execVfmin f vd va b p s
  | .vfmax f vd va b p => Sys2Proof.Machine.execVfmax f vd va b p s
  | .vfma f vd va b rm p => Sys2Proof.Machine.execVfma f vd va b rm p s
  | .vfnms f vd va b rm p => Sys2Proof.Machine.execVfnms f vd va b rm p s
  | .vfabs f vd va p => Sys2Proof.Machine.execVfabs f vd va p s
  | .vfneg f vd va p => Sys2Proof.Machine.execVfneg f vd va p s
  | .vcmp cc md va b p => Sys2Proof.Machine.execVcmp cc md va b p s
  | .vfcmp cc f md va b p => Sys2Proof.Machine.execVfcmp cc f md va b p s
  | .mand d a b => Sys2Proof.Machine.execMand d a b s
  | .mor d a b => Sys2Proof.Machine.execMor d a b s
  | .mxor d a b => Sys2Proof.Machine.execMxor d a b s
  | .mandn d a b => Sys2Proof.Machine.execMandn d a b s
  | .mnot d a => Sys2Proof.Machine.execMnot d a s
  | .mset d => Sys2Proof.Machine.execMset d s
  | .mclr d => Sys2Proof.Machine.execMclr d s
  | .mpopc d a => Sys2Proof.Machine.execMpopc d a s
  | .mfirst d a => Sys2Proof.Machine.execMfirst d a s
  | .mtov vd a => Sys2Proof.Machine.execMtov vd a s
  | .vtom d va => Sys2Proof.Machine.execVtom d va s
  | .scalarResultDelivery => Sys2Proof.Machine.execScalarResultDelivery s
  | .vcompress vd va p => Sys2Proof.Machine.execVcompress vd va p s
  | .vexpand vd va p => Sys2Proof.Machine.execVexpand vd va p s
  | .vslideup vd va b p => Sys2Proof.Machine.execVslideup vd va b p s
  | .vslidedn vd va b p => Sys2Proof.Machine.execVslidedn vd va b p s
  | .vpick vd va vb p => Sys2Proof.Machine.execVpick vd va vb p s
  | .vbcast vd va b p => Sys2Proof.Machine.execVbcast vd va b p s
  | .vextr d va b => Sys2Proof.Machine.execVextr d va b s
  | .vins vd a b => Sys2Proof.Machine.execVins vd a b s
  | .vidx vd p => Sys2Proof.Machine.execVidx vd p s
  | .vrev vd va p => Sys2Proof.Machine.execVrev vd va p s
  | .vredsum vd va vb m => Sys2Proof.Machine.execVredsum vd va vb m s
  | .vredmax vd va vb m => Sys2Proof.Machine.execVredmax vd va vb m s
  | .vredmin vd va vb m => Sys2Proof.Machine.execVredmin vd va vb m s
  | .vredmaxu vd va vb m => Sys2Proof.Machine.execVredmaxu vd va vb m s
  | .vredminu vd va vb m => Sys2Proof.Machine.execVredminu vd va vb m s
  | .vredor vd va vb m => Sys2Proof.Machine.execVredor vd va vb m s
  | .vredand vd va vb m => Sys2Proof.Machine.execVredand vd va vb m s
  | .vfredsumO f vd va vb rm m => Sys2Proof.Machine.execVfredsumO f vd va vb rm m s
  | .vfredsumF f vd va vb rm m => Sys2Proof.Machine.execVfredsumF f vd va vb rm m s
  | .vfredmax f vd va vb m => Sys2Proof.Machine.execVfredmax f vd va vb m s
  | .vfredmin f vd va vb m => Sys2Proof.Machine.execVfredmin f vd va vb m s
  | .vconflict md va p => Sys2Proof.Machine.execVconflict md va p s
  | .vrand vd b p => Sys2Proof.Machine.execVrand vd b p s
  | .vclz vd va p => Sys2Proof.Machine.execVclz vd va p s
  | .vpopc vd va p => Sys2Proof.Machine.execVpopc vd va p s
  | .vld v a k h p => Sys2Proof.Machine.execVld v a k h p s
  | .vlds v a b k h p => Sys2Proof.Machine.execVlds v a b k h p s
  | .vld2 v a b c k h p => Sys2Proof.Machine.execVld2 v a b c k h p s
  | .vgath v a vi k h iw x p => Sys2Proof.Machine.execVgath v a vi k h iw x p s
  | .vgathO v a vi k h iw x p => Sys2Proof.Machine.execVgathO v a vi k h iw x p s
  | .vsld v a b c k h pad => Sys2Proof.Machine.execVsld v a b c k h pad s
  | .vgl v a vi k iw x p => Sys2Proof.Machine.execVgl v a vi k iw x p s
  | .vrestore v a b k s4 f32 => Sys2Proof.Machine.execVrestore v a b k s4 f32 s
  | .vst v a k h p => Sys2Proof.Machine.execVst v a k h p s
  | .vsts v a b k h p => Sys2Proof.Machine.execVsts v a b k h p s
  | .vst2 v a b c k h p => Sys2Proof.Machine.execVst2 v a b c k h p s
  | .vscat v a vi k h iw x p => Sys2Proof.Machine.execVscat v a vi k h iw x p s
  | .vscatO v a vi k h iw x p => Sys2Proof.Machine.execVscatO v a vi k h iw x p s
  | .vscc v a vi k iw x md p => Sys2Proof.Machine.execVscc v a vi k iw x md p s
  | .vrred op src v a vs k p => Sys2Proof.Machine.execVrred op src v a vs k p s
  | .vstash v a b k s4 f32 sr => Sys2Proof.Machine.execVstash v a b k s4 f32 sr s
  | .vcvt src dst vd va rm ns p => Sys2Proof.Machine.execVcvt src dst vd va rm ns p s
  | .vq4 t f del vd va vc c rm => Sys2Proof.Machine.execVq4 t f del vd va vc c rm s
  | .vdq4 f vd va vc rm ns => Sys2Proof.Machine.execVdq4 f vd va vc rm ns s
  | .vqt8 f vd va vc rm => Sys2Proof.Machine.execVqt8 f vd va vc rm s
  | .vdt8 f vd va vc rm ns => Sys2Proof.Machine.execVdt8 f vd va vc rm ns s
  | .vabsmax blk f vd va => Sys2Proof.Machine.execVabsmax blk f vd va s
  | .tabld c => Sys2Proof.Machine.execTabld c s
  | .vpmulLo vd va vb fl p => Sys2Proof.Machine.execVpmulLo vd va vb fl p s
  | .vpmulHi vd va vb fl p => Sys2Proof.Machine.execVpmulHi vd va vb fl p s
  | .vpfld vd va vb fl ix p => Sys2Proof.Machine.execVpfld vd va vb fl ix p s
  | .vpsplit vd va vb fl p => Sys2Proof.Machine.execVpsplit vd va vb fl p s
  | .vpmac vd va vb fl p => Sys2Proof.Machine.execVpmac vd va vb fl p s
  | .vpack side vd va fl p => Sys2Proof.Machine.execVpack side vd va fl p s
  | .vpunpk side vd va fl p => Sys2Proof.Machine.execVpunpk side vd va fl p s
  | .tcfg z c => Sys2Proof.Machine.execTcfg z c s
  | .tzero z => Sys2Proof.Machine.execTzero z s
  | .topO z va vb c vc vs => Sys2Proof.Machine.execTopO z va vb c vc vs s
  | .topF z va vb c vc vs => Sys2Proof.Machine.execTopF z va vb c vc vs s
  | .trd z bf vd c p => Sys2Proof.Machine.execTrd z bf vd c p s
  | .twr z bf va c p => Sys2Proof.Machine.execTwr z bf va c p s
  | .tsave z c => Sys2Proof.Machine.execTsave z c s
  | .tloadt z c => Sys2Proof.Machine.execTloadt z c s
  | .tfree z => Sys2Proof.Machine.execTfree z s
  | .lineFetch => Sys2Proof.Machine.execLineFetch s
  | .vectorPush => Sys2Proof.Machine.execVectorPush s
  | .mispredictSquash => Sys2Proof.Machine.execMispredictSquash s
  | .fifoAccessResume => Sys2Proof.Machine.execFifoAccessResume s
  | .waitReevaluate => Sys2Proof.Machine.execWaitReevaluate s
  | .waitaRemotePoll => Sys2Proof.Machine.execWaitaRemotePoll s
  | .barrierTimeout => Sys2Proof.Machine.execBarrierTimeout s
  | .barlRelease part l => Sys2Proof.Machine.execBarlRelease part l s
  | .trapDelivery cause addr => Sys2Proof.Machine.execTrapDelivery cause addr s
  | .mordantTrapHold cause addr => Sys2Proof.Machine.execMordantTrapHold cause addr s
  | .launchCancellation part l => Sys2Proof.Machine.execLaunchCancellation part l s
  | .completeLaunch part l => Sys2Proof.Machine.execCompleteLaunch part l s
  | .dependenceEvaluation part l => Sys2Proof.Machine.execDependenceEvaluation part l s
  | .recordRead part q => Sys2Proof.Machine.execRecordRead part q s
  | .queueStateEvict part q => Sys2Proof.Machine.execQueueStateEvict part q s
  | .heldCounterAccessRetry part q => Sys2Proof.Machine.execHeldCounterAccessRetry part q s
  | .placement part cores => Sys2Proof.Machine.execPlacement part cores s
  | .swapOut part cores => Sys2Proof.Machine.execSwapOut part cores s
  | .imageWriteComplete => Sys2Proof.Machine.execImageWriteComplete s
  | .resumeLaunch part cores => Sys2Proof.Machine.execResumeLaunch part cores s
  | .commandDispatch p n => Sys2Proof.Machine.execCommandDispatch p n s
  | .commandComplete k => Sys2Proof.Machine.execCommandComplete k s
  | .markerComplete k => Sys2Proof.Machine.execMarkerComplete k s
  | .engineError k code => Sys2Proof.Machine.execEngineError k code s
  | .engineFaultHold p => Sys2Proof.Machine.execEngineFaultHold p s
  | .efactRetry => Sys2Proof.Machine.execEfactRetry s
  | .efactFail => Sys2Proof.Machine.execEfactFail s
  | .lineEviction key => Sys2Proof.Machine.execLineEviction key s
  | .naeriRequest part off r => Sys2Proof.Machine.execNaeriRequest part off r s
  | .flitReplay port => Sys2Proof.Machine.execFlitReplay port s
  | .naeriPortDown port => Sys2Proof.Machine.execNaeriPortDown port s
  | .bar2Request part off r => Sys2Proof.Machine.execBar2Request part off r s
  | .functionLevelReset part => Sys2Proof.Machine.execFunctionLevelReset part s
  | .claim part who nonce => Sys2Proof.Machine.execClaim part who nonce s
  | .claimWindowExpiry part => Sys2Proof.Machine.execClaimWindowExpiry part s
  | .handover part who nonce => Sys2Proof.Machine.execHandover part who nonce s
  | .ownerLoss part => Sys2Proof.Machine.execOwnerLoss part s
  | .class0Override part sess nonce => Sys2Proof.Machine.execClass0Override part sess nonce s
  | .lidqRead part => Sys2Proof.Machine.execLidqRead part s
  | .quiesce part who arg => Sys2Proof.Machine.execQuiesce part who arg s
  | .quiesceComplete part => Sys2Proof.Machine.execQuiesceComplete part s
  | .resume part who arg => Sys2Proof.Machine.execResume part who arg s
  | .reset part who arg => Sys2Proof.Machine.execReset part who arg s
  | .partitionReset part => Sys2Proof.Machine.execPartitionReset part s
  | .resize part who arg => Sys2Proof.Machine.execResize part who arg s
  | .dhalt part who arg => Sys2Proof.Machine.execDhalt part who arg s
  | .dresume part who arg => Sys2Proof.Machine.execDresume part who arg s
  | .watchdogExpiry part => Sys2Proof.Machine.execWatchdogExpiry part s
  | .wdog v => Sys2Proof.Machine.execWdog v s
  | .msiraise v => Sys2Proof.Machine.execMsiraise v s
  | .msixPendingSend part vec => Sys2Proof.Machine.execMsixPendingSend part vec s
  | .registerWrite r v => Sys2Proof.Machine.execRegisterWrite r v s
  | .thermalShutdown die => Sys2Proof.Machine.execThermalShutdown die s
  | .boot ochre fw train => Sys2Proof.Machine.execBoot ochre fw train s
  | .getMeasurements r => Sys2Proof.Machine.execGetMeasurements r s
  | .correctedError slice => Sys2Proof.Machine.execCorrectedError slice s
  | .uncorrectableError g => Sys2Proof.Machine.execUncorrectableError g s
  | .marginPlanApply part => Sys2Proof.Machine.execMarginPlanApply part s
  | .marginQuiesceTimeout part => Sys2Proof.Machine.execMarginQuiesceTimeout part s
  | .unassignedEncoding => Sys2Proof.Machine.execUnassignedEncoding s
  | .naeriPortUp port => Sys2Proof.Machine.execNaeriPortUp port s
  | .powerDown => Sys2Proof.Machine.execPowerDown s
  | .marginReport part => Sys2Proof.Machine.execMarginReport part s

end Sys2Proof.Machine
end

