-- ==== Sys2Proof/Machine/Turns.lean ====
section
/-! DEFINITION. Who acts next (R37, R49, R97, R302): the contexts of a core that have work ready, the element-beats an
instruction is charged (R114 and the rules of each family), and the turns of scalar slots and element-beats. -/

namespace Sys2Proof.Machine

open Sys2Proof

/-- The acting context's job done. -/
def runJob (s : State) : Out :=
  match s.job with
  | .run i => exec i s
  | .trap r => .next (s.poisonTrap r)
  | .idle => .next s

/-- Whether anything has come of a turn of the acting context: an instruction that stalls, and a wait whose condition is false,
leave its registers and queue, the strand, Mordant and the partitions as they were (R49). -/
def State.moved (s t : State) : Bool :=
  t.ctx.pc ≠ s.ctx.pc || t.ctx ≠ s.ctx || t.strand? ≠ s.strand? || t.me.mOn ≠ s.me.mOn || t.parts ≠ s.parts

/-- Whether a context of the acting core has work ready: its scalar thread's instruction, or (`seq`) its queue's head, would do
something now. -/
def State.ready (s : State) (w : Who) (seq : Bool) : Bool :=
  let t := s.withActor s.actor.core w seq none
  t.job ≠ .idle && match runJob t with
    | .next u => t.moved u
    | _ => true

/-! Element-beats. -/

/-- strips(a, b) of R114 at SEW `w`. -/
def strips (w a b : Nat) : Nat := if a < b then (b * w + 16383) / 16384 - a * w / 16384 else 0

/-- The beats of a TOP (R203) from step `k` to `n`, for the tile's A format; half a beat of an odd count under C4 is not charged
(assumption 25). -/
def topBeats (af k n : Nat) : Nat := if af = 9 then 4 * (n - k) else if af = 15 then (n - k) / 2 else n - k

/-- strips(VSTART, VL) of an instruction that runs by strips of width `w`, or as far as a freeze lets it run (R114, R219). -/
def stripBeats (s : State) (e : Entry) (w : Nat) : Nat :=
  let vs := s.ctx.vstart.toNat
  strips w vs (s.stopAt vs e.n (stripOf w))

/-- The beats of a TOP of units of `u` steps on tile `z`, as far as a freeze lets it run (R203, R219). -/
def topCharge (s : State) (e : Entry) (z : BitVec 1) (u : Nat) : Nat :=
  let vs := s.ctx.vstart.toNat
  let af := fld (s.tile z).cfg.toNat 0 4
  topBeats af vs (s.stopAt vs e.c.toNat (if af = 15 then 48 else u))

/-- The beats of a TSAVE or TLOADT (R206): 160; one that a freeze stops at a chunk has taken a beat for each 32 chunks (assumption 25). -/
def chunkBeats (s : State) : Nat :=
  let vs := s.ctx.vstart.toNat
  let k := s.stopAt vs 5120 1
  if k < 5120 then (k + 31) / 32 - vs / 32 else 160

/-- The element-beats an entry at VCP is charged (R114, R138, R148, R173, R174, R180, R190, R197, R198, R203, R204 to R206, R253, R256,
R284), VSTART being the acting context's, as far as a freeze lets it run. -/
def beats (s : State) (e : Entry) : Nat :=
  let elem := stripBeats s e e.sew
  let whole := strips e.sew 0 e.n
  let lay (fl : BitVec 3) : Layout := layoutOf ((s.strand?.map fun st => st.fl[fl.toFin].toNat).getD 0)
  let halved (fl : BitVec 3) : Nat := if (lay fl).cw = 64 then (elem + 1) / 2 else elem
  let packedW (fl : BitVec 3) : Nat := if (lay fl).cw < 32 * (lay fl).k then 32 * (lay fl).k else (lay fl).cw
  match e.ins with
  | .vsetvl _ _ _ => 0
  | .vsetvli _ _ _ => 0
  | .lmcfg _ => 1
  | .flset _ _ => 1
  | .flget _ _ => 1
  | .tabld _ => 1
  | .tcfg _ _ => 1
  | .tzero _ => 1
  | .tfree _ => 1
  | .vextr _ _ _ => 1
  | .vins _ _ _ => 1
  | .mand _ _ _ => (e.n + 16383) / 16384
  | .mor _ _ _ => (e.n + 16383) / 16384
  | .mxor _ _ _ => (e.n + 16383) / 16384
  | .mandn _ _ _ => (e.n + 16383) / 16384
  | .mnot _ _ => (e.n + 16383) / 16384
  | .mset _ => (e.n + 16383) / 16384
  | .mclr _ => (e.n + 16383) / 16384
  | .mpopc _ _ => (e.n + 16383) / 16384
  | .mfirst _ _ => (e.n + 16383) / 16384
  | .mtov _ _ => whole
  | .vtom _ _ => whole
  | .vcompress _ _ _ => whole
  | .vexpand _ _ _ => whole
  | .vslideup _ _ _ _ => whole
  | .vslidedn _ _ _ _ => whole
  | .vpick _ _ _ _ => whole
  | .vbcast _ _ _ _ => whole
  | .vrev _ _ _ => whole
  | .vredsum _ _ _ _ => whole
  | .vredmax _ _ _ _ => whole
  | .vredmin _ _ _ _ => whole
  | .vredmaxu _ _ _ _ => whole
  | .vredminu _ _ _ _ => whole
  | .vredor _ _ _ _ => whole
  | .vredand _ _ _ _ => whole
  | .vfredsumF _ _ _ _ _ _ => whole
  | .vfredmax _ _ _ _ _ => whole
  | .vfredmin _ _ _ _ _ => whole
  | .vfredsumO _ _ _ _ _ _ => (e.n + 3) / 4
  | .vconflict _ _ _ => 2 * whole
  | .vq4 _ _ _ _ _ _ _ _ => whole
  | .vdq4 _ _ _ _ _ _ => whole
  | .vqt8 _ _ _ _ _ => whole
  | .vdt8 _ _ _ _ _ _ => whole
  | .vabsmax _ _ _ _ => whole
  | .vcvt src dst _ _ _ _ _ =>
    stripBeats s e (if codeBits src.toNat < codeBits dst.toNat then codeBits dst.toNat else codeBits src.toNat)
  | .vpmulLo _ _ _ fl _ => halved fl
  | .vpmulHi _ _ _ fl _ => halved fl
  | .vpfld _ _ _ fl _ _ => halved fl
  | .vpsplit _ _ _ fl _ => (2 * (lay fl).k - 1) * elem
  | .vpmac _ _ _ _ _ => stripBeats s e 128
  | .vpack _ _ _ fl _ => stripBeats s e (packedW fl)
  | .vpunpk _ _ _ fl _ => stripBeats s e (packedW fl)
  | .topO z _ _ _ _ _ => topCharge s e z 1
  | .topF z _ _ _ _ _ => topCharge s e z 48
  | .tsave _ _ => chunkBeats s
  | .tloadt _ _ => chunkBeats s
  | _ => elem

/-! Shares. -/

/-- f of R37. -/
def Core.share (c : Core) : Nat := if fld c.fwshare.toNat 0 5 = 0 then 1 else fld c.fwshare.toNat 0 5

/-- Whether the turn goes to Mordant, both having work ready (R37, R302): with this one, no more than f of the last 64 shared
turns are its own (assumption 25); `h` holds the turns before, newest first. -/
def Core.mordantTurn (c : Core) (h : List Bool) : Bool := ((h.take 63).filter id).length < c.share

/-- The turns shared so far, with one more. -/
def pushTurn (h : List Bool) (b : Bool) : List Bool := (b :: h).take 63

/-- The beats that the entry at the head of the acting context's queue has taken, set. -/
def State.setBeats (s : State) (n : Nat) : State := s.updCtx fun c => { c with beats := n }

/-- What a turn brings: the acting context's job, an event, or one element-beat of an entry that needs more (R302). -/
inductive Next | job | event (i : Instr) | beat
deriving DecidableEq, Repr

/-- An element-beat that both queues could use, given to a context: its head entry runs at the last of the beats it is charged,
or at once where it is charged nothing. A freeze's boundary that the beats taken have passed stops it no more. -/
def takeBeat (w : Who) (stop : Option Nat) (s : State) : State × Next :=
  let t := s.withActor s.actor.core w true stop
  match t.ctx.queue with
  | [] => (t, .job)
  | e :: _ =>
    let n := t.ctx.beats + 1
    let t := if beats t e < n then s.withActor s.actor.core w true none else t
    let need := beats t e
    let t := if need = 0 then t else t.updMe fun c => { c with arbE := pushTurn c.arbE (decide (w = .mordant)) }
    if n < need then (t.setBeats n, .beat) else (t.setBeats 0, .job)

/-- A turn that one context alone can use: an entry that runs in it is paid for, whatever beats it had taken. -/
def ownTurn (w : Who) (seq : Bool) (stop : Option Nat) (s : State) : State × Next :=
  let t := s.withActor s.actor.core w seq stop
  (if seq && s.ready w true then t.setBeats 0 else t, .job)

/-- The acting core's turn given to a context (R37, R97, R302), and the count of shared turns kept. A turn that one context alone
can use is its own; the offer of YIELD ends once Mordant has no work ready. -/
def arbitrate (seq : Bool) (stop : Option Nat) (s : State) : State × Next :=
  let c := s.me
  if !s.ready .mordant seq then ownTurn .user seq stop (if seq then s else s.updMe fun c => { c with yieldTo := 0 })
  else if !seq && decide (s.now < c.yieldTo) || !s.ready .user seq then ownTurn .mordant seq stop s
  else
    let b := c.mordantTurn (if seq then c.arbE else c.arbS)
    let w := if b then Who.mordant else Who.user
    if seq then takeBeat w stop s
    else ((s.updMe fun c => { c with arbS := pushTurn c.arbS b }).withActor s.actor.core w false stop, .job)

/-- The turn that an event of a context's own streams takes: a scalar issue slot, or (`true`) element-beats; none for an event that takes
neither (assumption 4). -/
def slotOf (i : Instr) (seq : Bool) : Option Bool :=
  match i with
  | .lineFetch => some false
  | .vectorPush => some false
  | .haltRetire => some false
  | .waitReevaluate => some false
  | .waitaRemotePoll => some false
  | .unassignedEncoding => some false
  | .scalarResultDelivery => some true
  | .lmcfgApply => some true
  | .fifoAccessResume => some seq
  | .trapDelivery _ _ => some seq
  | .mordantTrapHold _ _ => some seq
  | _ => none

/-- Whether an event of the acting context's would do anything now. -/
def State.eventMoves (i : Instr) (seq : Bool) (s : State) : Bool :=
  let t := s.withActor s.actor.core s.actor.who seq s.actor.stop
  match exec i t with
  | .next u => t.moved u
  | _ => true

/-- An event that the agenda names for the acting context. One that takes a slot or beats, of a context that has work ready, and would do
something, waits for a turn as any work does: what the turn brings is the event, one beat towards it, or the other context's work. -/
def eventTurn (i : Instr) (s : State) : State × Next :=
  let w := s.actor.who
  match slotOf i s.actor.seq with
  | none => (s, .event i)
  | some seq =>
    if !s.ready w seq || !s.eventMoves i seq then (s, .event i)
    else
      let r := arbitrate seq s.actor.stop s
      (r.1, if r.1.actor.who = w ∧ r.2 = .job then .event i else r.2)

/-- The next turn: the agenda's, or, with nothing on it, one cycle later the acting core's sequencers if one has work ready, and
its scalar threads otherwise (assumption 4). A turn that names no event is any context's. None for a core that does not exist. -/
def nextTurn (s : State) : Option (State × Next) :=
  match s.agenda with
  | [] =>
    let s := { s with now := s.now + 1 }
    some (arbitrate (s.ready .user true || s.ready .mordant true) none s)
  | t :: r =>
    if h : t.core < 96 then
      let s := { s with agenda := r, now := s.now + t.dt }.withActor ⟨t.core, h⟩ t.who t.seq t.stop
      match t.what.filter isEvent with
      | some i => some (eventTurn i s)
      | none => some (arbitrate t.seq t.stop s)
    else none

end Sys2Proof.Machine
end

