-- ==== Sys2Proof/Machine/Step.lean ====
section
/-! DEFINITION. One step of the machine: a turn of the agenda, or by default the acting core's next instruction. -/

namespace Sys2Proof.Machine

open Sys2Proof

/-- One step. -/
def step (s : State) : Host.Outcome State Fault Refusal :=
  match nextTurn s with
  | none => .fault .noSuchCore
  | some (s, .job) => runJob s
  | some (s, .event i) => exec i s
  | some (s, .beat) => .next s

/-- The state in which a word of the opcode table is what the next step runs (assumption 3). -/
def State.withFetchWord (s : State) (nbits w : Nat) : State := placeWord s nbits w

end Sys2Proof.Machine
end

