-- ==== Sys2Proof/Safety.lean ====
section
/-! DEFINITION. What counts as a safe run, and the vocabulary in which claims about a step are stated. -/

namespace Sys2Proof.Machine

/-- The step from `s` ends in a next state. -/
def Safe (s : State) : Prop := ∃ t, step s = .next t

end Sys2Proof.Machine

namespace Sys2Proof.Claims

open Sys2Proof Sys2Proof.Machine

/-! What stays. -/

/-- Every byte of memory reads in `t` as in `s`. -/
def SameMem (s t : State) : Prop := ∀ a, readByte t.mem a = readByte s.mem a

/-- `t` is `s` but for the acting context, and every byte of memory reads as before. -/
def OnlyCtx (s t : State) : Prop := t.updCtx (fun _ => s.ctx) = s ∧ SameMem s t

/-- `t` is `s` but for the PC of the acting context and the line in execution. -/
def OnlyPc (s t : State) : Prop := OnlyCtx s t ∧ { t.ctx with pc := s.ctx.pc, line := s.ctx.line } = s.ctx

/-- `t` is `s` but for the scalar registers of the acting context, their poison, the PC and the line in execution. -/
def OnlyScalar (s t : State) : Prop :=
  OnlyCtx s t ∧ { t.ctx with regs := s.ctx.regs, pregs := s.ctx.pregs, pc := s.ctx.pc, line := s.ctx.line } = s.ctx

/-- As `OnlyScalar`, with FFLAGS. -/
def OnlyScalarFlags (s t : State) : Prop :=
  OnlyCtx s t ∧ { t.ctx with regs := s.ctx.regs, pregs := s.ctx.pregs, pc := s.ctx.pc, line := s.ctx.line, fflags := s.ctx.fflags } = s.ctx

/-- `t` is `s` but for the acting core, and every byte of memory reads as before. -/
def OnlyMe (s t : State) : Prop := t.updMe (fun _ => s.me) = s ∧ SameMem s t

/-- Of the partitions of `s`, only launch `l` of partition `p` differs in `t`. -/
def OnlyLaunch (s t : State) (p l : Nat) : Prop :=
  (∀ q m, ¬(q = p ∧ m = l) → t.launch? q m = s.launch? q m) ∧
  ∀ q, (t.part? q).map (fun x => { x with launches := [] }) = (s.part? q).map fun x => { x with launches := [] }

/-- `t` is `s` but for what accesses may change: memory, the form of its blocks, its poison, the lines and the floors of L2, the count of
free choices, and the TLBs, caches and FIFOs of the cores. -/
def Touched (s t : State) : Prop :=
  { t with mem := s.mem, c1 := s.c1, poison := s.poison, l2 := s.l2, floors := s.floors, ticket := s.ticket, cores := s.cores } = s ∧
  ∀ k, { t.core k with
    tlbS := (s.core k).tlbS, tlbV := (s.core k).tlbV, tlbE := (s.core k).tlbE, l1 := (s.core k).l1,
    stable := (s.core k).stable, fifos := (s.core k).fifos } = s.core k

/-! Scalar results. -/

/-- Register `d` of the acting context holds `x` in `t`, unless it is s0, and is not poisoned; every other register reads
as in `s`. -/
def Wrote (s t : State) (d : SReg) (x : Dword) : Prop :=
  ∀ r : SReg, t.rd r = (if r = d ∧ d ≠ 0 then x else s.rd r) ∧
    t.ctx.pregs.getLsbD r.toNat = (s.ctx.pregs.getLsbD r.toNat && !(decide (r = d) && decide (d ≠ 0)))

/-- `i` writes `x` to `d`, goes on to the successor, and changes nothing else. -/
def Gives (i : Instr) (s : State) (d : SReg) (x : Dword) : Prop :=
  ∃ t, exec i s = .next t ∧ Wrote s t d x ∧ t.ctx.pc = s.ctx.succPc ∧ OnlyScalar s t

/-- `i` has the effect that `u` shows, goes on to the successor, and changes nothing else. -/
def Runs (i : Instr) (s u : State) : Prop := ∃ t, exec i s = .next t ∧ t.ctx.pc = s.ctx.succPc ∧ OnlyPc u t

/-- `i` takes the trap `cause` with `addr` for TRAPADDR or FADDR, and does nothing else. -/
def Traps (i : Instr) (s : State) (cause addr : Nat) : Prop := exec i s = .next (s.trap cause addr)

/-- `i` waits: nothing of it happens. -/
def Waits (i : Instr) (s : State) : Prop := exec i s = .next s

/-! Accesses. -/

/-- The block of a translated place is held in the form that its page's CMP gives it: expanded, or never written so, on a C1 page, and
as stored on any other (R215, R276; assumption 55). -/
def InForm (s : State) (x : Xl) : Prop :=
  let m := (readByte s.c1 (x.key / 256)).toNat
  if x.cmp = 1 then m < 2 ∨ 8 ≤ m else m ≠ 1

/-- An access of `n` bytes by the acting context at `ea`, through the TLB `t`, can perform: it lies in the place `pl`, its
first byte at `key`, its block in the form of its page, and no scoreboard range or memory-protection class stops it; `u` is `s` with
the translation kept. -/
def ReadyOn (t : TlbSel) (s u : State) (kd : Kind) (ea n key : Nat) (pl : Place) : Prop :=
  placeOf s s.actor.core s.isM t kd ea n = (u, .ok pl) ∧
  match pl with
  | .bank target off k => k = key ∧ sbDelays u s.actor.core s.actor.seq target off n (decide (kd = .w)) = false
  | .xl x => x.key = key ∧ InForm u x ∧ (x.tier = 2 ∨ ∀ l, u.l2Line? key = some l → l.cmp.toNat = x.cmp)
  | .fifo _ => False

/-- An access by the scalar thread can perform. -/
def Ready (s u : State) (kd : Kind) (ea n key : Nat) (pl : Place) : Prop := ReadyOn .s s u kd ea n key pl

/-- A scalar access of `n` bytes reaches the port of the FIFO bank `b`, and no scoreboard range delays it (R142, R147). -/
def AtPort (s u : State) (kd : Kind) (ea n b : Nat) : Prop :=
  placeOf s s.actor.core s.isM .s kd ea n = (u, .ok (.fifo b)) ∧
    sbDelays u s.actor.core s.actor.seq s.actor.core.val (ea - localBase) n (decide (kd = .w)) = false

/-- The key of byte `o` of bank `b` of a core. -/
def byteOfBank (k b o : Nat) : Nat := 4 * 2 ^ 60 + k * 2 ^ 24 + b * 196608 + o

/-- The keys of the bytes a FIFO bank holds, the oldest first, and those bytes (R142). -/
def fifoKeys (s : State) (k : Fin 96) (b : Nat) : List Nat :=
  let q := (s.core k).fifo b
  (List.range q.held).map fun i => byteOfBank k b ((q.oldest + i) % 196608)
/-- The bytes. -/
def fifoBytes (s : State) (k : Fin 96) (b : Nat) : List Byte := (fifoKeys s k b).map (readByte s.mem)

/-- Of all FIFOs and banks only bank `b` of core `k` differs, and of memory only that bank. -/
def OnlyFifo (s t : State) (k : Fin 96) (b : Nat) : Prop :=
  (∀ a, a < byteOfBank k b 0 ∨ byteOfBank k b 196608 ≤ a → readByte t.mem a = readByte s.mem a) ∧
    ∀ j c, ¬(j = k ∧ c = b) → (t.core j).fifo c = (s.core j).fifo c

/-- The `n` bytes from `key` hold the low `n` bytes of `v`, the lowest first, and every other byte reads as before. -/
def Stored (s t : State) (key n v : Nat) : Prop :=
  ∀ a, readByte t.mem a = if key ≤ a ∧ a < key + n then .ofNat 8 (v / 256 ^ (a - key)) else readByte s.mem a

/-- A version raised by one (R244). -/
def nextVersion (v : Dword) : Dword := if v.toNat = 2 ^ 64 - 1 then v else .ofNat 64 (v.toNat + 1)

/-- A write raised the version of its line by one, unless it lies in local memory or the host tier, or on an uncached line
that its home slice does not hold (R235, R244). -/
def Bumped (s t : State) (key : Nat) (pl : Place) : Prop :=
  match pl with
  | .xl x => x.tier ≠ 2 → (x.pol ≠ 2 ∨ (s.l2Line? key).isSome) → t.version key = nextVersion (s.version key)
  | _ => True

/-- The signed value of the low `w` bits. -/
def sgn (w v : Nat) : Int := if 2 * (v % 2 ^ w) < 2 ^ w then (v % 2 ^ w : Nat) else (v % 2 ^ w : Nat) - 2 ^ w

/-! Traps. -/

/-- The images of a context that are left once those of the lines of some PCs are forgotten (R60). -/
def imagesWithout (c : Ctx) (pcs : List Dword) : List (Nat × Nat) :=
  c.icache.filter fun x => pcs.all fun pc => decide (x.1 ≠ pc.toNat / 64 * 64)

/-- The user strand `st` of the acting core takes a trap to its TRAPVEC (R104, R223): `tpc` is TRAPPC and the PC of the context is SPC;
the lines it comes back to are fetched again (R60), a BARWT times afresh (R262); commands that follow entries of the queue now follow
entries of the frame's image (R236). -/
def Delivered (s t : State) (st : Strand) (cause : BitVec 8) (addr tpc : Dword) : Prop :=
  OnlyMe s t ∧
  t.strand? = some { st with
    hs := true, trapcause := cause.zeroExtend 64, trapaddr := addr, trappc := tpc, run := .running, links := [], selfPc := none,
    frame := some {
      regs := s.me.user.regs, pregs := s.me.user.pregs, spc := s.me.user.pc, image := s.me.user.queue, vstart := s.me.user.vstart, vbase := s.me.user.vbase,
      fmode := s.me.user.fmode, seed := s.me.user.seed, padlo := s.me.user.padlo, padhi := s.me.user.padhi, padval := s.me.user.padval, nv := st.nv, vl := s.me.user.vl, vtype := s.me.user.vtype } } ∧
  t.me.user = { s.me.user with
    pc := st.trapvec, line := none, vstart := 0, queue := [], barFrom := none, beats := 0,
    icache := imagesWithout s.me.user [s.me.user.pc, tpc] } ∧
  { t.me with user := s.me.user, strand := s.me.strand, eng := s.me.eng } = s.me ∧
  ∀ k : Fin 4, t.me.eng[k] = { s.me.eng[k] with
    entries := s.me.eng[k].entries.map fun e => { e with fr := e.fr || decide (0 < e.w) } }

/-- The user strand `st` of the acting core is frozen with its trap held for Mordant (R211, R221, R254); `vec` says that
the vector stream raised it, and FCAUSE then holds VSTART. -/
def Held (s t : State) (st : Strand) (cause : BitVec 8) (addr tpc : Dword) (vec : Bool) (self : Option Dword) : Prop :=
  OnlyMe s t ∧
  t.strand? = some { st with run := .held, links := [], selfPc := self } ∧
  t.me.fcause.toNat = cause.toNat + (if st.hs then 2 ^ 8 else 0) + 2 ^ 9 +
    (if vec then 2 ^ 10 + s.me.user.vstart.toNat % 2 ^ 16 * 2 ^ 16 else 0) ∧
  t.me.faddr = addr ∧ t.me.fpc = tpc ∧
  t.me.user = { s.me.user with line := none, barFrom := none, beats := if vec then 0 else s.me.user.beats,
                               icache := imagesWithout s.me.user [s.me.user.pc] } ∧
  { t.me with fcause := s.me.fcause, faddr := s.me.faddr, fpc := s.me.fpc, strand := s.me.strand, user := s.me.user } = s.me

/-! Floating point. -/

/-- A flag of `fl`, NX to NF, has its enable bit set in FMODE (R103). -/
def Enabled (s : State) (fl : Nat) : Prop := ∃ j < 6, fl.testBit j = true ∧ s.ctx.fmode.getLsbD (8 + j) = true

/-- `t` is `s` but for the flags of the acting context, which are raised by `fl` (R90). -/
def Raised (s t : State) (fl : Nat) : Prop :=
  t.ctx.fflags = s.ctx.fflags ||| .ofNat 64 fl ∧ OnlyCtx s t ∧ { t.ctx with fflags := s.ctx.fflags } = s.ctx

/-- `i` raises the flags `fl`; with one of them enabled it traps FPX and writes nothing, and otherwise it writes `v` to `d`
and goes on to the successor (R90). -/
def FGives (i : Instr) (s : State) (d : SReg) (v fl : Nat) : Prop :=
  (Enabled s fl → ∃ u, exec i s = .next (u.trap 0x0E fl) ∧ Raised s u fl) ∧
  (¬Enabled s fl → ∃ t, exec i s = .next t ∧ Wrote s t d (.ofNat 64 v) ∧ t.ctx.pc = s.ctx.succPc ∧
    t.ctx.fflags = s.ctx.fflags ||| .ofNat 64 fl ∧ OnlyScalarFlags s t)

/-- The value of a finite number, 0 for the others. -/
def ratOf : FV → ℚ
  | .fin neg m e => (if neg then -1 else 1) * m * 2 ^ e
  | _ => 0

/-- The value of a finite encoding of a format. -/
def valOf (f : Fmt) (x : Nat) : ℚ := ratOf (unpack f x)

/-- Whether an encoding of a format is finite. -/
def Finite (f : Fmt) (x : Nat) : Prop := ∃ n m e, unpack f x = .fin n m e

/-- The finite encoding `r` is the exact value `p` rounded once in the mode `rm`: 1 to nearest, ties away; 2 to nearest,
ties to even; 3 toward zero; 4 up; 5 down (R168). -/
def RoundedTo (f : Fmt) (rm : Nat) (p : ℚ) (r : Nat) : Prop :=
  let v := valOf f r
  (rm = 1 → ∀ z < 2 ^ f.w, Finite f z → |v - p| < |valOf f z - p| ∨ valOf f z = v ∨ (|v - p| = |valOf f z - p| ∧ |valOf f z| < |v|)) ∧
  (rm = 2 → ∀ z < 2 ^ f.w, Finite f z → |v - p| < |valOf f z - p| ∨ valOf f z = v ∨ (|v - p| = |valOf f z - p| ∧ r % 2 = 0)) ∧
  (rm = 3 → |v| ≤ |p| ∧ 0 ≤ v * p ∧ ∀ z < 2 ^ f.w, Finite f z → |valOf f z| ≤ |p| → |valOf f z| ≤ |v|) ∧
  (rm = 4 → p ≤ v ∧ ∀ z < 2 ^ f.w, Finite f z → p ≤ valOf f z → v ≤ valOf f z) ∧
  (rm = 5 → v ≤ p ∧ ∀ z < 2 ^ f.w, Finite f z → valOf f z ≤ p → valOf f z ≤ v)

/-- The encoding of an infinity, and of the largest finite value, of a sign. -/
def infOf (f : Fmt) (neg : Bool) : Nat := (if neg then 2 ^ (f.w - 1) else 0) + (2 ^ f.eb - 1) * 2 ^ f.mb
/-- The largest finite value. -/
def maxOf (f : Fmt) (neg : Bool) : Nat := infOf f neg - 1
/-- The canonical quiet NaN of a format with infinities (R88). -/
def quietNaN (f : Fmt) : Nat := (2 ^ (f.eb + 1) - 1) * 2 ^ (f.mb - 1)

/-- Whether a magnitude `m` of the sign of `p` rounds, in the mode `rm`, to `B` or more, where `U` is the spacing below the
power of two `B` (R168). -/
def Reaches (rm : Nat) (p B U : ℚ) : Prop :=
  if rm = 1 ∨ rm = 2 then B - U / 2 ≤ |p|
  else if (rm = 4 ∧ 0 < p) ∨ (rm = 5 ∧ p < 0) then B - U < |p|
  else B ≤ |p|

/-- `p`, rounded to the precision of a format with no bound on the exponent, exceeds its largest finite value. -/
def Overflows (f : Fmt) (rm : Nat) (p : ℚ) : Prop := Reaches rm p (2 ^ (f.bias + 1 : Int)) (2 ^ (f.bias - f.mb : Int))

/-- `p`, rounded so, is below the smallest normal value (R88: underflow is detected after rounding). -/
def Tiny (f : Fmt) (rm : Nat) (p : ℚ) : Prop := ¬Reaches rm p (2 ^ (1 - f.bias : Int)) (2 ^ (-f.bias - f.mb : Int))

/-- `r` is the IEEE 754 result of the exact value `p` (R87, R88): rounded once, with NX when that is inexact and UF when it is tiny
too; or on overflow an infinity, or where the mode rounds the other way the largest finite value, with OF and NX. An
inexact result has the sign of `p`. -/
def Ieee (f : Fmt) (rm : Nat) (p : ℚ) (r : Nat × Nat) : Prop :=
  let toInf := rm = 1 ∨ rm = 2 ∨ (rm = 4 ∧ 0 < p) ∨ (rm = 5 ∧ p < 0)
  (Overflows f rm p →
    (toInf → r = (infOf f (decide (p < 0)), 2 ^ 0 + 2 ^ 2 + 2 ^ 5)) ∧ (¬toInf → r = (maxOf f (decide (p < 0)), 2 ^ 0 + 2 ^ 2))) ∧
  (¬Overflows f rm p → r.1 < 2 ^ f.w ∧ Finite f r.1 ∧ RoundedTo f rm p r.1 ∧ (p ≠ 0 → (2 ^ (f.w - 1) ≤ r.1 ↔ p < 0)) ∧
    (r.2.testBit 0 = true ↔ valOf f r.1 ≠ p) ∧ (r.2.testBit 1 = true ↔ valOf f r.1 ≠ p ∧ Tiny f rm p) ∧ r.2 < 2 ^ 2)

/-- The finite encoding `r` is the square root of `v`, not negative, rounded once (R168). A root is never halfway between two
values of the format it is rounded to. -/
def RoundedRoot (f : Fmt) (rm : Nat) (v : ℚ) (r : Nat) : Prop :=
  let y := valOf f r
  0 ≤ y ∧ ∀ z < 2 ^ f.w, Finite f z → 0 ≤ valOf f z →
    (rm = 1 ∨ rm = 2 → (y < valOf f z → v < ((y + valOf f z) / 2) ^ 2) ∧ (valOf f z < y → ((y + valOf f z) / 2) ^ 2 < v)) ∧
    (rm = 3 ∨ rm = 5 → y ^ 2 ≤ v ∧ (valOf f z ^ 2 ≤ v → valOf f z ≤ y)) ∧
    (rm = 4 → v ≤ y ^ 2 ∧ (v ≤ valOf f z ^ 2 → y ≤ valOf f z))

/-- The magnitude that stochastic rounding gives between two magnitudes of the grid, for the bits `h` drawn (R169). -/
def stochastic (h : Nat) (lo hi m : ℚ) : ℚ := if (h : Int) < ⌊2 ^ 16 * ((m - lo) / (hi - lo))⌋ then hi else lo

/-- An exact value rounded to an integer in the mode `rm`, `h` being the bits drawn for SR (R168, R169). -/
def roundedInt (rm : Nat) (p : ℚ) (h : Nat) : Int :=
  let lo := ⌊p⌋
  match rm with
  | 1 => if 0 ≤ p then ⌊p + 1 / 2⌋ else ⌈p - 1 / 2⌉
  | 2 => if p - lo < 1 / 2 ∨ (p - lo = 1 / 2 ∧ lo % 2 = 0) then lo else lo + 1
  | 3 => if 0 ≤ p then lo else ⌈p⌉
  | 4 => ⌈p⌉
  | 5 => lo
  | _ =>
    let m := ⌊stochastic h ⌊|p|⌋ (⌊|p|⌋ + 1) |p|⌋
    if p < 0 then -m else m

/-- Magnitude `a` of the grid of a format, with no bound above (R168); an encoding below the largest exponent is its index, with
the sign. -/
def gridVal (f : Fmt) (a : Nat) : ℚ :=
  if a < 2 ^ f.mb then a * 2 ^ (1 - f.bias - f.mb : Int) else (a % 2 ^ f.mb + 2 ^ f.mb : Nat) * 2 ^ ((a / 2 ^ f.mb : Nat) - f.bias - f.mb : Int)

/-- The index of the grid magnitude that `p` rounds to in the mode `rm`, `a` being that of the largest not above it and `h` the
bits drawn for SR (R168, R169). -/
def gridIndex (f : Fmt) (rm : Nat) (p : ℚ) (h a : Nat) : Nat :=
  let lo := gridVal f a
  let hi := gridVal f (a + 1)
  let up : Bool := match rm with
    | 1 => decide (lo + hi ≤ 2 * |p|)
    | 2 => decide (lo + hi < 2 * |p| ∨ (lo + hi = 2 * |p| ∧ a % 2 = 1))
    | 3 => false
    | 4 => decide (0 < p)
    | 5 => decide (p < 0)
    | _ => decide (stochastic h lo hi |p| = hi)
  if lo < |p| ∧ up = true then a + 1 else a

/-- `r` is the conversion of `p`, an exact value, to a float format (R168 to R171): rounded once to the grid, with NX when that
is inexact and UF when it is tiny too; beyond the largest finite value that value, with CL and NX, or for the option NS an
infinity, where the mode rounds so, and the NaN of E4M3, with OF and NX. -/
def Converted (f : Fmt) (rm : Nat) (ns : Bool) (p : ℚ) (h : Nat) (r : Cv) : Prop :=
  let top := if f.inf then (2 ^ f.eb - 1) * 2 ^ f.mb else 127
  let sg := if p < 0 then 2 ^ (f.w - 1) else 0
  let toInf := rm = 1 ∨ rm = 2 ∨ rm = 6 ∨ (rm = 4 ∧ 0 < p) ∨ (rm = 5 ∧ p < 0)
  let B : ℚ := 2 ^ (1 - f.bias : Int)
  let U : ℚ := 2 ^ (-f.bias - f.mb : Int)
  let tiny := if rm = 6 then |p| < B ∧ stochastic h (B - U) B |p| ≠ B else Tiny f rm p
  ∀ a, gridVal f a ≤ |p| → |p| < gridVal f (a + 1) →
    let n := gridIndex f rm p h a
    (n < top → r.clip = false ∧ r.bits % 2 ^ (f.w - 1) = n ∧ r.bits < 2 ^ f.w ∧ (p ≠ 0 → r.bits = sg + n) ∧
      (r.flags.testBit 0 = true ↔ gridVal f a ≠ |p|) ∧ (r.flags.testBit 1 = true ↔ gridVal f a ≠ |p| ∧ tiny) ∧ r.flags < 2 ^ 2) ∧
    (top ≤ n → ns = false → r = ⟨sg + (top - 1), 2 ^ 0 + 2 ^ 7, true⟩) ∧
    (top ≤ n → ns = true → f.inf = true → toInf → r = ⟨sg + top, 2 ^ 0 + 2 ^ 2 + 2 ^ 5, false⟩) ∧
    (top ≤ n → ns = true → f.inf = true → ¬toInf → r = ⟨sg + (top - 1), 2 ^ 0 + 2 ^ 2, false⟩) ∧
    (top ≤ n → ns = true → f.inf = false → r = ⟨127, 2 ^ 0 + 2 ^ 2 + 2 ^ 5, false⟩)

/-- An encoding converted to an integer of `lo` to `hi`, with its flags: rounded, and NX when that is inexact; beyond the range
clamped, and a NaN 0, with NV (R88, R170). -/
def toInteger (f : Fmt) (rm x : Nat) (lo hi : Int) (h : Nat) : Int × Nat :=
  match unpack f x with
  | .nan _ => (0, 2 ^ 4)
  | .inf n => (if n then lo else hi, 2 ^ 4)
  | .fin _ _ _ =>
    let z := roundedInt rm (valOf f x) h
    if z < lo then (lo, 2 ^ 4) else if hi < z then (hi, 2 ^ 4) else (z, if (z : ℚ) = valOf f x then 0 else 2 ^ 0)

/-- A NaN encoding of a format with infinities (R88, R159). -/
def isNaN (f : Fmt) (x : Nat) : Bool := decide (x / 2 ^ f.mb % 2 ^ f.eb = 2 ^ f.eb - 1) && decide (x % 2 ^ f.mb ≠ 0)
/-- A signalling NaN. -/
def isSNaN (f : Fmt) (x : Nat) : Bool := isNaN f x && decide (x / 2 ^ (f.mb - 1) % 2 = 0)

/-- An integer that orders the encodings that are not NaNs as their values are ordered; both zeros have 0. -/
def fpKey (f : Fmt) (x : Nat) : Int :=
  if x / 2 ^ (f.w - 1) % 2 = 1 then -((x % 2 ^ (f.w - 1) : Nat) : Int) else ((x % 2 ^ (f.w - 1) : Nat) : Int)

/-- NF of an encoding (R88). -/
def notFinite (f : Fmt) (x : Nat) : Nat := if x / 2 ^ f.mb % 2 ^ f.eb = 2 ^ f.eb - 1 then 2 ^ 5 else 0

/-- The minimum, or the maximum, of two encodings, and its flags (R87, R88): −0 is below +0, and one NaN gives the other
operand. -/
def lesser (f : Fmt) (max : Bool) (x y : Nat) : Nat × Nat :=
  let below := fpKey f x < fpKey f y ∨ (fpKey f x = 0 ∧ fpKey f y = 0 ∧ y < x)
  let r := if isNaN f x = true ∧ isNaN f y = true then quietNaN f
    else if isNaN f x = true then y
    else if isNaN f y = true then x
    else if below ↔ max = false then x else y
  (r, (if isSNaN f x = true ∨ isSNaN f y = true then 2 ^ 4 else 0) + notFinite f r)

/-- A float condition on two encodings, and its flags (R87, R124): a NaN fails all but NE and UNORD; EQ, NE and UNORD are quiet. -/
def compared (f : Fmt) (c : FCond) (x y : Nat) : Bool × Nat :=
  let nan := isNaN f x || isNaN f y
  let sig := if isSNaN f x || isSNaN f y then 2 ^ 4 else 0
  match c with
  | .eq => (!nan && decide (fpKey f x = fpKey f y), sig)
  | .ne => (nan || decide (fpKey f x ≠ fpKey f y), sig)
  | .lt => (!nan && decide (fpKey f x < fpKey f y), if nan then 2 ^ 4 else 0)
  | .le => (!nan && decide (fpKey f x ≤ fpKey f y), if nan then 2 ^ 4 else 0)
  | .unord => (nan, sig)

/-! Random values (R133, R169). -/

/-- mix32 (R133). -/
def mixed (x : Nat) : Nat :=
  let a := x % 2 ^ 32 ^^^ x % 2 ^ 32 / 2 ^ 16
  let b := a * 2146121005 % 2 ^ 32
  let c := (b ^^^ b / 2 ^ 15) * 2221713035 % 2 ^ 32
  c ^^^ c / 2 ^ 16

/-- The random value of element `j` under the key `k`, from SEED and VBASE (R133). -/
def randomAt (seed vbase k j : Nat) : Nat :=
  mixed (vbase + j + seed % 2 ^ 32 + (seed / 2 ^ 32 % 2 ^ 32 ^^^ k % 2 ^ 32) * 2654435769)

/-- The bits that stochastic rounding compares, for a destination code (R169). -/
def drawn (seed vbase code j : Nat) : Nat := randomAt seed vbase (1397882880 + code) j / 2 ^ 16

/-! The vector stream. -/

/-- The sequencer of the acting context stands at the entry `e` (R28). -/
def AtVcp (s : State) (e : Entry) : Prop :=
  s.actor.seq = true ∧ s.ctx.queue.head? = some e ∧ Memory.wf s.ctx.vfile = true ∧ Memory.wf s.ctx.masks = true

/-- As `AtVcp`, with no freeze on its way and nothing in the vector state poisoned. -/
def AtHead (s : State) (e : Entry) : Prop := AtVcp s e ∧ s.actor.stop = none ∧ s.ctx.pvec = [] ∧ s.ctx.pmasks = 0

/-- `s` with the context `u` and the entry at the head complete: it leaves the queue, VSTART is 0, and commands that
followed it follow one entry fewer (R28, R112, R236). -/
def finished (s : State) (u : Ctx) : State :=
  (if s.actor.who = .user then s.updMe fun c => { c with eng := c.eng.map fun g => { g with
      entries := g.entries.map fun e => if e.fr = false ∧ 0 < e.w then { e with w := e.w - 1 } else e } }
   else s).updCtx fun _ => { u with queue := s.ctx.queue.drop 1, vstart := 0 }

/-- `s` with the context `u`, VSTART at `j`. -/
def standsAt (s : State) (u : Ctx) (j : Nat) : State := s.updCtx fun _ => { u with vstart := .ofNat 64 j }

/-- What element `j` from `vs` on takes under a predicate: its result, zero, or nothing (R110). -/
def under (s : State) (p : Pred) (vs : Nat) (f : Nat → Nat) (j : Nat) : Option Nat :=
  if j < vs then none else if p.m = 0 ∨ s.mbit p.m j = true then some (f j) else if p.z then some 0 else none

/-- Elements `j` below `n`, of `w` bits, of the group at `v` hold what `g j` gives, and every other byte of the vector
file reads as before. -/
def Elements (s : State) (u : Ctx) (v : VReg) (w n : Nat) (g : Nat → Option Nat) : Prop :=
  ∀ a, readByte u.vfile a =
    let lo := v.toNat * s.vregBytes
    let j := (a - lo) / (w / 8)
    match if lo ≤ a ∧ j < n then g j else none with
    | some x => .ofNat 8 (x / 256 ^ ((a - lo) % (w / 8)))
    | none => readByte s.ctx.vfile a

/-- Bits `j` below `n` of the mask `m` are what `g j` gives, and every other bit of every mask is as before. -/
def Bits (s : State) (u : Ctx) (m : MReg) (n : Nat) (g : Nat → Option Bool) : Prop :=
  ∀ c, readBit u.masks 0 c =
    let lo := 65536 * m.toNat
    match if lo ≤ c ∧ c - lo < n then g (c - lo) else none with
    | some x => x
    | none => readBit s.ctx.masks 0 c

/-- The flags of `u` are those of the acting context with each flag that `P` names raised (R90). -/
def FlagsAre (s : State) (u : Ctx) (P : Nat → Prop) : Prop :=
  ∀ k < 64, (u.fflags.getLsbD k = true ↔ s.ctx.fflags.getLsbD k = true ∨ P k)

/-- An elementwise instruction: where element `j` goes and how wide it is, its strip width, its predicate, a mask it
reads, the sources of element `j` (register and width), and its result with its flags. -/
structure Lane where
  vd    : VReg
  w     : Nat
  strip : Nat
  p     : Pred
  msk   : MReg
  srcs  : Nat → List (VReg × Nat)
  f     : Nat → Nat × Nat

/-- Element `j` of a b operand: its element, or the scalar captured, at SEW (R110). -/
def bAt (s : State) (e : Entry) (b : BOp) (j : Nat) : Nat :=
  match b with
  | .v r => s.vget r e.sew j
  | .s _ => if e.sew ≤ 64 then e.b.toNat % 2 ^ e.sew else (BitVec.ofInt 128 e.b.toInt).toNat

/-- The vector sources of a b operand. -/
def bSrc (e : Entry) : BOp → List (VReg × Nat)
  | .v r => [(r, e.sew)]
  | .s _ => []

/-- An elementwise instruction at SEW on `va` and `b`. -/
def binLane (s : State) (e : Entry) (d a : VReg) (b : BOp) (p : Pred) (f : Nat → Nat → Nat × Nat) : Option Lane :=
  some { vd := d, w := e.sew, strip := e.sew, p := p, msk := p.m, srcs := fun _ => (a, e.sew) :: bSrc e b,
         f := fun j => f (s.vget a e.sew j) (bAt s e b j) }

/-- The low `w` bits of an integer. -/
def low (w : Nat) (z : Int) : Nat := (z % 2 ^ w).toNat

/-- The elementwise integer instructions (R118, R119, R128, R133, R134). -/
def intLane (s : State) (e : Entry) (i : Instr) : Option Lane :=
  let w := e.sew
  match i with
  | .vadd d a b p => binLane s e d a b p fun x y => ((x + y) % 2 ^ w, 0)
  | .vsub d a b p => binLane s e d a b p fun x y => (low w (x - y), 0)
  | .vand d a b p => binLane s e d a b p fun x y => (x &&& y, 0)
  | .vor d a b p => binLane s e d a b p fun x y => (x ||| y, 0)
  | .vxor d a b p => binLane s e d a b p fun x y => (x ^^^ y, 0)
  | .vsll d a b p => binLane s e d a b p fun x y => (x * 2 ^ (y % w) % 2 ^ w, 0)
  | .vsrl d a b p => binLane s e d a b p fun x y => (x / 2 ^ (y % w), 0)
  | .vsra d a b p => binLane s e d a b p fun x y => (low w (sgn w x / 2 ^ (y % w)), 0)
  | .vmin d a b p => binLane s e d a b p fun x y => (low w (min (sgn w x) (sgn w y)), 0)
  | .vmax d a b p => binLane s e d a b p fun x y => (low w (max (sgn w x) (sgn w y)), 0)
  | .vminu d a b p => binLane s e d a b p fun x y => (min x y, 0)
  | .vmaxu d a b p => binLane s e d a b p fun x y => (max x y, 0)
  | .vmul d a b p => binLane s e d a b p fun x y => (x * y % 2 ^ w, 0)
  | .vmulh d a b p => binLane s e d a b p fun x y => (low w (sgn w x * sgn w y / 2 ^ w), 0)
  | .vmulhu d a b p => binLane s e d a b p fun x y => (x * y / 2 ^ w, 0)
  | .vaddsat d a b p => binLane s e d a b p fun x y =>
      let z := sgn w x + sgn w y
      let h : Int := 2 ^ (w - 1)
      (low w (max (-h) (min (h - 1) z)), if -h ≤ z ∧ z < h then 0 else 2 ^ 7)
  | .vmerge d a b m =>
      some { vd := d, w := w, strip := w, p := ⟨0, false⟩, msk := m
             srcs := fun j => if m = 0 ∨ s.mbit m j = true then [(a, w)] else bSrc e b
             f := fun j => (if m = 0 ∨ s.mbit m j = true then s.vget a w j else bAt s e b j, 0) }
  | .vmv d b p => some { vd := d, w := w, strip := w, p := p, msk := p.m, srcs := fun _ => bSrc e b, f := fun j => (bAt s e b j, 0) }
  | .vclz d a p => binLane s e d a (.s 0) p fun x _ => (if x = 0 then w else w - 1 - Nat.log2 x, 0)
  | .vpopc d a p => binLane s e d a (.s 0) p fun x _ => ((List.range w).countP fun k => x.testBit k, 0)
  | .vidx d p => some { vd := d, w := w, strip := w, p := p, msk := p.m, srcs := fun _ => [], f := fun j => (j % 2 ^ w, 0) }
  | .vrand d _ p => some { vd := d, w := w, strip := w, p := p, msk := p.m, srcs := fun _ => []
                           f := fun j => (randomAt s.ctx.seed.toNat s.ctx.vbase.toNat e.b.toNat j, 0) }
  | _ => none

/-- The rounding mode of a field: its own, or FMODE's when the field is dynamic (R63, R122). -/
def modeAt (s : State) (rm : BitVec 3) : Nat := if rm = 0 then s.ctx.fmode.toNat % 8 else rm.toNat

/-- The elementwise floating-point instructions (R121, R122). -/
def fpLane (s : State) (e : Entry) (i : Instr) : Option Lane :=
  match i with
  | .vfadd f d a b rm p => binLane s e d a b p fun x y => fpAdd (fmtOf f) (modeAt s rm) x y
  | .vfsub f d a b rm p => binLane s e d a b p fun x y => fpSub (fmtOf f) (modeAt s rm) x y
  | .vfmul f d a b rm p => binLane s e d a b p fun x y => fpMul (fmtOf f) (modeAt s rm) x y
  | .vfdiv f d a b rm p => binLane s e d a b p fun x y => fpDiv (fmtOf f) (modeAt s rm) x y
  | .vfsqrt f d a rm p => binLane s e d a (.s 0) p fun x _ => fpSqrt (fmtOf f) (modeAt s rm) x
  | .vfmin f d a b p => binLane s e d a b p fun x y => lesser (fmtOf f) false x y
  | .vfmax f d a b p => binLane s e d a b p fun x y => lesser (fmtOf f) true x y
  | .vfma f d a b rm p => some { vd := d, w := e.sew, strip := e.sew, p := p, msk := p.m, srcs := fun _ => (d, e.sew) :: (a, e.sew) :: bSrc e b
                                 f := fun j => fpFma (fmtOf f) (modeAt s rm) (s.vget d e.sew j) (s.vget a e.sew j) (bAt s e b j) false }
  | .vfnms f d a b rm p => some { vd := d, w := e.sew, strip := e.sew, p := p, msk := p.m, srcs := fun _ => (d, e.sew) :: (a, e.sew) :: bSrc e b
                                  f := fun j => fpFma (fmtOf f) (modeAt s rm) (s.vget d e.sew j) (s.vget a e.sew j) (bAt s e b j) true }
  | .vfabs f d a p => binLane s e d a (.s 0) p fun x _ =>
      let r := x % 2 ^ ((fmtOf f).w - 1)
      (r, notFinite (fmtOf f) r)
  | .vfneg f d a p => binLane s e d a (.s 0) p fun x _ =>
      let r := x ^^^ 2 ^ ((fmtOf f).w - 1)
      (r, notFinite (fmtOf f) r)
  | _ => none

/-- The instruction `i` at VCP runs as the lane `l` says, from VSTART to VL, when no active element raises an enabled flag:
results and flags, and nothing else changes (R110 to R116). -/
def Elementwise (i : Instr) (s : State) (e : Entry) (l : Lane) : Prop :=
  let vs := s.ctx.vstart.toNat
  let act (j : Nat) : Prop := vs ≤ j ∧ j < e.n ∧ (l.p.m = 0 ∨ s.mbit l.p.m j = true)
  AtHead s e → vs < e.n → (∀ j, act j → ¬Enabled s (l.f j).2) →
  ∃ u, exec i s = .next (finished s u) ∧ Elements s u l.vd l.w e.n (under s l.p vs fun j => (l.f j).1) ∧
    FlagsAre s u (fun k => ∃ j, act j ∧ (l.f j).2.testBit k = true) ∧
    { u with vfile := s.ctx.vfile, fflags := s.ctx.fflags } = s.ctx

/-! The push (R25, R64, R75, R109). -/

/-- What the push of a vector instruction checks and captures: the vector registers it names; whether it depends on VTYPE;
what is checked without SEW and G, and with them; the scalars captured as a, b and c. -/
structure PushRule where
  regs  : List VReg := []
  dep   : Bool := true
  early : Bool := true
  late  : Nat → Nat → Bool := fun _ _ => true
  a     : SReg := 0
  b     : SReg := 0
  c     : SReg := 0

/-- Whether a group of `g` registers at `r` is legal: at most NV / 8 registers (one for Mordant), aligned, below NV (R109). -/
def legal (s : State) (r : VReg) (g : Nat) : Bool :=
  decide (g ≤ max 1 (s.nv / 8)) && decide (r.toNat % g = 0) && decide (r.toNat + g ≤ s.nv)

/-- Registers a group for `w`-bit elements takes when `g` registers hold as many elements of SEW (R148, R172). -/
def groupFor (g w sew : Nat) : Nat := max 1 (g * w / sew)

/-- Groups of G registers. -/
def plain (s : State) (rs : List VReg) : PushRule := { regs := rs, late := fun _ g => rs.all fun r => legal s r g }

/-- The scalar of a b operand. -/
def bScalar : BOp → SReg
  | .v _ => 0
  | .s r => r

/-- The vector registers of a b operand. -/
def bRegs : BOp → List VReg
  | .v r => [r]
  | .s _ => []

/-- The rule of an instruction on groups of one float format (R120, R122). -/
def floats (s : State) (f : FFmt) (rs : List VReg) (early : Bool) : PushRule :=
  { regs := rs, early := early, late := fun w g => decide (w = (fmtOf f).w) && rs.all fun r => legal s r g }

/-- A rounding field that is one of RNA to RDN, its own or FMODE's (R64, R122). -/
def rounds (s : State) (rm : BitVec 3) : Bool := decide (1 ≤ modeAt s rm) && decide (modeAt s rm ≤ 5)

/-- Width of a VCVT format code (R158). -/
def widthOf (c : BitVec 4) : Nat := [8, 16, 32, 64, 8, 16, 32, 64, 16, 16, 32, 64, 8, 8].getD c.toNat 8

/-- Width of a quantising format (R174). -/
def qWidth : QFmt → Nat
  | .f32 => 32
  | _ => 16

/-- The width of an index (R148). -/
def ixWidth (iw : IW) (sew : Nat) : Nat :=
  match iw with
  | .sew => sew
  | .w32 => 32
  | .w64 => 64

/-- The rule of the load, store or indexed form `v`, `vi` (R148). -/
def indexed (s : State) (v vi : VReg) (iw : IW) (a : SReg) : PushRule :=
  { regs := [v, vi], late := fun w g => legal s v g && legal s vi (groupFor g (ixWidth iw w) w), a := a }

/-- The rule of an instruction of a user strand alone that names no SEW. -/
def strandOnly (s : State) : PushRule := { dep := false, early := !s.isM }

/-- The rule of a tile instruction that depends on VTYPE (R194). -/
def tiled (s : State) (rs groups : List VReg) (sew : Option Nat) (c : SReg) : PushRule :=
  { regs := rs, early := !s.isM, late := fun w g => (groups.all fun r => legal s r g) && (sew = none || sew = some w), c := c }

/-- The rule of a packed product (R188): `k` is the destination group in units of G. -/
def packed (s : State) (vd va vb : VReg) (k : Nat) : PushRule :=
  { regs := [vd, va, vb], early := !s.isM, late := fun _ g => legal s vd (k * g) && legal s va g && legal s vb g }

/-- The rules of the vector instructions, but for VSETVL and VSETVLI. -/
def pushRule (s : State) (i : Instr) : Option PushRule :=
  match i with
  | .lmcfg a => some { strandOnly s with a := a }
  | .flset _ a => some { strandOnly s with a := a }
  | .flget _ _ => some (strandOnly s)
  | .tabld c => some { strandOnly s with c := c }
  | .vadd d a b _ | .vsub d a b _ | .vand d a b _ | .vor d a b _ | .vxor d a b _ | .vsll d a b _ | .vsrl d a b _
  | .vsra d a b _ | .vmin d a b _ | .vmax d a b _ | .vminu d a b _ | .vmaxu d a b _ | .vmul d a b _ | .vmulh d a b _
  | .vmulhu d a b _ | .vaddsat d a b _ | .vmerge d a b _ => some { plain s (d :: a :: bRegs b) with b := bScalar b }
  | .vmv d b _ => some { plain s (d :: 0 :: bRegs b) with b := bScalar b }
  | .vfadd f d a b rm _ | .vfsub f d a b rm _ | .vfmul f d a b rm _ | .vfdiv f d a b rm _ | .vfma f d a b rm _
  | .vfnms f d a b rm _ => some { floats s f (d :: a :: bRegs b) (rounds s rm) with b := bScalar b }
  | .vfsqrt f d a rm _ => some (floats s f [d, a] (rounds s rm))
  | .vfmin f d a b _ | .vfmax f d a b _ => some { floats s f (d :: a :: bRegs b) true with b := bScalar b }
  | .vfabs f d a _ | .vfneg f d a _ => some (floats s f [d, a] true)
  | .vcmp _ _ a b _ => some { plain s (a :: bRegs b) with b := bScalar b }
  | .vfcmp _ f _ a b _ => some { floats s f (a :: bRegs b) true with b := bScalar b }
  | .mand _ _ _ | .mor _ _ _ | .mxor _ _ _ | .mandn _ _ _ | .mnot _ _ | .mset _ | .mclr _ | .mpopc _ _ | .mfirst _ _ => some {}
  | .mtov d _ => some (plain s [d])
  | .vtom _ a => some (plain s [a])
  | .vcompress d a _ | .vexpand d a _ | .vrev d a _ | .vclz d a _ | .vpopc d a _ => some (plain s [d, a])
  | .vslideup d a b _ | .vslidedn d a b _ | .vbcast d a b _ => some { plain s [d, a] with b := b }
  | .vpick d a b _ => some (plain s [d, a, b])
  | .vextr _ a b => some { plain s [a] with b := b }
  | .vins d a b => some { plain s [d] with a := a, b := b }
  | .vidx d _ => some (plain s [d])
  | .vredsum d a b _ | .vredmax d a b _ | .vredmin d a b _ | .vredmaxu d a b _ | .vredminu d a b _ | .vredor d a b _
  | .vredand d a b _ => some (plain s [d, a, b])
  | .vfredsumO f d a b rm _ | .vfredsumF f d a b rm _ => some (floats s f [d, a, b] (rounds s rm))
  | .vfredmax f d a b _ | .vfredmin f d a b _ => some (floats s f [d, a, b] true)
  | .vconflict _ a _ => some (plain s [a])
  | .vrand d b _ => some { regs := [d], late := fun w g => decide (w = 32) && legal s d g, b := b }
  | .vld v a _ _ _ | .vst v a _ _ _ => some { plain s [v] with a := a }
  | .vlds v a b _ _ _ | .vsts v a b _ _ _ => some { plain s [v] with a := a, b := b }
  | .vld2 v a b c _ _ _ | .vst2 v a b c _ _ _ | .vsld v a b c _ _ _ => some { plain s [v] with a := a, b := b, c := c }
  | .vgath v a vi _ _ iw _ _ | .vgathO v a vi _ _ iw _ _ | .vscat v a vi _ _ iw _ _ | .vscatO v a vi _ _ iw _ _
  | .vgl v a vi _ iw _ _ | .vscc v a vi _ iw _ _ _ => some (indexed s v vi iw a)
  | .vrred op src v a vs _ _ =>
      some { regs := [v, vs], early := decide (op = .fadd ∨ src = .w32), a := a
             late := fun w g => decide (w = match src with | .w32 => 32 | .c4 => 8 | _ => 16) && legal s v g &&
               (decide (src ≠ .c4) || decide (s.ctx.vl.toNat % 48 = 0)) }
  | .vrestore v a b _ _ f32 | .vstash v a b _ _ f32 _ =>
      some { regs := [v], early := !s.isM && decide (s.ctx.vl.toNat % 64 = 0), a := a, b := b
             late := fun w g => decide (w = if f32 then 32 else 16) && legal s v g }
  | .vcvt src dst d a rm _ _ =>
      some { regs := [d, a], early := decide (src.toNat < 8 ∧ dst.toNat < 8) || decide (rm = 6) || rounds s rm
             late := fun w g => decide (w = widthOf src) && legal s a g && legal s d (groupFor g (widthOf dst) (widthOf src)) }
  | .vq4 _ f del d a vc c _ =>
      some { regs := [d, a, vc], c := c, early := decide (s.ctx.vl.toNat % 48 = 0)
             late := fun w g => decide (w = qWidth f) && legal s a g && legal s d (groupFor g 4 w) &&
               (!del || decide ((s.rd c).toNat ≤ 62)) }
  | .vdq4 f d a vc rm _ =>
      some { regs := [d, a, vc], early := rounds s rm && decide (s.ctx.vl.toNat % 48 = 0)
             late := fun w g => decide (w = qWidth f) && legal s d g && legal s a (groupFor g 4 w) }
  | .vqt8 f d a vc _ =>
      some { regs := [d, a, vc], late := fun w g => decide (w = qWidth f) && legal s a g && legal s d (groupFor g 8 w) }
  | .vdt8 f d a vc rm _ =>
      some { regs := [d, a, vc], early := rounds s rm
             late := fun w g => decide (w = qWidth f) && legal s d g && legal s a (groupFor g 8 w) }
  | .vabsmax _ f d a => some { regs := [d, a], late := fun w g => decide (w = qWidth f) && legal s a g }
  | .vpmulLo d a b _ _ | .vpmulHi d a b _ _ | .vpfld d a b _ _ _ | .vpsplit d a b _ _ => some (packed s d a b 1)
  | .vpmac d a b _ _ => some (packed s d a b 2)
  | .vpack _ d a _ _ => some { regs := [d, a], early := !s.isM, late := fun _ g => legal s d g }
  | .vpunpk _ d a _ _ => some { regs := [d, a], early := !s.isM, late := fun _ g => legal s a g }
  | .tcfg _ c | .tsave _ c | .tloadt _ c => some { strandOnly s with c := c }
  | .tzero _ | .tfree _ => some (strandOnly s)
  | .topO _ a b c vc vs | .topF _ a b c vc vs => some (tiled s [a, b, vc, vs] [a, b] none c)
  | .trd _ bf v c _ | .twr _ bf v c _ => some (tiled s [v] [v] (some (if bf then 16 else 32)) c)
  | _ => none

/-! Masks, permutes and reductions. -/

/-- The compares (R123, R124): the mask, the predicate, and bit `j` with its flags. -/
def cmpLane (s : State) (e : Entry) (i : Instr) : Option (MReg × Pred × (Nat → Bool × Nat)) :=
  let w := e.sew
  match i with
  | .vcmp cc md a b p => some (md, p, fun j =>
      let x := s.vget a w j
      let y := bAt s e b j
      (match cc with
        | .eq => decide (x = y)
        | .ne => decide (x ≠ y)
        | .lt => decide (sgn w x < sgn w y)
        | .le => decide (sgn w x ≤ sgn w y)
        | .ltu => decide (x < y)
        | .leu => decide (x ≤ y), 0))
  | .vfcmp cc f md a b p => some (md, p, fun j =>
      compared (fmtOf f) cc (s.vget a w j) (bAt s e b j))
  | _ => none

/-- Whether element `j` is active under a mask field (R110). -/
def on (s : State) (m : MReg) (j : Nat) : Bool := decide (m = 0) || s.mbit m j

/-- The whole-vector instructions that write a mask (R125, R132). -/
def maskWhole (s : State) (e : Entry) (i : Instr) : Option (MReg × (Nat → Option Bool)) :=
  match i with
  | .mand d a b => some (d, fun j => some (s.mbit a j && s.mbit b j))
  | .mor d a b => some (d, fun j => some (s.mbit a j || s.mbit b j))
  | .mxor d a b => some (d, fun j => some (xor (s.mbit a j) (s.mbit b j)))
  | .mandn d a b => some (d, fun j => some (s.mbit a j && !s.mbit b j))
  | .mnot d a => some (d, fun j => some (!s.mbit a j))
  | .mset d => some (d, fun _ => some true)
  | .mclr d => some (d, fun _ => some false)
  | .vtom d a => some (d, fun j => some (decide (s.vget a e.sew j ≠ 0)))
  | .vconflict d a p => some (d, fun j =>
      if on s p.m j then some (decide (∃ k < j, on s p.m k = true ∧ s.vget a e.sew k = s.vget a e.sew j))
      else if p.z then some false else none)
  | _ => none

/-- Elements a register group holds at most, as an entry captured it (R34, R67). -/
def maxAt (s : State) (e : Entry) : Nat := 2 ^ (e.vtype.toNat / 8 % 4) * s.vregBytes / (e.sew / 8)

/-- The permutes and MTOV (R125, R128): the group written, and what element `j` takes. -/
def permLane (s : State) (e : Entry) (i : Instr) : Option (VReg × (Nat → Option Nat)) :=
  let w := e.sew
  let k := e.b.toNat
  match i with
  | .mtov d a => some (d, fun j => some (if s.mbit a j then 1 else 0))
  | .vcompress d a p => some (d, fun j =>
      match ((List.range e.n).filter (on s p.m))[j]? with
      | some q => some (s.vget a w q)
      | none => if p.z then some 0 else none)
  | .vexpand d a p => some (d, under s p 0 fun j => s.vget a w ((List.range j).countP (on s p.m)))
  | .vslideup d a _ p => some (d, under s p k fun j => s.vget a w (j - k))
  | .vslidedn d a _ p => some (d, under s p 0 fun j => if j + k < e.n then s.vget a w (j + k) else 0)
  | .vpick d a b p => some (d, under s p 0 fun j => if s.vget b w j < maxAt s e then s.vget a w (s.vget b w j) else 0)
  | .vbcast d a _ p => some (d, under s p 0 fun _ => if k < maxAt s e then s.vget a w k else 0)
  | .vrev d a p => some (d, under s p 0 fun j => s.vget a w (e.n - 1 - j))
  | _ => none

/-- The active elements of a group, in order. -/
def actives (s : State) (e : Entry) (a : VReg) (m : MReg) : List Nat :=
  ((List.range e.n).filter (on s m)).map (s.vget a e.sew)

/-- The integer reductions (R130): where the result goes, and the result. -/
def intReduction (s : State) (e : Entry) (i : Instr) : Option (VReg × Nat) :=
  let w := e.sew
  let fold (d a b : VReg) (m : MReg) (f : Nat → Nat → Nat) : Option (VReg × Nat) :=
    some (d, (actives s e a m).foldl f (s.vget b w 0))
  match i with
  | .vredsum d a b m => some (d, (s.vget b w 0 + (actives s e a m).sum) % 2 ^ w)
  | .vredmax d a b m => fold d a b m fun x y => low w (max (sgn w x) (sgn w y))
  | .vredmin d a b m => fold d a b m fun x y => low w (min (sgn w x) (sgn w y))
  | .vredmaxu d a b m => fold d a b m max
  | .vredminu d a b m => fold d a b m min
  | .vredor d a b m => fold d a b m fun x y => x ||| y
  | .vredand d a b m => fold d a b m fun x y => x &&& y
  | _ => none

/-- A float reduction that takes its elements one at a time (R131): the result, and the flags of each step with NF only
for the result. -/
def stepwise (F : Fmt) (op : Nat → Nat → Nat × Nat) (x : Nat) (xs : List Nat) : Nat × Nat :=
  let r := xs.foldl (fun (a : Nat × Nat) y => ((op a.1 y).1, a.2 ||| (op a.1 y).2 % 2 ^ 5)) (x, 0)
  (r.1, r.2 ||| notFinite F r.1)

/-- A whole-vector instruction that raises the flags `fl`: it completes as `P` says; with one of them enabled it writes
nothing and traps FPX (R112, R116). -/
def Whole (i : Instr) (s : State) (fl : Nat) (P : Ctx → Prop) : Prop :=
  (¬Enabled s fl → ∃ u, exec i s = .next (finished s u) ∧ FlagsAre s u (fun k => fl.testBit k = true) ∧ P u) ∧
  (Enabled s fl → ∃ u, exec i s = .next ((standsAt s u 0).vtrap 0x0E fl) ∧ FlagsAre s u (fun k => fl.testBit k = true) ∧
    { u with fflags := s.ctx.fflags } = s.ctx)

/-! Formats (R158 to R164). -/

/-- The flags of elements below `n`. -/
def flagsBelow (n : Nat) (f : Nat → Nat × Nat) : Nat := (List.range n).foldl (fun a j => a ||| (f j).2) 0

/-- Nibble `j` of a group (R161). -/
def nibbleAt (s : State) (v : VReg) (j : Nat) : Nat := s.vget v 8 (j / 2) / 16 ^ (j % 2) % 16

/-- The largest magnitude of a block in its format: the canonical NaN where it holds a NaN (R179). -/
def blockMax (f : Fmt) (xs : List Nat) : Nat :=
  if ∃ x ∈ xs, isNaN f x = true then quietNaN f
  else xs.foldl (fun m x => max m (x % 2 ^ (f.w - 1))) 0

/-- Elements of block `b`, of `len` elements, of a group of `w`-bit elements that holds `n`. -/
def blockOf (s : State) (v : VReg) (w n len b : Nat) : List Nat :=
  (List.range (min len (n - len * b))).map fun j => s.vget v w (len * b + j)

/-- The grid value of a C4 code under a type (R163). -/
def gridOf (t code : Nat) : ℚ :=
  let sg : ℚ := if code / 8 % 2 = 1 then -1 else 1
  match t with
  | 0 => if code % 16 < 8 then (code % 16 : Nat) else (code % 16 : Nat) - 16
  | 1 => sg * ([0, 1 / 2, 1, 3 / 2, 2, 3, 4, 6].getD (code % 8) 0)
  | 2 => sg * (if code % 8 = 0 then 0 else 2 ^ ((code % 8 : Int) - 4))
  | _ => sg * ([0, 1, 2, 3, 4, 6, 8, 12].getD (code % 8) 0)

/-- M+ of a type, and M− (R163). -/
def gridMax (t : Nat) (neg : Bool) : ℚ :=
  match t with
  | 0 => if neg then 8 else 7
  | 1 => 6
  | 2 => 8
  | _ => 12

/-! Packed arithmetic (R182 to R189). -/

/-- `ds` are pitch-P digits of one sign rule. -/
def areDigits (sg : Bool) (p : Nat) (ds : List Int) : Prop :=
  ∀ d ∈ ds, if sg then -(2 ^ (p - 1) : Int) ≤ d ∧ d < 2 ^ (p - 1) else 0 ≤ d ∧ d < 2 ^ p

/-- Σ d_k × 2^(kP). -/
def atPitch (p : Nat) : List Int → Int
  | [] => 0
  | d :: r => d + 2 ^ p * atPitch p r

/-- `as` are the K fields of the operand `x` (R185). -/
def areFields (l : Layout) (sg : Bool) (x : Int) (as : List Int) : Prop :=
  as.length = l.k ∧ atPitch l.p as = x ∧ areDigits sg l.p (as.take (l.k - 1))

/-- S_c of two lists of fields (R185). -/
def sumAt (as bs : List Int) (c : Nat) : Int :=
  ((List.range (c + 1)).map fun j => as.getD j 0 * bs.getD (c - j) 0).sum

/-- The word, among the K of an element, that field `k` of a side is (R189). -/
def wordIx (l : Layout) (b : Bool) (k : Nat) : Nat := if b = true ∧ l.rv = true then l.k - 1 - k else k

/-! How the other elementwise instructions stop. -/

/-- An elementwise instruction that writes a mask, several groups, or counts: the width its strips go by, its predicate, what element `j`
reads (register, width and element there), the flags of element `j`, whether it overflows under the policy that traps (R187), and what
holds of the context once just the elements below `j` are done. -/
structure Course where
  strip : Nat
  p     : Pred
  srcs  : Nat → List (VReg × Nat × Nat)
  fl    : Nat → Nat
  ovf   : Nat → Prop
  done  : Ctx → Nat → Prop

/-- The sources of a b operand at element `j`. -/
def bSrcAt (e : Entry) (b : BOp) (j : Nat) : List (VReg × Nat × Nat) := (bSrc e b).map fun x => (x.1, x.2, j)

/-- The course of a compare (R123, R124). -/
def cmpCourse (s : State) (e : Entry) (i : Instr) (a : VReg) (b : BOp) : Option Course :=
  (cmpLane s e i).map fun (m, p, f) => {
    strip := e.sew, p, srcs := fun j => (a, e.sew, j) :: bSrcAt e b j, fl := fun j => (f j).2, ovf := fun _ => False
    done := fun u n => { u with masks := s.ctx.masks, fflags := s.ctx.fflags } = s.ctx ∧
      Bits s u m n fun j => if j < s.ctx.vstart.toNat then none else if on s p.m j then some (f j).1 else if p.z then some false else none }

/-- The course of a VCVT (R173), with what it counts (R171). -/
def cvtCourse (s : State) (src dst : BitVec 4) (vd va : VReg) (rm : BitVec 3) (ns : Bool) (p : Pred) : Course :=
  let vs := s.ctx.vstart.toNat
  let r (j : Nat) := convertElem src.toNat dst.toNat (modeAt s rm) ns (s.vget va (widthOf src) j)
    (drawn s.ctx.seed.toNat s.ctx.vbase.toNat dst.toNat j)
  let act (j : Nat) : Bool := decide (vs ≤ j) && on s p.m j
  let counts (n : Nat) (g : Nat → Bool) : Dword := if dst = 12 ∨ dst = 13 then .ofNat 64 ((List.range n).countP g) else 0
  { strip := max (widthOf src) (widthOf dst), p, srcs := fun j => [(va, widthOf src, j)], fl := fun j => (r j).flags, ovf := fun _ => False
    done := fun u n => Elements s u vd (widthOf dst) n (under s p vs fun j => (r j).bits) ∧
      { u with vfile := s.ctx.vfile, fflags := s.ctx.fflags, pvec := s.ctx.pvec } =
        { s.ctx with qcnt := s.ctx.qcnt + counts n act, clipcnt := s.ctx.clipcnt + counts n fun j => act j && (r j).clip } }

/-- The courses of the packed instructions under the layout `l` (R187, R189). -/
def packedCourse (s : State) (e : Entry) (l : Layout) (i : Instr) : Option Course :=
  let vs := s.ctx.vstart.toNat
  let only (u : Ctx) : Prop := { u with vfile := s.ctx.vfile, fflags := s.ctx.fflags, pvec := s.ctx.pvec } = s.ctx
  let product (va vb : VReg) (p : Pred) (w : Nat) (own : List (VReg × Nat)) (done : Ctx → Nat → (Nat → Joined) → Prop) : Option Course :=
    let r (j : Nat) := joined l (s.vget va l.cw j) (s.vget vb l.cw j)
    some { strip := w, p, srcs := fun j => (va, l.cw, j) :: (vb, l.cw, j) :: own.map fun x => (x.1, x.2, j)
           fl := fun j => if (r j).ovf = true ∧ l.ov = 1 then 2 ^ 6 else 0, ovf := fun j => l.ov = 2 ∧ (r j).ovf = true
           done := fun u n => only u ∧ done u n r }
  let move (p : Pred) (srcs : Nat → List (VReg × Nat × Nat)) (fl : Nat → Nat) (done : Ctx → Nat → Prop) : Option Course :=
    some { strip := max l.cw (32 * l.k), p, srcs, fl, ovf := fun _ => False, done := fun u n => only u ∧ done u n }
  let sg (side : Bool) : Bool := if side then l.sb else l.sa
  match i with
  | .vpmulLo vd va vb _ p => product va vb p l.cw [] fun u n r => Elements s u vd l.cw n (under s p vs fun q => low l.cw (r q).prod)
  | .vpmulHi vd va vb _ p => product va vb p l.cw [] fun u n r =>
      Elements s u vd l.cw n (under s p vs fun q => low l.cw ((r q).prod / 2 ^ l.cw))
  | .vpfld vd va vb _ ix p => if ix.toNat ≤ 2 * l.k - 2 then product va vb p l.cw [] fun u n r =>
      Elements s u vd l.cw n (under s p vs fun q => low l.cw ((r q).f.getD ix.toNat 0)) else none
  | .vpsplit vd va vb _ p =>
      if vd.toNat + (2 * l.k - 1) * 2 ^ (e.vtype.toNat / 8 % 4) ≤ s.nv then product va vb p l.cw [] fun u n r =>
        let m := maxAt s e
        e.n ≤ m → Elements s u vd l.cw ((2 * l.k - 1) * m) fun c =>
          if c % m < n then under s p vs (fun q => low l.cw ((r q).f.getD (c / m) 0)) (c % m) else none
      else none
  | .vpmac vd va vb _ p => if l.cw = 64 then product va vb p 128 [(vd, 128)] fun u n r =>
      Elements s u vd 128 n (under s p vs fun q => low 128 (s.vget vd 128 q + (r q).prod)) else none
  | .vpack side vd va _ p => if wordOk s va e l then
      let word (q k : Nat) : Int := let x := s.vget va 32 (q * l.k + wordIx l side k); if sg side then sgn 32 x else x
      let wx := if side then l.wb else l.wa
      let top : Int := if sg side then 2 ^ (wx - 1) - 1 else 2 ^ wx - 1
      let bot : Int := if sg side then -2 ^ (wx - 1) else 0
      move p (fun q => (List.range l.k).map fun k => (va, 32, q * l.k + wordIx l side k))
        (fun q => if (List.range l.k).all fun k => decide (bot ≤ word q k) && decide (word q k ≤ top) then 0 else 2 ^ 7)
        fun u n => Elements s u vd l.cw n (under s p vs fun q =>
          low l.cw (atPitch l.p ((List.range l.k).map fun k => max bot (min top (word q k)))))
      else none
  | .vpunpk side vd va _ p => if wordOk s vd e l then
      move p (fun q => [(va, l.cw, q)]) (fun _ => 0) fun u n => ∀ ds : Nat → List Int,
        (∀ q, (ds q).length = l.k ∧ areDigits (sg side) l.p (ds q) ∧
          ∃ m : Int, (if sg side then sgn l.cw (s.vget va l.cw q) else s.vget va l.cw q) = atPitch l.p (ds q) + m * 2 ^ (l.k * l.p)) →
        Elements s u vd 32 (n * l.k) fun c => under s p vs (fun q => low 32 ((ds q).getD (wordIx l side (c % l.k)) 0)) (c / l.k)
      else none
  | _ => none

/-- The layout register a packed instruction names. -/
def layoutReg : Instr → Option (BitVec 3)
  | .vpmulLo _ _ _ k _ | .vpmulHi _ _ _ k _ | .vpfld _ _ _ k _ _ | .vpsplit _ _ _ k _ | .vpmac _ _ _ k _ => some k
  | .vpack _ _ _ k _ | .vpunpk _ _ _ k _ => some k
  | _ => none

/-- The course of a compare, a conversion or, on a strand, a packed instruction whose layout is valid, clean and fits. -/
def courseOf (s : State) (e : Entry) (i : Instr) : Option Course :=
  match i with
  | .vcmp _ _ a b _ | .vfcmp _ _ _ a b _ => cmpCourse s e i a b
  | .vcvt src dst vd va rm ns p => some (cvtCourse s src dst vd va rm ns p)
  | _ => match layoutReg i, s.strand? with
    | some k, some st =>
      let l := layoutOf st.fl[k.toFin].toNat
      if s.actor.who = .user ∧ st.nv ∈ [8, 16, 32, 64] ∧ st.pfl.getLsbD k.toNat = false ∧ l.ok = true ∧ e.sew = l.cw then
        packedCourse s e l i else none
    | _, _ => none

/-! Vector memory (R148 to R156, R251 to R256, R282 to R285). -/

/-- The accesses of the elements from `vs` to `n` that `act` names, in increasing order, all perform from `s` on: `st j`
is the state before element `j`, `v j` and `ver j` the value and the version its access gives. -/
def Chain (s : State) (act : Nat → Bool) (acc : Nat → State → Acc) (vs n : Nat) (st : Nat → State) (v : Nat → Nat)
    (ver : Nat → Dword) : Prop :=
  st vs = s ∧ ∀ j, vs ≤ j → j < n →
    if act j = true then acc j (st j) = .ok (st (j + 1)) (v j) (ver j) else st (j + 1) = st j

/-- A load or store: its data group, its predicate, its hint, whether it may reach a FIFO port, the address of element `j`
(R149), the index group that this reads, and whether its elements can run at all. -/
structure MemLane where
  v    : VReg
  p    : Pred
  hint : Nat
  fifo : Bool
  ea   : Nat → Nat
  ix   : List (VReg × Nat) := []
  runs : Bool := true

/-- Hint codes (R154). -/
def hintCode : Hint → Nat
  | .none => 0
  | .strm => 1
  | .unc => 2

/-- base (R148). -/
def baseAt (e : Entry) (k : BitVec 16) : Nat := (e.a.toNat + (k.signExtend 64).toNat) % 2 ^ 64
/-- Whether an address lies in the FIFO ports (R142). -/
def atPort (a : Nat) : Bool := decide (0x7FFF00F00000 ≤ a) && decide (a < 0x7FFF00F00800)

/-- The address of element `j` of the unit form (R149). -/
def unitAt (e : Entry) (k : BitVec 16) (j : Nat) : Nat :=
  if atPort (baseAt e k) then baseAt e k else (baseAt e k + j * (e.sew / 8)) % 2 ^ 64
/-- The strided form. -/
def strideAt (e : Entry) (k : BitVec 16) (j : Nat) : Nat := low 64 (baseAt e k + j * e.b.toInt)
/-- The two-dimensional form. -/
def columnAt (e : Entry) (k : BitVec 16) (j : Nat) : Nat :=
  low 64 (baseAt e k + (j % e.c.toNat : Nat) * e.b.toInt + (j / e.c.toNat * (e.sew / 8) : Nat))
/-- The indexed forms. -/
def indexAt (s : State) (e : Entry) (k : BitVec 16) (vi : VReg) (iw : IW) (x : Bool) (j : Nat) : Nat :=
  (baseAt e k + s.vget vi (ixWidth iw e.sew) j * (if x then e.sew / 8 else 1)) % 2 ^ 64

/-- The loads (R148, R149). -/
def loadLane (s : State) (e : Entry) (i : Instr) : Option MemLane :=
  match i with
  | .vld v _ k h p => some { v := v, p := p, hint := hintCode h, fifo := atPort (baseAt e k), ea := unitAt e k }
  | .vlds v _ _ k h p => some { v := v, p := p, hint := hintCode h, fifo := false, ea := strideAt e k }
  | .vld2 v _ _ _ k h p => some { v := v, p := p, hint := hintCode h, fifo := false, ea := columnAt e k, runs := decide (e.c ≠ 0) }
  | .vgath v _ vi k h iw x p => some { v := v, p := p, hint := hintCode h, fifo := false, ea := indexAt s e k vi iw x, ix := [(vi, ixWidth iw e.sew)] }
  | .vgathO v _ vi k h iw x p => some { v := v, p := p, hint := hintCode h, fifo := false, ea := indexAt s e k vi iw x, ix := [(vi, ixWidth iw e.sew)] }
  | _ => none

/-- The stores (R148, R149). -/
def storeLane (s : State) (e : Entry) (i : Instr) : Option MemLane :=
  match i with
  | .vst v _ k h p => some { v := v, p := p, hint := hintCode h, fifo := atPort (baseAt e k), ea := unitAt e k }
  | .vsts v _ _ k h p => some { v := v, p := p, hint := hintCode h, fifo := false, ea := strideAt e k }
  | .vst2 v _ _ _ k h p => some { v := v, p := p, hint := hintCode h, fifo := false, ea := columnAt e k, runs := decide (e.c ≠ 0) }
  | .vscat v _ vi k h iw x p => some { v := v, p := p, hint := hintCode h, fifo := false, ea := indexAt s e k vi iw x, ix := [(vi, ixWidth iw e.sew)] }
  | .vscatO v _ vi k h iw x p => some { v := v, p := p, hint := hintCode h, fifo := false, ea := indexAt s e k vi iw x, ix := [(vi, ixWidth iw e.sew)] }
  | _ => none

/-- The alignment of an access of `n` bytes (R152): its size, and at most 16. -/
def aligned (ea n : Nat) : Prop := ea % min n 16 = 0

/-- The acting strand with its link set; Mordant has none. -/
def withLinks (s : State) (ls : List (Nat × Nat × Dword)) : State :=
  if s.actor.who = .user then s.updStrand fun y => { y with links := ls } else s

/-- The link set of the acting strand, empty for Mordant. -/
def linksOf (s : State) : List (Nat × Nat × Dword) := match s.actor.who, s.strand? with
  | .user, some y => y.links
  | _, _ => []

/-- What a link set holds for element `j` (R252). -/
def linkOf (ls : List (Nat × Nat × Dword)) (j : Nat) : Option (Nat × Dword) := (ls.find? fun x => x.1 = j).map (·.2)

/-- The value of source element `j` of VRRED (R256). -/
def redSource (s : State) (src : RedSrc) (v vs : VReg) (j : Nat) : FV :=
  match src with
  | .w32 => unpack fmt32 (s.vget v 32 j)
  | .bf16 => unpack fmtB16 (s.vget v 16 j)
  | .f16 => unpack fmt16 (s.vget v 16 j)
  | .c4 => c4Val (s.vget vs 8 (j / 48)) (nibbleAt s v j)

/-- The format of Sepia data (R283). -/
def sepiaFmt (f32 : Bool) : Fmt := if f32 then fmt32 else fmtB16

/-! The tile array (R192 to R208). -/

/-- A tile of a strand. -/
def tileOf (y : Strand) (z : BitVec 1) : Tile := if z = 0 then y.z0 else y.z1
/-- The acting strand with a tile replaced. -/
def withTileSet (s : State) (z : BitVec 1) (t : Tile) : State :=
  s.updStrand fun y => if z = 0 then { y with z0 := t } else { y with z1 := t }

/-- An element of a tile by its bytes (R206): `j` = 256m + n. -/
def elemAt (t : Tile) (j : Nat) : Nat := readN t.data (10 * j) 10

/-- The units of `u` steps of a TOP over steps `k0` to `n` (R200). -/
def unitsOf (u k0 n : Nat) : List (Nat × Nat) :=
  ((List.range ((n + u - 1) / u)).filter fun i => decide (k0 < (i + 1) * u)).map fun i => (max k0 (i * u), min ((i + 1) * u) n)

/-- What one element takes from the units of a TOP (R200): its value, and the flags raised. -/
def topElem (x : Nat) (prods : Nat → FV × FV) (us : List (Nat × Nat)) : Nat × Nat :=
  us.foldl (fun a u =>
    let q := xsum ((List.range (u.2 - u.1)).map fun i => prods (u.1 + i))
    let r := a80Add a.1 q.1
    (r.1, a.2 ||| q.2 ||| r.2)) (x, 0)

/-- The value of a finite A80 encoding (R165). -/
def a80Rat (x : Nat) : ℚ := sgn 64 x * 2 ^ ((x / 2 ^ 64 % 2 ^ 16 : Int) - 16445)

/-! What comes from outside a strand. -/

/-- `t` is `s` but for partition `part`, which is `y` in it. -/
def PartIs (s t : State) (part : Nat) (y : Partition) : Prop :=
  { t with parts := s.parts } = s ∧ t.part? part = some y ∧ ∀ q, q ≠ part → t.part? q = s.part? q

/-- `i` makes partition `part` into `y`, and does nothing else. -/
def Makes (i : Instr) (s : State) (part : Nat) (y : Partition) : Prop := ∃ t, exec i s = .next t ∧ PartIs s t part y

/-- A partition with launch `l` changed. -/
def withLaunch (p : Partition) (l : Nat) (f : Launch → Launch) : Partition :=
  { p with launches := p.launches.map fun z => if z.id = l then f z else z }

/-- A partition with launch `l` forgotten. -/
def withoutLaunch (p : Partition) (l : Nat) : Partition := { p with launches := p.launches.filter fun z => z.id ≠ l }

/-- The counter addresses of a completion (R41, R296): launch, graph, job. -/
def counters (x : Launch) : List Dword := [x.field 0x40, x.field 0x48, x.field 0x50].filter fun a => a.toNat % 8 = 0

/-- The increments of a completion from `s` on, in order, each one access that performs, with neither an error of the
queue nor poison of its ERR in the way (R41, R294, R326): `t` is the state after them. -/
def Counts (p : Partition) (x : Launch) (mark : Bool) : List Dword → State → State → Prop
  | [], s, t => t = s
  | a :: r, s, t =>
    if a = 0 then Counts p x mark r s t
    else (p.descOk x.q = true → descRead s p x.q 0x20 = 0 ∧ s.poisonedAt (p.descKey x.q 0x20) 8 = false) ∧ ∃ v u,
      schedAccess s p x.ptb a.toNat (some fun old => (if mark = true ∨ old.testBit 63 = true then 2 ^ 63 else 0) + (old % 2 ^ 63 + 1) % 2 ^ 63) =
        .ok (v, u) ∧ Counts p x mark r u t

/-- A page of memory has a present line that another CMP filled (R214 step 8). -/
def OtherClass (s : State) (key : Nat) : Prop := ∃ y ∈ s.l2, key ≤ y.line ∧ y.line < key + 65536 ∧ y.cmp ≠ 0

/-- What a queue image from `off` holds of the entries `q`, but their codes (R225). -/
def QueueHeld (m : Bytes) (off : Nat) (q : List Entry) (vstart : Dword) : Prop :=
  ∀ (i : Nat) (e : Entry), q[i]? = some e → ∀ y ∈ [(0x08, e.pc), (0x10, e.a), (0x18, e.b), (0x20, e.c), (0x28, e.vl), (0x30, e.vtype),
    (0x38, if i = 0 then vstart else 0)], readN m (off + 64 * i + y.1) 8 = y.2.toNat

/-- The code of each entry as it is written: the head, then the tail (R225). -/
def Coded (m : Bytes) (off : Nat) (q : List Entry) : Prop :=
  ∀ (i : Nat) (e : Entry) (h t : Nat), q[i]? = some e → encode e.ins = some (h, t) → h < 2 ^ 16 → t < 2 ^ 48 → readN m (off + 64 * i) 8 = h + t * 2 ^ 16

/-- The instruction of each entry as it is read back. -/
def Decoded (m : Bytes) (off : Nat) (q : List Entry) : Prop :=
  ∀ (i : Nat) (e : Entry), q[i]? = some e → decodeInstr (readN m (off + 64 * i) 8 % 2 ^ 16) (readN m (off + 64 * i) 8 / 2 ^ 16) = some e.ins

/-- What an image holds of a frame (R224). -/
def FrameHeld (m : Bytes) (f : Frame) : Prop :=
  (∀ i : Fin 32, readN m (0x800 + 8 * i.val) 8 = if i = 0 then 0 else f.regs[i].toNat) ∧
  (∀ y ∈ [(0x900, f.spc), (0x910, f.vbase), (0x918, f.fmode), (0x920, f.seed), (0x928, f.padlo), (0x930, f.padhi), (0x938, f.padval),
    (0x940, f.vl), (0x948, f.vtype)], readN m y.1 8 = y.2.toNat) ∧
  readN m 0x950 8 = f.nv % 2 ^ 64 ∧ readN m 0x958 8 = f.image.length ∧
  readN m (if f.image = [] then 0x908 else 0x3038) 8 = f.vstart.toNat ∧ QueueHeld m 0x3000 f.image f.vstart

/-- What an image holds of an engine context, its entries in the rows `rows` (R281). -/
def EngHeld (m : Bytes) (off : Nat) (g : EngCtx) (rows : List Nat) : Prop :=
  readN m off 8 = g.last.toNat ∧ readN m (off + 8) 8 = g.tl.toNat ∧
  readN m (off + 0x10) 8 = (match g.err with | some c => 256 + c.toNat | none => 0) ∧
  readN m (off + 0x18) 8 = (if g.err = none then 0 else g.errNo % 2 ^ 64) ∧ rows.length = g.entries.length ∧
  ∀ (j r : Nat) (e : EngEntry), rows[j]? = some r → g.entries[j]? = some e →
    let o := off + 0x40 + 160 * r
    (∀ i < 16, readN m (o + 8 * i) 8 = if e.marker = true then 0 else (e.blk.getD i 0).toNat) ∧
    readN m (o + 0x80) 8 = e.no % 2 ^ 64 ∧ readN m (o + 0x88) 8 = e.progress % 2 ^ 64 ∧
    readN m (o + 0x90) 8 = e.port.toNat + (if e.marker then 256 else 0) + 512 ∧
    readN m (o + 0x98) 8 = (e.w + (if e.fr then 256 else 0)) % 2 ^ 64

/-- The numbers of the engine context that an image holds from `off` are such as its issues leave: entries rise from above the timeline to
LAST, in error state below the first abandoned one, and the timeline is the largest number they let it be (R267, R278, R281). -/
def Numbered (m : Bytes) (off : Nat) : Prop :=
  let last := readN m off 8
  let tl := readN m (off + 8) 8
  let bad : Prop := readN m (off + 0x10) 8 ≠ 0
  let first := readN m (off + 0x18) 8
  let nos := ((List.range 6).filter fun r => (readN m (off + 0x40 + 160 * r + 0x90) 8).testBit 9).map fun r =>
    readN m (off + 0x40 + 160 * r + 0x80) 8
  nos.Pairwise (· < ·) ∧ (∀ n ∈ nos, tl < n ∧ n ≤ last) ∧ (bad → first ≤ last ∧ ∀ n ∈ nos, n < first) ∧
    tl = min (nos.headD (last + 1) - 1) (if bad ∧ first ≠ 0 then first - 1 else last)

/-- The header, the FIFO words, the tile codes and the numbers of the engine contexts of an image hold values that R224 assigns, for a
gang of `n` (R30, R67, R70, R101, R102, R103, R105, R138, R193, R197, R211, R267, R278; assumption 36). -/
def Assigned (m : Bytes) (n : Nat) : Prop :=
  let g (i : Nat) := readN m (0x110 + 8 * i) 8
  let w := readN m 0x108 8
  let id := g 0x03
  let nv := g 0x07
  let vt := g 0x06
  let modes := readN m 0x240 8
  readN m 0 8 = 0 ∧ w < 2 ^ 10 ∧ w.testBit 7 = false ∧ w % 2 ^ 7 ≤ 64 ∧ g 0x00 < n ∧ g 0x01 = n ∧ g 0x02 < 96 ∧
  (id / 16 ∈ [1, 2, 4, 8] ∧ id % 16 % (id / 16) = 0 ∧ id % 16 + id / 16 ≤ 8) ∧
  g 0x0A = (if w % 2 ^ 7 = 0 then 1 else readN m 0x1008 8) ∧ g 0x18 = modes ∧ g 0x0B < 2 ^ 8 ∧
  (∀ b < 64, (g 0x0C).testBit b = true → b < 3 ∨ (8 ≤ b ∧ b < 14)) ∧ g 0x11 ≤ 0x14 ∧
  (∀ b < 64, (g 0x17).testBit b = true → b < 3 ∨ (4 ≤ b ∧ b < 7) ∨ (16 ≤ b ∧ b < 25) ∨ (32 ≤ b ∧ b < 41)) ∧
  nv ∈ [8, 16, 32, 64] ∧ (vt = 256 ∨ (vt < 32 ∧ vt % 8 < 5 ∧ 2 ^ (vt / 8) ≤ nv / 8)) ∧
  g 0x05 ≤ (if vt = 256 then 0 else 524288 / nv * 2 ^ (vt / 8) / 2 ^ (vt % 8)) ∧
  ((List.range 32).filter fun b => modes / 4 ^ b % 4 = 2).length ∈ [0, 1, 3, 5, 7, 11, 13, 17, 19, 23, 29, 31] ∧
  (∀ b < 64, (readN m 0x1D8 8).testBit b = true → b = 8 ∨ b = 9 ∨ (16 ≤ b ∧ b < 42) ∨ 48 ≤ b) ∧
  (∀ a, 0x4000 ≤ a → a < 0x10000 → readByte m a = 0) ∧
  (∀ b < 32, readN m (0x300 + 8 * b) 8 < 2 ^ 36 ∧ readN m (0x300 + 8 * b) 8 % 2 ^ 18 ≤ 196608 ∧ readN m (0x300 + 8 * b) 8 / 2 ^ 18 < 196608) ∧
  (∀ i < 4, Numbered m (0x2000 + 1024 * i)) ∧ ∀ z < 2,
    let code := g 0x17 / 16 ^ z % 4
    let cfg := g 0x17 / 2 ^ (16 + 16 * z) % 2 ^ 9
    let a := cfg % 16
    let b := cfg / 16 % 16
    code ≠ 3 ∧ if code = 0 then cfg = 0 else (a ∈ [12, 13] ∧ b ∈ [12, 13]) ∨ (cfg < 2 ^ 8 ∧ a = b ∧ a ∈ [0, 9, 15])

/-- Page `j` of the save area of a launch's first strand, as a read of it finds it, is that page of `m` (R276). -/
def PageOf (s : State) (p : Partition) (x : Launch) (j : Nat) (m : Bytes) : Prop :=
  ∃ y, translateSched s p x.ptb .r (x.saveBase 0 + 65536 * j) = .ok y ∧
    ∀ o < 65536, readByte m (65536 * j + o) = readByte (s.rawRange y.key (y.key + 65536)).mem (y.key + o)

/-- Only cores of a list differ between `s` and `t`. -/
def OnlyCores (s t : State) (ks : List Nat) : Prop :=
  { t with cores := s.cores } = s ∧ ∀ k : Fin 96, k.val ∉ ks.map (· % 96) → t.core k = s.core k

/-- A core with nothing placed: its engine idle, no trap and no fault held. -/
def Vacant (c : Core) : Prop :=
  c.strand = none ∧ c.user = .reset ∧ c.fcause.getLsbD 9 = false ∧ c.efault = 0 ∧ c.efaultNo = none ∧ ∀ k : Fin 4, c.eng[k] = .reset

/-- `b` is the timeline of a context with the entries `rest`: the largest n up to LAST with no entry numbered n or less
outstanding, below the first abandoned entry in error state, and never falling (R267, R278). -/
def Timeline (g : EngCtx) (rest : List EngEntry) (b : Dword) : Prop :=
  ∃ n ≤ g.last.toNat, (∀ e ∈ rest, n < e.no) ∧ (g.err ≠ none → g.errNo ≠ 0 → n < g.errNo) ∧
    (n = g.last.toNat ∨ (∃ e ∈ rest, e.no = n + 1) ∨ (g.err ≠ none ∧ g.errNo = n + 1)) ∧ b.toNat = max g.tl.toNat n

/-- The order of placement (R299). -/
def Before (a b : Launch) : Prop :=
  b.pri < a.pri ∨ (a.pri = b.pri ∧ (a.readySeq < b.readySeq ∨ (a.readySeq = b.readySeq ∧
    (a.q < b.q ∨ (a.q = b.q ∧ a.readSeq < b.readSeq)))))

/-- Whether a launch waits for cores (R226, R299). -/
def waitsForCores (l : Launch) : Prop := l.st = .ready ∨ l.st = .swapped ∨ (l.st = .swapping ∧ l.imgs = [])

/-- The first launch in order (R299). -/
def IsFirst (p : Partition) (x : Launch) : Prop :=
  x ∈ p.launches ∧ waitsForCores x ∧ ∀ y ∈ p.launches, waitsForCores y → y = x ∨ Before x y

/-- A gang of `n` placed on distinct cores of a set, whole clusters where 4 divides `n` (R38, R39). -/
def Arranged (n : Nat) (cores avail : List Nat) : Prop :=
  cores.length = n ∧ cores.Nodup ∧ (∀ k ∈ cores, k ∈ avail) ∧
    (n % 4 = 0 → ∀ i < n, cores.getD i 0 = cores.getD (i / 4 * 4) 0 / 4 * 4 + i % 4)

/-- N of a record (R295). -/
def gang (x : Launch) : Nat := (x.field 0x18).toNat % 65536

/-- A launch placed on distinct cores of a set: a strand frozen in place stays on its own core, which no other takes (R226). -/
def ArrangedFor (x : Launch) (cores avail : List Nat) : Prop :=
  Arranged (gang x) cores avail ∧ ∀ i < gang x,
    if x.cores.getD i 96 ∈ x.inPlace then cores.getD i 0 = x.cores.getD i 96 else cores.getD i 0 ∉ x.inPlace

/-- Some choice of cores of a set places a launch. -/
def FitsFor (x : Launch) (avail : List Nat) : Prop := ∃ cores, ArrangedFor x cores avail

/-- The strands that a launch still has in place stand as it was placed. -/
def Kept (x : Launch) : Prop := x.inPlace = [] ∨ (Arranged (gang x) x.cores x.cores ∧ ∀ k ∈ x.inPlace, k ∈ x.cores)

/-- The engine of a core has read nothing that it has not delivered, and numbers its entries apart. -/
def Rested (c : Core) : Prop := ∀ g : Fin 4, (c.eng[g].entries.map fun e => e.no).Nodup ∧ ∀ e ∈ c.eng[g].entries, e.ahead = []

/-- The cores of a partition on which nothing is placed. -/
def freeOf (s : State) (p : Partition) : List Nat :=
  (List.range (12 * p.n)).map (12 * p.first + ·) |>.filter fun k => (s.core (coreId k)).strand.isNone

/-- `e` is a command of context `i` of the acting core that stands first in the order of issue on its port (R266). -/
def Leads (s : State) (i : Fin 4) (e : EngEntry) : Prop :=
  e ∈ s.me.eng[i].entries ∧ e.marker = false ∧
    ∀ j : Fin 4, ∀ d ∈ s.me.eng[j].entries, d.marker = false → d.port = e.port → (j = i ∧ d = e) ∨ e.ord < d.ord

/-- An entry may issue accesses: nothing in the vector queue precedes it, and nothing stops the engine (R227, R236, R281). -/
def Able (s : State) (e : EngEntry) : Prop := e.w = 0 ∧ s.me.engOff = false ∧ ∃ st, s.strand? = some st ∧ st.frz ≠ .swap

/-- The read, and the write, of the next byte of a command with no transform that copies memory to memory (R272, R273). -/
def nextRead (s : State) (e : EngEntry) : Acc :=
  let c := parseCmd e.blk
  access s s.actor.core false false .e (c.flg % 4) .r true false (c.srcAt e.progress) 1 anyPlace fun _ => none

/-- The write of the next byte. -/
def nextWrite (s : State) (e : EngEntry) (v : Nat) : Acc :=
  let c := parseCmd e.blk
  access s s.actor.core false false .e (c.flg / 4 % 4) .w false false (c.dstAt e.progress) 1 anyPlace fun _ => some (v % 256)

/-- A command with no transform, multicast or barrier, neither side a FIFO port, with bytes left and nothing read ahead. -/
def plainCopy (e : EngEntry) : Prop :=
  let c := parseCmd e.blk
  c.op = 0 ∧ c.mcast = 0 ∧ c.baddr = 0 ∧ inPort c.src = false ∧ inPort c.dst = false ∧ e.progress < c.total ∧ e.ahead = []

/-- A present line that a write makes rise (R235, R244); on its first write its tier still holds what it held (R312), a block of a C1 page
packed. -/
def risen (s : State) (y : L2Line) : L2Line :=
  let bad : BitVec 2 := (if (s.asRaw y.line).poisonedAt y.line 32 = true then 1 else 0) +
    (if (s.asRaw y.line).poisonedAt (y.line + 32) 32 = true then 2 else 0)
  { y with ver := nextVersion y.ver, dirty := true, tier := if y.dirty then y.tier else readN (s.asRaw y.line).mem y.line 64,
           tierBad := if y.dirty then y.tierBad else bad }

/-- A write of `bs` from `key` at its home slice, within one line: the bytes are stored, and the line, if present, rises by
one (R235, R244); nothing else changes but poison. -/
def WritesLine (s t : State) (key n v : Nat) : Prop :=
  Stored s t key n v ∧ { t with mem := s.mem, poison := s.poison, l2 := s.l2, reply := s.reply } = s ∧
    t.l2 = s.l2.map fun y => if y.line = key / 64 * 64 then risen s y else y

/-- Every list of bytes of a core is in canonical form. -/
def CanonicalCore (c : Core) : Prop :=
  Memory.wf c.user.vfile = true ∧ Memory.wf c.user.masks = true ∧ Memory.wf c.mordant.vfile = true ∧ Memory.wf c.mordant.masks = true ∧
    ∀ st, c.strand = some st → Memory.wf st.ct = true ∧ Memory.wf st.z0.data = true ∧ Memory.wf st.z1.data = true

/-- Every list of bytes of the state is in canonical form. -/
def Canonical (s : State) : Prop := Memory.wf s.mem = true ∧ Memory.wf s.c1 = true ∧ ∀ k, CanonicalCore (s.core k)

end Sys2Proof.Claims
end

