-- ==== Sys2Proof/Certificates/Slice0/Obligations.lean ====
section
/-! DEFINITION. The statements about this machine. -/

open Sys2Proof Sys2Proof.Machine Sys2Proof.Claims

/-- R83, R85, R86: For every state and operands, each ALU instruction but DIV, DIVU, REM and REMU, each ALUI instruction, and
LI, LIU and LIH answers a next state in which the destination holds the stated result (nothing is written when it is s0),
the PC is the successor and nothing else has changed. The leading and trailing zero counts and BSWAP are characterised by
their digits. -/
def Obligations.ScalarAluResults : Prop :=
  (∀ (s : State) (d a b : SReg),
     let x := s.rd a
     let y := s.rd b
     Gives (.add d a b) s d (.ofNat 64 (x.toNat + y.toNat)) ∧
     Gives (.sub d a b) s d (.ofInt 64 (x.toInt - y.toInt)) ∧
     Gives (.and d a b) s d (x &&& y) ∧
     Gives (.or d a b) s d (x ||| y) ∧
     Gives (.xor d a b) s d (x ^^^ y) ∧
     Gives (.sll d a b) s d (.ofNat 64 (x.toNat * 2 ^ (y.toNat % 64))) ∧
     Gives (.srl d a b) s d (.ofNat 64 (x.toNat / 2 ^ (y.toNat % 64))) ∧
     Gives (.sra d a b) s d (.ofInt 64 (x.toInt / 2 ^ (y.toNat % 64))) ∧
     Gives (.slt d a b) s d (if x.toInt < y.toInt then 1 else 0) ∧
     Gives (.sltu d a b) s d (if x.toNat < y.toNat then 1 else 0) ∧
     Gives (.min d a b) s d (.ofInt 64 (min x.toInt y.toInt)) ∧
     Gives (.max d a b) s d (.ofInt 64 (max x.toInt y.toInt)) ∧
     Gives (.minu d a b) s d (.ofNat 64 (min x.toNat y.toNat)) ∧
     Gives (.maxu d a b) s d (.ofNat 64 (max x.toNat y.toNat)) ∧
     Gives (.sel d a b) s d (if s.rd d ≠ 0 then x else y) ∧
     Gives (.mul d a b) s d (.ofNat 64 (x.toNat * y.toNat)) ∧
     Gives (.mulh d a b) s d (.ofInt 64 (x.toInt * y.toInt / 2 ^ 64)) ∧
     Gives (.mulhu d a b) s d (.ofNat 64 (x.toNat * y.toNat / 2 ^ 64))) ∧
  (∀ (s : State) (d a : SReg),
     let x := (s.rd a).toNat
     (∃ n : Nat, n ≤ 64 ∧ x < 2 ^ (64 - n) ∧ (n < 64 → 2 ^ (63 - n) ≤ x) ∧ Gives (.clz d a) s d (.ofNat 64 n)) ∧
     (∃ n : Nat, n ≤ 64 ∧ x % 2 ^ n = 0 ∧ (n < 64 → x / 2 ^ n % 2 = 1) ∧ Gives (.ctz d a) s d (.ofNat 64 n)) ∧
     Gives (.popc d a) s d (.ofNat 64 ((List.range 64).countP fun i => x.testBit i)) ∧
     (∃ y : Dword, (∀ i < 8, y.toNat / 256 ^ i % 256 = x / 256 ^ (7 - i) % 256) ∧ Gives (.bswap d a) s d y)) ∧
  (∀ (s : State) (d a : SReg) (k : BitVec 22) (n : BitVec 6) (w : BitVec 32),
     let x := s.rd a
     Gives (.addi d a k) s d (.ofInt 64 (x.toInt + k.toInt)) ∧
     Gives (.andi d a k) s d (x &&& .ofInt 64 k.toInt) ∧
     Gives (.ori d a k) s d (x ||| .ofInt 64 k.toInt) ∧
     Gives (.xori d a k) s d (x ^^^ .ofInt 64 k.toInt) ∧
     Gives (.slti d a k) s d (if x.toInt < k.toInt then 1 else 0) ∧
     Gives (.sltiu d a k) s d (if x.toNat < (BitVec.ofInt 64 k.toInt).toNat then 1 else 0) ∧
     Gives (.slli d a n) s d (.ofNat 64 (x.toNat * 2 ^ n.toNat)) ∧
     Gives (.srli d a n) s d (.ofNat 64 (x.toNat / 2 ^ n.toNat)) ∧
     Gives (.srai d a n) s d (.ofInt 64 (x.toInt / 2 ^ n.toNat)) ∧
     Gives (.li d w) s d (.ofInt 64 w.toInt) ∧
     Gives (.liu d w) s d (.ofNat 64 w.toNat) ∧
     Gives (.lih d w) s d (.ofNat 64 (w.toNat * 2 ^ 32 + (s.rd d).toNat % 2 ^ 32)))

/-- R84: For every state and operands, DIV, DIVU, REM and REMU answer a next state that writes a quotient q and a remainder r
with x = q y + r, r smaller than y in magnitude and with the sign of x, whenever y is not 0 and the quotient is in range; a
quotient of unbounded magnitude saturates toward its sign, zero divided by zero gives 0, and the remainder of a division by
zero is x. Nothing else changes but the PC, which is the successor. -/
def Obligations.DivisionResults : Prop :=
  ∀ (s : State) (d a b : SReg),
    let x := s.rd a
    let y := s.rd b
    (∃ q r : Dword, Gives (.div d a b) s d q ∧ Gives (.rem d a b) s d r ∧
      (y.toInt ≠ 0 → ¬(x.toInt = -2 ^ 63 ∧ y.toInt = -1) →
        x.toInt = q.toInt * y.toInt + r.toInt ∧ r.toInt.natAbs < y.toInt.natAbs ∧ (r.toInt = 0 ∨ (r.toInt < 0 ↔ x.toInt < 0))) ∧
      (x.toInt = -2 ^ 63 → y.toInt = -1 → q.toInt = 2 ^ 63 - 1 ∧ r.toInt = 0) ∧
      (y.toInt = 0 → r = x ∧ q.toInt = if x.toInt = 0 then 0 else if 0 < x.toInt then 2 ^ 63 - 1 else -2 ^ 63)) ∧
    (∃ q r : Dword, Gives (.divu d a b) s d q ∧ Gives (.remu d a b) s d r ∧
      (y.toNat ≠ 0 → x.toNat = q.toNat * y.toNat + r.toNat ∧ r.toNat < y.toNat) ∧
      (y.toNat = 0 → r = x ∧ q.toNat = if x.toNat = 0 then 0 else 2 ^ 64 - 1))

/-- R58, R59, R61, R91, R92: Each branch goes to its target exactly when its condition holds and to its successor otherwise,
writing nothing. JAL and JALR write the successor PC to their destination, JALR reading its source first, and go to their
targets. The successor of a slot is the next slot of the line, or slot 1 of the next line, where the line image is left. -/
def Obligations.ControlFlow : Prop :=
  (∀ (s : State) (a b : SReg) (off : BitVec 17) (slot : BitVec 5),
     let x := s.rd a
     let y := s.rd b
     let dst : Dword := .ofInt 64 (s.ctx.pc.toNat / 64 * 64 + off.toInt * 64) ||| .ofNat 64 (slot.toNat * 2)
     ∀ ic ∈ [(Instr.beq a b off slot, decide (x = y)), (.bne a b off slot, decide (x ≠ y)),
         (.blt a b off slot, decide (x.toInt < y.toInt)), (.bge a b off slot, decide (y.toInt ≤ x.toInt)),
         (.bltu a b off slot, decide (x.toNat < y.toNat)), (.bgeu a b off slot, decide (y.toNat ≤ x.toNat))],
       ∃ t, exec ic.1 s = .next t ∧ OnlyPc s t ∧ t.ctx.pc = if ic.2 then dst else s.ctx.succPc) ∧
  (∀ (s : State) (d a : SReg) (off : BitVec 22) (slot : BitVec 5),
     (∃ t, exec (.jal d off slot) s = .next t ∧ Wrote s t d s.ctx.succPc ∧ OnlyScalar s t ∧
       t.ctx.pc = .ofInt 64 (s.ctx.pc.toNat / 64 * 64 + off.toInt * 64) ||| .ofNat 64 (slot.toNat * 2)) ∧
     (∃ t, exec (.jalr d a) s = .next t ∧ Wrote s t d s.ctx.succPc ∧ OnlyScalar s t ∧ t.ctx.pc = s.rd a)) ∧
  (∀ (s : State) (la img i : Nat), la % 64 = 0 → la + 64 < 2 ^ 55 → i < 32 → s.ctx.line = some (la, img) →
     s.ctx.pc = .ofNat 64 (la + 2 * i) →
     ∃ t, exec .nop s = .next t ∧ OnlyPc s t ∧
       (i < lineH img → t.ctx.pc = .ofNat 64 (la + 2 * (i + 1)) ∧ t.ctx.line = s.ctx.line) ∧
       (lineH img ≤ i → t.ctx.pc = .ofNat 64 (la + 64 + 2 * 1) ∧ t.ctx.line = none))

/-- R87, R88, R90: Each scalar floating-point instruction but FCLASS, with none of its flags enabled in FMODE, answers a next
state that writes its result and ORs its flags into FFLAGS, changing nothing else; with one enabled it traps FPX and writes
nothing. FMIN, FMAX and the compares give the result and the flags that NaNs, zeros and the order of the values demand; FCVT.I
gives the integer its operand rounds to, or the end of the range. The arithmetic functions named are those that FpRoundsOnce
and FpSpecialValues are about. Those that round trap ILLINS when FMODE.RM is not 1 to 5. -/
def Obligations.ScalarFpResults : Prop :=
  ∀ (s : State) (f g : FFmt) (d a b : SReg),
    let F := fmtOf f
    let x := (s.rd a).toNat
    let y := (s.rd b).toNat
    let z := (s.rd d).toNat
    let rm := s.ctx.fmode.toNat % 8
    let gives (i : Instr) (r : Nat × Nat) : Prop := FGives i s d r.1 r.2
    let truth (r : Bool × Nat) : Nat × Nat := (r.1.toNat, r.2)
    gives (.fmin f d a b) (lesser F false (x % 2 ^ F.w) (y % 2 ^ F.w)) ∧
    gives (.fmax f d a b) (lesser F true (x % 2 ^ F.w) (y % 2 ^ F.w)) ∧
    gives (.feq f d a b) (truth (compared F .eq x y)) ∧
    gives (.flt f d a b) (truth (compared F .lt x y)) ∧
    gives (.fle f d a b) (truth (compared F .le x y)) ∧
    (1 ≤ rm ∧ rm ≤ 5 →
      gives (.fadd f d a b) (fpAdd F rm x y) ∧
      gives (.fsub f d a b) (fpSub F rm x y) ∧
      gives (.fmul f d a b) (fpMul F rm x y) ∧
      gives (.fdiv f d a b) (fpDiv F rm x y) ∧
      gives (.fsqrt f d a) (fpSqrt F rm x) ∧
      gives (.fma f d a b) (fpFma F rm z x y false) ∧
      gives (.fcvtF f d a) (fpOfInt F rm (s.rd a).toInt) ∧
      gives (.fcvtX f g d a) (fpConv F (fmtOf g) rm x) ∧
      let r := toInteger F rm x (-2 ^ 63) (2 ^ 63 - 1) 0
      gives (.fcvtI f d a) (low 64 r.1, r.2)) ∧
    (¬(1 ≤ rm ∧ rm ≤ 5) →
      ∀ i ∈ [Instr.fadd f d a b, .fsub f d a b, .fmul f d a b, .fdiv f d a b, .fsqrt f d a, .fma f d a b, .fcvtI f d a,
        .fcvtF f d a, .fcvtX f g d a], Traps i s 0x03 0)

/-- R89: For every state, format and operand, FCLASS answers a next state that writes the class word: the sign, the integral
bit, and the one class of the operand, with bits 63 to 8 zero; nothing else changes but the PC. -/
def Obligations.FclassWord : Prop :=
  ∀ (s : State) (f : FFmt) (d a : SReg),
    let m := (fmtOf f).mb
    let x := (s.rd a).toNat % 2 ^ (fmtOf f).w
    let ex := x / 2 ^ m % 2 ^ (fmtOf f).eb
    let fr := x % 2 ^ m
    let top := 2 ^ (fmtOf f).eb - 1
    let sgn := x / 2 ^ ((fmtOf f).w - 1) * 2 ^ 7
    ∃ c : Nat, Gives (.fclass f d a) s d (.ofNat 64 c) ∧
      (ex = 0 → fr = 0 → c = sgn + 2 ^ 6 + 2 ^ 0) ∧
      (ex = 0 → fr ≠ 0 → c = sgn + 2 ^ 1) ∧
      (0 < ex → ex < top → (valOf (fmtOf f) x).isInt → c = sgn + 2 ^ 6 + 2 ^ 2) ∧
      (0 < ex → ex < top → ¬(valOf (fmtOf f) x).isInt → c = sgn + 2 ^ 2) ∧
      (ex = top → fr = 0 → c = sgn + 2 ^ 3) ∧
      (ex = top → fr ≠ 0 → 2 ^ (m - 1) ≤ fr → c = sgn + 2 ^ 4) ∧
      (ex = top → fr ≠ 0 → fr < 2 ^ (m - 1) → c = sgn + 2 ^ 5)

/-- R87, R88, R168, R256: For finite operands and each of the five rounding modes, a sum, difference, product, quotient, fused
multiply-add with either sign of its product, format conversion or conversion of an integer is the exact result rounded once
to the format, with NX exactly when it is inexact and UF when it is tiny too; one that overflows is an infinity or the largest
finite value by the mode, with OF and NX. An exact zero sum of unlike signs is +0, and −0 in mode RDN. A square root is
rounded once too, and a conversion to an integer is the integer its operand rounds to. The sum that a remote reduction stores is the
exact one rounded so to FP32, to nearest, ties away. -/
def Obligations.FpRoundsOnce : Prop :=
  (∀ (n n' : Bool) (m m' : Nat) (e e' : Int),
    let p := ratOf (.fin n m e) + ratOf (.fin n' m' e')
    let r := addFV fmt32 1 (.fin n m e) (.fin n' m' e')
    (p ≠ 0 → ∃ fl, Ieee fmt32 1 p (r.1, fl)) ∧ (p = 0 → r.1 = if n = true ∧ n' = true then 2 ^ 31 else 0)) ∧
  ∀ (f g : FFmt) (rm x y z : Nat), 1 ≤ rm → rm ≤ 5 → Finite (fmtOf f) x → Finite (fmtOf f) y → Finite (fmtOf f) z →
    let F := fmtOf f
    let v := valOf F
    let neg (u : Nat) : Prop := u / 2 ^ (F.w - 1) % 2 = 1
    let zero (m n : Prop) (r : Nat × Nat) : Prop := r.2 = 0 ∧ r.1 % 2 ^ (F.w - 1) = 0 ∧
      (m ∧ n → neg r.1) ∧ (¬m ∧ ¬n → ¬neg r.1) ∧ (¬(m ↔ n) → (neg r.1 ↔ rm = 5))
    Ieee F rm (v x + v y) (fpAdd F rm x y) ∧
    (v x + v y = 0 → zero (neg x) (neg y) (fpAdd F rm x y)) ∧
    Ieee F rm (v x - v y) (fpSub F rm x y) ∧
    (v x - v y = 0 → zero (neg x) (¬neg y) (fpSub F rm x y)) ∧
    Ieee F rm (v x * v y) (fpMul F rm x y) ∧
    (v x * v y = 0 → (neg (fpMul F rm x y).1 ↔ ¬(neg x ↔ neg y))) ∧
    (v y ≠ 0 → Ieee F rm (v x / v y) (fpDiv F rm x y) ∧ (v x = 0 → (neg (fpDiv F rm x y).1 ↔ ¬(neg x ↔ neg y)))) ∧
    Ieee F rm (v z + v x * v y) (fpFma F rm z x y false) ∧
    (v z + v x * v y = 0 → zero (neg z) (¬(neg x ↔ neg y)) (fpFma F rm z x y false)) ∧
    Ieee F rm (v z - v x * v y) (fpFma F rm z x y true) ∧
    (v z - v x * v y = 0 → zero (neg z) (neg x ↔ neg y) (fpFma F rm z x y true)) ∧
    Ieee (fmtOf g) rm (v x) (fpConv F (fmtOf g) rm x) ∧
    (∀ k : Int, Ieee (fmtOf g) rm k (fpOfInt (fmtOf g) rm k)) ∧
    (0 ≤ v x →
      let r := fpSqrt F rm x
      Finite F r.1 ∧ r.1 < 2 ^ F.w ∧ RoundedRoot F rm (v x) r.1 ∧ (r.2.testBit 0 = true ↔ v r.1 ^ 2 ≠ v x) ∧ r.2 < 2 ∧
        (v x = 0 → (neg r.1 ↔ neg x))) ∧
    ∀ lo hi : Int, lo ≤ hi → fpToInt F rm x lo hi 0 = toInteger F rm x lo hi 0

/-- R88, R256: A NaN operand gives the canonical quiet NaN, and NV is raised exactly for a signalling one, and in a fused multiply-add for
zero times infinity too; the minimum and maximum of one NaN and a number are the number. Zero times infinity, infinities of opposite sign
added or of one sign subtracted, zero over zero, infinity over infinity, and a square root below zero raise NV and give that NaN.
Otherwise an infinite operand of a sum, difference, product or fused multiply-add, and an infinite dividend, give an infinity of the sign
due and raise NF alone, and an infinite divisor gives a zero of it and no flag. A nonzero finite value divided by zero gives an infinity
of the sign due and raises DZ and NF; NF is raised exactly when the value is an infinity or a NaN; a conversion to another format keeps an
infinity; FCVT.I saturates with NV. The sum of a remote reduction goes by the same rules. -/
def Obligations.FpSpecialValues : Prop :=
  (∀ (x y : FV) (b : Bool), let r := (addFV fmt32 1 x y).1
    ((∃ q, x = .nan q) ∨ (∃ q, y = .nan q) ∨ (x = .inf b ∧ y = .inf (!b)) → r = quietNaN fmt32) ∧
    (x = .inf b → y = .inf b ∨ (∃ n m e, y = .fin n m e) → r = infOf fmt32 b) ∧
    (y = .inf b → (∃ n m e, x = .fin n m e) → r = infOf fmt32 b)) ∧
  ∀ (f g : FFmt) (rm x y z : Nat), 1 ≤ rm → rm ≤ 5 →
    let F := fmtOf f
    let qnan := quietNaN F
    let nan (u : Nat) : Prop := ∃ q, unpack F u = .nan q
    let snan (u : Nat) : Prop := unpack F u = .nan true
    let infinite (u : Nat) : Prop := ∃ n, unpack F u = .inf n
    let zero (u : Nat) : Prop := Finite F u ∧ valOf F u = 0
    let minus (u : Nat) : Bool := u.testBit (F.w - 1)
    let NV (r : Nat × Nat) : Prop := r.2.testBit 4 = true
    let invalid (r : Nat × Nat) : Prop := r = (qnan, 2 ^ 4 + 2 ^ 5)
    let toInt := fpToInt F rm x (-2 ^ 63) (2 ^ 63 - 1) 0
    (∀ u, nan u ↔ isNaN F u = true) ∧ (∀ u, snan u ↔ isSNaN F u = true) ∧
    (∀ r ∈ [fpAdd F rm x y, fpSub F rm x y, fpMul F rm x y, fpDiv F rm x y], nan x ∨ nan y → r.1 = qnan ∧ (NV r ↔ snan x ∨ snan y)) ∧
    (nan x → (fpSqrt F rm x).1 = qnan ∧ (NV (fpSqrt F rm x) ↔ snan x)) ∧
    (nan x → (fpConv F (fmtOf g) rm x).1 = quietNaN (fmtOf g) ∧ (NV (fpConv F (fmtOf g) rm x) ↔ snan x)) ∧
    (∀ n, unpack F x = .inf n → fpConv F (fmtOf g) rm x = (infOf (fmtOf g) n, 2 ^ 5)) ∧
    (x < 2 ^ F.w → y < 2 ^ F.w → ∀ b, fpMinMax F b x y = lesser F b x y) ∧
    (fpCmp F 0 x y = compared F .eq x y ∧ fpCmp F 1 x y = compared F .lt x y ∧ fpCmp F 2 x y = compared F .le x y) ∧
    (∀ sub, nan x ∨ nan y ∨ nan z → (fpFma F rm z x y sub).1 = qnan ∧
      (NV (fpFma F rm z x y sub) ↔ snan x ∨ snan y ∨ snan z ∨ (zero x ∧ infinite y) ∨ (infinite x ∧ zero y))) ∧
    (nan z → ¬snan z → unpack F x = .inf false → unpack F y = .inf true →
      (fpFma F rm z x y false).1 = qnan ∧ ¬NV (fpFma F rm z x y false)) ∧
    (∀ n sub, valOf F x = 0 → Finite F x → unpack F y = .inf n → invalid (fpMul F rm x y) ∧ invalid (fpMul F rm y x) ∧
      invalid (fpFma F rm z x y sub) ∧ invalid (fpFma F rm z y x sub)) ∧
    (∀ n, unpack F x = .inf n → unpack F y = .inf (!n) → invalid (fpAdd F rm x y)) ∧
    (∀ n, unpack F x = .inf n → unpack F y = .inf n → invalid (fpSub F rm x y)) ∧
    (∀ n, unpack F x = .inf n → unpack F y = .inf n ∨ Finite F y →
      fpAdd F rm x y = (infOf F n, 2 ^ 5) ∧ fpAdd F rm y x = (infOf F n, 2 ^ 5)) ∧
    (∀ n, unpack F x = .inf n → unpack F y = .inf (!n) ∨ Finite F y →
      fpSub F rm x y = (infOf F n, 2 ^ 5) ∧ fpSub F rm y x = (infOf F (!n), 2 ^ 5)) ∧
    (∀ n m, unpack F x = .inf n → (unpack F y = .inf m ∨ (Finite F y ∧ valOf F y ≠ 0 ∧ (m = true ↔ valOf F y < 0))) →
      fpMul F rm x y = (infOf F (xor n m), 2 ^ 5) ∧ fpMul F rm y x = (infOf F (xor n m), 2 ^ 5)) ∧
    (infinite x → infinite y → invalid (fpDiv F rm x y)) ∧
    (zero x → zero y → invalid (fpDiv F rm x y)) ∧
    (∀ n, unpack F x = .inf n → Finite F y →
      fpDiv F rm x y = (infOf F (xor n (minus y)), 2 ^ 5) ∧ fpDiv F rm y x = (if xor n (minus y) then 2 ^ (F.w - 1) else 0, 0)) ∧
    (∀ n m sub, unpack F x = .inf n → (unpack F y = .inf m ∨ (Finite F y ∧ valOf F y ≠ 0 ∧ (m = true ↔ valOf F y < 0))) →
      let p := xor (xor n m) sub
      (unpack F z = .inf (!p) → invalid (fpFma F rm z x y sub) ∧ invalid (fpFma F rm z y x sub)) ∧
      (unpack F z = .inf p ∨ Finite F z → fpFma F rm z x y sub = (infOf F p, 2 ^ 5) ∧ fpFma F rm z y x sub = (infOf F p, 2 ^ 5))) ∧
    (∀ n sub, unpack F z = .inf n → Finite F x → Finite F y → fpFma F rm z x y sub = (infOf F n, 2 ^ 5)) ∧
    (Finite F x → valOf F x < 0 → invalid (fpSqrt F rm x)) ∧
    (unpack F x = .inf true → invalid (fpSqrt F rm x)) ∧
    (unpack F x = .inf false → fpSqrt F rm x = (infOf F false, 2 ^ 5)) ∧
    (Finite F x → valOf F x ≠ 0 → zero y → fpDiv F rm x y = (infOf F (xor (minus x) (minus y)), 2 ^ 3 + 2 ^ 5)) ∧
    (∀ r ∈ [fpAdd F rm x y, fpSub F rm x y, fpMul F rm x y, fpDiv F rm x y, fpSqrt F rm x, fpFma F rm z x y false, fpFma F rm z x y true],
      r.2.testBit 5 = true ↔ ¬Finite F r.1) ∧
    (nan x → toInt = (0, 2 ^ 4)) ∧
    (∀ n, unpack F x = .inf n → toInt = (if n then -2 ^ 63 else 2 ^ 63 - 1, 2 ^ 4)) ∧
    (Finite F x → 2 ^ 63 ≤ valOf F x → toInt = (2 ^ 63 - 1, 2 ^ 4)) ∧
    (Finite F x → valOf F x < -2 ^ 63 → toInt = (-2 ^ 63, 2 ^ 4))

/-- R31, R38, R97, R98: NOP and FENCE.S2V only retire (every scalar access has performed by then in this model, assumption 8).
FENCE.V2S, VDRAIN and FENCE.ALL wait while the queue holds an entry and then retire, FENCE.ALL discarding the stale line
images of assumption 10. YIELD offers Mordant the next 64 cycles. HALT, and the event HALT_RETIRE, stop the strand once its
queue is empty and its engine contexts hold no command, and the launch counts it; HALT waits until then. Two choices are the model's:
Mordant's own YIELD only retires (assumption 88), and Mordant's own HALT, once its queue is empty, stops it where it stands
(assumption 16). -/
def Obligations.SystemInstructions : Prop :=
  (∀ s : State,
     Runs .nop s s ∧
     Runs .fenceS2v s s ∧
     (s.ctx.queue = [] → Runs .fenceV2s s s ∧ Runs .vdrain s s ∧ Runs .fenceAll s (s.updCtx fun c => { c with icache := [] })) ∧
     (s.ctx.queue ≠ [] → Waits .fenceV2s s ∧ Waits .vdrain s ∧ Waits .fenceAll s) ∧
     (s.actor.who = .user → Runs .yield s (s.updMe fun c => { c with yieldTo := s.now + 64 })) ∧
     (s.actor.who = .mordant → Runs .yield s s ∧
       (s.ctx.queue = [] → exec .halt s = .next (s.updMe fun c => { c with mOn := false })) ∧ (s.ctx.queue ≠ [] → Waits .halt s))) ∧
  (∀ (s : State) (st : Strand), s.actor.who = .user → s.strand? = some st →
     let idle := s.ctx.queue = [] ∧ ∀ k : Fin 4, s.me.eng[k].entries = []
     let halted (o : Out) : Prop := ∃ t, o = .next t ∧ t.strand? = some { st with run := .halted } ∧
       t.ctx.pc = s.ctx.succPc ∧
       t.launch? st.part st.launch = (s.launch? st.part st.launch).map (fun l => { l with halted := st.idx :: l.halted }) ∧
       OnlyMe s { t with parts := s.parts } ∧ OnlyLaunch s t st.part st.launch ∧
       { t.me with user := { t.me.user with pc := s.me.user.pc, line := s.me.user.line }, strand := some st } = s.me
     (idle → halted (exec .halt s)) ∧
     (idle → s.mayIssue = true → s.atPc = some .halt → halted (exec .haltRetire s)) ∧
     (¬idle → Waits .halt s))

/-- R97, R99, R105, R220, R221, R223: Outside handler state and with TRAPVEC not 0, BRK and TRAP retire and deliver a trap with TRAPPC
the successor PC and TRAPADDR 0 or the trap number; with TRAPVEC 0 they retire and cancel the launch; in handler state, so for the
`trap 0` that asks for the return, they retire and are held for Mordant with FPC the successor PC. The events TRAP_DELIVERY and
MORDANT_TRAP_HOLD take the trap that the strand's next job raises, each the traps that are routed so, and do nothing for any other
cause or address: that is the model's choice of what these two events are (assumption 37). A BRK, an encoding that names no
instruction, and an FLGET of a poisoned layout show it, with the TRAPADDR and the TRAPPC of each. -/
def Obligations.TrapsTaken : Prop :=
  (∀ (s : State) (st : Strand) (n : BitVec 8), s.actor.who = .user → s.strand? = some st → st.hs = false → st.trapvec ≠ 0 →
     ∃ u, u.ctx.pc = s.ctx.succPc ∧ OnlyPc s u ∧
       (∃ t, exec .brk s = .next t ∧ Delivered u t st 0x12 0 s.ctx.succPc) ∧
       (∃ t, exec (.trap n) s = .next t ∧ Delivered u t st 0x13 (.ofNat 64 n.toNat) s.ctx.succPc)) ∧
  (∀ (s : State) (st : Strand) (n : BitVec 8), s.actor.who = .user → s.strand? = some st →
     ∃ u, u.ctx.pc = s.ctx.succPc ∧ OnlyPc s u ∧
       (st.hs = false → st.trapvec = 0 → ∀ i ∈ [Instr.brk, .trap n], exec i s = .next (cancelLaunch u st.part st.launch)) ∧
       (st.hs = true → st.run ≠ .draining →
         (∃ t, exec .brk s = .next t ∧ Held u t st 0x12 0 s.ctx.succPc false (some s.ctx.pc)) ∧
         (∃ t, exec (.trap n) s = .next t ∧ Held u t st 0x13 (.ofNat 64 n.toNat) s.ctx.succPc false (some s.ctx.pc)))) ∧
  (∀ (s : State) (st : Strand) (cause : BitVec 8) (addr : Dword), s.actor.who = .user → s.strand? = some st →
     (s.actor.seq = true → ∀ e, s.ctx.queue.head? = some e →
       (pushRule s e.ins).isSome = true ∨ ∃ d a b k, e.ins = .vsetvl d a b ∨ e.ins = .vsetvli d a k) →
     let toMordant := cause.toNat ∈ [0x06, 0x07, 0x08, 0x09] ∨ st.hs = true
     -- what the next job would deliver or hold, were the strand outside handler state with a vector
     let raises : Prop := ∃ t z, runJob (s.updStrand fun y => { y with hs := false, trapvec := 2 }) = .next t ∧ t.strand? = some z ∧
       ((z.hs = true ∧ z.trapcause = cause.zeroExtend 64 ∧ z.trapaddr = addr) ∨
        (z.hs = false ∧ z.run = .held ∧ t.me.fcause.toNat % 2 ^ 8 = cause.toNat ∧ t.me.faddr = addr))
     (raises → ¬toMordant → exec (.trapDelivery cause addr) s = runJob s ∧ exec (.mordantTrapHold cause addr) s = .next s) ∧
     (raises → toMordant → exec (.mordantTrapHold cause addr) s = runJob s ∧ exec (.trapDelivery cause addr) s = .next s) ∧
     (¬raises → exec (.trapDelivery cause addr) s = .next s ∧ exec (.mordantTrapHold cause addr) s = .next s)) ∧
  ∀ (s : State) (st : Strand) (d : SReg) (k : BitVec 3) (e : Entry) (c : BitVec 8) (a : Dword), s.actor.who = .user → s.strand? = some st →
    let nothing (cause : BitVec 8) (addr : Dword) : Prop := (c, a) ≠ (cause, addr) →
      exec (.trapDelivery c a) s = .next s ∧ exec (.mordantTrapHold c a) s = .next s
    (s.actor.seq = false → s.mayIssue = true → s.atPc = some .brk → nothing 0x12 0 ∧
      (st.hs = false → st.trapvec ≠ 0 → ∃ u t, u.ctx.pc = s.ctx.succPc ∧ OnlyPc s u ∧ exec (.trapDelivery 0x12 0) s = .next t ∧
        Delivered u t st 0x12 0 s.ctx.succPc) ∧
      (st.hs = true → ∃ u t, u.ctx.pc = s.ctx.succPc ∧ OnlyPc s u ∧ exec (.mordantTrapHold 0x12 0) s = .next t ∧
        Held u t st 0x12 0 s.ctx.succPc false (some s.ctx.pc))) ∧
    (∀ img, s.actor.seq = false → s.mayIssue = true → s.ctx.line = some (lineAddr s.ctx.pc, img) → decodeSlot img (pcSlot s.ctx.pc) = none →
      nothing 0x03 0 ∧
      (st.hs = false → st.trapvec ≠ 0 → ∃ t, exec (.trapDelivery 0x03 0) s = .next t ∧ Delivered s t st 0x03 0 s.ctx.pc) ∧
      (st.hs = true → ∃ t, exec (.mordantTrapHold 0x03 0) s = .next t ∧ Held s t st 0x03 0 s.ctx.pc false none)) ∧
    (AtVcp s e → s.live = true → e.ins = .flget k d → st.pfl.getLsbD k.toNat = true → nothing 0x11 (.ofNat 64 k.toNat) ∧
      (st.hs = false → st.trapvec ≠ 0 → ∃ t, exec (.trapDelivery 0x11 (.ofNat 64 k.toNat)) s = .next t ∧
        Delivered s t st 0x11 (.ofNat 64 k.toNat) e.pc) ∧
      (st.hs = true → ∃ t, exec (.mordantTrapHold 0x11 (.ofNat 64 k.toNat)) s = .next t ∧
        Held s t st 0x11 (.ofNat 64 k.toNat) e.pc true none))

/-- R221, R223: A trap of a strand that is not draining: PFLT.R, PFLT.W, PFLT.X, WALK and every trap in handler state are held
for Mordant; every other is delivered to TRAPVEC, the frame receiving the context, and a TRAPVEC of 0 cancels the launch.
This holds from the scalar thread and from the vector stream, where VSTART is the element reached. -/
def Obligations.TrapsAreRouted : Prop :=
  ∀ (s : State) (st : Strand) (cause : BitVec 8) (addr : Dword) (i : Nat), s.actor.who = .user → s.strand? = some st →
    st.run ≠ .draining →
    let toMordant := cause.toNat ∈ [0x06, 0x07, 0x08, 0x09] ∨ st.hs = true
    let head := (s.ctx.queue.head?.map (·.pc)).getD s.ctx.pc
    (toMordant → Held s (s.trap cause.toNat addr.toNat) st cause addr s.ctx.pc false none ∧
      Held (s.setVstart i) (s.vtrapAt i cause.toNat addr.toNat) st cause addr head true none) ∧
    (¬toMordant → st.trapvec ≠ 0 → Delivered s (s.trap cause.toNat addr.toNat) st cause addr s.ctx.pc ∧
      Delivered (s.setVstart i) (s.vtrapAt i cause.toNat addr.toNat) st cause addr head) ∧
    (¬toMordant → st.trapvec = 0 → s.trap cause.toNat addr.toNat = cancelLaunch s st.part st.launch ∧
      s.vtrapAt i cause.toNat addr.toNat = cancelLaunch (s.setVstart i) st.part st.launch)

/-- R222, R223, R227: ERET with no trap held only retires; with one held it resumes, delivers to TRAPVEC, cancels, or returns
from handler state by FRET.ACT, draining the handler's queue first, restoring every register of the frame, and cancelling
when NV has changed; a trap met in that drain ends the ERET and is held with SPC at the `trap 0`. ENGQ retires with no strand, aborts
every entry in the mode that aborts, and in the other waits until the contexts are drained; the engine it stops goes on as the strand
does, and so not by an ERET of a strand that is frozen besides. -/
def Obligations.ReturnsAndDrains : Prop :=
  (∀ (s : State) (st : Strand), s.actor.who = .mordant → s.strand? = some st →
     let act := s.me.fret.toNat % 4
     let held := s.me.fcause.getLsbD 9 = true
     let unheld (c : Core) : Core := { c with
       fcause := c.fcause &&& ~~~(0x200#64), engOff := c.engOff && c.strand.any fun y => decide (y.frz ≠ .none) }
     let resumed (c : Core) : Core := unheld { c with
       user := { c.user with line := none, barFrom := none, icache := imagesWithout c.user [c.user.pc] }
       strand := some { st with run := .running, selfPc := none } }
     let cancelled := Runs .eret s ((cancelLaunch s st.part st.launch).updMe unheld)
     (¬held → Runs .eret s s) ∧
     (held → act = 0 ∨ (act = 3 ∧ st.hs = false) → Runs .eret s (s.updMe resumed)) ∧
     (held → act = 1 → st.hs = true → cancelled) ∧
     (held → act = 2 → cancelled) ∧
     (held → act = 1 → st.hs = false → st.trapvec ≠ 0 →
       ∃ u t, exec .eret s = .next t ∧ Delivered s u st (s.me.fcause.extractLsb' 0 8) s.me.faddr s.me.fpc ∧
         t.ctx.pc = s.ctx.succPc ∧ OnlyPc (u.updMe unheld) t) ∧
     (held → act = 3 → st.hs = true → s.me.user.queue ≠ [] →
       exec .eret s = .next (s.updMe fun c => { c with strand := some { st with run := .draining } })) ∧
     (∀ f, held → act = 3 → st.hs = true → s.me.user.queue = [] → st.frame = some f → st.nv ≠ f.nv →
       Runs .eret s ((cancelLaunch (s.updStrand fun y => { y with run := .held }) st.part st.launch).updMe unheld)) ∧
     (∀ f, held → act = 3 → st.hs = true → s.me.user.queue = [] → st.frame = some f → st.nv = f.nv →
       Runs .eret s (s.updMe fun c => unheld { c with
         strand := some { st with hs := false, frame := none, run := .running, selfPc := none }
         user := { c.user with
           regs := f.regs, pregs := f.pregs, pc := f.spc, line := none, barFrom := none, icache := imagesWithout c.user [f.spc], queue := f.image, vstart := f.vstart, vbase := f.vbase,
           fmode := f.fmode, seed := f.seed, padlo := f.padlo, padhi := f.padhi, padval := f.padval, vl := f.vl, vtype := f.vtype, beats := 0 }
         eng := c.eng.map fun g => { g with entries := g.entries.map fun e => { e with fr := false } } }))) ∧
  (∀ (s : State) (st : Strand) (cause : BitVec 8) (addr : Dword), s.actor.who = .user → s.strand? = some st → st.run = .draining →
     st.hs = true →
     let at0 := st.selfPc.getD s.me.user.pc
     let st' : Strand := { st with run := .running, selfPc := none }
     let ended := s.updMe fun c => { c with
       mordant := c.mordant.advance, fcause := c.fcause &&& ~~~(0x200#64), strand := some st'
       user := { c.user with pc := at0, line := none, barFrom := none, icache := imagesWithout c.user [at0] } }
     Held ended (s.vtrap cause.toNat addr.toNat) st' cause addr ((s.ctx.queue.head?.map (·.pc)).getD s.ctx.pc) true none) ∧
  (∀ s : State, s.actor.who = .mordant →
     (s.strand? = none → Runs .engq s s) ∧
     (s.strand?.isSome = true → s.me.engctl.getLsbD 0 = false → (∀ k : Fin 4, s.me.eng[k].entries = []) →
       Runs .engq s (s.updMe fun c => { c with engOff := c.frozen })) ∧
     (s.strand?.isSome = true → s.me.engctl.getLsbD 0 = false → engDrained s s.actor.core = false → Waits .engq s) ∧
     (s.strand?.isSome = true → s.me.engctl.getLsbD 0 = true →
       ∃ t, exec .engq s = .next t ∧ t.ctx.pc = s.ctx.succPc ∧ ∀ k : Fin 4, t.me.eng[k].entries = []))

/-- R36, R74, R211, R217, R222, R227: For every state whose actor is a user context, ERET, ENGQ, the TLBINV instructions, and
SYSR and SYSW of an index of 0x80 or more trap ILLINS and do nothing else. -/
def Obligations.FirmwareIsPrivileged : Prop :=
  ∀ (s : State) (d a b : SReg) (x : BitVec 8), s.actor.who = .user → 0x80 ≤ x.toNat →
    ∀ i ∈ [Instr.eret, .engq, .sysr d x, .sysw x a, .tlbinvEnt a b, .tlbinvPg a b, .tlbinvAs a, .tlbinvAll],
      Traps i s 0x03 0

/-- R93, R94, R142, R143: For every aligned address whose access can perform and is not poisoned, each scalar load answers a next
state that writes the bytes read, sign- or zero-extended; no byte of memory changes. At a FIFO port it pops its bytes, the oldest
lowest, and waits while fewer are held. LDV writes the doubleword and the version of its line, and traps ATTRC on an uncached page, the
host tier or a window. A load, and a pop, that meets a poisoned byte traps POISON (R326). -/
def Obligations.ScalarLoads : Prop :=
  (∀ (s u : State) (d a : SReg) (k : BitVec 22) (key : Nat) (pl : Place),
     let ea := (s.rd a + k.signExtend 64).toNat
     ∀ x ∈ [(Instr.ldb d a k, (1 : Nat), true), (.ldbu d a k, 1, false), (.ldh d a k, 2, true), (.ldhu d a k, 2, false),
         (.ldw d a k, 4, true), (.ldwu d a k, 4, false), (.ldd d a k, 8, false)],
       ea % x.2.1 = 0 → Ready s u .r ea x.2.1 key pl → s.poisonedAt key x.2.1 = false →
       let v := readN s.mem key x.2.1
       ∃ w t, Touched s w ∧ SameMem s w ∧ exec x.1 s = .next t ∧ OnlyScalar w t ∧ t.ctx.pc = s.ctx.succPc ∧
         Wrote s t d (if x.2.2 then .ofInt 64 (sgn (8 * x.2.1) v) else .ofNat 64 v)) ∧
  (∀ (s u : State) (d a : SReg) (k : BitVec 22) (key : Nat) (pl : Place),
     let ea := (s.rd a + k.signExtend 64).toNat
     ∀ x ∈ [(Instr.ldb d a k, 1), (.ldbu d a k, 1), (.ldh d a k, 2), (.ldhu d a k, 2), (.ldw d a k, 4), (.ldwu d a k, 4), (.ldd d a k, 8)],
       ea % x.2 = 0 → Ready s u .r ea x.2 key pl → s.poisonedAt key x.2 = true → exec x.1 s = .next (u.trap 0x11 ea)) ∧
  (∀ (s u : State) (d a : SReg) (k : BitVec 22) (b : Nat),
     let ea := (s.rd a + k.signExtend 64).toNat
     let c := s.actor.core
     let q := fifoBytes s c b
     ∀ x ∈ [(Instr.ldb d a k, (1 : Nat), true), (.ldbu d a k, 1, false), (.ldh d a k, 2, true), (.ldhu d a k, 2, false),
         (.ldw d a k, 4, true), (.ldwu d a k, 4, false), (.ldd d a k, 8, false)],
       ea % x.2.1 = 0 → AtPort s u .r ea x.2.1 b →
       (q.length < x.2.1 → Waits x.1 s) ∧
       (x.2.1 ≤ q.length → (∀ key ∈ (fifoKeys s c b).take x.2.1, s.poisonedAt key 1 = false) →
         let v := bytesNat (q.take x.2.1)
         ∃ w t, Touched s w ∧ SameMem s w ∧ exec x.1 s = .next t ∧ OnlyScalar w t ∧ t.ctx.pc = s.ctx.succPc ∧
           Wrote s t d (if x.2.2 then .ofInt 64 (sgn (8 * x.2.1) v) else .ofNat 64 v) ∧ fifoBytes t c b = q.drop x.2.1 ∧
           OnlyFifo s t c b) ∧
       (x.2.1 ≤ q.length → (∃ key ∈ (fifoKeys s c b).take x.2.1, s.poisonedAt key 1 = true) →
         exec x.1 s = .next (u.trap 0x11 ea))) ∧
  (∀ (s u : State) (d a : SReg) (k : BitVec 22) (x : Xl),
     let ea := (s.rd a + k.signExtend 64).toNat
     d.toNat % 2 = 0 → ea % 8 = 0 → Ready s u .r ea 8 x.key (.xl x) →
     (x.pol ≠ 2 → x.tier ≠ 2 → s.poisonedAt x.key 8 = true → exec (.ldv d a k) s = .next (u.trap 0x11 ea)) ∧
     (x.pol ≠ 2 → x.tier ≠ 2 → s.poisonedAt x.key 8 = false → ∃ w t, Touched s w ∧ SameMem s w ∧ exec (.ldv d a k) s = .next t ∧ OnlyScalar w t ∧
       t.ctx.pc = s.ctx.succPc ∧ t.rd (d + 1) = s.version x.key ∧
       ∀ r : SReg, r ≠ d + 1 → t.rd r = if r = d ∧ d ≠ 0 then .ofNat 64 (readN s.mem x.key 8) else s.rd r) ∧
     (x.pol = 2 ∨ x.tier = 2 → exec (.ldv d a k) s = .next (u.trap 0x0A ea))) ∧
  ∀ (s u : State) (d a : SReg) (k : BitVec 22) (pl : Place),
    let ea := (s.rd a + k.signExtend 64).toNat
    ea % 8 = 0 → placeOf s s.actor.core s.isM .s .r ea 8 = (u, .ok pl) → (∀ x, pl ≠ .xl x) →
      exec (.ldv d a k) s = .next (u.trap 0x0A ea)

/-- R93, R142, R143, R235: For every aligned address whose access can perform, each scalar store answers a next state in which
exactly its bytes hold the low bytes of the source register, every other byte of memory reads as before, the version of the
line is raised by one, and no register changes. At a FIFO port it pushes its bytes, the lowest first, and waits while fewer
are free. -/
def Obligations.ScalarStores : Prop :=
  (∀ (s u : State) (d a : SReg) (k : BitVec 22) (key : Nat) (pl : Place), Memory.wf s.mem = true →
    let ea := (s.rd a + k.signExtend 64).toNat
    ∀ x ∈ [(Instr.stb a k d, 1), (.sth a k d, 2), (.stw a k d, 4), (.std a k d, 8)],
      ea % x.2 = 0 → Ready s u .w ea x.2 key pl →
      ∃ w t, Touched s w ∧ exec x.1 s = .next t ∧ OnlyPc w t ∧ t.ctx.pc = s.ctx.succPc ∧
        Stored s t key x.2 (s.rd d).toNat ∧ Bumped s t key pl) ∧
  ∀ (s u : State) (d a : SReg) (k : BitVec 22) (b : Nat), Memory.wf s.mem = true →
    let ea := (s.rd a + k.signExtend 64).toNat
    let c := s.actor.core
    let q := fifoBytes s c b
    ∀ x ∈ [(Instr.stb a k d, 1), (.sth a k d, 2), (.stw a k d, 4), (.std a k d, 8)],
      ea % x.2 = 0 → AtPort s u .w ea x.2 b →
      (196608 < q.length + x.2 → Waits x.1 s) ∧
      (q.length + x.2 ≤ 196608 → ∃ w t, Touched s w ∧ exec x.1 s = .next t ∧ OnlyPc w t ∧ t.ctx.pc = s.ctx.succPc ∧
        OnlyFifo s t c b ∧ fifoBytes t c b = q ++ (List.range x.2).map fun i => .ofNat 8 ((s.rd d).toNat / 256 ^ i))

/-- R241, R242, R243, R247, R248, R249, R250: For every aligned address whose access can perform, each AMO writes the new value
of its row, or, for a failing AMOCAS, nothing, returns the old value sign-extended, and raises the version exactly when it
writes; on the host tier only the three that the spec permits do so and the others trap ATTRC; at a FIFO port it traps LRANGE (R21), and
on a poisoned operand POISON (R326). VALSET, its set read by
`loadMany` and its places found by `valsetPlaces`: a failed check answers its index and changes nothing; otherwise every value
is stored, later entries winning, and every line stored has its version raised once, where no line of the set left its slice
meanwhile. Counts out of range, or a store on a line that no check names, trap ILLINS; the first entry whose address faults
decides the trap. A set at a FIFO port is popped, a doubleword at a time; that a VALSET that traps or waits leaves the FIFOs as they
were (`unpopped`) is the model's choice (assumption 77). -/
def Obligations.AmosAndValset : Prop :=
  (∀ (s u : State) (word : Bool) (d a b : SReg) (key : Nat) (pl : Place), Memory.wf s.mem = true →
     let n := if word then 4 else 8
     let w := 8 * n
     let ea := (s.rd a).toNat
     let old := readN s.mem key n
     let y := (s.rd b).toNat % 2 ^ w
     let host := match pl with | .xl x => decide (x.tier = 2) | _ => false
     ea % n = 0 →
     ∀ x ∈ [(Instr.amoadd word d a b, true, some ((old + y) % 2 ^ w)), (.amoand word d a b, false, some (old &&& y)),
         (.amoor word d a b, false, some (old ||| y)), (.amoxor word d a b, false, some (old ^^^ y)),
         (.amomax word d a b, false, some (if sgn w old < sgn w y then y else old)),
         (.amomin word d a b, false, some (if sgn w y < sgn w old then y else old)),
         (.amomaxu word d a b, false, some (max old y)), (.amominu word d a b, false, some (min old y)),
         (.amoswap word d a b, true, some y),
         (.amocas word d a b, true, if old = (s.rd d).toNat % 2 ^ w then some y else none)],
       (Ready s u .w ea n key pl → s.poisonedAt key n = false → host = false ∨ x.2.1 = true →
         ∃ v t, Touched s v ∧ exec x.1 s = .next t ∧ OnlyScalar v t ∧ t.ctx.pc = s.ctx.succPc ∧
         Wrote s t d (.ofInt 64 (sgn w old)) ∧
         match x.2.2 with
         | some z => Stored s t key n z ∧ Bumped s t key pl
         | none => SameMem s t ∧ t.version key = s.version key) ∧
       (Ready s u .w ea n key pl → host = true → x.2.1 = false → exec x.1 s = .next (u.trap 0x0A ea)) ∧
       (Ready s u .w ea n key pl → host = false ∨ x.2.1 = true → s.poisonedAt key n = true → exec x.1 s = .next (u.trap 0x11 ea)) ∧
       (∀ p, placeOf s s.actor.core s.isM .s .w ea n = (u, .ok (.fifo p)) → exec x.1 s = .next (u.trap 0x0C ea))) ∧
  (∀ (s : State) (va b m : Nat), va % 8 = 0 → (∀ i < m, AtPort s s .r (va + 8 * i) 8 b) →
     let c := s.actor.core
     let q := fifoBytes s c b
     let clean (n : Nat) : Prop := ∀ key ∈ (fifoKeys s c b).take n, s.poisonedAt key 1 = false
     (8 * m ≤ q.length → clean (8 * m) → ∃ t, SameMem s t ∧ OnlyFifo s t c b ∧ fifoBytes t c b = q.drop (8 * m) ∧
       loadMany m va s = (t, .ok ((List.range m).map fun i => bytesNat ((q.drop (8 * i)).take 8)))) ∧
     (q.length < 8 * m → clean q.length → ∃ t, loadMany m va s = (t, .error none)) ∧
     (∀ i < m, 8 * (i + 1) ≤ q.length → clean (8 * i) → ¬clean (8 * (i + 1)) →
       ∃ t, loadMany m va s = (t, .error (some ⟨0x11, va + 8 * i⟩)))) ∧
  (∀ (s u w : State) (d a b : SReg) (vs : List Nat) (places : List Xl), Memory.wf s.mem = true →
     let keys := places.map fun x => x.key
     let cnt := (s.rd b).toNat
     let nc := cnt % 32
     let ns := cnt / 256 % 32
     let es := pairs vs
     let lines := (keys.drop nc).map lineOf
     1 ≤ nc → nc ≤ 16 → ns ≤ 16 → cnt / 32 % 8 = 0 → cnt / 2 ^ 13 = 0 →
     loadMany (2 * (nc + ns)) (s.rd a).toNat s = (u, .ok vs) →
     (∀ j < ns, ∃ k < nc, (es.getD (nc + j) (0, 0)).1 / 64 = (es.getD k (0, 0)).1 / 64) →
     valsetPlaces (es.map (·.1)) u = (w, .ok places) → (∀ x ∈ places, (w.l2Line? x.key).isSome ∧ InForm w x) →
     (∀ x ∈ places, ∀ y ∈ places, x.key / 256 = y.key / 256 → x.cmp = y.cmp) →
     let good (k : Nat) : Prop := (w.version (keys.getD k 0)).toNat = (es.getD k (0, 0)).2 ∧ (es.getD k (0, 0)).2 ≠ 2 ^ 64 - 1
     (∀ k < nc, (∀ i < k, good i) → ¬good k → ∃ t, exec (.valset d a b) s = .next t ∧ Wrote s t d (.ofNat 64 (k + 1)) ∧
       t.ctx.pc = s.ctx.succPc ∧ OnlyScalar w t ∧ SameMem u t) ∧
     ((∀ k < nc, good k) → ∃ v t, exec (.valset d a b) s = .next t ∧ Wrote s t d 0 ∧ t.ctx.pc = s.ctx.succPc ∧
       Touched s v ∧ OnlyScalar v t ∧
       (∀ j < ns, (∀ i < ns, j < i → keys.getD (nc + i) 0 ≠ keys.getD (nc + j) 0) →
         readN t.mem (keys.getD (nc + j) 0) 8 = (es.getD (nc + j) (0, 0)).2) ∧
       (∀ c, (∀ j < ns, c < keys.getD (nc + j) 0 ∨ keys.getD (nc + j) 0 + 8 ≤ c) → readByte t.mem c = readByte u.mem c) ∧
       ∀ k, t.version k = if lineOf k ∈ lines then nextVersion (w.version k) else w.version k)) ∧
  (∀ (s : State) (d a b : SReg),
     let cnt := (s.rd b).toNat
     let nc := cnt % 32
     let ns := cnt / 256 % 32
     let ok := 1 ≤ nc ∧ nc ≤ 16 ∧ ns ≤ 16 ∧ cnt / 32 % 8 = 0 ∧ cnt / 2 ^ 13 = 0
     (¬ok → Traps (.valset d a b) s 0x03 0) ∧
     (∀ u f, ok → loadMany (2 * (nc + ns)) (s.rd a).toNat s = (u, .error (some f)) →
       exec (.valset d a b) s = .next ((u.unpopped s).trap f.cause f.addr)) ∧
     (∀ u, ok → loadMany (2 * (nc + ns)) (s.rd a).toNat s = (u, .error none) → Waits (.valset d a b) s) ∧
     ∀ u vs, ok → loadMany (2 * (nc + ns)) (s.rd a).toNat s = (u, .ok vs) →
       let es := pairs vs
       let named := ∀ j < ns, ∃ k < nc, (es.getD (nc + j) (0, 0)).1 / 64 = (es.getD k (0, 0)).1 / 64
       (¬named → exec (.valset d a b) s = .next ((u.unpopped s).trap 0x03 0)) ∧
       ∀ k w places, named → k < nc + ns → valsetPlaces ((es.take k).map (·.1)) u = (w, .ok places) →
         let va := (es.getD k (0, 0)).1
         (va % 8 ≠ 0 → exec (.valset d a b) s = .next ((w.unpopped s).trap 0x05 va)) ∧
         (∀ x f, va % 8 = 0 → placeOf w s.actor.core s.isM .s .w va 8 = (x, .error f) →
           exec (.valset d a b) s = .next ((x.unpopped s).trap f.cause f.addr)) ∧
         (∀ x pl, va % 8 = 0 → placeOf w s.actor.core s.isM .s .w va 8 = (x, .ok pl) →
           (∀ y, pl = .xl y → y.pol = 2 ∨ 2 ≤ y.tier ∨ ∃ l, x.l2Line? y.key = some l ∧ l.cmp.toNat ≠ y.cmp) →
           exec (.valset d a b) s = .next ((x.unpopped s).trap 0x0A va)) ∧
         (∀ x y z, va % 8 = 0 → placeOf w s.actor.core s.isM .s .w va 8 = (x, .ok (.xl y)) → y.pol ≠ 2 → y.tier < 2 →
           x.touch y false va = .ok z → (z.inForm y).poisonedAt y.key 8 = true →
           exec (.valset d a b) s = .next ((z.unpopped s).trap 0x11 va)))

/-- R95, R243, R258, R261, R262: A scalar load, store, AMO, WAITA, BARARR or BARWT at a misaligned address traps MISALIGN; one
that its address or its translation refuses takes that fault, with the address of the access. -/
def Obligations.ScalarAccessFaults : Prop :=
  ∀ (s u : State) (d a b : SReg) (k : BitVec 22) (c : Bool) (f : Flt),
    let off := (s.rd a + k.signExtend 64).toNat
    let at0 := (s.rd a).toNat
    let m := if c then 4 else 8
    ∀ x ∈ [(Instr.ldb d a k, off, 1, Kind.r), (.ldbu d a k, off, 1, .r), (.ldh d a k, off, 2, .r), (.ldhu d a k, off, 2, .r),
        (.ldw d a k, off, 4, .r), (.ldwu d a k, off, 4, .r), (.ldd d a k, off, 8, .r), (.ldv d a k, off, 8, .r),
        (.stb a k d, off, 1, .w), (.sth a k d, off, 2, .w), (.stw a k d, off, 4, .w), (.std a k d, off, 8, .w),
        (.amoadd c d a b, at0, m, .w), (.amoand c d a b, at0, m, .w), (.amoor c d a b, at0, m, .w), (.amoxor c d a b, at0, m, .w),
        (.amomax c d a b, at0, m, .w), (.amomin c d a b, at0, m, .w), (.amomaxu c d a b, at0, m, .w),
        (.amominu c d a b, at0, m, .w), (.amoswap c d a b, at0, m, .w), (.amocas c d a b, at0, m, .w),
        (.waitaEq a b, at0, 8, .r), (.waitaNe a b, at0, 8, .r), (.waitaGeu a b, at0, 8, .r), (.bararr a b, at0, 16, .w),
        (.barwt d a, at0, 16, .r)],
      (x.2.1 % x.2.2.1 ≠ 0 → Traps x.1 s 0x05 x.2.1) ∧
      (x.2.1 % x.2.2.1 = 0 → placeOf s s.actor.core s.isM .s x.2.2.2 x.2.1 x.2.2.1 = (u, .error f) →
        exec x.1 s = .next (u.trap f.cause f.addr))

/-- R49, R258, R259: WAITA retires on the read that finds its condition true and waits while it does not; it traps LRANGE at a FIFO
port, of which only loads and stores pop and push (R21, R142), and POISON on poisoned memory (R326). WAITT returns 0 once
the timeline has reached n, traps ILLINS for an n never issued, waits for one outstanding, and returns the error code of a
context in error state; TLREAD returns the timeline. -/
def Obligations.WaitaAndTimeline : Prop :=
  (∀ (s u : State) (a b : SReg) (key : Nat) (pl : Place),
     let ea := (s.rd a).toNat
     let m := readN s.mem key 8
     let x := (s.rd b).toNat
     ea % 8 = 0 →
     ∀ i ∈ [(Instr.waitaEq a b, decide (m = x)), (.waitaNe a b, decide (m ≠ x)), (.waitaGeu a b, decide (x ≤ m))],
       (Ready s u .r ea 8 key pl → s.poisonedAt key 8 = false → i.2 = true →
         ∃ w t, Touched s w ∧ SameMem s w ∧ exec i.1 s = .next t ∧ OnlyPc w t ∧ t.ctx.pc = s.ctx.succPc) ∧
       (Ready s u .r ea 8 key pl → s.poisonedAt key 8 = false → i.2 = false → Waits i.1 s) ∧
       (Ready s u .r ea 8 key pl → s.poisonedAt key 8 = true → exec i.1 s = .next (u.trap 0x11 ea)) ∧
       ∀ p, placeOf s s.actor.core s.isM .s .r ea 8 = (u, .ok (.fifo p)) → exec i.1 s = .next (u.trap 0x0C ea)) ∧
  (∀ (s : State) (k : BitVec 2) (d b : SReg), s.actor.who = .user →
     let g := s.me.eng[k.toFin]
     let n := (s.rd b).toNat
     Gives (.tlread k d) s d g.tl ∧
     (n ≤ g.tl.toNat → Gives (.waitt k d b) s d 0) ∧
     (g.tl.toNat < n → g.err = none → g.last.toNat < n → Traps (.waitt k d b) s 0x03 0) ∧
     (g.tl.toNat < n → g.err = none → n ≤ g.last.toNat → Waits (.waitt k d b) s) ∧
     (∀ code, g.tl.toNat < n → g.err = some code → Gives (.waitt k d b) s d (.ofNat 64 code.toNat)))

/-- R260, R261, R262, R263: BARARR adds its contribution, saturating, and opens the barrier when the target is reached, its line's
version rising where it writes; BARWT retires with 0 or 0x10 on an open or failed barrier and waits on a closed one; an object whose
STATE is malformed traps, and its reserved bits stay; one in a window or the host tier traps ATTRC. BARRIER_TIMEOUT fails a barrier
waited on for TMO microseconds. BARL arrives, releases the launch when every strand has arrived or retired
HALT, and retires once released. -/
def Obligations.Barriers : Prop :=
  (∀ (s u : State) (d a b : SReg) (x : Xl) (kd : Kind), Memory.wf s.mem = true →
     let ea := (s.rd a).toNat
     let bar := readN s.mem x.key 16
     let tgt := bar % 2 ^ 32
     let cur := bar / 2 ^ 32 % 2 ^ 32
     let st := bar / 2 ^ 64 % 2 ^ 16
     let tmo := bar / 2 ^ 80 % 2 ^ 16
     let c := (s.rd b).toNat % 2 ^ 32
     let cur' := min (cur + c) (2 ^ 32 - 1)
     let good := st ≤ 2
     let timed (w : State) (t0 : Option Nat) : State := w.updCtx fun y => { y with barFrom := t0 }
     ea % 16 = 0 → Ready s u kd ea 16 x.key (.xl x) → x.tier ≠ 2 → s.poisonedAt x.key 16 = false →
     (kd = .w → good → ∃ w t, Touched s w ∧ exec (.bararr a b) s = .next t ∧ OnlyPc w t ∧ t.ctx.pc = s.ctx.succPc ∧
       (st = 2 → SameMem s t ∧ t.version x.key = s.version x.key) ∧
       (st ≠ 2 → Bumped s t x.key (.xl x) ∧ Stored s t x.key 16 (tgt + cur' * 2 ^ 32 + (if st = 1 ∨ tgt ≤ cur' then 1 else 0) * 2 ^ 64 + bar / 2 ^ 80 * 2 ^ 80))) ∧
     (kd = .w → ¬good → ∃ w, Touched s w ∧ SameMem s w ∧ exec (.bararr a b) s = .next (w.trap 0x10 ea)) ∧
     (kd = .r → good → st = 1 → ∃ w t, Touched s w ∧ SameMem s w ∧ exec (.barwt d a) s = .next t ∧ Wrote s t d 0 ∧
       t.ctx.pc = s.ctx.succPc ∧ OnlyScalar (timed w none) t) ∧
     (kd = .r → good → st = 2 → ∃ w t, Touched s w ∧ SameMem s w ∧ exec (.barwt d a) s = .next t ∧ Wrote s t d 0x10 ∧
       t.ctx.pc = s.ctx.succPc ∧ OnlyScalar (timed w none) t) ∧
     (kd = .r → good → st = 0 → ∃ w, Touched s w ∧ SameMem s w ∧
       exec (.barwt d a) s = .next (timed w (some (s.ctx.barFrom.getD s.now)))) ∧
     (kd = .r → ¬good → ∃ w, Touched s w ∧ SameMem s w ∧ exec (.barwt d a) s = .next (w.trap 0x10 ea)) ∧
     (∀ t0, kd = .w → st = 0 → tmo ≠ 0 → s.mayIssue = true → s.atPc = some (.barwt d a) →
       s.ctx.barFrom = some t0 → t0 + tmo * 2500 ≤ s.now →
       ∃ t, exec .barrierTimeout s = .next t ∧ Touched s t ∧ Stored s t x.key 16 (bar + 2 * 2 ^ 64))) ∧
  (∀ (s u : State) (d a b : SReg) (pl : Place), let ea := (s.rd a).toNat
     ea % 16 = 0 → (∀ x, pl = .xl x → x.tier = 2) → ∀ i ∈ [(Instr.bararr a b, Kind.w), (.barwt d a, .r)],
       placeOf s s.actor.core s.isM .s i.2 ea 16 = (u, .ok pl) → exec i.1 s = .next (u.trap 0x0A ea)) ∧
  (∀ (s : State) (st : Strand) (l : Launch), s.actor.who = .user → s.strand? = some st → s.ctx.queue = [] →
     s.launch? st.part st.launch = some l →
     let b := l.barB.getD st.idx 0
     let all := ∀ j < l.cores.length, j = st.idx ∨ j ∈ l.arrived ∨ j ∈ l.halted
     let retired (x : Launch) : Prop := ∃ t, exec .barl s = .next t ∧ t.ctx.pc = s.ctx.succPc ∧
       OnlyPc s { t with parts := s.parts } ∧ OnlyLaunch s t st.part st.launch ∧ t.launch? st.part st.launch = some x
     st.idx < l.barB.length →
     (b = l.barL → all → retired { l with barB := l.barB.set st.idx (b + 1), barL := l.barL + 1, arrived := [] }) ∧
     (b = l.barL → ¬all → ∃ t, exec .barl s = .next t ∧ { t with parts := s.parts } = s ∧
       OnlyLaunch s t st.part st.launch ∧ t.launch? st.part st.launch =
         some { l with arrived := if st.idx ∈ l.arrived then l.arrived else st.idx :: l.arrived }) ∧
     (b < l.barL → ¬(∀ j < l.cores.length, j ∈ l.arrived ∨ j ∈ l.halted) →
       retired { l with barB := l.barB.set st.idx (b + 1) }))

/-- R29, R35, R36, R100, R101, R211, R279, R288, R315, R324: For each register that SYSR reads, of the strand's and, for
Mordant, of the firmware's, SYSR answers a next state that writes the register's value to the destination and changes
nothing else but the PC; where the spec says so, it first waits for an empty queue, for Mordant its own (the model's choice,
assumption 65). To Mordant the registers of the user strand read 0 where none is placed. EFACT and WDOG read 0, and so does MSIRAISE
before a vector was raised (assumption 72) and, by the model's choice, any index from 0x8E up (assumption 15). -/
def Obligations.SystemRegisterReads : Prop :=
  ∀ (s : State) (d : SReg) (p : Partition), (s.actor.who = .user → s.strand?.isSome) → s.partOfCore s.actor.core = some p →
    let c := s.ctx
    let me := s.me
    let shown (f : Strand → Dword) : Dword := match s.strand? with
      | some st => f st
      | none => 0
    let nv (st : Strand) : Dword := .ofNat 64 st.nv
    (∀ x ∈ [((0x00 : BitVec 8), shown fun st => .ofNat 64 st.idx), (0x01, shown fun st => .ofNat 64 st.size),
        (0x02, shown fun _ => .ofNat 64 s.actor.core.val), (0x03, shown fun _ => .ofNat 64 (p.n * 16 + p.first)),
        (0x04, shown fun _ => .ofNat 64 (s.now - p.born)), (0x05, c.vl), (0x06, c.vtype),
        (0x07, match s.actor.who with | .mordant => 4 | .user => shown nv), (0x0A, match c.queue with | [] => 1 | e :: _ => e.pc),
        (0x10, shown fun st => st.trapvec), (0x11, shown fun st => st.trapcause),
        (0x12, shown fun st => st.trapaddr), (0x13, shown fun st => st.trappc)], Gives (.sysr d x.1) s d x.2) ∧
    (∀ x ∈ [((0x08 : BitVec 8), c.vstart), (0x09, c.vbase), (0x0B, c.fflags), (0x0C, c.fmode), (0x0D, c.seed), (0x0E, c.clipcnt),
        (0x0F, c.qcnt), (0x14, c.padlo), (0x15, c.padhi), (0x16, c.padval), (0x17, shown fun st => st.tstate),
        (0x18, shown fun _ => me.modes)],
      (c.queue = [] → Gives (.sysr d x.1) s d x.2) ∧ (c.queue ≠ [] → Waits (.sysr d x.1) s)) ∧
    (s.actor.who = .mordant → ∀ i : BitVec 8, 0x8E ≤ i.toNat → Gives (.sysr d i) s d 0) ∧
    (s.actor.who = .mordant → ∀ x ∈ [((0x80 : BitVec 8), me.fwshare), (0x81, me.ptbase), (0x82, me.fcause), (0x83, me.faddr),
        (0x84, me.fpc), (0x85, me.fret), (0x86, me.engctl), (0x87, me.efault), (0x88, 0), (0x89, p.qtbase), (0x8A, 0), (0x8B, p.sercnt),
        (0x8C, p.mepoch), (0x8D, match p.msiVec with
          | none => 0
          | some n => .ofNat 64 (n.toNat + if p.msiPend.getLsbD n.toNat then 16 else 0))], Gives (.sysr d x.1) s d x.2)

/-- R5, R6, R29, R36, R100, R101, R102, R103, R211, R279, R288, R324: For each register that SYSW writes, SYSW answers a next
state in which that register holds the value, with only the bits it has, and nothing else has changed but the PC; where the
spec says so it first waits for an empty queue; a write of a read-only register changes nothing. A write of EFACT answers the held
fault as its event does, and one of MSIRAISE raises its vector. That Mordant waits for its own queue (assumption 65), and that its
write of an index from 0x8E up changes nothing (assumption 15), is the model's choice. -/
def Obligations.SystemRegisterWrites : Prop :=
  ∀ (s : State) (a : SReg) (p : Partition), s.partOfCore s.actor.core = some p →
    let x := s.rd a
    let ctx (f : Ctx → Ctx) := s.updCtx f
    (s.ctx.queue = [] →
      (∀ w ∈ [((0x08 : BitVec 8), ctx fun c => { c with vstart := x }), (0x09, ctx fun c => { c with vbase := x }),
          (0x0B, ctx fun c => { c with fflags := .ofNat 64 (x.toNat % 2 ^ 8) }),
          (0x0C, ctx fun c => { c with fmode := .ofNat 64 (x.toNat / 2 ^ 8 % 2 ^ 6 * 2 ^ 8 + x.toNat % 2 ^ 3) }),
          (0x0D, ctx fun c => { c with seed := x }), (0x0E, ctx fun c => { c with clipcnt := x }),
          (0x0F, ctx fun c => { c with qcnt := x }), (0x14, ctx fun c => { c with padlo := x }),
          (0x15, ctx fun c => { c with padhi := x }), (0x16, ctx fun c => { c with padval := x })], Runs (.sysw w.1 a) s w.2) ∧
      Runs (.sysw 0x10 a) s (s.updStrand fun y => { y with trapvec := x })) ∧
    (s.ctx.queue = [] → Runs (.sysw 0x17 a) s s ∧ Runs (.sysw 0x18 a) s s) ∧
    (s.ctx.queue ≠ [] → ∀ i ∈ [(0x08 : BitVec 8), 0x09, 0x0B, 0x0C, 0x0D, 0x0E, 0x0F, 0x10, 0x14, 0x15, 0x16, 0x17, 0x18],
      Waits (.sysw i a) s) ∧
    (∀ i ∈ [(0x00 : BitVec 8), 0x01, 0x02, 0x03, 0x04, 0x05, 0x06, 0x07, 0x0A, 0x11, 0x12, 0x13],
      Runs (.sysw i a) s s) ∧
    (s.actor.who = .mordant →
      (∀ w ∈ [((0x80 : BitVec 8), s.updMe fun c => { c with fwshare := .ofNat 64 (min 16 (x.toNat % 2 ^ 5)) }),
          (0x81, s.updMe fun c => { c with
            ptbase := .ofNat 64 (x.toNat / 2 ^ 48 * 2 ^ 48 + x.toNat / 2 ^ 16 % 2 ^ 26 * 2 ^ 16 + x.toNat / 2 ^ 8 % 2 ^ 2 * 2 ^ 8) }),
          (0x85, s.updMe fun c => { c with fret := .ofNat 64 (x.toNat % 4) }),
          (0x86, s.updMe fun c => { c with engctl := .ofNat 64 (x.toNat % 2) }),
          (0x89, s.updPart p.first fun q => { q with
            qtbase := .ofNat 64 (x.toNat / 2 ^ 16 % 2 ^ 26 * 2 ^ 16 + x.toNat / 2 ^ 8 % 2 ^ 2 * 2 ^ 8) }),
          (0x8A, s.updPart p.first fun q => { q with wdogAt := s.now }),
          (0x8B, s.updPart p.first fun q => { q with sercnt := x })], Runs (.sysw w.1 a) s w.2) ∧
      (∀ w ∈ [(1, Instr.efactRetry), (2, .efactFail)], ∀ u, x.toNat % 4 = w.1 → exec w.2 s = .next u → Runs (.sysw 0x88 a) s u) ∧
      (x.toNat % 4 = 0 ∨ x.toNat % 4 = 3 → Runs (.sysw 0x88 a) s s) ∧
      (∀ u, exec (.msiraise x) s = .next u → Runs (.sysw 0x8D a) s u) ∧
      (∀ i : BitVec 8, 0x8E ≤ i.toNat → Runs (.sysw i a) s s) ∧
      ∀ i ∈ [(0x82 : BitVec 8), 0x83, 0x84, 0x87, 0x8C], Runs (.sysw i a) s s)

/-- R266, R267, R268, R269, R270, R271, R273, R274, R275, R278: CPY copies its block, whose fields lie at the offsets given and meet the
checks of their rules, or else it traps ILLINS; it takes the next number of its context, clears an error state, and waits while the
context is full. TLPOST issues a marker. CPYABORT leaves the context with no entry outstanding, in error state with an earlier code
kept, and its timeline below the first number abandoned. That CPY and TLPOST on a context in error wait while it holds any entry at all,
and that CPYABORT of an empty context leaves the code ABORTED, is the model's reading (assumption 58). -/
def Obligations.CopyCommands : Prop :=
  (∀ (s t u : State) (st : Strand) (p : BitVec 3) (k : BitVec 2) (d a : SReg) (lo hi : Nat) (v w : Dword),
     s.actor.who = .user → s.strand? = some st →
     let va := (s.rd a).toNat
     let g := s.me.eng[k.toFin]
     let blk := blockWords (lo + hi * 2 ^ 512)
     let c := parseCmd blk
     va % 128 = 0 →
     s.acc .s 0 .r true false va 64 anyPlace (fun _ => none) = .ok t lo v →
     t.acc .s 0 .r true false (va + 64) 64 anyPlace (fun _ => none) = .ok u hi w →
     (cmdOk c st.size = false → exec (.cpy p k d a) s = .next (u.trap 0x03 0)) ∧
     (cmdOk c st.size = true → 6 ≤ g.entries.length ∨ (g.err ≠ none ∧ g.entries ≠ []) →
       Waits (.cpy p k d a) s) ∧
     (cmdOk c st.size = true → g.entries.length < 6 → (g.err = none ∨ g.entries = []) →
       sbUsed s.me s.actor.core st.idx + cmdRanges c s.actor.core st.idx ≤ 16 →
       ∃ r, exec (.cpy p k d a) s = .next r ∧ Wrote s r d (g.last + 1) ∧ r.ctx.pc = s.ctx.succPc ∧ Touched s u ∧
         OnlyScalar (u.updMe fun c => { c with eng := r.me.eng }) r ∧
         (∀ j : Fin 4, j ≠ k.toFin → r.me.eng[j] = s.me.eng[j]) ∧
         r.me.eng[k.toFin] = { last := g.last + 1, tl := if g.err = none then g.tl else g.last, err := none,
                               errNo := if g.err = none then g.errNo else 0,
                               entries := g.entries ++ [{ no := (g.last + 1).toNat, ord := nextOrd s.me, port := p, marker := false,
                                                          blk, progress := 0, ahead := [], left := [], w := s.ctx.queue.length, fr := false }] })) ∧
  (∀ (s : State) (k : BitVec 2) (d : SReg), s.actor.who = .user →
     let g := s.me.eng[k.toFin]
     (6 ≤ g.entries.length ∨ (g.err ≠ none ∧ g.entries ≠ []) → Waits (.tlpost k d) s) ∧
     (g.entries.length < 6 → (g.err = none ∨ g.entries = []) →
       ∃ r, exec (.tlpost k d) s = .next r ∧ Wrote s r d (g.last + 1) ∧ r.ctx.pc = s.ctx.succPc ∧
         OnlyScalar (s.updMe fun c => { c with eng := r.me.eng }) r ∧
         (∀ j : Fin 4, j ≠ k.toFin → r.me.eng[j] = s.me.eng[j]) ∧
         r.me.eng[k.toFin] = { last := g.last + 1, tl := if g.err = none then g.tl else g.last, err := none,
                               errNo := if g.err = none then g.errNo else 0,
                               entries := g.entries ++ [{ no := (g.last + 1).toNat, ord := nextOrd s.me, port := 0, marker := true,
                                                          blk := [], progress := 0, ahead := [], left := [], w := 0, fr := false }] })) ∧
  (∀ (s : State) (k : BitVec 2) (d : SReg), s.actor.who = .user →
     let g := s.me.eng[k.toFin]
     ∃ u r, exec (.cpyabort k d) s = .next r ∧ Touched s u ∧ r.ctx.pc = s.ctx.succPc ∧
       Wrote s r d r.me.eng[k.toFin].tl ∧
       OnlyScalar (u.updMe fun c => { c with eng := r.me.eng, efault := r.me.efault, efaultNo := r.me.efaultNo }) r ∧
       (∀ j : Fin 4, j ≠ k.toFin → r.me.eng[j] = s.me.eng[j]) ∧
       r.me.eng[k.toFin].entries = [] ∧ r.me.eng[k.toFin].last = g.last ∧ r.me.eng[k.toFin].err = some (g.err.getD 0x07) ∧
       g.tl.toNat ≤ r.me.eng[k.toFin].tl.toNat ∧
       ((∀ e ∈ g.entries, 0 < e.no) → ∀ e ∈ g.entries, g.tl.toNat < e.no → r.me.eng[k.toFin].tl.toNat < e.no)) ∧
  (∀ w : Nat, let f (o n : Nat) := w / 2 ^ (8 * o) % 2 ^ n
     parseCmd (blockWords w) = {
       src := f 0x00 64, dst := f 0x08 64, c0 := f 0x10 32, c1 := f 0x14 32, c2 := f 0x18 32, c3 := f 0x1C 32,
       s1 := sgn 64 (f 0x20 64), s2 := sgn 64 (f 0x28 64), s3 := sgn 64 (f 0x30 64),
       d1 := sgn 64 (f 0x38 64), d2 := sgn 64 (f 0x40 64), d3 := sgn 64 (f 0x48 64), xf := f 0x50 32, flg := f 0x54 32,
       naddr := f 0x58 64, nval := f 0x60 64, mcast := f 0x68 64, baddr := f 0x70 64, caddr := f 0x78 64 }) ∧
  ∀ (c : Cmd) (size : Nat),
    let x (o n : Nat) := c.xf / 2 ^ o % 2 ^ n
    let op := x 0 4
    let sf := x 8 4
    let df := x 12 4
    let rms := 1 ≤ x 16 3 ∧ x 16 3 ≤ 5
    let ns := x 19 1
    let te := x 20 2
    let wide := [1, 2, 4, 8, 1, 2, 4, 8, 2, 2, 4, 8, 1, 1].getD sf 1
    let one := c.c1 = 1 ∧ c.c2 = 1 ∧ c.c3 = 1
    let still := c.d1 = 0 ∧ c.d2 = 0 ∧ c.d3 = 0
    let port (a : Nat) : Prop := 0x7FFF00F00000 ≤ a ∧ a < 0x7FFF00F00800
    cmdOk c size = true ↔ 1 ≤ c.c0 ∧ 1 ≤ c.c1 ∧ 1 ≤ c.c2 ∧ 1 ≤ c.c3 ∧ x 22 10 = 0 ∧ x 4 4 = 0 ∧
      (c.xf = 0 ∨ (op = 1 ∧ te = 0 ∧ rms ∧ sf < 14 ∧ df < 14 ∧ c.c0 % wide = 0 ∧ ¬(ns = 1 ∧ 8 ≤ sf ∧ df < 8)) ∨
        (op = 2 ∧ te = 0 ∧ sf = 0 ∧ rms ∧ df ∈ [8, 9, 10] ∧ 2 * c.c0 % 48 = 0 ∧ one ∧ c.s2 = 0 ∧ c.s3 = 0 ∧ still) ∨
        (op = 3 ∧ te = 0 ∧ sf = 0 ∧ rms ∧ df ∈ [8, 9, 10] ∧ one ∧ c.s3 = 0 ∧ still) ∨
        (op = 4 ∧ x 16 3 = 0 ∧ ns = 0 ∧ df = 0 ∧ sf = 0 ∧ c.c0 % 2 ^ te = 0)) ∧
      c.flg % 4 ≠ 3 ∧ c.flg / 4 % 4 ≠ 3 ∧ c.flg / 2 ^ 4 % 2 ^ 28 = 0 ∧ c.naddr % 8 = 0 ∧ c.baddr % 16 = 0 ∧ c.caddr % 4 = 0 ∧
      (port c.src ∨ port c.dst → op = 0 ∧ one ∧ c.mcast = 0) ∧
      (c.mcast ≠ 0 → c.mcast / 2 ^ 48 % 2 ^ 8 = 0 ∧ 0x7FFF00000000 ≤ c.dst ∧ c.dst < 0x7FFF01000000 ∧
        ∀ j < 48, c.mcast.testBit j = true → c.mcast / 2 ^ 56 % 2 ^ 8 + j < size)

/-- R290, R296, R297, R298: SPAWN answers 1 for a queue that may not be used, 3 for one in error, 2 for an invalid record, and
otherwise appends the record and answers 0; a record is valid as its fields say. CANCEL with address 0 only retires. Otherwise it
retires, notes for every queue that can be read and has a record appended and not yet read that record's queue and place (the form of
the note is the model's), and the launches held whose counters the address names are cancelled, one after another; nothing else
changes. That a poisoned CTL or ERR traps POISON at its offset in the tier, and that CANCEL passes by a queue whose TAIL is poisoned, is
the model's choice (assumption 79). -/
def Obligations.SpawnAndCancel : Prop :=
  (∀ (s t u : State) (p : Partition) (d a b : SReg) (lo hi : Nat) (v w : Dword), s.partOfCore s.actor.core = some p →
     let r := (s.rd a).toNat
     let q := (s.rd b).toNat
     let reach := q < 65536 ∧ p.descOk q = true
     let bad (o : Nat) : Prop := s.poisonedAt (p.descKey q o) 8 = true
     let off (o : Nat) := p.qtbase.toNat / 2 ^ 16 % 2 ^ 26 * 2 ^ 16 + 64 * q + o
     let usable := reach ∧ ¬bad 0x18 ∧ descRead s p q 0x18 % 2 = 1
     (r % 128 ≠ 0 → Traps (.spawn d a b) s 0x05 r) ∧
     (r % 128 = 0 → ¬reach ∨ (¬bad 0x18 ∧ descRead s p q 0x18 % 2 = 0) → Gives (.spawn d a b) s d 1) ∧
     (r % 128 = 0 → reach → bad 0x18 → Traps (.spawn d a b) s 0x11 (off 0x18)) ∧
     (r % 128 = 0 → usable → bad 0x20 → Traps (.spawn d a b) s 0x11 (off 0x20)) ∧
     (r % 128 = 0 → usable → ¬bad 0x20 → descRead s p q 0x20 ≠ 0 → Gives (.spawn d a b) s d 3) ∧
     (r % 128 = 0 → usable → ¬bad 0x20 → descRead s p q 0x20 = 0 →
       s.acc .s 0 .r true false r 64 anyPlace (fun _ => none) = .ok t lo v →
       (t.acc .s 0 .r true false (r + 64) 64 anyPlace fun _ => none) = .ok u hi w →
       let rcd := blockWords (lo + hi * 2 ^ 512)
       (recordValid p rcd = false → ∃ x, exec (.spawn d a b) s = .next x ∧ Wrote u x d 2 ∧ OnlyScalar u x ∧
         x.ctx.pc = s.ctx.succPc) ∧
       (∀ x o v', recordValid p rcd = true → (u.acc .s 0 .w false false (r + 0x70) 8 anyPlace fun _ => some 0) = .ok x o v' →
         descRead x p q 0x08 = 0 → ∃ y, exec (.spawn d a b) s = .next y ∧ y.ctx.pc = s.ctx.succPc ∧
           OnlyScalar (descWrite (descWrite x p q 0x08 r) p q 0x00 r) y ∧ Wrote x y d 0) ∧
       (∀ x y o o' v' w', recordValid p rcd = true →
         (u.acc .s 0 .w false false (r + 0x70) 8 anyPlace fun _ => some 0) = .ok x o v' →
         descRead x p q 0x08 ≠ 0 →
         ((descWrite x p q 0x08 r).acc .s 0 .w false false (addrAdd (descRead x p q 0x08) 0x70) 8 anyPlace fun _ => some r) =
           .ok y o' w' →
         ∃ z, exec (.spawn d a b) s = .next z ∧ z.ctx.pc = s.ctx.succPc ∧ OnlyScalar y z ∧ Wrote x z d 0))) ∧
  (∀ (s : State) (p : Partition) (a : SReg), s.partOfCore s.actor.core = some p → s.part? p.first = some p →
     (s.rd a = 0 → Runs (.cancel a) s s) ∧
     (s.rd a ≠ 0 → Memory.wf s.mem = true →
       let cur (q : Nat) := ((p.qcache.find? fun x => x.1 = q).map fun x => x.2.1).getD 0
       let tail (q : Nat) := descRead s p q 0x08
       let named (l : Launch) : Bool := decide (l.st ≠ .done) && [0x40, 0x48, 0x50].any fun o => decide (l.field o = s.rd a)
       ∃ t notes, exec (.cancel a) s = .next ((p.launches.filter named).foldl (fun u l => cancelLaunch u p.first l.id) t) ∧
         t.ctx.pc = s.ctx.succPc ∧ OnlyPc s { t with parts := s.parts } ∧ t.part? p.first = some { p with sel := p.sel ++ notes } ∧
         (∀ q, q ≠ p.first → t.part? q = s.part? q) ∧ notes.Nodup ∧
         (p.descOk 0 = false → notes = []) ∧
         (p.descOk 0 = true → ∀ x, x ∈ notes ↔ ∃ q, p.descOk q = true ∧ tail q ≠ 0 ∧ tail q ≠ cur q ∧
           s.poisonedAt (p.descKey q 0x08) 8 = false ∧ x = (q, s.rd a, tail q)))) ∧
  (∀ (s : State) (d a b : SReg), s.partOfCore s.actor.core = none →
    Runs (.cancel a) s s ∧ ((s.rd a).toNat % 128 = 0 → Gives (.spawn d a b) s d 1)) ∧
  ∀ (p : Partition) (rcd : List Dword),
    let f (o : Nat) := (rcd.getD (o / 8) 0).toNat
    let cfg (o n : Nat) := f 0x18 / 2 ^ o % 2 ^ n
    recordValid p rcd = true ↔ 1 ≤ cfg 0 16 ∧ cfg 0 16 ≤ 12 * p.n ∧ cfg 16 8 ≤ 7 ∧ cfg 32 8 ∈ [8, 16, 32, 64] ∧
      (cfg 26 1 = 1 → (List.range 32).countP (fun b => f 0x58 / 4 ^ b % 4 = 2) ∈ [0, 1, 3, 5, 7, 11, 13, 17, 19, 23, 29, 31]) ∧
      f 0x10 % 65536 = 0 ∧ (∀ o ∈ [0x20, 0x30, 0x40, 0x48, 0x50], f o % 8 = 0) ∧ cfg 27 5 = 0 ∧ cfg 40 24 = 0 ∧ f 0x68 = 0 ∧ f 0x78 = 0

/-- R156, R218, R244: Each TLBINV drops the entries it names from every TLB of the partition's cores and of its scheduler, and
keeps the others. CACHE.ISTAB empties the stable cache. The other CACHE instructions act on the place that the TLB or the tables give,
whatever its permissions: none for a window, an address past the end, an invalid entry, or a page that is not resident, on which they only
retire; a walk that meets a bad entry traps; otherwise FLINE and FPAGE drop the line or page from the scalar L1, and WDROP drops the
page's lines from their slices, the floors rising above their versions. That a page beyond its tier, or of a peer out of reach, has no
place either is the model's choice (assumption 84). -/
def Obligations.TlbAndCacheOperations : Prop :=
  (∀ (s : State) (p : Partition) (a b : SReg), s.actor.who = .mordant → s.partOfCore s.actor.core = some p →
     s.part? p.first = some p →
     let va := (s.rd a).toNat
     let y := (s.rd b).toNat
     let hits (e : TlbEnt) : Bool := if e.big then decide (e.page / 2 ^ 29 = va / 2 ^ 29) else decide (e.page / 2 ^ 16 = va / 2 ^ 16)
     let tier (e : TlbEnt) := e.leaf / 2 ^ 8 % 4
     let ofPage (e : TlbEnt) : Bool := decide (tier e = y % 4) && (decide (tier e ≠ 3) || decide (e.leaf / 2 ^ 52 % 2 ^ 12 = y / 4 % 2 ^ 12)) &&
       (if e.big then decide (e.leaf / 2 ^ 29 % 2 ^ 23 = va / 2 ^ 29 % 2 ^ 23) else decide (e.leaf / 2 ^ 16 % 2 ^ 36 = va / 2 ^ 16 % 2 ^ 36))
     ∀ x ∈ [(Instr.tlbinvEnt a b, fun e : TlbEnt => decide (e.asid = y % 2 ^ 16) && hits e), (.tlbinvPg a b, ofPage),
         (.tlbinvAs a, fun e => decide (e.asid = va % 2 ^ 16)), (.tlbinvAll, fun _ => true)],
       let keep (t : List TlbEnt) := t.filter fun e => !x.2 e
       ∃ t, exec x.1 s = .next t ∧ t.ctx.pc = s.ctx.succPc ∧ SameMem s t ∧
         (∀ k ∈ p.coreList, (t.core (coreId k)).tlbS = keep (s.core (coreId k)).tlbS ∧
           (t.core (coreId k)).tlbV = keep (s.core (coreId k)).tlbV ∧ (t.core (coreId k)).tlbE = keep (s.core (coreId k)).tlbE) ∧
         (t.part? p.first).map (·.tlb) = some (keep p.tlb)) ∧
  (∀ (s : State) (a : SReg) (key : Nat),
     let va := (s.rd a).toNat
     let lo := key - va % 65536
     Runs .cacheIstab s (s.updMe fun c => { c with stable := [] }) ∧
     (cachePlace s va = .ok none → Runs (.cacheFline a) s s ∧ Runs (.cacheFpage a) s s ∧ Runs (.cacheWdrop a) s s) ∧
     (∀ f, cachePlace s va = .error f → ∀ i ∈ [Instr.cacheFline a, .cacheFpage a, .cacheWdrop a], Traps i s f.cause f.addr) ∧
     (cachePlace s va = .ok (some key) → (∀ l ∈ s.l2, l.line % 64 = 0) →
       Runs (.cacheFline a) s (s.updMe fun c => { c with l1 := c.l1.filter fun l => l.1 ≠ key / 64 * 64 }) ∧
       Runs (.cacheFpage a) s (s.updMe fun c => { c with l1 := c.l1.filter fun l => !(decide (lo ≤ l.1) && decide (l.1 < lo + 65536)) }) ∧
       ∃ t, exec (.cacheWdrop a) s = .next t ∧ t.ctx.pc = s.ctx.succPc ∧ OnlyPc s { t with l2 := s.l2, floors := s.floors } ∧
         (∀ l, l ∈ t.l2 ↔ l ∈ s.l2 ∧ ¬(lo ≤ l.line ∧ l.line < lo + 65536)) ∧
         (∀ h, (s.floor h).toNat ≤ (t.floor h).toNat) ∧
         (∀ l ∈ s.l2, lo ≤ l.line → l.line < lo + 65536 → l.ver.toNat < 2 ^ 64 - 1 → s.l2Line? l.line = some l →
           l.ver.toNat < (t.floor (homeOf l.line)).toNat))) ∧
  ∀ (s : State) (va : Nat),
    let outside := 2 ^ 55 ≤ va ∨ (0x7FFE00000000 ≤ va ∧ va < 0x800000000000)
    (outside ∨ s.partOfCore s.actor.core = none → cachePlace s va = .ok none) ∧
    ∀ p, ¬outside → s.partOfCore s.actor.core = some p →
      let place (e : Nat) (big : Bool) : Except Flt (Option Nat) :=
        let off := e / 2 ^ 16 % 2 ^ 36 * 2 ^ 16 + va % (if big then 2 ^ 29 else 2 ^ 16)
        let tier := e / 2 ^ 8 % 4
        let slice := if tier = 0 then 48000000000 else 256000000000
        if e / 2 ^ 14 % 4 = 1 then .ok none
        else if tier = 3 then .ok (s.peerKey p (e / 2 ^ 52 % 2 ^ 12) off)
        else if tier = 2 then .ok (some (2 * 2 ^ 60 + off % 2 ^ 52))
        else if off < p.n * slice then .ok (some (tier * 2 ^ 60 + (p.first * slice + off))) else .ok none
      let found := tlbFind s.me.tlbS (s.me.ptbase.toNat / 2 ^ 48) va
      (∀ e, found = some e → cachePlace s va = place e.leaf e.big) ∧
      (found = none → cachePlace s va = match walk s p s.me.ptbase va with
        | .bad node => .error ⟨0x09, node⟩
        | .invalid => .ok none
        | .leaf e big => place e big)

/-- R25, R64, R75, R109: A vector instruction that reaches the scalar thread makes its checks, waits while the queue is full,
and otherwise pushes one entry with the scalars, VL and VTYPE it captures and retires; the event VECTOR_PUSH does the same. That a
poisoned scalar which it would capture traps POISON before the push, the first of several deciding, is R326 as assumption 22 reads it. -/
def Obligations.VectorPush : Prop :=
  ∀ (s : State) (i : Instr) (r : PushRule), s.actor.seq = false → pushRule s i = some r →
    let vt := s.ctx.vtype.toNat
    let ill := s.ctx.vtype.getLsbD 8 = true
    let named := (∀ v ∈ r.regs, v.toNat < s.nv) ∧ r.early = true
    let enc := r.late (8 * 2 ^ (vt % 8)) (2 ^ (vt / 8 % 4)) = true
    let ok := named ∧ (r.dep = true → ¬ill ∧ enc)
    let bad (x : SReg) : Prop := x ≠ 0 ∧ s.ctx.pregs.getLsbD x.toNat = true
    let clean := ¬bad r.a ∧ ¬bad r.b ∧ ¬bad r.c
    let cap := if s.actor.who = .user then 64 else 8
    (¬named → Traps i s 0x03 0) ∧
    (named → r.dep = true → ill → Traps i s 0x04 0) ∧
    (clean → named → r.dep = true → ¬ill → ¬enc → Traps i s 0x03 0) ∧
    (ok → bad r.a → Traps i s 0x11 r.a.toNat) ∧
    (ok → ¬bad r.a → bad r.b → Traps i s 0x11 r.b.toNat) ∧
    (ok → ¬bad r.a → ¬bad r.b → bad r.c → Traps i s 0x11 r.c.toNat) ∧
    (ok → clean → cap ≤ s.ctx.queue.length → Waits i s) ∧
    (ok → clean → s.ctx.queue.length < cap →
      Runs i s (s.updCtx fun c => { c with queue := c.queue ++
        [{ ins := i, pc := c.pc, a := s.rd r.a, b := s.rd r.b, c := s.rd r.c, vl := c.vl, vtype := c.vtype }] })) ∧
    (s.atPc = some i → s.mayIssue = true → exec .vectorPush s = exec i s)

/-- R26, R27, R68, R69, R117, R136, R138, R139, R182, R184: VCFG waits for an empty queue and then sets NV and zeroes the vector
file; another count, and Mordant, trap ILLINS. VSETVL and VSETVLI wait while the queue is full; they set VTYPE and VL and write VL as they
are pushed, and do nothing at VCP. VCFG leaves VSTART as it is, which is the model's choice (assumption 39), and so is that the entry of
a VSETVL holds the new VL and VTYPE beside the scalars as they were (assumption 75). LMCFG, and for a strand that is not frozen its event
LMCFG_APPLY, set the bank modes, empty the banks that change, and trap ILLINS for a count of scratchpad banks that is not permitted; that
the lines of the stable cache lie each in a bank of their own and leave just with that bank is the model's choice (assumptions 17 and 28);
FLSET and FLGET write and read a packed layout; that FLGET of a poisoned one traps POISON, and FLSET clears its poison, is R326
(assumption 22). -/
def Obligations.ConfigurationInstructions : Prop :=
  (∀ (s : State) (d a b : SReg) (k : BitVec 8),
     let n := (s.rd a).toNat
     (s.actor.who = .mordant → Traps (.vcfg a) s 0x03 0) ∧
     (s.actor.who = .user → s.ctx.queue ≠ [] → Waits (.vcfg a) s) ∧
     (s.actor.who = .user → s.ctx.queue = [] → n ∉ [8, 16, 32, 64] → Traps (.vcfg a) s 0x03 0) ∧
     (s.actor.who = .user → s.ctx.queue = [] → n ∈ [8, 16, 32, 64] →
       Runs (.vcfg a) s ((s.updStrand fun st => { st with nv := n }).updCtx fun c =>
         { c with vfile := [], pvec := [], vtype := 0, vl := 0 })) ∧
     (∀ x ∈ [(Instr.vsetvl d a b, (s.rd b).toNat, b), (.vsetvli d a k, k.toNat, 0)],
       let req := x.2.1
       let bad := 5 ≤ req % 8 ∨ 32 ≤ req ∨ max 1 (s.nv / 8) < 2 ^ (req / 8 % 4)
       let vt : Dword := if bad then 2 ^ 8 else .ofNat 64 req
       let vl : Dword := if bad then 0 else .ofNat 64 (min n (2 ^ (req / 8) * s.vregBytes / 2 ^ (req % 8)))
       (s.actor.seq = false → (a ≠ 0 → s.ctx.pregs.getLsbD a.toNat = false) → (x.2.2 ≠ 0 → s.ctx.pregs.getLsbD x.2.2.toNat = false) →
         let full := (if s.actor.who = .user then 64 else 8) ≤ s.ctx.queue.length
         (full → Waits x.1 s) ∧
         (¬full → ∃ t, exec x.1 s = .next t ∧ Wrote s t d vl ∧ t.ctx.pc = s.ctx.succPc ∧
           OnlyScalar (s.updCtx fun c => { c with
             vtype := vt
             vl := vl
             queue := c.queue ++ [{ ins := x.1, pc := c.pc, a := s.rd a, b := s.rd x.2.2, c := s.rd 0, vl := vl, vtype := vt }] }) t)) ∧
       (∀ e, AtVcp s e → exec x.1 s = .next ((finished s s.ctx).updCtx fun c => { c with vstart := s.ctx.vstart })))) ∧
  (∀ (s : State) (e : Entry) (st : Strand) (k : BitVec 3) (d a : SReg), AtVcp s e → s.strand? = some st →
     Memory.wf s.mem = true →
     let old (b : Nat) := s.me.modes.toNat / 4 ^ b % 4
     let new (b : Nat) := e.a.toNat / 4 ^ b % 4
     let changes := (List.range 32).filter fun b => old b ≠ new b
     let count := (List.range 32).countP fun b => new b = 2
     let bank (b : Nat) := 4 * 2 ^ 60 + s.actor.core.val * 2 ^ 24 + b * 196608
     let applied (o : Out) : Prop := ∃ t, o = .next t ∧ t.me.modes = e.a ∧ t.ctx.queue = s.ctx.queue.drop 1 ∧ t.ctx.vstart = 0 ∧
       (∀ b ∈ changes, (∀ o < 196608, readByte t.mem (bank b + o) = 0) ∧ (t.me.fifo b).held = 0) ∧
       (∀ x, (∀ b ∈ changes, x < bank b ∨ bank b + 196608 ≤ x) → readByte t.mem x = readByte s.mem x) ∧
       { t.ctx with queue := s.ctx.queue, vstart := s.ctx.vstart } = s.ctx ∧
       -- a bank that is a cache way before and after keeps its lines
       (∀ x, x ∈ t.me.stable ↔ x ∈ s.me.stable ∧ x.2.2 ∉ changes) ∧
       { t with cores := s.cores, mem := s.mem, poison := s.poison } = s
     (e.ins = .lmcfg a → s.live = false → exec .lmcfgApply s = .next s) ∧
     (∀ i, i = Instr.lmcfg a ∨ (i = .lmcfgApply ∧ e.ins = .lmcfg a ∧ s.live = true) →
       (count ∉ [0, 1, 3, 5, 7, 11, 13, 17, 19, 23, 29, 31] → exec i s = .next (s.vtrap 0x03 0)) ∧
       (count ∈ [0, 1, 3, 5, 7, 11, 13, 17, 19, 23, 29, 31] → (∀ g : Fin 4, s.me.eng[g].entries = []) → applied (exec i s)) ∧
       (count ∈ [0, 1, 3, 5, 7, 11, 13, 17, 19, 23, 29, 31] → lmcfgHeld s changes = true → Waits i s)) ∧
     exec (.flset k a) s = .next (finished (s.updStrand fun y =>
       { y with fl := y.fl.set k.toFin e.a, pfl := y.pfl &&& ~~~(1#8 <<< k.toNat) }) s.ctx) ∧
     (st.pfl.getLsbD k.toNat = false → exec (.flget k d) s = .next (finished s (s.ctx.setReg d st.fl[k.toFin]))) ∧
     (st.pfl.getLsbD k.toNat = true → exec (.flget k d) s = .next (s.vtrap 0x11 k.toNat)))

/-- R110, R112, R118, R119, R121, R122, R128, R133, R134: Where every active element can execute, each elementwise instruction
at the head of the queue answers a next state in which each active element from VSTART to VL holds its result, each inactive
one its old value or zero under zeroing, every other bit of the vector file is unchanged, VSTART is 0 and the entry is
retired. VRAND gives the value that mix32 makes of SEED, VBASE, its key and the element's index. -/
def Obligations.VectorLaneResults : Prop :=
  (∀ (s : State) (e : Entry) (i : Instr) (l : Lane), intLane s e i = some l → Elementwise i s e l) ∧
  (∀ (s : State) (e : Entry) (i : Instr) (l : Lane), fpLane s e i = some l → Elementwise i s e l)

/-- R112, R114, R116, R124, R173, R187, R188, R219, R326: With VSTART not below VL an elementwise instruction changes no element and
retires. An active element that raises an enabled flag stops it before that element is written, with VSTART at it; a poisoned mask or
source element traps; a freeze stops it at a strip boundary with the elements before it done. So it is for the integer and float
instructions, and for the compares, VCVT and the packed instructions, of which an element that overflows under the policy that traps
stops the products with FOVF, and a poisoned layout register stops all. That a poisoned mask, layout or source is met where this says,
before the element and before its flags, is the model's choice of what reads it (assumption 22), and so are the strips of widths that
do not divide a strip (assumption 64). -/
def Obligations.ElementwiseStops : Prop :=
  (∀ (s : State) (e : Entry) (i : Instr) (c : Course), courseOf s e i = some c → AtVcp s e →
    let vs := s.ctx.vstart.toNat
    let act (j : Nat) : Prop := vs ≤ j ∧ j < e.n ∧ on s c.p.m j = true
    let pois (x : VReg × Nat × Nat) : Prop := s.vpois x.1 x.2.1 x.2.2 = true
    let clean (j : Nat) : Prop := ∀ x ∈ c.srcs j, ¬pois x
    let passes (j : Nat) : Prop := clean j ∧ ¬Enabled s (c.fl j) ∧ ¬c.ovf j
    (e.n ≤ vs → exec i s = .next (finished s s.ctx)) ∧
    (vs < e.n → c.p.m ≠ 0 → s.ctx.pmasks.getLsbD c.p.m.toNat = true → exec i s = .next ((standsAt s s.ctx vs).vtrap 0x11 c.p.m.toNat)) ∧
    (s.ctx.pmasks = 0 → s.actor.stop = none → ∀ j, act j → (∀ k, act k → k < j → passes k) →
      (clean j → Enabled s (c.fl j) → ¬c.ovf j → ∃ u, exec i s = .next ((standsAt s u j).vtrap 0x0E (c.fl j)) ∧ c.done u j ∧
        FlagsAre s u fun b => ∃ k, act k ∧ k ≤ j ∧ (c.fl k).testBit b = true) ∧
      (clean j → c.ovf j → ∃ u, exec i s = .next ((standsAt s u j).vtrap 0x0D 0) ∧ c.done u j ∧
        FlagsAre s u fun b => ∃ k, act k ∧ k < j ∧ (c.fl k).testBit b = true) ∧
      (¬clean j → ∃ u, ∃ x ∈ c.srcs j, pois x ∧ c.done u j ∧
        (FlagsAre s u fun b => ∃ k, act k ∧ k < j ∧ (c.fl k).testBit b = true) ∧
        exec i s = .next ((standsAt s u j).vtrap 0x11 ((x.1.toNat * s.vregBytes + x.2.2 * (x.2.1 / 8)) / s.vregBytes)))) ∧
    (∀ k, s.ctx.pvec = [] → s.ctx.pmasks = 0 → s.actor.stop = some k → k % (16384 / c.strip) = 0 → vs < k → k < e.n →
      (∀ j, act j → j < k → ¬Enabled s (c.fl j) ∧ ¬c.ovf j) →
      ∃ u, exec i s = .next (standsAt s u k) ∧ c.done u k ∧ FlagsAre s u fun b => ∃ j, act j ∧ j < k ∧ (c.fl j).testBit b = true)) ∧
  (∀ (s : State) (e : Entry) (st : Strand) (i : Instr) (k : BitVec 3), AtVcp s e → s.strand? = some st → layoutReg i = some k →
    st.pfl.getLsbD k.toNat = true → exec i s = .next (s.vtrap 0x11 k.toNat)) ∧
  ∀ (s : State) (e : Entry) (i : Instr) (l : Lane), (intLane s e i = some l ∨ fpLane s e i = some l) → AtVcp s e →
    let vs := s.ctx.vstart.toNat
    let act (j : Nat) : Prop := vs ≤ j ∧ j < e.n ∧ (l.p.m = 0 ∨ s.mbit l.p.m j = true)
    let pois (j : Nat) (x : VReg × Nat) : Prop := s.vpois x.1 x.2 j = true
    let upTo (u : Ctx) (j : Nat) : Prop := Elements s u l.vd l.w j (under s l.p vs fun k => (l.f k).1) ∧
      { u with vfile := s.ctx.vfile, fflags := s.ctx.fflags, pvec := s.ctx.pvec } = s.ctx
    (e.n ≤ vs → exec i s = .next (finished s s.ctx)) ∧
    (vs < e.n → l.msk ≠ 0 → s.ctx.pmasks.getLsbD l.msk.toNat = true →
      exec i s = .next ((standsAt s s.ctx vs).vtrap 0x11 l.msk.toNat)) ∧
    (s.ctx.pmasks = 0 → s.actor.stop = none → ∀ j, act j → (∀ k, act k → k < j → ¬Enabled s (l.f k).2 ∧ ∀ x ∈ l.srcs k, ¬pois k x) →
      ((∀ x ∈ l.srcs j, ¬pois j x) → Enabled s (l.f j).2 →
        ∃ u, exec i s = .next ((standsAt s u j).vtrap 0x0E (l.f j).2) ∧ upTo u j ∧
          FlagsAre s u fun b => ∃ k, act k ∧ k ≤ j ∧ (l.f k).2.testBit b = true) ∧
      ((∃ x ∈ l.srcs j, pois j x) →
        ∃ u, ∃ x ∈ l.srcs j, pois j x ∧ exec i s = .next ((standsAt s u j).vtrap 0x11 ((x.1.toNat * s.vregBytes + j * (x.2 / 8)) / s.vregBytes)) ∧
          upTo u j)) ∧
    (∀ k, s.ctx.pvec = [] → s.ctx.pmasks = 0 → s.actor.stop = some k → k % (16384 / l.strip) = 0 → vs < k → k < e.n →
      (∀ j, act j → j < k → ¬Enabled s (l.f j).2) →
      ∃ u, exec i s = .next (standsAt s u k) ∧ upTo u k ∧
        FlagsAre s u fun b => ∃ j, act j ∧ j < k ∧ (l.f j).2.testBit b = true)

/-- R26, R112, R123, R124, R125, R126, R128, R132: What the compares, the mask logic, VTOM and VCONFLICT write to a mask, the
flags of a float compare, and the scalar results of MPOPC, MFIRST and VEXTR, which the event SCALAR_RESULT_DELIVERY
delivers. A compare with VSTART not below VL writes nothing and retires. -/
def Obligations.MaskAndScalarResults : Prop :=
  (∀ (s : State) (e : Entry) (i : Instr), AtHead s e →
     let vs := s.ctx.vstart.toNat
     (∀ m p f, cmpLane s e i = some (m, p, f) → e.n ≤ vs → exec i s = .next (finished s s.ctx)) ∧
     (∀ m p f, cmpLane s e i = some (m, p, f) → vs < e.n →
       let act (j : Nat) : Prop := vs ≤ j ∧ j < e.n ∧ on s p.m j = true
       (∀ j, act j → ¬Enabled s (f j).2) →
       ∃ u, exec i s = .next (finished s u) ∧
         Bits s u m e.n (fun j => if j < vs then none else if on s p.m j then some (f j).1 else if p.z then some false else none) ∧
         FlagsAre s u (fun k => ∃ j, act j ∧ (f j).2.testBit k = true) ∧
         { u with masks := s.ctx.masks, fflags := s.ctx.fflags } = s.ctx) ∧
     (∀ m g, maskWhole s e i = some (m, g) →
       ∃ u, exec i s = .next (finished s u) ∧ Bits s u m e.n g ∧ { u with masks := s.ctx.masks } = s.ctx)) ∧
  (∀ (s : State) (e : Entry) (d b : SReg) (m : MReg) (a : VReg), AtHead s e →
     let x := if e.b.toNat < maxAt s e then s.vget a e.sew e.b.toNat else 0
     let delivers (i : Instr) (v : Dword) : Prop := exec i s = .next (finished s (s.ctx.setReg d v)) ∧
       (s.live = true → e.ins = i → exec .scalarResultDelivery s = exec i s)
     delivers (.mpopc d m) (.ofNat 64 ((List.range e.n).countP fun j => s.mbit m j)) ∧
     (∀ j < e.n, s.mbit m j = true → (∀ k < j, s.mbit m k = false) → delivers (.mfirst d m) (.ofNat 64 j)) ∧
     ((∀ j < e.n, s.mbit m j = false) → delivers (.mfirst d m) (.ofNat 64 (2 ^ 64 - 1))) ∧
     delivers (.vextr d a b) (if e.sew = 128 then .ofNat 64 x else .ofInt 64 (sgn e.sew x)))

/-- R112, R125, R128, R129, R130, R131: What the permutes and MTOV write; VINS writes one element or nothing whatever VL is; the
reductions write element 0 alone, or nothing when VL is 0, and a float reduction that raises an enabled flag writes nothing
and traps. VFREDSUM.F gives its exact sum rounded once, an exact zero by the signs of its summands, and what NaNs and infinities among
them demand. -/
def Obligations.PermutesAndReductions : Prop :=
  (∀ (s : State) (e : Entry) (i : Instr), AtHead s e →
     (∀ d g, permLane s e i = some (d, g) →
       ∃ u, exec i s = .next (finished s u) ∧ Elements s u d e.sew e.n g ∧ { u with vfile := s.ctx.vfile } = s.ctx) ∧
     (∀ d a b, i = .vins d a b →
       let k := e.b.toNat
       ∃ u, exec i s = .next (finished s u) ∧ { u with vfile := s.ctx.vfile } = s.ctx ∧
         Elements s u d e.sew (maxAt s e) fun j => if j = k then
           some (if e.sew ≤ 64 then e.a.toNat % 2 ^ e.sew else (BitVec.ofInt 128 e.a.toInt).toNat) else none)) ∧
  (∀ (s : State) (e : Entry) (i : Instr), AtHead s e →
     let gives (d : VReg) (x fl : Nat) : Prop :=
       (e.n = 0 → exec i s = .next (finished s s.ctx)) ∧
       (0 < e.n → ¬Enabled s fl → ∃ u, exec i s = .next (finished s u) ∧
         Elements s u d e.sew 1 (fun _ => some x) ∧ FlagsAre s u (fun k => fl.testBit k = true) ∧
         { u with vfile := s.ctx.vfile, fflags := s.ctx.fflags } = s.ctx) ∧
       (0 < e.n → Enabled s fl → ∃ u, exec i s = .next ((standsAt s u 0).vtrap 0x0E fl) ∧
         FlagsAre s u (fun k => fl.testBit k = true) ∧ { u with fflags := s.ctx.fflags } = s.ctx)
     (∀ d x, intReduction s e i = some (d, x) → gives d x 0) ∧
     (∀ f d a b rm m, let F := fmtOf f
       let x := s.vget b e.sew 0
       let xs := actives s e a m
       let none' := if isNaN F x then (quietNaN F, 2 ^ 5 + if isSNaN F x then 2 ^ 4 else 0) else (x, notFinite F x)
       let val := valOf F
       e.sew = F.w →
       (∀ c ∈ [(Instr.vfredsumO f d a b rm m, fpAdd F (modeAt s rm)), (.vfredmax f d a b m, lesser F true),
           (.vfredmin f d a b m, lesser F false)], i = c.1 →
         let r := if xs = [] then none' else stepwise F c.2 x xs
         gives d r.1 r.2) ∧
       (i = .vfredsumF f d a b rm m →
         (xs = [] → gives d none'.1 none'.2) ∧
         (xs ≠ [] → 1 ≤ modeAt s rm → modeAt s rm ≤ 5 →
           let ys := x :: xs
           let p := val x + (xs.map val).sum
           let holds (b : Bool) : Prop := infOf F b ∈ ys
           (ys.any (isNaN F) = true → gives d (quietNaN F) (2 ^ 5 + if ys.any (isSNaN F) then 2 ^ 4 else 0)) ∧
           (ys.any (isNaN F) = false → holds true → holds false → gives d (quietNaN F) (2 ^ 4 + 2 ^ 5)) ∧
           (∀ b, ys.any (isNaN F) = false → holds b → ¬holds (!b) → gives d (infOf F b) (2 ^ 5)) ∧
           ((∀ y ∈ ys, Finite F y) → p ≠ 0 → ∃ r, Ieee F (modeAt s rm) p r ∧ gives d r.1 r.2) ∧
           ((∀ y ∈ ys, Finite F y) → p = 0 →
             gives d (if (∀ y ∈ ys, y = 2 ^ (F.w - 1)) ∨ (modeAt s rm = 5 ∧ ¬∀ y ∈ ys, y = 0) then 2 ^ (F.w - 1) else 0) 0)))))

/-- R172, R173, R174, R175, R176, R177, R178, R179: What VCVT and the block-quantising instructions, of a strand and of Mordant, write
to each element or block, with their flags and counters; the functions of one element or one block are those that FormatRules is about.
That Mordant's code table holds zeros (assumption 18), and that a destination of scales or absmax entries is written after the codes it
overlaps (assumption 83), is the model's choice. -/
def Obligations.ConversionResults : Prop :=
  ∀ (s : State) (e : Entry) (ct : Nat → Nat), AtHead s e →
    (s.actor.who = .user → ∃ st, s.strand? = some st ∧ st.pct = false ∧ ∀ k, ct k = readN st.ct (4 * k) 4) →
    (s.actor.who = .mordant → ∀ k, ct k = 0) →
    let vs := s.ctx.vstart.toNat
    let n := e.n
    let only (u : Ctx) : Prop := { u with vfile := s.ctx.vfile, fflags := s.ctx.fflags } = s.ctx
    let counted (u : Ctx) (q c : Nat) : Prop := { u with vfile := s.ctx.vfile, fflags := s.ctx.fflags } =
      { s.ctx with qcnt := s.ctx.qcnt + .ofNat 64 q, clipcnt := s.ctx.clipcnt + .ofNat 64 c }
    (∀ src dst vd va rm ns p, vs < n →
      let r (j : Nat) := convertElem src.toNat dst.toNat (modeAt s rm) ns (s.vget va (widthOf src) j)
        (drawn s.ctx.seed.toNat s.ctx.vbase.toNat dst.toNat j)
      let act (j : Nat) : Bool := decide (vs ≤ j) && decide (j < n) && on s p.m j
      (∀ j, act j = true → ¬Enabled s (r j).flags) →
      ∃ u, exec (.vcvt src dst vd va rm ns p) s = .next (finished s u) ∧
        Elements s u vd (widthOf dst) n (under s p vs fun j => (r j).bits) ∧
        FlagsAre s u (fun k => ∃ j, act j = true ∧ (r j).flags.testBit k = true) ∧
        if dst = 12 ∨ dst = 13 then counted u ((List.range n).countP act) ((List.range n).countP fun j => act j && (r j).clip)
        else only u) ∧
    (∀ f vd va vc rm ns,
      let r (j : Nat) := valToFloat (qfmt f) (modeAt s rm) ns (c4Val (s.vget vc 8 (j / 48)) (nibbleAt s va j)) 0
      Whole (.vdq4 f vd va vc rm ns) s (flagsBelow n fun j => ((r j).bits, (r j).flags)) fun u =>
        Elements s u vd (qWidth f) n (fun j => some (r j).bits) ∧ only u) ∧
    (∀ f vd va vc rm ns,
      let r (j : Nat) := t8Elem (qfmt f) (modeAt s rm) ns (ct (s.vget va 8 j)) (s.vget vc 32 (j / 2048))
      Whole (.vdt8 f vd va vc rm ns) s (flagsBelow n fun j => ((r j).bits, (r j).flags)) fun u =>
        Elements s u vd (qWidth f) n (fun j => some (r j).bits) ∧ only u) ∧
    (∀ blk f vd va,
      let len := match blk with | .whole => n | .b48 => 48 | .b2048 => 2048
      let nb := (n + len - 1) / len
      let r (b : Nat) := blockMax (qfmt f) (blockOf s va (qWidth f) n len b)
      Whole (.vabsmax blk f vd va) s (flagsBelow nb fun b => (r b, notFinite (qfmt f) (r b))) fun u =>
        Elements s u vd (qWidth f) nb (fun b => some (r b)) ∧ only u) ∧
    (∀ t f del vd va vc c rm, n % 48 = 0 →
      let nb := n / 48
      let r (b : Nat) := c4Block s (qfmt f) t.toNat rm.toNat (if del then some e.c.toNat else none) (48 * b) (blockOf s va (qWidth f) n 48 b)
      let code (j : Nat) := (r (j / 48)).codes.getD (j % 48) 0
      Whole (.vq4 t f del vd va vc c rm) s (flagsBelow nb fun b => (0, (r b).flags)) fun u =>
        counted u n ((List.range nb).map fun b => (r b).clips).sum ∧
        ∃ m, Elements s m vd 8 (n / 2) (fun j => some (code (2 * j) + 16 * code (2 * j + 1))) ∧
          Elements (s.updCtx fun _ => m) u vc 8 nb (fun b => some (r b).scale)) ∧
    (∀ f vd va vc rm,
      let nb := (n + 2047) / 2048
      let r (b : Nat) := t8Block s (qfmt f) rm.toNat (2048 * b) (blockOf s va (qWidth f) n 2048 b)
      Whole (.vqt8 f vd va vc rm) s (flagsBelow nb fun b => (0, (r b).flags)) fun u =>
        counted u n ((List.range nb).map fun b => (r b).clips).sum ∧
        ∃ m, Elements s m vd 8 n (fun j => some ((r (j / 2048)).codes.getD (j % 2048) 0)) ∧
          Elements (s.updCtx fun _ => m) u vc 32 nb (fun b => some (r b).scale))

/-- R158, R162, R163, R164, R168, R169, R170, R171, R175, R176, R177, R178: Conversions between integers saturate or wrap; a float becomes
the integer it rounds to in any of the six modes, a NaN 0, and a value out of range the end of the range, with NV, and with CL
where it is clamped (assumption 68); to a float the exact value is rounded once, in any of the six modes, or overflows; an
infinity and a NaN go as the spec's table says. A C4 code restores its grid value times its scale, and a T8 code its table entry times
the absmax, exactly, rounded once; a NaN, an infinity, and 0 times an infinity among them give what assumption 18 says where R178 does
not. A block quantised to C4 or
T8 has the scale the spec gives, codes nearest to its elements or drawn between the two beside each, clipped and counted at
the ends of the grid or of the table, and the NaN code block for an element that is not finite. That a C4 block raises no flag
but CL or NF, and so no NX or UF (assumption 31), that one of zeros takes a delayed exponent (assumption 82), and how UF is raised
under SR (assumption 38), is the model's choice; a Mordant's code table holds zeros (assumption 18). -/
def Obligations.FormatRules : Prop :=
  (∀ (src dst : BitVec 4) (rm srh x : Nat) (ns : Bool), x < 2 ^ widthOf src →
    let r := convertElem src.toNat dst.toNat rm ns x srh
    let F := fmtOfCode src.toNat
    let G := fmtOfCode dst.toNat
    let iv := if src.toNat < 4 then sgn (widthOf src) x else x
    let w := widthOf dst
    let lo : Int := if dst.toNat < 4 then -2 ^ (w - 1) else 0
    let hi : Int := if dst.toNat < 4 then 2 ^ (w - 1) - 1 else 2 ^ w - 1
    let good (p : ℚ) : Prop := Finite G r.bits → r.clip = false →
      RoundedTo G rm p r.bits ∧ (r.flags.testBit 0 = true ↔ valOf G r.bits ≠ p)
    (src.toNat < 8 → dst.toNat < 8 →
      r = if lo ≤ iv ∧ iv ≤ hi ∨ ns = true then ⟨low w iv, 0, false⟩ else ⟨low w (max lo (min hi iv)), 2 ^ 7, true⟩) ∧
    (8 ≤ src.toNat → src.toNat ≤ 13 → dst.toNat < 8 →
      1 ≤ rm → rm ≤ 6 →
      let z := toInteger F rm x lo hi srh
      (∀ b, unpack F x = .nan b → r = ⟨0, 2 ^ 4, false⟩) ∧
      ((∀ b, unpack F x ≠ .nan b) → r = ⟨low w z.1, z.2 + if z.2 = 2 ^ 4 then 2 ^ 7 else 0, false⟩)) ∧
    (8 ≤ dst.toNat → dst.toNat ≤ 13 → 1 ≤ rm → rm ≤ 6 →
      (src.toNat < 8 → (rm ≤ 5 → good iv) ∧ Converted G rm ns iv srh r ∧ (iv = 0 → r.bits = 0)) ∧
      (8 ≤ src.toNat → src.toNat ≤ 13 →
        (Finite F x → (rm ≤ 5 → good (valOf F x)) ∧ Converted G rm ns (valOf F x) srh r ∧
          (valOf F x = 0 → (2 ^ (G.w - 1) ≤ r.bits ↔ 2 ^ (F.w - 1) ≤ x))) ∧
        (∀ b, unpack F x = .nan b → r = ⟨if dst = 12 then 127 else quietNaN G, 2 ^ 5 + if b then 2 ^ 4 else 0, false⟩) ∧
        (∀ n, unpack F x = .inf n → r =
          if dst ≠ 12 then ⟨infOf G n, 2 ^ 5, false⟩
          else if ns = true then ⟨127, 2 ^ 5, false⟩ else ⟨126 + if n then 128 else 0, 2 ^ 7, true⟩)))) ∧
  (∀ sc code : Nat, code < 16 →
    (sc % 64 = 63 → c4Val sc code = .nan false) ∧
    (sc % 64 ≠ 63 → ratOf (c4Val sc code) = gridOf (sc / 64 % 4) code * 2 ^ ((sc % 64 : Int) - 32))) ∧
  (∀ (f : QFmt) (rm : Nat) (ns : Bool), 1 ≤ rm → rm ≤ 5 →
    let F := qfmt f
    let sign (b : Bool) : Nat := if b then 2 ^ (F.w - 1) else 0
    (∀ v : FV, let r := valToFloat F rm ns v 0
      (∀ n m e, v = .fin n m e → Converted F rm ns (ratOf v) 0 r ∧ (m = 0 → r.bits = sign n)) ∧
      (∀ b, v = .nan b → r = ⟨quietNaN F, 2 ^ 5 + if b then 2 ^ 4 else 0, false⟩) ∧ (∀ n, v = .inf n → r = ⟨infOf F n, 2 ^ 5, false⟩)) ∧
    ∀ c a : Nat, c < 2 ^ 32 → a < 2 ^ 32 →
      let r := t8Elem F rm ns c a
      let p := valOf fmt32 c * valOf fmt32 a
      let neg : Bool := xor (c.testBit 31) (a.testBit 31)
      let inf (x : Nat) : Prop := ∃ n, unpack fmt32 x = .inf n
      let zero (x : Nat) : Prop := Finite fmt32 x ∧ valOf fmt32 x = 0
      (Finite fmt32 c → Finite fmt32 a → Converted F rm ns p 0 r ∧ (p = 0 → r.bits = sign neg)) ∧
      (isNaN fmt32 c || isNaN fmt32 a → r = ⟨quietNaN F, 2 ^ 5 + if isSNaN fmt32 c || isSNaN fmt32 a then 2 ^ 4 else 0, false⟩) ∧
      ((inf c ∧ zero a) ∨ (zero c ∧ inf a) → r = ⟨quietNaN F, 2 ^ 5 + 2 ^ 4, false⟩) ∧
      ((inf c ∨ inf a) → isNaN fmt32 c = false → isNaN fmt32 a = false → ¬zero c → ¬zero a → r = ⟨infOf F neg, 2 ^ 5, false⟩)) ∧
  (∀ (s : State) (f : QFmt) (t rm i0 : Nat) (del : Option Nat) (xs : List Nat), t < 4 → (∀ x, del = some x → x ≤ 62) →
    let F := qfmt f
    let r := c4Block s F t rm del i0 xs
    let X := r.scale % 64
    let q (j : Nat) : ℚ := valOf F (xs.getD j 0) / 2 ^ ((X : Int) - 32)
    let g (j : Nat) : ℚ := gridOf t (r.codes.getD j 0)
    let clips (j : Nat) : Prop := gridMax t false < q j ∨ q j < -gridMax t true
    let h (j : Nat) : Nat := drawn s.ctx.seed.toNat s.ctx.vbase.toNat 0xE (i0 + j)
    r.codes.length = xs.length ∧
    ((∃ x ∈ xs, ¬Finite F x) → r.scale = 64 * t + 63 ∧ (∀ c ∈ r.codes, c = 0) ∧ r.flags = 2 ^ 5 ∧ r.clips = 0) ∧
    ((∀ x ∈ xs, Finite F x) →
      r.scale / 64 = t ∧ X ≤ 62 ∧ (∀ x, del = some x → X = x) ∧
      (del = none → (∀ Y < X, ∃ x ∈ xs, gridMax t false * 2 ^ ((Y : Int) - 32) < |valOf F x|) ∧
        (X < 62 → ∀ x ∈ xs, |valOf F x| ≤ gridMax t false * 2 ^ ((X : Int) - 32))) ∧
      (r.flags = 0 ∨ r.flags = 2 ^ 7) ∧ (r.flags = 0 ↔ r.clips = 0) ∧
      (∃ l : List Nat, l.Nodup ∧ (∀ j, j ∈ l ↔ j < xs.length ∧ clips j) ∧ l.length = r.clips) ∧
      ∀ j < xs.length, r.codes.getD j 0 < 16 ∧ (g j = 0 → r.codes.getD j 0 = 0) ∧
        (gridMax t false < q j → g j = gridMax t false) ∧ (q j < -gridMax t true → g j = -gridMax t true) ∧
        (¬clips j → rm = 1 → ∀ c < 16, |q j - g j| < |q j - gridOf t c| ∨
          (|q j - g j| = |q j - gridOf t c| ∧ |gridOf t c| ≤ |g j|)) ∧
        (¬clips j → rm = 6 → (∀ c < 16, gridOf t c = q j → g j = q j) ∧ (g j ≠ 0 → (g j < 0 ↔ q j < 0)) ∧
          ∀ a < 16, ∀ b < 16, |gridOf t a| ≤ |q j| → |q j| < |gridOf t b| →
            (∀ c < 16, |gridOf t c| ≤ |gridOf t a| ∨ |gridOf t b| ≤ |gridOf t c|) →
            |g j| = stochastic (h j) |gridOf t a| |gridOf t b| |q j|))) ∧
  (∀ (s : State) (ct : Nat → Nat) (f : QFmt) (rm i0 : Nat) (xs : List Nat),
    (s.actor.who = .user → ∃ st, s.strand? = some st ∧ ∀ k, ct k = readN st.ct (4 * k) 4) → (s.actor.who = .mordant → ∀ k, ct k = 0) →
    let F := qfmt f
    let r := t8Block s F rm i0 xs
    let cand (k : Nat) : Prop := k < 256 ∧ Finite fmt32 (ct k)
    let a := valOf fmt32 r.scale
    let q (j : Nat) : ℚ := if a = 0 then 0 else valOf F (xs.getD j 0) / a
    let v (k : Nat) : ℚ := valOf fmt32 (ct k)
    let clips (j : Nat) : Prop := (∀ k, cand k → v k < q j) ∨ (∀ k, cand k → q j < v k)
    let h (j : Nat) : Nat := drawn s.ctx.seed.toNat s.ctx.vbase.toNat 0xF (i0 + j)
    r.codes.length = xs.length ∧
    ((∃ x ∈ xs, ¬Finite F x) → r.scale = 0x7FC00000 ∧ (∀ c ∈ r.codes, c = 0) ∧ r.flags = 2 ^ 5 ∧ r.clips = 0) ∧
    (xs ≠ [] → (∀ x ∈ xs, Finite F x) →
      (∀ x ∈ xs, |valOf F x| ≤ a) ∧ (∃ x ∈ xs, |valOf F x| = a) ∧
      (∃ l : List Nat, l.Nodup ∧ (∀ j, j ∈ l ↔ j < xs.length ∧ clips j) ∧ l.length = r.clips) ∧
      r.flags = (if r.clips = 0 then 0 else 2 ^ 7) ∧
      ∀ j < xs.length,
        let c := r.codes.getD j 0
        ((∀ k, ¬cand k) → c = 0) ∧
        ((∃ k, cand k) → cand c ∧
          ((∀ k, cand k → v k < q j) ∨ (∀ k, cand k → q j < v k) ∨ rm = 1 →
            ∀ k, cand k → |q j - v c| < |q j - v k| ∨ (|q j - v c| = |q j - v k| ∧
              (|v k| < |v c| ∨ (|v k| = |v c| ∧ c ≤ k)))) ∧
          (rm = 6 → ∀ a b, cand a → cand b → v a ≤ q j → q j ≤ v b → (∀ k, cand k → v k ≤ v a ∨ q j < v k) →
            (∀ k, cand k → v b ≤ v k ∨ v k < q j) →
            v c = stochastic (h j) (v a) (v b) (q j) ∧ ∀ k, cand k → v k = v c → c ≤ k))))

/-- R183, R185, R186, R187: A layout register is read by its fields, and is valid as the spec says. Under a valid layout the
containers have their digits, the product is that of the two containers, the result fields are its digits at the pitch or
the sums of digit products, and overflow is that some such sum does not fit max(P, WR) bits. -/
def Obligations.JoinedProducts : Prop :=
  (∀ x : Nat, x < 2 ^ 64 → let l := layoutOf x
    l.k = x % 16 ∧ l.p = x / 2 ^ 4 % 128 ∧ l.wa = x / 2 ^ 11 % 32 ∧ l.wb = x / 2 ^ 16 % 32 ∧ (l.sa = true ↔ x.testBit 21 = true) ∧
    (l.sb = true ↔ x.testBit 22 = true) ∧ l.wr = x / 2 ^ 23 % 128 ∧ l.cw = (if x.testBit 32 = true then 128 else 64) ∧
    (l.ok = true ↔ 1 ≤ l.k ∧ 1 ≤ l.p ∧ l.k * l.p ≤ l.cw ∧ 1 ≤ l.wa ∧ l.wa ≤ l.p ∧ 1 ≤ l.wb ∧ l.wb ≤ l.p ∧
      1 ≤ l.wr ∧ l.wr ≤ l.cw ∧ x / 2 ^ 30 % 4 ≠ 3 ∧ x / 2 ^ 34 = 0)) ∧
  (∀ (l : Layout) (x y : Nat) (as bs : List Int), l.ok = true → x < 2 ^ l.cw → y < 2 ^ l.cw →
    let A : Int := if l.sa then sgn l.cw x else x
    let B : Int := if l.sb then sgn l.cw y else y
    let sr := l.sa || l.sb
    let W := max l.p l.wr
    let j := joined l x y
    (∃ as, areFields l l.sa A as) ∧ (∃ bs, areFields l l.sb B bs) ∧
    (areFields l l.sa A as → areFields l l.sb B bs →
      j.prod = A * B ∧ j.f.length = 2 * l.k - 1 ∧
      (l.wr ≤ l.p → areDigits sr l.p j.f ∧ ∃ m : Int, A * B = atPitch l.p j.f + m * 2 ^ ((2 * l.k - 1) * l.p)) ∧
      (l.p < l.wr → ∀ c < 2 * l.k - 1, j.f.getD c 0 = if sr then sgn l.wr (low l.wr (sumAt as bs c)) else low l.wr (sumAt as bs c)) ∧
      (j.ovf = true ↔ ∃ c < 2 * l.k - 1, ¬areDigits sr W [sumAt as bs c]) ∧
      (j.ovf = false → ∀ c < 2 * l.k - 1, j.f.getD c 0 = sumAt as bs c)))

/-- R183, R187, R188, R189: At the head of the queue each packed instruction traps ILLINS for an invalid layout or a SEW other
than the container width, whatever VL and VSTART are, and otherwise writes each active element its result. -/
def Obligations.PackedResults : Prop :=
  ∀ (s : State) (e : Entry) (st : Strand) (k : BitVec 3) (vd va vb : VReg) (p : Pred) (ix : BitVec 5) (side : Bool),
    AtHead s e → s.actor.who = .user → s.strand? = some st → st.nv ∈ [8, 16, 32, 64] → st.pfl.getLsbD k.toNat = false →
    let l := layoutOf st.fl[k.toFin].toNat
    let vs := s.ctx.vstart.toNat
    let n := e.n
    let g := 2 ^ (e.vtype.toNat / 8 % 4)
    let j (q : Nat) := joined l (s.vget va l.cw q) (s.vget vb l.cw q)
    let act (q : Nat) : Prop := vs ≤ q ∧ q < n ∧ on s p.m q = true
    let word (q k : Nat) : Int := let x := s.vget va 32 (q * l.k + wordIx l side k); if (if side then l.sb else l.sa) then sgn 32 x else x
    let wx := if side then l.wb else l.wa
    let top : Int := if (if side then l.sb else l.sa) then 2 ^ (wx - 1) - 1 else 2 ^ wx - 1
    let bot : Int := if (if side then l.sb else l.sa) then -2 ^ (wx - 1) else 0
    let only (u : Ctx) : Prop := { u with vfile := s.ctx.vfile, fflags := s.ctx.fflags } = s.ctx
    let products : List (Instr × Bool × (Ctx → Prop)) :=
      [(.vpmulLo vd va vb k p, true, fun u => Elements s u vd l.cw n (under s p vs fun q => low l.cw (j q).prod)),
       (.vpmulHi vd va vb k p, true, fun u => Elements s u vd l.cw n (under s p vs fun q => low l.cw ((j q).prod / 2 ^ l.cw))),
       (.vpfld vd va vb k ix p, decide (ix.toNat ≤ 2 * l.k - 2),
        fun u => Elements s u vd l.cw n (under s p vs fun q => low l.cw ((j q).f.getD ix.toNat 0))),
       (.vpsplit vd va vb k p, decide (vd.toNat + (2 * l.k - 1) * g ≤ s.nv), fun u =>
        let m := maxAt s e
        n ≤ m → Elements s u vd l.cw ((2 * l.k - 1) * m) fun c =>
          if c % m < n then under s p vs (fun q => low l.cw ((j q).f.getD (c / m) 0)) (c % m) else none),
       (.vpmac vd va vb k p, decide (l.cw = 64),
        fun u => Elements s u vd 128 n (under s p vs fun q => low 128 (s.vget vd 128 q + (j q).prod)))]
    let moves : List (Instr × VReg × (Ctx → Prop) × Prop) :=
      [(.vpack side vd va k p, va, fun u => Elements s u vd l.cw n (under s p vs fun q =>
          low l.cw (atPitch l.p ((List.range l.k).map fun k => max bot (min top (word q k))))),
        ∃ q k, act q ∧ k < l.k ∧ ¬(bot ≤ word q k ∧ word q k ≤ top)),
       (.vpunpk side vd va k p, vd, fun u => ∀ ds : Nat → List Int,
          (∀ q, (ds q).length = l.k ∧ areDigits (if side then l.sb else l.sa) l.p (ds q) ∧
            ∃ m : Int, (if (if side then l.sb else l.sa) then sgn l.cw (s.vget va l.cw q) else s.vget va l.cw q) =
              atPitch l.p (ds q) + m * 2 ^ (l.k * l.p)) →
          Elements s u vd 32 (n * l.k) fun c => under s p vs (fun q => low 32 ((ds q).getD (wordIx l side (c % l.k)) 0)) (c / l.k), False)]
    (∀ x ∈ products,
      (¬(l.ok = true ∧ e.sew = l.cw ∧ x.2.1 = true) → exec x.1 s = .next (s.vtrap 0x03 0)) ∧
      (l.ok = true → e.sew = l.cw → x.2.1 = true → n ≤ vs → exec x.1 s = .next (finished s s.ctx)) ∧
      (l.ok = true → e.sew = l.cw → x.2.1 = true → vs < n → l.ov ≠ 2 ∨ (∀ q, act q → (j q).ovf = false) →
        ∃ u, exec x.1 s = .next (finished s u) ∧ x.2.2 u ∧ only u ∧
          FlagsAre s u fun b => b = 6 ∧ l.ov = 1 ∧ ∃ q, act q ∧ (j q).ovf = true) ∧
      (∀ q, l.ok = true → e.sew = l.cw → x.2.1 = true → l.ov = 2 → act q → (j q).ovf = true → (∀ r < q, act r → (j r).ovf = false) →
        ∃ u, exec x.1 s = .next ((standsAt s u q).vtrap 0x0D 0) ∧ { u with vfile := s.ctx.vfile } = s.ctx)) ∧
    (∀ x ∈ moves,
      (¬(l.ok = true ∧ e.sew = l.cw ∧ wordOk s x.2.1 e l = true) → exec x.1 s = .next (s.vtrap 0x03 0)) ∧
      (l.ok = true → e.sew = l.cw → wordOk s x.2.1 e l = true → vs < n →
        ∃ u, exec x.1 s = .next (finished s u) ∧ x.2.2.1 u ∧ only u ∧ FlagsAre s u fun b => b = 7 ∧ x.2.2.2))

/-- R142, R143, R144, R152, R153, R154, R229, R235, R238, R253, R276, R326: What one access of the vector stream does where nothing stops
it: a load reads the bytes and changes none, a load of major 0x30 of a stable page, no peer's (R238), taking them from the stable cache
where a cache-way bank holds the line, with no access to L2 and POISON where that bank's chunk is poisoned (R326), and else keeping the
line there; a store changes exactly its bytes and raises the line's version; a read-and-write returns the old value and stores the new; a
VSCC element stores only where its link is intact; an access to a FIFO port pops the oldest bytes or pushes its own, waits, or traps
LRANGE where the form may not reach a port. That Mordant's loads, and loads of the host tier, go through the stable cache too, which bank
a line takes, and that a poisoned line is not kept, is the model's choice (assumption 28), and so is that a block which stands in the
other form than its page's is first brought into that form, poison with it (assumption 55); hint 3 stands for an access that is no load
of major 0x30. -/
def Obligations.VectorAccesses : Prop :=
  (∀ (s u : State) (kd : Kind) (hint ea n key : Nat) (fifo : Bool) (pl : Place) (y : Nat), Memory.wf s.mem = true →
    ReadyOn .v s u kd ea n key pl →
    let hinted : Place := match pl with | .xl x => .xl { x with pol := hintPol x.pol hint } | p => p
    let stable := match pl with | .xl x => decide (x.pol = 3 ∧ hint ≠ 3 ∧ x.tier ≠ 3) | _ => false
    let line := key / 64 * 64
    let way (b : Nat) : Bool := decide (s.me.modes.toNat / 4 ^ b % 4 = 1)
    let ways := (List.range 32).filter way
    let kept := if stable = false ∨ hint = 2 then none else s.me.stable.find? fun l => l.1 = line && way l.2.2
    -- a line's row, by its offset in its tier (R23)
    let rowOf (l : Nat) : Nat :=
      ((s.partOfCore s.actor.core).map fun p => l % 2 ^ 60 - p.first * [48000000000, 256000000000].getD (l / 2 ^ 60) 0).getD 0 / 64 % 3072
    let row := s.me.stable.filter fun l => rowOf l.1 = rowOf line
    let taken (b : Nat) : Bool := row.any fun l => l.2.2 = b
    let load := s.acc .v hint .r true fifo ea n anyPlace fun _ => none
    (∀ l, kd = .r → kept = some l → let bad := s.poisonedAt (byteOfBank s.actor.core l.2.2 (64 * rowOf line)) 64
      (bad = true → load = .fault ⟨0x11, ea⟩ u) ∧
      (bad = false → load = .ok (u.updMe fun c => { c with stable := l :: c.stable.filter fun e => e.1 ≠ line })
        (l.2.1 / 256 ^ (key % 64) % 256 ^ n) (s.version key))) ∧
    (kd = .r → kept = none → s.poisonedAt key n = true → load = .fault ⟨0x11, ea⟩ u) ∧
    (kd = .r → kept = none → s.poisonedAt key n = false → ∃ t ver, load = .ok t (readN s.mem key n) ver ∧ Touched s t ∧ SameMem s t ∧
      (∀ x, pl = .xl x → ver = s.version key) ∧
      (stable = false ∨ hint ≠ 0 ∨ ways = [] ∨ s.poisonedAt line 64 = true → t.me.stable = s.me.stable) ∧
      (stable = true → hint = 0 → ways ≠ [] → s.poisonedAt line 64 = false → ∃ b,
        t.me.stable = (line, readN s.mem line 64, b) :: s.me.stable.filter (fun l => !(l ∈ row && decide (l.2.2 = b))) ∧
        ((b ∈ ways ∧ taken b = false ∧ ∀ c ∈ ways, c < b → taken c = true) ∨
          ((∀ c ∈ ways, taken c = true) ∧ row.getLast?.map (fun l => l.2.2) = some b)))) ∧
    (kd = .w → ∃ t ver, s.acc .v hint .w false fifo ea n anyPlace (fun _ => some y) = .ok t (readN s.mem key n) ver ∧
      Touched s t ∧ Stored s t key n y ∧ Bumped s t key hinted) ∧
    (∀ f : Nat → Nat, kd = .w → s.poisonedAt key n = false → (∃ x, pl = .xl x ∧ x.tier ≠ 2) →
      ∃ t ver, s.acc .v 0 .w true false ea n redPlace (fun old => some (f old)) = .ok t (readN s.mem key n) ver ∧
        Touched s t ∧ Stored s t key n (f (readN s.mem key n)) ∧ Bumped s t key pl) ∧
    (∀ x lk, kd = .w → pl = .xl x → x.pol ≠ 2 → x.tier < 2 → aligned ea n →
      let wins := lk = some (ea / 64 * 64, s.version key) ∧ s.version key ≠ .ofNat 64 (2 ^ 64 - 1)
      (wins → ∃ t, vsccElem ea n y lk s = .ok t 1 0 ∧ Touched s t ∧ Stored s t key n y ∧ t.version key = nextVersion (s.version key)) ∧
      (¬wins → ∃ t, vsccElem ea n y lk s = .ok t 0 0 ∧ Touched s t ∧ SameMem s t ∧ t.version key = s.version key))) ∧
  -- a block that stands in the other form than its page's is first brought into that form
  (∀ (s u : State) (x : Xl) (kd : Kind) (ea n y : Nat), Memory.wf s.mem = true →
    placeOf s s.actor.core s.isM .v kd ea n = (u, .ok (.xl x)) → (x.tier = 2 ∨ ∀ l, u.l2Line? x.key = some l → l.cmp.toNat = x.cmp) →
    let w := u.inForm x
    (kd = .r → w.poisonedAt x.key n = false → ∃ t ver, s.acc .v 3 .r true false ea n anyPlace (fun _ => none) = .ok t (readN w.mem x.key n) ver ∧
      Touched s t ∧ SameMem w t) ∧
    (kd = .r → w.poisonedAt x.key n = true → s.acc .v 3 .r true false ea n anyPlace (fun _ => none) = .fault ⟨0x11, ea⟩ u) ∧
    (kd = .w → ∃ t ver, s.acc .v 3 .w false false ea n anyPlace (fun _ => some y) = .ok t (readN w.mem x.key n) ver ∧
      Touched s t ∧ Stored w t x.key n y)) ∧
  ∀ (s u : State) (kd : Kind) (hint ea n b y : Nat), Memory.wf s.mem = true →
    let c := s.actor.core
    let q := fifoBytes s c b
    placeOf s c s.isM .v kd ea n = (u, .ok (.fifo b)) →
    (kd = .r → s.acc .v hint .r true false ea n anyPlace (fun _ => none) = .fault ⟨0x0C, ea⟩ u) ∧
    (kd = .w → s.acc .v hint .w false false ea n anyPlace (fun _ => some y) = .fault ⟨0x0C, ea⟩ u) ∧
    (sbDelays u c s.actor.seq c.val (ea - localBase) n (decide (kd = .w)) = false →
      (kd = .r → q.length < n → s.acc .v hint .r true true ea n anyPlace (fun _ => none) = .wait u) ∧
      (kd = .r → n ≤ q.length → (∀ key ∈ (fifoKeys s c b).take n, s.poisonedAt key 1 = false) →
        ∃ t, s.acc .v hint .r true true ea n anyPlace (fun _ => none) = .ok t (bytesNat (q.take n)) 0 ∧ Touched s t ∧ SameMem s t ∧
          fifoBytes t c b = q.drop n ∧ OnlyFifo s t c b) ∧
      (kd = .w → 196608 < q.length + n → s.acc .v hint .w false true ea n anyPlace (fun _ => some y) = .wait u) ∧
      (kd = .w → q.length + n ≤ 196608 →
        ∃ t, s.acc .v hint .w false true ea n anyPlace (fun _ => some y) = .ok t 0 0 ∧ Touched s t ∧ OnlyFifo s t c b ∧
          fifoBytes t c b = q ++ (List.range n).map fun i => .ofNat 8 (y / 256 ^ i)))

/-- R110, R112, R148, R149, R150, R152, R153, R219: Where every active element can perform, a vector load or store at the head of the
queue completes, its elements in increasing order at the addresses of its form; a misaligned element, a fault or a wait leaves VSTART at
it, with the elements before it done; with VSTART not below VL it only retires. A store of poisoned data takes every other fault of the
element first, and else traps POISON, which is R326 as assumption 22 reads it. That the unordered forms too perform their elements in
increasing order, none above a fault, is the model's choice (assumption 8), and that a store ignores the zeroing bit is assumption 23. -/
def Obligations.VectorLoadsAndStores : Prop :=
  (∀ (s : State) (e : Entry) (i : Instr) (l : MemLane) (st : Nat → State) (v : Nat → Nat) (ver : Nat → Dword) (m : Nat),
    AtVcp s e → s.actor.stop = none → s.ctx.pmasks = 0 → storeLane s e i = some l → l.runs = true →
    let vs := s.ctx.vstart.toNat
    let act (j : Nat) : Bool := on s l.p.m j
    let size := e.sew / 8
    let store (j : Nat) (t : State) := t.acc .v l.hint .w false l.fifo (l.ea j) size anyPlace fun _ => some (s.vget l.v e.sew j)
    let stands (u : State) : State := standsAt u s.ctx m
    vs ≤ m → m < e.n → act m = true → (∀ j, vs ≤ j → j ≤ m → act j = true → ∀ x ∈ l.ix, s.vpois x.1 x.2 j = false) →
    (∀ j, vs ≤ j → j < m → act j = true → aligned (l.ea j) size ∧ s.vpois l.v e.sew j = false) → Chain s act store vs m st v ver →
    s.vpois l.v e.sew m = true →
    (¬aligned (l.ea m) size → exec i s = .next ((stands (st m)).vtrap 0x05 (l.ea m))) ∧
    (∀ t f, aligned (l.ea m) size → store m (st m) = .fault f t → exec i s = .next ((stands t).vtrap f.cause f.addr)) ∧
    (∀ t x y, aligned (l.ea m) size → store m (st m) = .ok t x y →
      exec i s = .next ((stands (st m)).vtrap 0x11 ((l.v.toNat * s.vregBytes + m * size) / s.vregBytes)))) ∧
  ∀ (s : State) (e : Entry) (i : Instr) (l : MemLane) (st : Nat → State) (v : Nat → Nat) (ver : Nat → Dword) (m : Nat),
    AtHead s e →
    let vs := s.ctx.vstart.toNat
    let n := e.n
    let act (j : Nat) : Bool := on s l.p.m j
    let size := e.sew / 8
    let load (j : Nat) (t : State) := t.acc .v l.hint .r true l.fifo (l.ea j) size anyPlace fun _ => none
    let store (j : Nat) (t : State) := t.acc .v l.hint .w false l.fifo (l.ea j) size anyPlace fun _ => some (s.vget l.v e.sew j)
    let isLoad := (loadLane s e i).isSome
    let acc := if isLoad then load else store
    let upTo (u : Ctx) (m : Nat) : Prop := (isLoad = true → Elements s u l.v e.sew m (under s l.p vs v)) ∧
      { u with vfile := if isLoad then s.ctx.vfile else u.vfile } = s.ctx
    loadLane s e i = some l ∨ storeLane s e i = some l →
    (n ≤ vs → exec i s = .next (finished s s.ctx)) ∧
    (vs < n → l.runs = false → exec i s = .next (s.vtrap 0x03 0)) ∧
    (vs < n → l.runs = true → m ≤ n → (∀ j, vs ≤ j → j < m → act j = true → aligned (l.ea j) size) → Chain s act acc vs m st v ver →
      (m = n → ∃ u, upTo u n ∧ exec i s = .next (finished (st n) u)) ∧
      (vs ≤ m → m < n → act m = true → ¬aligned (l.ea m) size →
        ∃ u, upTo u m ∧ exec i s = .next ((standsAt (st m) u m).vtrap 0x05 (l.ea m))) ∧
      (∀ t f, vs ≤ m → m < n → act m = true → aligned (l.ea m) size → acc m (st m) = .fault f t →
        ∃ u, upTo u m ∧ exec i s = .next ((standsAt t u m).vtrap f.cause f.addr)) ∧
      (∀ t, vs ≤ m → m < n → act m = true → aligned (l.ea m) size → acc m (st m) = .wait t →
        ∃ u, upTo u m ∧ exec i s = .next (standsAt t u m)))

/-- R151, R152, R180: VSLD moves the elements down, pads in padded mode where the coordinate lies outside PADLO to PADHI, and refills
the others from memory; with VSTART not below VL it only retires. TABLD loads the words of the code table from VSTART on, in increasing
order, which is the model's choice (assumption 8), and so is that it leaves VSTART at 0 and, begun at 256 or more, loads nothing
(assumption 76). A misaligned element or word, a fault or a wait leaves VSTART at it, with what comes before it done. -/
def Obligations.SlidesAndTables : Prop :=
  ∀ (s : State) (e : Entry) (v : VReg) (a b c : SReg) (k : BitVec 16) (h : Hint) (pad : Bool) (st : Nat → State)
    (x : Nat → Nat) (ver : Nat → Dword) (m : Nat), AtHead s e →
    let vs := s.ctx.vstart.toNat
    let n := e.n
    let w := e.sew
    let keep := n - min n e.b.toNat
    let at0 (j : Nat) : Int := e.c.toInt + (j - keep : Nat)
    let padded (j : Nat) : Bool := pad && (decide (at0 j < s.ctx.padlo.toInt) || decide (s.ctx.padhi.toInt ≤ at0 j))
    let loads (j : Nat) : Bool := decide (keep ≤ j) && !padded j
    let ea (j : Nat) := (baseAt e k + (j - keep) * (w / 8)) % 2 ^ 64
    let padval := if w ≤ 64 then s.ctx.padval.toNat % 2 ^ w else (BitVec.ofInt 128 s.ctx.padval.toInt).toNat
    let word (j : Nat) := (e.c.toNat + 4 * j) % 2 ^ 64
    let slide (j : Nat) (t : State) := t.acc .v (hintCode h) .r true false (ea j) (w / 8) anyPlace fun _ => none
    let table (j : Nat) (t : State) := t.acc .v 3 .r true false (word j) 4 anyPlace fun _ => none
    let slid (u : Ctx) (m : Nat) : Prop := { u with vfile := s.ctx.vfile } = s.ctx ∧ Elements s u v w m fun j => if j < vs then none else
      some (if j < keep then s.vget v w (j + e.b.toNat) else if padded j then padval else x j)
    (n ≤ vs → exec (.vsld v a b c k h pad) s = .next (finished s s.ctx)) ∧
    (vs < n → (∀ j, vs ≤ j → j < n → loads j = true → aligned (ea j) (w / 8)) → Chain s loads slide vs n st x ver →
      ∃ u, exec (.vsld v a b c k h pad) s = .next (finished (st n) u) ∧ slid u n) ∧
    (vs ≤ m → m < n → loads m = true → (∀ j, vs ≤ j → j < m → loads j = true → aligned (ea j) (w / 8)) → Chain s loads slide vs m st x ver →
      (¬aligned (ea m) (w / 8) → ∃ u, slid u m ∧ exec (.vsld v a b c k h pad) s = .next ((standsAt (st m) u m).vtrap 0x05 (ea m))) ∧
      (∀ t f, aligned (ea m) (w / 8) → slide m (st m) = .fault f t →
        ∃ u, slid u m ∧ exec (.vsld v a b c k h pad) s = .next ((standsAt t u m).vtrap f.cause f.addr)) ∧
      (∀ t, aligned (ea m) (w / 8) → slide m (st m) = .wait t →
        ∃ u, slid u m ∧ exec (.vsld v a b c k h pad) s = .next (standsAt t u m))) ∧
    ∀ y : Strand, s.actor.who = .user → s.strand? = some y → Memory.wf y.ct = true →
      let loaded (ct : Bytes) (m : Nat) : Prop := ∀ q, readByte ct q =
        if 4 * vs ≤ q ∧ q < 4 * m then .ofNat 8 (x (q / 4) / 256 ^ (q % 4)) else readByte y.ct q
      let stands (t : State) (ct : Bytes) : State := standsAt (t.updStrand fun z => { z with ct := ct }) s.ctx m
      (256 ≤ vs → exec (.tabld c) s = .next (finished s s.ctx)) ∧
      (vs ≤ 256 → (∀ j, vs ≤ j → j < 256 → aligned (word j) 4) → Chain s (fun _ => true) table vs 256 st x ver →
        ∃ ct, exec (.tabld c) s = .next (finished ((st 256).updStrand fun z =>
            { z with ct := ct, pct := if vs = 0 then false else z.pct }) s.ctx) ∧ loaded ct 256) ∧
      (vs ≤ m → m < 256 → (∀ j, vs ≤ j → j < m → aligned (word j) 4) → Chain s (fun _ => true) table vs m st x ver →
        (¬aligned (word m) 4 → ∃ ct, loaded ct m ∧ exec (.tabld c) s = .next ((stands (st m) ct).vtrap 0x05 (word m))) ∧
        (∀ t f, aligned (word m) 4 → table m (st m) = .fault f t →
          ∃ ct, loaded ct m ∧ exec (.tabld c) s = .next ((stands t ct).vtrap f.cause f.addr)) ∧
        (∀ t, aligned (word m) 4 → table m (st m) = .wait t → ∃ ct, loaded ct m ∧ exec (.tabld c) s = .next (stands t ct)))

/-- R152, R251, R252, R253, R254, R255, R256: VGL loads its elements and its link set holds their lines and versions; VSCC writes its
successes to a mask and discards the link set; the remote reductions perform one read-and-write for each active element. A misaligned
element, and one that faults, stops each of the three with VSTART at it and the elements before it done: ATTRC for VGL and VSCC on an
uncached page, the host tier, a peer's or a window (R254), and for VRRED on the host tier or a window (R256). With VSTART not below VL
each only retires, a VSCC discarding the link set and a VGL from VSTART 0 too. One active element whose access can perform completes each.
That VGL performs its elements in increasing order is the model's choice (assumption 8), and so is that Mordant, which may execute all
three (R35), holds no link set, so that its VGL only loads and its VSCC elements fail (assumption 34). -/
def Obligations.LinksAndReductions : Prop :=
  ∀ (s : State) (e : Entry) (v vi vs' : VReg) (a : SReg) (k : BitVec 16) (iw : IW) (b : Bool) (md : MReg) (p : Pred) (op : RedOp)
    (src : RedSrc) (st : Nat → State) (x : Nat → Nat) (ver : Nat → Dword), AtHead s e → (s.actor.who = .user → s.strand?.isSome) →
    let vs := s.ctx.vstart.toNat
    let n := e.n
    let size := e.sew / 8
    let ea := indexAt s e k vi iw b
    let target (j : Nat) := (baseAt e k + 4 * j) % 2 ^ 64
    let act (j : Nat) : Bool := on s p.m j
    let val (j old : Nat) : Nat := match op with
      | .fadd => (addFV fmt32 1 (unpack fmt32 old) (redSource s src v vs' j)).1
      | .iadd => (old + s.vget v 32 j) % 2 ^ 32
      | .or => old ||| s.vget v 32 j
    let vgl := exec (.vgl v a vi k iw b p) s
    let vscc := exec (.vscc v a vi k iw b md p) s
    let vrred := exec (.vrred op src v a vs' k p) s
    let glAt (j : Nat) (t : State) := t.acc .v 3 .r true false (ea j) size linkPlace fun _ => none
    let ccAt (j : Nat) (t : State) := vsccElem (ea j) size (s.vget v e.sew j) (linkOf (linksOf s) j) t
    let redAt (j : Nat) (t : State) := t.acc .v 0 .w true false (target j) 4 redPlace fun old => some (val j old)
    let loaded (u : Ctx) (m : Nat) : Prop := { u with vfile := s.ctx.vfile } = s.ctx ∧ Elements s u v e.sew m (under s p vs x)
    let bits (u : Ctx) (m : Nat) : Prop := { u with masks := s.ctx.masks } = s.ctx ∧ Bits s u md m fun j =>
      if j < vs then none else if act j then some (decide (x j = 1)) else if p.z then some false else none
    (∀ (t u : State) (pl : Place) (j : Nat),
      (aligned (ea j) size → placeOf t t.actor.core t.isM .v .r (ea j) size = (u, .ok pl) → (∀ z, pl = .xl z → z.pol = 2 ∨ 2 ≤ z.tier) →
        glAt j t = .fault ⟨0x0A, ea j⟩ u) ∧
      (aligned (ea j) size → placeOf t t.actor.core t.isM .v .w (ea j) size = (u, .ok pl) →
        (∀ z, pl = .xl z → z.pol = 2 ∨ 2 ≤ z.tier) → ccAt j t = .fault ⟨0x0A, ea j⟩ u) ∧
      (placeOf t t.actor.core t.isM .v .w (target j) 4 = (u, .ok pl) → (∀ z, pl = .xl z → z.tier = 2) →
        redAt j t = .fault ⟨0x0A, target j⟩ u)) ∧
    (∀ m, vs ≤ m → m < n → act m = true →
      ((∀ j, vs ≤ j → j < m → act j = true → aligned (ea j) size) → Chain s act glAt vs m st x ver →
        (¬aligned (ea m) size → ∃ u ls, vgl = .next ((standsAt (withLinks (st m) ls) u m).vtrap 0x05 (ea m)) ∧ loaded u m) ∧
        (∀ t f, aligned (ea m) size → glAt m (st m) = .fault f t →
          ∃ u ls, vgl = .next ((standsAt (withLinks t ls) u m).vtrap f.cause f.addr) ∧ loaded u m)) ∧
      (Chain s act ccAt vs m st x ver →
        (¬aligned (ea m) size → ∃ u, vscc = .next ((standsAt (st m) u m).vtrap 0x05 (ea m)) ∧ bits u m) ∧
        (∀ t f, ccAt m (st m) = .fault f t → ∃ u, vscc = .next ((standsAt t u m).vtrap f.cause f.addr) ∧ bits u m)) ∧
      ((∀ j, vs ≤ j → j < m → act j = true → aligned (target j) 4) → Chain s act redAt vs m st x ver →
        (¬aligned (target m) 4 → vrred = .next ((standsAt (st m) s.ctx m).vtrap 0x05 (target m))) ∧
        (∀ t f, aligned (target m) 4 → redAt m (st m) = .fault f t → vrred = .next ((standsAt t s.ctx m).vtrap f.cause f.addr)))) ∧
    (n ≤ vs →
      vgl = .next (finished (if vs = 0 then withLinks s [] else s) s.ctx) ∧ vscc = .next (finished (withLinks s []) s.ctx) ∧
      vrred = .next (finished s s.ctx)) ∧
    (vs < n →
      ((∀ j, vs ≤ j → j < n → act j = true → aligned (ea j) size) → Chain s act glAt vs n st x ver →
        ∃ u ls, vgl = .next (finished (withLinks (st n) ls) u) ∧ loaded u n ∧
          (s.actor.who = .user → ∀ j, linkOf ls j = if vs ≤ j ∧ j < n then (if act j then some (ea j / 64 * 64, ver j) else none)
            else if vs = 0 then none else linkOf (linksOf s) j)) ∧
      (Chain s act ccAt vs n st x ver → ∃ u, vscc = .next (finished (withLinks (st n) []) u) ∧ bits u n) ∧
      ((∀ j, vs ≤ j → j < n → act j = true → aligned (target j) 4) → Chain s act redAt vs n st x ver → vrred = .next (finished (st n) s.ctx))) ∧
    -- one active element, its access ready to perform: each completes
    (∀ (u : State) (z : Xl), n = vs + 1 → act vs = true → z.pol ≠ 2 → z.tier < 2 → s.poisonedAt z.key (max size 4) = false →
      Memory.wf s.mem = true →
      (aligned (ea vs) size → ReadyOn .v s u .r (ea vs) size z.key (.xl z) → ∃ w t, Touched s w ∧ SameMem s w ∧
        vgl = .next t ∧ { t with cores := w.cores } = w ∧ t.ctx.queue = s.ctx.queue.drop 1 ∧ t.ctx.vstart = 0 ∧
        Elements s t.ctx v e.sew n (under s p vs fun _ => readN s.mem z.key size) ∧
        (s.actor.who = .user → linkOf (linksOf t) vs = some (ea vs / 64 * 64, s.version z.key))) ∧
      (aligned (ea vs) size → ReadyOn .v s u .w (ea vs) size z.key (.xl z) →
        let wins := linkOf (linksOf s) vs = some (ea vs / 64 * 64, s.version z.key) ∧ s.version z.key ≠ .ofNat 64 (2 ^ 64 - 1)
        ∃ t, vscc = .next t ∧ t.ctx.queue = s.ctx.queue.drop 1 ∧ t.ctx.vstart = 0 ∧ linksOf t = [] ∧
          (wins → Stored s t z.key size (s.vget v e.sew vs) ∧ t.version z.key = nextVersion (s.version z.key)) ∧
          (¬wins → SameMem s t ∧ t.version z.key = s.version z.key) ∧
          Bits s t.ctx md n fun j => if j < vs then none else some (decide wins)) ∧
      (aligned (target vs) 4 → ReadyOn .v s u .w (target vs) 4 z.key (.xl z) →
        ∃ w t, Touched s w ∧ vrred = .next t ∧ t = finished w s.ctx ∧ Stored s t z.key 4 (val vs (readN s.mem z.key 4)) ∧
          Bumped s t z.key (.xl z)))

/-- R169, R282, R283, R284, R285: The code of a block of Sepia data, rounded to nearest or stochastically, the elements it restores, and
what VSTASH and VRESTORE do block by block: a block that is misaligned, that faults, or that lies elsewhere than on a Sepia page of memory
or a peer's, stops them with VSTART at its first element and the blocks before it done. That VRESTORE's blocks perform in increasing order
is the model's choice (assumption 8), and so is that a block's code field is checked, and written, before its side byte (assumption 35).
-/
def Obligations.SepiaBlocks : Prop :=
  (∀ (s : State) (s4 f32 sr : Bool) (i0 : Nat) (xs : List Nat), xs.length = 64 →
    let F := sepiaFmt f32
    let r := stashBlock s s4 sr F i0 xs
    let val (j : Nat) := valOf F (xs.getD j 0)
    let back (j : Nat) := restoreElem s4 F r.1 r.2 j
    let E : Int := (r.1 : Int) - 128
    let b := if s4 then 4 else 8
    let code (j : Nat) : Nat := r.2 / 2 ^ (b * j) % 2 ^ b
    -- the magnitude in units of the code, and the bits drawn for it
    let q (j : Nat) : ℚ := |val j| * 2 ^ ((if s4 then 2 else 6) - E)
    let h (j : Nat) : Nat := drawn s.ctx.seed.toNat s.ctx.vbase.toNat (if s4 then 0x11 else 0x10) (i0 + j)
    let rounded (j : Nat) : Int := if sr then ⌊stochastic (h j) ⌊q j⌋ (⌊q j⌋ + 1) (q j)⌋ else ⌊q j + 1 / 2⌋
    ((∃ x ∈ xs, ¬Finite F x) → r.1 = 1 ∧ r.2 = 0) ∧
    ((∀ x ∈ xs, Finite F x ∧ valOf F x = 0) → r.1 = 0 ∧ r.2 = 0) ∧
    ((∀ x ∈ xs, Finite F x) → (∃ x ∈ xs, valOf F x ≠ 0) →
      8 ≤ r.1 ∧ r.1 ≤ 255 ∧ r.2 < 2 ^ (if s4 then 256 else 512) ∧
      (∀ x ∈ xs, |valOf F x| < 2 ^ (E + 1)) ∧ ((∃ x ∈ xs, 2 ^ E ≤ |valOf F x|) ∨ E = -120) ∧
      ∀ j < 64, |val j - valOf F (back j)| ≤ 2 ^ (E - if s4 then 2 else 6) ∧
        ((code j % 2 ^ (b - 1) : Nat) : Int) = min (2 ^ (b - 1) - 1) (rounded j) ∧
        (2 ^ (b - 1) ≤ code j ↔ val j < 0 ∧ code j % 2 ^ (b - 1) ≠ 0))) ∧
  (∀ (s4 f32 : Bool) (side codes j : Nat), side < 256 →
    let F := sepiaFmt f32
    let b := if s4 then 4 else 8
    let c := codes / 2 ^ (b * j) % 2 ^ b
    let r := restoreElem s4 F side codes j
    (side = 0 → r = 0) ∧ (0 < side → side < 8 → r = canonNaN F) ∧
    (8 ≤ side → Finite F r ∧ valOf F r = (if 2 ^ (b - 1) ≤ c then -1 else 1) * (c % 2 ^ (b - 1) : Nat) *
      2 ^ ((side : Int) - 128 - if s4 then 2 else 6))) ∧
  (∀ (s u : State) (kd : Kind) (wr : Bool) (cb code side : Nat),
    let places := stashPlaces s kd wr cb code side
    let coded (p : Place) : Prop := ∃ x, p = .xl x ∧ x.cmp = 2 ∧ x.tier ≠ 2
    (code % cb ≠ 0 → places = (s, .error ⟨0x05, code⟩)) ∧
    (∀ f, code % cb = 0 → placeOf s s.actor.core s.isM .v kd code cb = (u, .error f) → places = (u, .error f)) ∧
    ∀ p, code % cb = 0 → placeOf s s.actor.core s.isM .v kd code cb = (u, .ok p) →
      (¬coded p → places = (u, .error ⟨0x0A, code⟩)) ∧
      (∀ w f, coded p → placeOf u u.actor.core u.isM .v kd side 1 = (w, .error f) → places = (w, .error f)) ∧
      (∀ w q, coded p → placeOf u u.actor.core u.isM .v kd side 1 = (w, .ok q) → ¬coded q → places = (w, .error ⟨0x0A, side⟩))) ∧
  (∀ (s : State) (e : Entry) (y : Strand) (v : VReg) (a b : SReg) (k : BitVec 16) (s4 f32 sr : Bool) (st ts : Nat → State)
    (x z : Nat → Xl) (m : Nat), AtHead s e → s.actor.who = .user → s.strand? = some y → e.n % 64 = 0 →
    let vs := s.ctx.vstart.toNat
    let F := sepiaFmt f32
    let cb := if s4 then 32 else 64
    let code (q : Nat) := (baseAt e k + q * cb) % 2 ^ 64
    let side (q : Nat) := (e.b.toNat + q) % 2 ^ 64
    let reachTo (kd : Kind) (wr : Bool) (n : Nat) : Prop := st (vs / 64) = s ∧
      ∀ q, vs / 64 ≤ q → q < n → stashPlaces (st q) kd wr cb (code q) (side q) = (ts q, .ok (x q, z q))
    let reach (kd : Kind) (wr : Bool) : Prop := reachTo kd wr (e.n / 64)
    let stored (n : Nat) : Prop := ∀ q, vs / 64 ≤ q → q < n →
      let r := stashBlock s s4 sr F (64 * q) ((List.range 64).map fun j => s.vget v F.w (64 * q + j))
      st (q + 1) = (((ts q).writeKey (x q).key cb r.2).writeKey (z q).key 1 r.1).updMe fun c =>
        { c with l1 := c.l1.filter fun l => decide (l.1 ≠ (x q).key / 64 * 64) && decide (l.1 ≠ (z q).key / 64 * 64) }
    let clean (n : Nat) : Prop := ∀ q, vs / 64 ≤ q → q < n → (ts q).poisonedAt (x q).key cb = false ∧ (ts q).poisonedAt (z q).key 1 = false
    let sideOf (q : Nat) := readN (ts q).mem (z q).key 1
    let restored (u : Ctx) (n : Nat) : Prop := { u with vfile := s.ctx.vfile, fflags := s.ctx.fflags } = s.ctx ∧
      Elements s u v F.w (64 * n) (fun j => if j < vs then none else
        some (restoreElem s4 F (sideOf (j / 64)) (readN (ts (j / 64)).mem (x (j / 64)).key cb) (j % 64))) ∧
      FlagsAre s u fun f => f = 5 ∧ ∃ q, vs / 64 ≤ q ∧ q < n ∧ 0 < sideOf q ∧ sideOf q < 8
    (e.n ≤ vs → e.n = 0 ∨ vs % 64 = 0 → exec (.vstash v a b k s4 f32 sr) s = .next (finished s s.ctx) ∧
      exec (.vrestore v a b k s4 f32) s = .next (finished s s.ctx)) ∧
    (vs % 64 = 0 → vs / 64 ≤ m → m < e.n / 64 →
      (∀ t f, reachTo .w true m → stored m → stashPlaces (st m) .w true cb (code m) (side m) = (t, .error f) →
        exec (.vstash v a b k s4 f32 sr) s = .next ((standsAt t s.ctx (64 * m)).vtrap f.cause f.addr)) ∧
      (reachTo .r false m → (∀ q, vs / 64 ≤ q → st (q + 1) = ts q) → clean m →
        (∀ t f, stashPlaces (st m) .r false cb (code m) (side m) = (t, .error f) →
          ∃ u, restored u m ∧ exec (.vrestore v a b k s4 f32) s = .next ((standsAt t u (64 * m)).vtrap f.cause f.addr)) ∧
        (∀ t c d, stashPlaces (st m) .r false cb (code m) (side m) = (t, .ok (c, d)) →
          t.poisonedAt c.key cb = true ∨ t.poisonedAt d.key 1 = true →
          ∃ u, restored u m ∧ exec (.vrestore v a b k s4 f32) s =
            .next ((standsAt t u (64 * m)).vtrap 0x11 (if t.poisonedAt c.key cb = true then code m else side m))))) ∧
    (vs % 64 ≠ 0 → 0 < e.n → exec (.vstash v a b k s4 f32 sr) s = .next (s.vtrap 0x03 0) ∧
      exec (.vrestore v a b k s4 f32) s = .next (s.vtrap 0x03 0)) ∧
    (vs % 64 = 0 → vs < e.n → reach .w true → stored (e.n / 64) →
      exec (.vstash v a b k s4 f32 sr) s = .next (finished (st (e.n / 64)) s.ctx)) ∧
    (vs % 64 = 0 → vs < e.n → reach .r false → (∀ q, vs / 64 ≤ q → st (q + 1) = ts q) →
      clean (e.n / 64) → ∃ u, exec (.vrestore v a b k s4 f32) s = .next (finished (st (e.n / 64)) u) ∧ restored u (e.n / 64)))

/-- R165, R166, R167, R200, R201: An A80 encoding has the value the spec gives it. Rounding to A80 gives the smallest exponent at which the
significand fits, rounded to nearest, ties away from zero, with NX when inexact and infinity with OF and NX above the range. Addition
rounds the exact sum once, with the flags of that rounding; an infinite operand gives that infinity, and a NaN or infinities of both signs
the NaN, these with NV; NF is raised for each that is not finite. The sum of a unit is exact; it is an infinity where a product is one;
it is NaN where a product is, with NV just for a signalling operand, and NaN with NV where a product is 0 × ∞ or infinities of both signs
occur, beside a NaN too. The readout rounds the value once to the nearest of its format, with the flags of that rounding and an infinity
on overflow; an infinity stays one and a NaN becomes the canonical one, with NF. TWR's value is exact. -/
def Obligations.AccumulatorRules : Prop :=
  (∀ (m e : Int) (r : Nat × Nat), r = a80Round m e →
    let x : ℚ := m * 2 ^ e
    let E : Nat := r.1 / 2 ^ 64
    let S : ℚ := sgn 64 r.1
    (m = 0 → r = (0, 0)) ∧
    (m ≠ 0 → E < 0xFFFF →
      let p := x * 2 ^ (16445 - (E : Int))
      |S - p| ≤ 1 / 2 ∧ (|S - p| = 1 / 2 → |p| < |S|) ∧ (r.2.testBit 0 = true ↔ S ≠ p) ∧ r.2 < 2 ∧
      ∀ F < E, x * 2 ^ (16445 - (F : Int)) ≤ -2 ^ 63 - 1 / 2 ∨ 2 ^ 63 - 1 / 2 ≤ x * 2 ^ (16445 - (F : Int))) ∧
    (m ≠ 0 → 0xFFFF ≤ E → r = (0xFFFF * 2 ^ 64 + (if m < 0 then 2 ^ 64 - 1 else 1), 2 ^ 2 + 1) ∧
      (x * 2 ^ (-49089 : Int) ≤ -2 ^ 63 - 1 / 2 ∨ 2 ^ 63 - 1 / 2 ≤ x * 2 ^ (-49089 : Int)))) ∧
  (∀ x : Nat, x < 2 ^ 80 →
    let S := x % 2 ^ 64
    (x / 2 ^ 64 < 0xFFFF → (∃ n m e, a80Val x = .fin n m e) ∧ ratOf (a80Val x) = a80Rat x) ∧
    (x / 2 ^ 64 = 0xFFFF → a80Val x = if S = 1 then .inf false else if S = 2 ^ 64 - 1 then .inf true else .nan false)) ∧
  (∀ (x : Nat) (n : Bool) (m : Nat) (e : Int), x < 2 ^ 80 → x / 2 ^ 64 < 0xFFFF →
    ∃ (k q : Int), (k : ℚ) * 2 ^ q = a80Rat x + ratOf (.fin n m e) ∧ (a80Add x (.fin n m e)).1 = (a80Round k q).1 ∧
      (a80Add x (.fin n m e)).2 = (a80Round k q).2 + if 2 ^ 2 ≤ (a80Round k q).2 then 2 ^ 5 else 0) ∧
  (∀ (a : Nat) (y : FV), (∃ b, a80Val a = .nan b) ∨ (∃ b, y = .nan b) ∨ (∃ b, a80Val a = .inf b ∧ y = .inf (!b)) →
    a80Add a y = (0xFFFF * 2 ^ 64, 2 ^ 5 + if ∃ b, a80Val a = .inf b ∧ y = .inf (!b) then 2 ^ 4 else 0)) ∧
  (∀ (a : Nat) (y : FV) (b : Bool), let finite (z : FV) : Prop := ∃ n m e, z = .fin n m e
    (a80Val a = .inf b ∧ (y = .inf b ∨ finite y)) ∨ (finite (a80Val a) ∧ y = .inf b) →
    a80Add a y = (0xFFFF * 2 ^ 64 + (if b then 2 ^ 64 - 1 else 1), 2 ^ 5)) ∧
  (∀ ps : List (FV × FV), (∀ p ∈ ps, ∃ n m e n' m' e', p = (.fin n m e, .fin n' m' e')) →
    (xsum ps).2 = 0 ∧ (∃ n m e, (xsum ps).1 = .fin n m e) ∧ ratOf (xsum ps).1 = (ps.map fun p => ratOf p.1 * ratOf p.2).sum) ∧
  (∀ ps : List (FV × FV), let prod (p : FV × FV) : Option FV := if p.1.isNaN = true ∨ p.2.isNaN = true then some (.nan false) else mulFV p.1 p.2
    let invalid := (∃ p ∈ ps, prod p = none) ∨ (∃ p ∈ ps, ∃ q ∈ ps, prod p = some (.inf true) ∧ prod q = some (.inf false))
    let nan := ∃ p ∈ ps, prod p = some (.nan false)
    let signalling := ∃ p ∈ ps, p.1 = .nan true ∨ p.2 = .nan true
    (invalid → xsum ps = (.nan false, 2 ^ 4)) ∧
    (¬invalid → nan → (xsum ps).1 = .nan false ∧ (signalling → (xsum ps).2 = 2 ^ 4) ∧ (¬signalling → (xsum ps).2 = 0)) ∧
    ∀ b, ¬invalid → ¬nan → (∃ p ∈ ps, prod p = some (.inf b)) → xsum ps = (.inf b, 0)) ∧
  (∀ (bf : Bool) (x : Nat), x < 2 ^ 80 → let F := tileFmt bf
    (x / 2 ^ 64 < 0xFFFF → Ieee F 1 (a80Rat x) (a80Read F x)) ∧
    (∀ b, a80Val x = .nan b → a80Read F x = (quietNaN F, 2 ^ 5)) ∧
    (∀ b, a80Val x = .inf b → a80Read F x = (infOf F b, 2 ^ 5))) ∧
  (∀ (bf : Bool) (x : Nat), Finite (tileFmt bf) x → a80Rat (a80Of (tileFmt bf) x).1 = valOf (tileFmt bf) x ∧ (a80Of (tileFmt bf) x).2 = 0)

/-- R163, R196, R197, R198, R199, R200, R201, R202, R204, R205, R206, R208: The states the tile instructions trap on, configuring and
zeroing, the outer products and the values they take, reading and writing rows, and moving raw tiles. TOP of a poisoned tile, or with a
poisoned value or scale among those its steps read, traps POISON, before the first unit by the model's choice (assumption 63); TLOADT
clears the poison of the elements it has written whole. That TSAVE and TLOADT move their chunks in
increasing order is the model's choice (assumptions 8 and 32), and so is that a step count of 0 makes TOP's own checks, and that a TSAVE
or TLOADT begun at a VSTART of 5,120 or more moves nothing, checks no base and completes (assumption 63). -/
def Obligations.TileInstructions : Prop :=
  (∀ (s : State) (v sc : VReg) (fmt : Nat) (scl : Bool) (cnt k i : Nat),
    let r := topVal s v sc fmt scl cnt k i
    let scale := s.vget sc 8 (cnt * (k / 48) + i) % 64
    let fp8 := unpack (if fmt = 12 then fmtE4M3 else fmtE5M2) (s.vget v 8 (cnt * k + i))
    (fmt = 0 → ratOf r = sgn 8 (s.vget v 8 (cnt * k + i)) ∧ ∃ n m e, r = .fin n m e) ∧
    (fmt = 9 → r = unpack fmtB16 (s.vget v 16 (cnt * k + i))) ∧
    (fmt = 12 ∨ fmt = 13 → (scl = false → r = fp8) ∧ (scl = true → scale = 63 → r = .nan false) ∧
      (scl = true → scale ≠ 63 → ((∀ n m e, fp8 ≠ .fin n m e) → r = fp8) ∧
        ∀ n m e, fp8 = .fin n m e → (∃ e', r = .fin n m e') ∧ ratOf r = ratOf fp8 * 2 ^ ((scale : Int) - 32))) ∧
    (fmt = 15 → r = c4Val (s.vget sc 8 (cnt * (k / 48) + i)) (nibbleAt s v (48 * (cnt * (k / 48) + i) + k % 48)))) ∧
  (∀ (s : State) (e : Entry) (y : Strand) (z : BitVec 1) (va vb vc vs : VReg) (c : SReg), AtVcp s e →
    s.actor.who = .user → s.strand? = some y →
    let t := tileOf y z
    let x := e.c.toNat
    let af := t.cfg.toNat % 16
    let bfmt := t.cfg.toNat / 16 % 16
    let size (f cnt : Nat) := if f = 9 then 2 * cnt else if f = 15 then cnt / 2 else cnt
    let scaled := af = 15 ∨ t.cfg.getLsbD 8 = true
    let group := 2 ^ (e.vtype.toNat / 8 % 4) * s.vregBytes
    -- value `i` of step `k` of an operand, and its scale, as they lie in the register file
    let bad (v : VReg) (f cnt k i : Nat) : Prop :=
      if f = 15 then s.vpois v 8 ((48 * (cnt * (k / 48) + i) + k % 48) / 2) = true
      else s.vpois v (if f = 9 then 16 else 8) (cnt * k + i) = true
    let spoilt : Prop := ∃ k i, s.ctx.vstart.toNat ≤ k ∧ k < x ∧ ((i < 128 ∧ bad va af 128 k i) ∨ (i < 256 ∧ bad vb bfmt 256 k i) ∨
      (scaled ∧ ((i < 128 ∧ s.vpois vc 8 (128 * (k / 48) + i) = true) ∨ (i < 256 ∧ s.vpois vs 8 (256 * (k / 48) + i) = true))))
    t.st = .active → s.ctx.vstart.toNat < x → size af (128 * x) ≤ group → size bfmt (256 * x) ≤ group →
    (scaled → 256 * ((x + 47) / 48) ≤ s.vregBytes) → (af = 15 → x % 48 = 0) → (¬scaled → vc = 0 ∧ vs = 0) →
    ∀ i ∈ [Instr.topO z va vb c vc vs, .topF z va vb c vc vs],
      (t.poison ≠ [] → exec i s = .next (s.vtrap 0x11 z.toNat)) ∧
      (t.poison = [] → spoilt → ∃ r, exec i s = .next (s.vtrap 0x11 r) ∧ ∃ v ∈ [va, vb, vc, vs], v.toNat ≤ r)) ∧
  ∀ (s : State) (e : Entry) (y : Strand) (z : BitVec 1) (va vb vc vs : VReg) (c : SReg) (bf : Bool) (p : Pred), AtHead s e →
    s.actor.who = .user → s.strand? = some y → Memory.wf (tileOf y z).data = true →
    let t := tileOf y z
    let x := e.c.toNat
    let k0 := s.ctx.vstart.toNat
    let n := e.n
    let fp8 (f : Nat) : Prop := f = 0xC ∨ f = 0xD
    let af := t.cfg.toNat % 16
    let bfmt := t.cfg.toNat / 16 % 16
    let scl := t.cfg.getLsbD 8
    let size (f cnt : Nat) := if f = 9 then 2 * cnt else if f = 15 then cnt / 2 else cnt
    let scaled := af = 15 ∨ scl = true
    let group := 2 ^ (e.vtype.toNat / 8 % 4) * s.vregBytes
    let rows := n = 0 ∨ x + (n - 1) / 256 ≤ 127
    let act (j : Nat) : Prop := k0 ≤ j ∧ j < n ∧ on s p.m j = true
    let usable := t.st = .active ∧ t.poison = []
    (t.st = .free → ∀ i ∈ [Instr.tzero z, .topO z va vb c vc vs, .topF z va vb c vc vs, .trd z bf va c p, .twr z bf va c p,
      .tsave z c, .tloadt z c], exec i s = .next (s.vtrap 0x03 0)) ∧
    (t.st = .lost → ∀ i ∈ [Instr.topO z va vb c vc vs, .topF z va vb c vc vs, .trd z bf va c p, .twr z bf va c p, .tsave z c],
      exec i s = .next (s.vtrap 0x0F z.toNat)) ∧
    (let a := x % 16
     let b := x / 16 % 16
     let pm := x / 2 ^ 9
     let permitted := pm < 3 ∧ ((fp8 a ∧ fp8 b) ∨ (x / 2 ^ 8 % 2 = 0 ∧ a = b ∧ (a = 0 ∨ a = 9 ∨ a = 15)))
     (¬permitted → exec (.tcfg z c) s = .next (s.vtrap 0x03 0)) ∧
     (permitted → exec (.tcfg z c) s = .next (finished (withTileSet s z
       { st := .active, pers := if pm = 0 then t.pers else decide (pm = 2), cfg := .ofNat 9 x, data := [], poison := [] }) s.ctx))) ∧
    (t.st ≠ .free → exec (.tzero z) s = .next (finished (withTileSet s z { t with st := .active, data := [], poison := [] }) s.ctx)) ∧
    exec (.tfree z) s = .next (finished (withTileSet s z { t with st := .free, cfg := 0, data := [], poison := [] }) s.ctx) ∧
    (∀ q ∈ [(Instr.topO z va vb c vc vs, 1), (.topF z va vb c vc vs, 48)], usable →
      let fits := size af (128 * x) ≤ group ∧ size bfmt (256 * x) ≤ group ∧
        (scaled → 128 * ((x + 47) / 48) ≤ s.vregBytes ∧ 256 * ((x + 47) / 48) ≤ s.vregBytes) ∧
        (af = 15 → x % 48 = 0) ∧ (¬scaled → vc = 0 ∧ vs = 0)
      let us := unitsOf (if af = 15 then 48 else q.2) k0 x
      let r (j : Nat) := topElem (elemAt t j) (fun k => (topVal s va vc af scl 128 k (j / 256), topVal s vb vs bfmt scl 256 k (j % 256))) us
      (¬fits → exec q.1 s = .next (s.vtrap 0x03 0)) ∧
      (fits → x ≤ k0 → exec q.1 s = .next (finished s s.ctx)) ∧
      (fits → k0 < x → ∃ d u, exec q.1 s = .next (finished (withTileSet s z { t with data := d }) u) ∧
        (∀ j, elemAt { t with data := d } j = if j < 32768 then (r j).1 else elemAt t j) ∧
        FlagsAre s u (fun f => ∃ j < 32768, (r j).2.testBit f = true) ∧ { u with fflags := s.ctx.fflags } = s.ctx)) ∧
    (usable → ¬rows → exec (.trd z bf va c p) s = .next (s.vtrap 0x03 0) ∧ exec (.twr z bf va c p) s = .next (s.vtrap 0x03 0)) ∧
    (usable → rows → k0 < n →
      (Elementwise (.trd z bf va c p) s e { vd := va, w := e.sew, strip := e.sew, p := p, msk := p.m, srcs := fun _ => []
                                            f := fun j => a80Read (tileFmt bf) (elemAt t (256 * x + j)) }) ∧
      ∃ d u, exec (.twr z bf va c p) s = .next (finished (withTileSet s z { t with data := d }) u) ∧
        (∀ j, elemAt { t with data := d } (256 * x + j) =
          if act j then (a80Of (tileFmt bf) (s.vget va e.sew j)).1
          else if k0 ≤ j ∧ j < n ∧ p.z = true then 0 else elemAt t (256 * x + j)) ∧
        (∀ j < 256 * x, elemAt { t with data := d } j = elemAt t j) ∧
        FlagsAre s u (fun f => ∃ j, act j ∧ (a80Of (tileFmt bf) (s.vget va e.sew j)).2.testBit f = true) ∧
        { u with fflags := s.ctx.fflags } = s.ctx) ∧
    (5120 ≤ k0 → (t.st = .active → exec (.tsave z c) s = .next (finished s s.ctx)) ∧
      (t.st ≠ .free → exec (.tloadt z c) s = .next (finished (withTileSet s z { t with st := .active }) s.ctx))) ∧
    (∀ (st : Nat → State) (v : Nat → Nat) (ver : Nat → Dword), x % 64 = 0 → k0 < 5120 →
      let at0 (q : Nat) := (x + 64 * q) % 2 ^ 64
      (usable → Chain s (fun _ => true) (fun q w => w.acc .v 3 .w false false (at0 q) 64 anyPlace fun _ => some (readN t.data (64 * q) 64))
          k0 5120 st v ver → exec (.tsave z c) s = .next (finished (st 5120) s.ctx)) ∧
      (t.st ≠ .free → Chain s (fun _ => true) (fun q w => w.acc .v 3 .r true false (at0 q) 64 anyPlace fun _ => none) k0 5120 st v ver →
        ∃ d b, exec (.tloadt z c) s = .next (finished (withTileSet (st 5120) z { t with st := .active, data := d, poison := b }) s.ctx) ∧
          (∀ q, readByte d q = if 64 * k0 ≤ q ∧ q < 327680 then .ofNat 8 (v (q / 64) / 256 ^ (q % 64)) else readByte t.data q) ∧
          -- an entry past 32767 notes an element whose head is written already
          ∀ j, j ∈ b ↔ j ∈ t.poison ∧ (10 * (j % 32768) + 10 ≤ 64 * k0 ∨ (10 * (j % 32768) < 64 * k0 ∧ j < 32768))))

/-- R33, R49, R54, R55, R56, R59, R61, R74, R142, R143, R258, R276: LINE_FETCH checks the address, then poison, the line's legality and
the target slot, and the line enters execution: as it stands, or an image fetched since the last FENCE.ALL (assumption 10). That a fault
of the fetch, PFLT.X and POISON among them, reports the address of the line is R105 as assumption 67 reads it. A squash leaves no trace, a
slot that names no instruction traps ILLINS, and a wait that is evaluated again does what its instruction does. -/
def Obligations.FetchAndStrandEvents : Prop :=
  (∀ (s u v : State) (x : Xl), s.mayIssue = true →
     let pc := s.ctx.pc.toNat
     let la := pc / 64 * 64
     let slot := pc / 2 % 32
     let half (img j : Nat) := img / 2 ^ (16 * j) % 2 ^ 16
     let h (img : Nat) := half img 0 % 32
     let tl (img : Nat) := half img 0 / 32 % 32
     let legal (img : Nat) : Prop := h img ≠ 0 ∧ h img ≠ 31 ∧ 1 + h img + tl img ≤ 32 ∧
       tl img = ((List.range (h img)).map fun i => half img (i + 1) / 2 ^ 14).sum ∧ half img 0 / 2 ^ 10 = 0 ∧
       ∀ j, h img < j → j < 32 - tl img → half img j = 0
     (2 ^ 55 ≤ pc → Traps .lineFetch s 0x08 la) ∧
     (∀ f, placeOf s s.actor.core s.isM .s .x la 64 = (u, .error f) → exec .lineFetch s = .next (u.trap f.cause f.addr)) ∧
     (placeOf s s.actor.core s.isM .s .x la 64 = (u, .ok (.xl x)) → u.touch x false la = .ok v →
       ((v.inForm x).poisonedAt x.key 64 = true → exec .lineFetch s = .next ((v.inForm x).trap 0x11 la)) ∧
       ((v.inForm x).poisonedAt x.key 64 = false → ∃ img w, (img = readN (v.inForm x).mem x.key 64 ∨ (la, img) ∈ s.ctx.icache) ∧
         { w with ticket := (v.inForm x).ticket } = v.inForm x ∧
         (¬legal img → exec .lineFetch s = .next (w.trap 0x01 la)) ∧
         (legal img → slot = 0 ∨ h img < slot ∨ pc % 2 = 1 → exec .lineFetch s = .next (w.trap 0x02 pc)) ∧
         (legal img → 0 < slot → slot ≤ h img → pc % 2 = 0 → ∃ t, exec .lineFetch s = .next t ∧ OnlyCtx w t ∧
           t.ctx.line = some (la, img) ∧ { t.ctx with line := s.ctx.line, icache := s.ctx.icache } = s.ctx)))) ∧
  (∀ (s : State),
     exec .mispredictSquash s = .next s ∧
     (∀ la img, s.mayIssue = true → s.ctx.line = some (la, img) → la = lineAddr s.ctx.pc → decodeSlot img (pcSlot s.ctx.pc) = none →
       Traps .unassignedEncoding s 0x03 0) ∧
     (∀ (a b d : SReg) (k : BitVec 2), s.mayIssue = true →
       (∀ i ∈ [Instr.waitaEq a b, .waitaNe a b, .waitaGeu a b, .waitt k d b, .barwt d a, .barl], s.atPc = some i →
         ∃ t, exec .waitReevaluate s = .next t ∧ exec i s = .next t) ∧
       ∀ i ∈ [Instr.waitaEq a b, .waitaNe a b, .waitaGeu a b], s.atPc = some i →
         ∃ t, exec .waitaRemotePoll s = .next t ∧ exec i s = .next t) ∧
     (∀ (a d : SReg) (k : BitVec 22), s.mayIssue = true → s.actor.seq = false →
       ∀ i ∈ [Instr.ldb d a k, .ldbu d a k, .ldh d a k, .ldhu d a k, .ldw d a k, .ldwu d a k, .ldd d a k, .stb a k d, .sth a k d,
         .stw a k d, .std a k d], s.atPc = some i → ∃ t, exec .fifoAccessResume s = .next t ∧ exec i s = .next t) ∧
     ∀ (v : VReg) (a : SReg) (k : BitVec 16) (h : Hint) (p : Pred) (e : Entry), s.live = true → s.actor.seq = true →
       s.ctx.queue.head? = some e → ∀ i ∈ [Instr.vld v a k h p, .vst v a k h p], e.ins = i →
         ∃ t, exec .fifoAccessResume s = .next t ∧ exec i s = .next t)

/-- R38, R41, R46, R95, R294, R326: COMPLETE_LAUNCH frees the cores of a launch whose strands have all retired HALT and raises its
counters; a cancelled launch that was never placed raises them with the mark; a completed one, and one whose strands have all retired
HALT, is not affected; a cancelled strand leaves its core, its stop recorded in its save area, an ERET that was draining it retired. The
record's writes meet no poison; where one of them would fault, or the save area may not be written, there is none. Held increments are
made once ERR is clear. In a partition under reset the scheduler does nothing. The model's own choices: which tables reach a save area
(assumption 40), that an ERR whose doubleword is poisoned holds the counters back (assumption 79), and that no stop is recorded for a
strand that has retired HALT (assumption 80). -/
def Obligations.LaunchCompletion : Prop :=
  (∀ (s : State) (part l q : Nat) (p : Partition), s.part? part = some p → p.st = 3 →
    exec (.completeLaunch part l) s = .next s ∧ exec (.launchCancellation part l) s = .next s ∧
    exec (.heldCounterAccessRetry part q) s = .next s) ∧
  ∀ (s : State) (part l q : Nat) (p : Partition) (x : Launch), s.part? part = some p → p.st ≠ 3 → s.launch? part l = some x →
    let done (mark : Bool) (y : Launch) : Launch := { y with st := .done, mark, pend := counters y, cores := [], imgs := [], inPlace := [] }
    let ends (i : Instr) (mark : Bool) (s1 : State) : Prop := ∀ t p1, s1.part? part = some p1 → Counts p1 x mark (counters x) s1 t →
      ∃ u, exec i s = .next u ∧ PartIs t u part (withoutLaunch p1 l)
    (x.st = .running → (∀ i < gang x, i ∈ x.halted) → (∀ k ∈ x.cores, k < 96) →
      ∃ s0 s1, OnlyCores s s0 x.cores ∧ (∀ k ∈ x.cores, Vacant (s0.core (coreId k))) ∧
        PartIs s0 s1 part (withLaunch p l (done false)) ∧ ends (.completeLaunch part l) false s1) ∧
    (x.st = .waiting ∨ x.st = .ready → ∃ s1, PartIs s s1 part (withLaunch p l (done true)) ∧
      ends (.launchCancellation part l) true s1) ∧
    (x.st = .done → exec (.launchCancellation part l) s = .next s) ∧
    (x.st = .running → (∀ i < gang x, i ∈ x.halted) → exec (.launchCancellation part l) s = .next s) ∧
    (x.st = .running → (∃ i < gang x, i ∉ x.halted) → ∃ t, exec (.launchCancellation part l) s = .next t ∧
      ∀ i < gang x, ∀ st, i < x.cores.length → (s.core (coreId (x.cores.getD i 0))).strand = some st → st.part = part → st.launch = l →
        st.idx = i → (t.core (coreId (x.cores.getD i 0))).strand = none ∧ (t.core (coreId (x.cores.getD i 0))).fcause.getLsbD 9 = false) ∧
    (∀ k st s0, ∀ pc : Dword, x.st = .running → x.cores = [k] → gang x = 1 → x.halted = [] → (s.core (coreId k)).strand = some st →
      st.part = part → st.launch = l → st.idx = 0 → st.run ≠ .halted → (∀ g : Fin 4, (s.core (coreId k)).eng[g].entries = []) →
      (∀ a ∈ counters x, a = 0) → abortAll (s.updCore (coreId k) Core.endDrain) (coreId k) = s0 →
      pc = (if st.run = .draining then st.selfPc.getD (s.core (coreId k)).user.pc else (s.core (coreId k)).user.pc) →
      let base := x.saveBase 0
      let write (a : State) (o : Nat) (v : Dword) := schedStores p x.ptb [(base + o, v.toNat)] a
      ∃ t, exec (.launchCancellation part l) s = .next t ∧ SameMem s s0 ∧ t.launch? part l = none ∧
        (∀ s1 s2 s3, saveOk s0 p x.ptb base = true → write s0 0x198 0x14 = .ok s1 → write s1 0x1A0 0 = .ok s2 → write s2 0x1A8 pc = .ok s3 →
          t.mem = s3.mem) ∧
        (saveOk s0 p x.ptb base = false ∨ (∃ f, write s0 0x198 0x14 = .error f) ∨
          (∃ s1 f, write s0 0x198 0x14 = .ok s1 ∧ write s1 0x1A0 0 = .error f) ∨
          (∃ s1 s2 f, write s0 0x198 0x14 = .ok s1 ∧ write s1 0x1A0 0 = .ok s2 ∧ write s2 0x1A8 pc = .error f) → SameMem s t) ∧
        (t.core (coreId k)).mordant = if st.run = .draining then (s.core (coreId k)).mordant.advance else (s.core (coreId k)).mordant) ∧
    (p.descOk q = true → descRead s p q 0x20 ≠ 0 ∨ s.poisonedAt (p.descKey q 0x20) 8 = true →
      exec (.heldCounterAccessRetry part q) s = .next s) ∧
    (∀ t, p.descOk x.q = true → descRead s p x.q 0x20 = 0 → s.poisonedAt (p.descKey x.q 0x20) 8 = false → p.launches = [x] → x.st = .done →
      Counts p x x.mark x.pend s t →
      ∃ u, exec (.heldCounterAccessRetry part x.q) s = .next u ∧ PartIs t u part (withoutLaunch p l)) ∧
    (∀ i st, let k := coreId (x.cores.getD i 0)
      (s.core k).strand = some st → st.part = p.first → st.launch = x.id → st.run = .halted → (∀ g : Fin 4, (s.core k).eng[g].entries = []) →
      SameMem s (cancelStrand s p x i) ∧ ((cancelStrand s p x i).core k).strand = none) ∧
    (∀ (va v : Nat) (z : Xl), translateSched s p x.ptb .w va = .ok z → InForm s z → Memory.wf s.mem = true →
      (z.tier = 2 ∨ ∀ y, s.l2Line? z.key = some y → y.cmp.toNat = z.cmp) →
      ∃ t, schedStores p x.ptb [(va, v)] s = .ok t ∧ Stored s t z.key 8 v ∧ Bumped s t z.key (.xl z))

/-- R291, R292, R293, R295, R326: A queue that may not be read, or is empty, stays as it is; a record found through HEAD or Next is
read in sixteen accesses and, valid and with no dependence, becomes ready with its priority lowered to PMAX; a misaligned
pointer and a fault stop the queue at the record, FADR holding the virtual address of the access, of a walk that meets a bad
entry too. A record that is not valid, or that a CANCEL selected before it was read, is cancelled as it is read; what becomes of a
record read whole is said where its reads leave PMAX and ERR of its queue as they were. QUEUE_STATE_EVICT writes HEAD, or TAIL where it
names the last record read, and the queue leaves the cache. A descriptor whose PMAX or ERR doubleword is poisoned stops its queue, and so
does a poisoned PTB met at an eviction, FADR holding the doubleword's offset in the tier (R326, assumption 79). That
a window address is PFLT for a record read too is the model's choice (assumption 73). -/
def Obligations.RecordsAreRead : Prop :=
  ∀ (s : State) (part q : Nat) (p : Partition), s.part? part = some p → Memory.wf s.mem = true → p.descOk q = true →
    let ent := p.qcache.find? fun x => x.1 = q
    let cur := (ent.map fun x => x.2.1).getD 0
    let want := (ent.map fun x => x.2.2).getD 0
    let room := p.st ≠ 3 ∧ (p.launches.filter fun l => l.st = .waiting || l.st = .ready).length < 4096 ∧
      (ent = none → p.qcache.length < 512)
    let poisoned (o : Nat) : Prop := s.poisonedAt (p.descKey q o) 8 = true
    let clean := ¬poisoned 0x18 ∧ ¬poisoned 0x20
    let may := room ∧ clean ∧ descRead s p q 0x18 % 2 = 1 ∧ descRead s p q 0x20 = 0
    let ptb : Dword := .ofNat 64 (descRead s p q 0x10)
    let word (t : State) (o : Nat) := readN t.mem (p.descKey q o) 8
    let others (b t : State) (os : List Nat) : Prop :=
      ∀ a, (∀ o ∈ os, a < p.descKey q o ∨ p.descKey q o + 8 ≤ a) → readByte t.mem a = readByte b.mem a
    let found (b : State) (r : Nat) : Prop := r ≠ 0 ∧
      ((want ≠ 0 ∧ r = want ∧ b = s) ∨ (want = 0 ∧ cur = 0 ∧ r = descRead s p q 0 ∧ b = descWrite s p q 0 0) ∨
       (want = 0 ∧ cur ≠ 0 ∧ schedAccess s p ptb ((cur + 0x70) % 2 ^ 64) none = .ok (r, b)))
    let taken (a b : Nat) : Partition := { p with qcache := (q, a, b) :: p.qcache.filter fun x => x.1 ≠ q }
    (¬may → ¬room ∨ clean → exec (.recordRead part q) s = .next s) ∧
    (room → ¬clean → ∀ o, (poisoned 0x18 → o = 0x18) → (¬poisoned 0x18 → o = 0x20) →
      ∃ t, exec (.recordRead part q) s = .next t ∧ word t 0x20 = 0x11 ∧
        word t 0x28 = p.qtbase.toNat / 2 ^ 16 % 2 ^ 26 * 2 ^ 16 + 64 * q + o ∧ others s t [0x20, 0x28] ∧ t.part? part = some p) ∧
    (may → want = 0 → cur = 0 → descRead s p q 0 = 0 → exec (.recordRead part q) s = .next s) ∧
    (∀ u, may → want = 0 → cur ≠ 0 → schedAccess s p ptb ((cur + 0x70) % 2 ^ 64) none = .ok (0, u) → descRead u p q 8 = cur →
      ∃ t, exec (.recordRead part q) s = .next t ∧ word t 8 = 0 ∧ others u t [8] ∧ t.part? part = some (taken 0 0)) ∧
    (∀ b r, may → found b r → r % 128 ≠ 0 →
      ∃ t, exec (.recordRead part q) s = .next t ∧ word t 0x20 = 0x05 ∧ word t 0x28 = r % 2 ^ 64 ∧ others b t [0x20, 0x28] ∧
        t.part? part = some (taken cur r)) ∧
    (∀ (b : State) (r : Nat) (st : Nat → State) (v : Nat → Nat), may → found b r → r % 128 = 0 → st 0 = b.updPart part (fun y => y.setCur q cur r) →
      (∀ j f, j < 16 → (∀ i < j, schedAccess (st i) p ptb ((r + 8 * i) % 2 ^ 64) none = .ok (v i, st (i + 1))) →
        schedAccess (st j) p ptb ((r + 8 * j) % 2 ^ 64) none = .error f → f.cause < 256 → f.addr < 2 ^ 64 →
        ∃ t, exec (.recordRead part q) s = .next t ∧ word t 0x20 = f.cause ∧ word t 0x28 = f.addr ∧ others (st j) t [0x20, 0x28] ∧
          t.part? part = some (taken cur r)) ∧
      ((∀ i < 16, schedAccess (st i) p ptb ((r + 8 * i) % 2 ^ 64) none = .ok (v i, st (i + 1))) →
        let rcd := (List.range 16).map fun i => (.ofNat 64 (v i) : Dword)
        let pri := v 3 / 2 ^ 16 % 2 ^ 8
        let joined (st : LaunchSt) (at' : Nat) : Partition := { taken r 0 with
          nextId := p.nextId + 1
          sel := p.sel.filter fun x => !(decide (x.1 = q) && decide (x.2.2 = r))
          launches := p.launches ++ [{
            id := p.nextId, q := q, ptb := ptb, rcd := rcd, pri := min pri (descRead s p q 0x18 / 2 % 8), st := st, everRun := false,
            readSeq := p.nextId, readySeq := at', placedAt := 0, cores := [], halted := [], barB := [], barL := 0, arrived := [],
            imgs := [], inPlace := [], dbg := false, mark := false, pend := [], depHeld := false }] }
        let selected : Prop := ∃ x ∈ p.sel, x.1 = q ∧ ∃ o ∈ [8, 9, 10], rcd.getD o 0 = x.2.1
        (∀ l ∈ p.launches, l.id < p.nextId) → (∀ o ∈ [0x18, 0x20], descRead (st 16) p q o = descRead s p q o) →
        (st 16).poisonedAt (p.descKey q 0x20) 8 = false →
        (recordValid p rcd = true → ¬selected → v 4 = 0 → v 6 = 0 →
          ∃ t, exec (.recordRead part q) s = .next t ∧ PartIs (st 16) t part (joined .ready s.now)) ∧
        (recordValid p rcd = true → ¬selected → v 4 ≠ 0 ∨ v 6 ≠ 0 →
          ∃ u, PartIs (st 16) u part (joined .waiting 0) ∧
            exec (.recordRead part q) s = exec (.dependenceEvaluation part p.nextId) u) ∧
        (¬(recordValid p rcd = true ∧ ¬selected) →
          ∃ u, PartIs (st 16) u part (joined .waiting 0) ∧
            exec (.recordRead part q) s = exec (.launchCancellation part p.nextId) u))) ∧
    (∀ ptb' kd va f, translateSched s p ptb' kd va = .error f → f.addr = va) ∧
    (∀ ptb' va, 2 ^ 55 ≤ va ∨ (0x7FFE00000000 ≤ va ∧ va < 0x800000000000) → translateSched s p ptb' .r va = .error ⟨0x06, va⟩) ∧
    (ent = none → exec (.queueStateEvict part q) s = .next s) ∧
    (ent ≠ none → want ≠ 0 → ∃ t, exec (.queueStateEvict part q) s = .next t ∧ word t 0 = want % 2 ^ 64 ∧ others s t [0] ∧
      t.part? part = some { p with qcache := p.qcache.filter fun x => x.1 ≠ q }) ∧
    (ent ≠ none → want = 0 → cur = 0 → ∃ t, exec (.queueStateEvict part q) s = .next t ∧ SameMem s t ∧
      t.part? part = some { p with qcache := p.qcache.filter fun x => x.1 ≠ q }) ∧
    (ent ≠ none → want = 0 → cur ≠ 0 → poisoned 0x10 → ∃ t, exec (.queueStateEvict part q) s = .next t ∧ word t 0x20 = 0x11 ∧
      word t 0x28 = p.qtbase.toNat / 2 ^ 16 % 2 ^ 26 * 2 ^ 16 + 64 * q + 0x10 ∧ others s t [0x20, 0x28] ∧ t.part? part = some p) ∧
    (∀ u r, ent ≠ none → want = 0 → cur ≠ 0 → ¬poisoned 0x10 → schedAccess s p ptb ((cur + 0x70) % 2 ^ 64) none = .ok (r, u) →
      (r ≠ 0 → ∃ t, exec (.queueStateEvict part q) s = .next t ∧ word t 0 = r ∧ others u t [0] ∧
        t.part? part = some { p with qcache := p.qcache.filter fun x => x.1 ≠ q }) ∧
      (r = 0 → descRead u p q 8 = cur → ∃ t, exec (.queueStateEvict part q) s = .next t ∧ word t 8 = 0 ∧ others u t [8] ∧
        t.part? part = some { p with qcache := p.qcache.filter fun x => x.1 ≠ q }))

/-- R42, R43, R294: An evaluation of a waiting launch reads its two counters: it cancels the launch when one is met and carries
the mark without the launch asking for it, makes it ready when both are met, and leaves it waiting otherwise; a fault of the
first read is written to the descriptor of its queue and the launch is held. A launch whose queue has an error, or no descriptor, waits for
the retry of its held accesses; that a poisoned ERR counts as an error is the model's choice (assumption 79). In a partition under
reset nothing is evaluated. -/
def Obligations.DependencesAreEvaluated : Prop :=
  (∀ (s : State) (part l : Nat) (p : Partition), s.part? part = some p → p.st = 3 → exec (.dependenceEvaluation part l) s = .next s) ∧
  (∀ (s : State) (part l : Nat) (p : Partition) (x : Launch), s.part? part = some p → p.st ≠ 3 → s.launch? part l = some x → x.st = .waiting →
    p.descOk x.q = false ∨ descRead s p x.q 0x20 ≠ 0 ∨ s.poisonedAt (p.descKey x.q 0x20) 8 = true →
    ∃ t, exec (.dependenceEvaluation part l) s = .next t ∧ PartIs s t part (withLaunch p l fun y => { y with depHeld := true })) ∧
  ∀ (s s1 s2 : State) (part l : Nat) (p : Partition) (x : Launch) (v w : Nat), s.part? part = some p → p.st ≠ 3 →
    s.launch? part l = some x → x.st = .waiting → p.descOk x.q = true → descRead s p x.q 0x20 = 0 →
    s.poisonedAt (p.descKey x.q 0x20) 8 = false →
    let addr (o : Nat) := (x.field o).toNat
    let req (o : Nat) := (x.field (o + 8)).toNat
    let reads (o : Nat) (a : State) (n : Nat) (b : State) : Prop :=
      (addr o = 0 → b = a) ∧ (addr o ≠ 0 → counterRead a p x.ptb (addr o) = .ok (n, b))
    let met (o n : Nat) : Prop := addr o = 0 ∨ req o % 2 ^ 63 ≤ n % 2 ^ 63
    let marked (o n : Nat) : Prop := addr o ≠ 0 ∧ met o n ∧ n.testBit 63 = true ∧ (req o).testBit 63 = false
    (reads 0x20 s v s1 → marked 0x20 v → exec (.dependenceEvaluation part l) s = .next (cancelLaunch s1 part l)) ∧
    (reads 0x20 s v s1 → ¬marked 0x20 v → reads 0x30 s1 w s2 →
      (marked 0x30 w → exec (.dependenceEvaluation part l) s = .next (cancelLaunch s2 part l)) ∧
      (¬marked 0x30 w → met 0x20 v → met 0x30 w → ∃ t, exec (.dependenceEvaluation part l) s = .next t ∧
        PartIs s2 t part (withLaunch p l fun y => { y with st := .ready, readySeq := s.now, depHeld := false })) ∧
      (¬marked 0x30 w → ¬(met 0x20 v ∧ met 0x30 w) → exec (.dependenceEvaluation part l) s = .next s2)) ∧
    ∀ f, addr 0x20 ≠ 0 → counterRead s p x.ptb (addr 0x20) = .error f → Memory.wf s.mem = true →
      f.cause < 256 → f.addr < 2 ^ 64 → ∃ t, exec (.dependenceEvaluation part l) s = .next t ∧
        readN t.mem (p.descKey x.q 0x20) 8 = f.cause + 256 ∧ readN t.mem (p.descKey x.q 0x28) 8 = f.addr ∧
        t.part? part = some (withLaunch p l fun y => { y with depHeld := true })

/-- R38, R39, R45, R138, R226, R254, R263, R281, R299, R300: PLACEMENT places the first launch in order, never run before, on
free cores arranged for it, and starts its strands; any other proposal does nothing. BARL_RELEASE raises the release count
once every strand has arrived or retired HALT, and the strands that wait at BARL retire it. SWAP_OUT freezes the running
gangs that the first launch in order takes: lowest priority first, most recently placed first, until it fits; where they do
not suffice it does nothing. What the engines of a gang have read ahead is delivered before its strands freeze. The model's choices:
nothing is placed or swapped out in any ST but 0 (assumption 42), launches that became ready together stand by lower queue, then by the
order of reading (assumption 54), and a launch some of whose strands are still in place fits only with each of them on its own core
(assumption 89). -/
def Obligations.PlacementAndPreemption : Prop :=
  ((∀ (s : State) (part : Nat) (p : Partition) (x : Launch) (cores : List Nat), s.part? part = some p → IsFirst p x →
     p.first + p.n ≤ 8 → Memory.wf s.mem = true →
     let N := gang x
     let cfg := (x.field 0x18).toNat
     let bank (k b : Nat) := 4 * 2 ^ 60 + k * 2 ^ 24 + b * 196608
     let may := p.st = 0 ∧ x.st = .ready ∧ Arranged N cores (freeOf s p)
     (¬may → exec (.placement part cores) s = .next s) ∧
     (may → ∃ t at', exec (.placement part cores) s = .next t ∧ (∀ y ∈ p.launches, y.placedAt < at') ∧
       { t with cores := s.cores, mem := s.mem, poison := s.poison, parts := s.parts } = s ∧
       (∀ q, q ≠ part → t.part? q = s.part? q) ∧
       t.part? part = some { withLaunch p x.id fun y => { y with
         st := .running, everRun := true, placedAt := at', cores := cores, halted := [], barB := List.replicate N 0, barL := 0, arrived := [],
         imgs := [], inPlace := [] } with taking := none } ∧
       (∀ k : Fin 96, k.val ∉ cores → t.core k = s.core k) ∧
       (∀ a, (∀ k ∈ cores, a < bank k 0 ∨ bank k 32 ≤ a) → readByte t.mem a = readByte s.mem a) ∧
       ∀ i < N,
         let k := cores.getD i 0
         let c := t.core (coreId k)
         let mode (b : Nat) := c.modes.toNat / 4 ^ b % 4
         c.user = { regs := (Vector.replicate 32 0).set 1 (x.field 0x08), pc := x.field 0x00, line := none, icache := [], vl := 0,
                    vtype := 0, vstart := 0, vbase := 0, fflags := 0, fmode := 1, seed := 0, clipcnt := 0, qcnt := 0, padlo := 0,
                    padhi := 0, padval := 0, queue := [], vfile := [], masks := [], pregs := 0, pmasks := 0, pvec := [],
                    barFrom := none, beats := 0 } ∧
         c.strand = some {
           part := part, launch := x.id, idx := i, size := N, nv := cfg / 2 ^ 32 % 2 ^ 8, fl := Vector.replicate 8 0, pfl := 0, ct := [],
           pct := false, z0 := { st := .free, pers := cfg.testBit 24, cfg := 0, data := [], poison := [] },
           z1 := { st := .free, pers := cfg.testBit 25, cfg := 0, data := [], poison := [] }, trapvec := 0, trapcause := 0,
           trapaddr := 0, trappc := 0, hs := false, frame := none, links := [], run := .running, frz := .none, selfPc := none } ∧
         (∀ g : Fin 4, c.eng[g] = { last := 0, tl := 0, err := none, errNo := 0, entries := [] }) ∧
         c.modes = (if cfg.testBit 26 then x.field 0x58 else 0) ∧
         ∀ b < 32, (mode b = 2 → ∀ o < 196608, readByte t.mem (bank k b + o) = 0) ∧ (mode b = 3 → (c.fifo b).held = 0))) ∧
   (∀ (s : State) (part l : Nat) (x : Launch), s.launch? part l = some x → (x.st ≠ .running → exec (.barlRelease part l) s = .next s) ∧
     (x.st = .running → (∀ i < x.cores.length, i ∈ x.arrived ∨ i ∈ x.halted) → x.barB.length = x.cores.length →
       (∀ i < x.cores.length, x.barB.getD i 0 ≤ x.barL) → x.cores.Nodup → (∀ k ∈ x.cores, k < 96) →
       ∃ t bs, exec (.barlRelease part l) s = .next t ∧ OnlyCores s { t with parts := s.parts } x.cores ∧ OnlyLaunch s t part l ∧
         t.launch? part l = some { x with barL := x.barL + 1, arrived := [], barB := bs } ∧
         ∀ i < x.cores.length,
           let k := coreId (x.cores.getD i 0)
           let c := s.core k
           let waits : Prop := (∃ img, c.user.line = some (lineAddr c.user.pc, img) ∧ decodeSlot img (pcSlot c.user.pc) = some .barl) ∧
             c.user.queue = [] ∧ ∃ st, c.strand = some st ∧ st.part = part ∧ st.launch = l ∧ st.run = .running ∧ st.frz = .none
           (waits → (t.core k).user.pc = c.user.succPc ∧ bs.getD i 0 = x.barB.getD i 0 + 1 ∧
             { t.core k with user := { (t.core k).user with pc := c.user.pc, line := c.user.line } } = c) ∧
           (¬waits → t.core k = c ∧ bs.getD i 0 = x.barB.getD i 0)))) ∧
  (∀ (s : State) (part : Nat) (p : Partition) (x : Launch) (cores : List Nat), s.part? part = some p → IsFirst p x →
     (p.launches.map fun y => y.id).Nodup → Kept x →
     let free := freeOf s p ++ x.inPlace
     let low := p.launches.filter fun y => y.st = .running && decide (y.pri < x.pri) && !((List.range (gang y)).all y.halted.contains)
     let avail (vs : List Launch) := free ++ vs.flatMap fun y => y.cores
     (avail low).Nodup → (∀ k ∈ avail low, k < 96) →
     (p.st ≠ 0 ∨ FitsFor x free ∨ (∃ y ∈ p.launches, y.imgs ≠ []) ∨ ¬FitsFor x (avail low) →
       exec (.swapOut part cores) s = .next s) ∧
     (∀ vs v rest b, p.st = 0 → (∀ y ∈ p.launches, y.imgs = []) → (vs ++ v :: rest).Perm low →
       (vs ++ v :: rest).Pairwise (fun a b => a.pri < b.pri ∨ (a.pri = b.pri ∧ b.placedAt < a.placedAt)) →
       ¬FitsFor x (avail vs) → ArrangedFor x cores (avail (vs ++ [v])) →
       ((b = s ∧ ∀ y ∈ vs ++ [v], ∀ k ∈ y.cores, Rested (s.core (coreId k))) ∨ (vs = [] ∧ b = restEngines s v.cores)) →
       ∃ t, exec (.swapOut part cores) s = .next t ∧ OnlyCores b { t with parts := b.parts } ((vs ++ [v]).flatMap fun y => y.cores) ∧
         (∀ y ∈ p.launches, t.launch? part y.id = (b.launch? part y.id).map fun z => if y ∈ vs ++ [v] then { z with
           st := .swapping
           imgs := y.cores.filter fun k => decide (k ∈ cores)
           inPlace := z.cores.filter fun k => decide (¬(k ∈ y.cores ∧ k ∈ cores)) } else z) ∧
         (∀ q, q ≠ part → t.part? q = b.part? q) ∧
         (t.part? part).map (fun y => { y with launches := [] }) =
           (b.part? part).map (fun y => { y with launches := [], taking := some x.id }) ∧
         ∀ y ∈ vs ++ [v], ∀ k ∈ y.cores, ∀ st, (b.core (coreId k)).strand = some st →
           let c := b.core (coreId k)
           let d := t.core (coreId k)
           let pc := if st.run = .held ∨ st.run = .draining then st.selfPc.getD c.user.pc else c.user.pc
           d.strand = some { st with
             run := if st.run = .held ∨ st.run = .draining then .running else st.run, frz := .swap, links := [], selfPc := none } ∧
           d.user = { c.user with pc := pc, line := none, barFrom := none, icache := imagesWithout c.user [pc] } ∧
           d.mordant = (if st.run = .draining then c.mordant.advance else c.mordant) ∧
           d.fcause.getLsbD 9 = false ∧ d.efault = 0 ∧ d.efaultNo = none ∧ d.eng = c.eng))

/-- R70, R207, R224, R225, R226, R227, R281, R301, R304: What a context image holds (registers, queue and frame images, engine contexts,
banks, tiles that are Active and persistent), and the pages it takes; IMAGE_WRITE_COMPLETE writes it page by page, after the engines of
the whole gang have come to rest, and frees the core: an image that the placement waits for at once, any other once those are written and
the launch is placed or stands first no more, and under QUIESCE once every engine of the gang has drained; a page that faults, or of which
a line is present under another CMP, cancels the launch. RESUME_LAUNCH reloads the same from the image for the strands of the first launch
in order on cores that fit it, or lets those still in place, and their engines, go on; an image with a header field, a FIFO word, a tile
code or an engine context's numbers that R224 and R281 do not assign cancels the launch. The model's choices: the launch of a strand with
poisoned storage is cancelled, and what the header's single fields may hold (assumption 36), which tables reach the save area (assumption
40), which of two words of an image a resume takes VSTART from (assumption 41), the order of launches ready together (assumption 54), one
write access to a present line for each page (assumption 81), and that strands still in place stay on their own cores (assumption 89). -/
def Obligations.ContextImages : Prop :=
  (∀ (s : State) (k : Fin 96) (st : Strand), (s.core k).strand = some st → Memory.wf s.mem = true → Memory.wf st.ct = true →
    Memory.wf (s.core k).user.vfile = true → Memory.wf (s.core k).user.masks = true → Memory.wf st.z0.data = true →
    Memory.wf st.z1.data = true →
    let c := s.core k
    let m := imageBytes s k st
    let user := { s with actor := { core := k, who := .user, seq := false, stop := none } }
    (∀ i : SReg, readN m (8 * i.toNat) 8 = (c.user.reg i).toNat) ∧ readN m 0x100 8 = c.user.pc.toNat ∧
    (∀ i < 0x19, readN m (0x110 + 8 * i) 8 = (sysRead user i).toNat) ∧ readN m 0x1D8 8 = c.ptbase.toNat ∧
    (∀ i : Fin 8, readN m (0x200 + 8 * i.val) 8 = st.fl[i].toNat) ∧ readN m 0x240 8 = c.modes.toNat ∧
    (∀ a < 1024, readByte m (0x400 + a) = readByte st.ct a) ∧ (∀ a < 524288, readByte m (0x10000 + a) = readByte c.user.vfile a) ∧
    (∀ a < 65536, readByte m (0x90000 + a) = readByte c.user.masks a) ∧
    (st.z0.st = .active → st.z0.pers = true → ∀ a < 327680, readByte m (0xA0000 + a) = readByte st.z0.data a) ∧
    (st.z1.st = .active → st.z1.pers = true → ∀ a < 327680, readByte m (0xF0000 + a) = readByte st.z1.data a) ∧
    (∀ b < 32, 2 ≤ c.modes.toNat / 4 ^ b % 4 → ∀ a < 196608,
      readByte m (0x140000 + b * 196608 + a) = readByte s.mem (4 * 2 ^ 60 + k.val * 2 ^ 24 + b * 196608 + a)) ∧
    (c.user.queue.length ≤ 64 → (∀ f, st.frame = some f → f.image.length ≤ 64) → (∀ g : Fin 4, c.eng[g].entries.length ≤ 6) →
      readN m 0x108 8 = c.user.queue.length + (if st.hs then 256 else 0) + (if st.frame = none then 0 else 512) ∧
      (∀ b < 32, readN m (0x300 + 8 * b) 8 =
        if c.modes.toNat / 4 ^ b % 4 = 3 then ((c.fifo b).held + (c.fifo b).oldest * 2 ^ 18) % 2 ^ 64 else 0) ∧
      QueueHeld m 0x1000 c.user.queue c.user.vstart ∧ Coded m 0x1000 c.user.queue ∧
      (∀ f, st.frame = some f → FrameHeld m f ∧ readN m 0x908 8 = f.vstart.toNat ∧ Coded m 0x3000 f.image) ∧
      (∀ g : Fin 4, EngHeld m (0x2000 + 1024 * g.val) c.eng[g] (List.range c.eng[g].entries.length) ∧
        ∀ r < 6, c.eng[g].entries.length ≤ r → readN m (0x2000 + 1024 * g.val + 0x40 + 160 * r + 0x90) 8 = 0) ∧
      ∀ a, 0x4000 ≤ a → a < 0x10000 → readByte m a = 0)) ∧
  (∀ (modes : Dword) (t0 t1 : Bool), (imagePages modes t0 t1).Pairwise (· < ·) ∧ ∀ j, j ∈ imagePages modes t0 t1 ↔
    j < 10 ∨ (t0 = true ∧ 10 ≤ j ∧ j < 15) ∨ (t1 = true ∧ 15 ≤ j ∧ j < 20) ∨
      ∃ b < 32, 2 ≤ modes.toNat / 4 ^ b % 4 ∧ 20 + 3 * b ≤ j ∧ j < 23 + 3 * b) ∧
  (∀ t : Tile, t.saved = true ↔ t.st = .active ∧ t.pers = true) ∧
  (∀ (s : State) (p : Partition) (ptb : Dword) (base : Nat), saveOk s p ptb base = true ↔ base % 65536 = 0 ∧
    ∀ j < 116, ∀ o ∈ [0, 65535], ∃ y, translateSched s p ptb .w (base + 65536 * j + o) = .ok y ∧ y.tier < 2 ∧ y.cmp = 0) ∧
  (∀ (s : State) (key : Nat) (bs : Bytes), Memory.wf s.mem = true → Memory.wf bs = true → key % 65536 = 0 →
    (∀ a < 65536, readByte (writePage s key bs).mem (key + a) = readByte bs a) ∧
    (∀ a, a < key ∨ key + 65536 ≤ a → readByte (writePage s key bs).mem a = readByte s.mem a) ∧
    ((∀ a, key ≤ a → a < key + 65536 → s.c1At a ≠ 1) → s.rawRange key (key + 65536) = s ∧
      (writePage s key bs).l2 = s.l2.map fun y => if key ≤ y.line ∧ y.line < key + 65536 then risen s y else y)) ∧
  (∀ (s : State) (p : Partition) (x : Launch) (st : Strand), s.partOfCore s.actor.core = some p → s.part? p.first = some p →
    p.launches.find? (fun y => y.st = .swapping && (y.imgs ++ y.inPlace).contains s.actor.core.val) = some x →
    ((settleGang s x).core s.actor.core).strand = some st →
    let k := s.actor.core
    let ks := x.imgs ++ x.inPlace
    let base := x.saveBase st.idx
    let s0 := settleGang s x
    let may := p.st ≠ 3 ∧ (∀ j ∈ ks, ∀ y, (s.core (coreId j)).strand = some y → y.frz = .drain → engDrained s (coreId j) = true) ∧
      (k.val ∈ x.imgs ∨ ((∀ y ∈ p.launches, y.imgs = []) ∧ (p.st = 0 → ∀ y, IsFirst p y → p.taking ≠ some y.id)))
    let bad := saveOk s0 p x.ptb base = false ∨ strandPoisoned s0 k st = true
    let pages := imagePages (s0.core k).modes st.z0.saved st.z1.saved
    let left (y : Launch) : Launch := { y with
      imgs := y.imgs.filter fun j => j ≠ k.val
      inPlace := y.inPlace.filter fun j => j ≠ k.val }
    ((∀ y ∈ p.launches, ¬waitsForCores y) ∨ ∃ y, IsFirst p y) →
    ((∀ j ∈ ks, Rested (s.core (coreId j))) → OnlyCores s s0 ks ∧ ∀ j ∈ ks, ∀ y,
      let c := s.core (coreId j)
      c.strand = some y → y.run ≠ .held → y.run ≠ .draining → s0.core (coreId j) = { c with
        user := { c.user with line := none, barFrom := none, icache := imagesWithout c.user [c.user.pc] }
        fcause := c.fcause &&& ~~~(0x200#64), efault := 0, efaultNo := none
        strand := some { y with frz := .swap, links := [], selfPc := none } }) ∧
    (¬may → exec .imageWriteComplete s = .next s) ∧
    (may → bad → exec .imageWriteComplete s = .next (cancelLaunch s0 p.first x.id)) ∧
    (may → ¬bad → ∀ (n : Nat) (w : Nat → State) (y : Nat → Xl), n ≤ pages.length → w 0 = s0 → (∀ i < n,
        let j := pages.getD i 0
        translateSched (w i) p x.ptb .w (base + 65536 * j) = .ok (y i) ∧ ¬OtherClass (w i) (y i).key ∧
        w (i + 1) = writePage (w i) (y i).key (sliceRange (imageBytes s0 k st) (65536 * j) (65536 * j + 65536))) →
      (n < pages.length → (∀ z, translateSched (w n) p x.ptb .w (base + 65536 * pages.getD n 0) = .ok z → OtherClass (w n) z.key) →
        exec .imageWriteComplete s = .next (cancelLaunch s0 p.first x.id)) ∧
      (n = pages.length → ∃ t, exec .imageWriteComplete s = .next t ∧ Vacant (t.core k) ∧ (∀ j, j ≠ k → t.core j = s0.core j) ∧
        t.launch? p.first x.id = (s0.launch? p.first x.id).map (fun y =>
          if (left y).imgs = [] ∧ (left y).inPlace = [] then { left y with st := .swapped, cores := [] } else left y) ∧
        t.mem = (w n).mem))) ∧
  (∀ (s : State) (part : Nat) (p : Partition) (x : Launch) (cores : List Nat), s.part? part = some p → IsFirst p x → p.st = 0 →
    x.st ≠ .ready → Memory.wf s.mem = true →
    let placed (t : State) : Prop := ∃ at', (∀ y ∈ p.launches, y.placedAt < at') ∧
      (∀ q, q ≠ part → t.part? q = s.part? q) ∧
      t.part? part = some { withLaunch p x.id fun y => { y with
        st := .running, placedAt := at', cores := cores, imgs := [], inPlace := [] } with taking := none }
    (12 * p.n < gang x → exec (.resumeLaunch part cores) s = .next (complete s part x.id true)) ∧
    (gang x ≤ 12 * p.n → ¬ArrangedFor x cores (freeOf s p ++ x.inPlace) → exec (.resumeLaunch part cores) s = .next s) ∧
    (gang x ≤ 12 * p.n → ArrangedFor x cores (freeOf s p ++ x.inPlace) → cores = x.cores → (∀ k ∈ cores, k ∈ x.inPlace ∧ k < 96) →
      ∃ t, exec (.resumeLaunch part cores) s = .next t ∧ placed t ∧ OnlyCores s { t with parts := s.parts } cores ∧
        ∀ k ∈ cores, let c := s.core (coreId k)
        t.core (coreId k) = { c with
          user := { c.user with line := none, barFrom := none, icache := imagesWithout c.user [c.user.pc] }
          engOff := c.engOff && x.dbg
          strand := (s.core (coreId k)).strand.map fun st => { st with frz := if x.dbg then .debug else .none } }) ∧
    (∀ k, gang x = 1 → 1 ≤ p.n → x.inPlace = [] → cores = [k] → k ∈ freeOf s p →
      (loadImage s p x 0 (coreId k) = none → exec (.resumeLaunch part cores) s = .next (cancelLaunch s part x.id)) ∧
      (saveOk s p x.ptb (x.saveBase 0) = false ∨ (∃ j < 10, ∀ y, translateSched s p x.ptb .r (x.saveBase 0 + 65536 * j) = .ok y →
          OtherClass s y.key ∨ s.poisonedAt y.key 65536 = true) → loadImage s p x 0 (coreId k) = none) ∧
      (∀ m, (∀ j < 10, PageOf s p x j m) → ¬Assigned m 1 → loadImage s p x 0 (coreId k) = none) ∧
      ∀ u, loadImage s p x 0 (coreId k) = some u → ∃ t m, exec (.resumeLaunch part cores) s = .next t ∧ placed t ∧ Assigned m 1 ∧
        let c := t.core (coreId k)
        let word (o : Nat) : Dword := .ofNat 64 (readN m o 8)
        let ts := readN m 0x1C8 8
        let whole (z : Nat) : Bool := decide (ts / 16 ^ z % 8 = 5)
        let w := readN m 0x108 8
        (∀ j ∈ imagePages (word 0x240) (whole 0) (whole 1), PageOf s p x j m) ∧
        (∀ i : SReg, c.user.reg i = word (8 * i.toNat)) ∧ c.user.pc = word 0x100 ∧
        (∀ y ∈ [(0x05, c.user.vl), (0x06, c.user.vtype), (0x09, c.user.vbase), (0x0B, c.user.fflags), (0x0C, c.user.fmode), (0x0D, c.user.seed),
          (0x0E, c.user.clipcnt), (0x0F, c.user.qcnt), (0x14, c.user.padlo), (0x15, c.user.padhi), (0x16, c.user.padval)],
          y.2 = word (0x110 + 8 * y.1)) ∧
        (c.user.queue.length = w % 2 ^ 7 ∧ QueueHeld m 0x1000 c.user.queue c.user.vstart ∧ Decoded m 0x1000 c.user.queue ∧
          (c.user.queue = [] → c.user.vstart = word 0x150)) ∧
        c.user.pregs = 0 ∧ c.user.pmasks = 0 ∧ c.user.pvec = [] ∧ c.ptbase = word 0x1D8 ∧ c.modes = word 0x240 ∧
        (∀ a < 524288, readByte c.user.vfile a = readByte m (0x10000 + a)) ∧ (∀ a < 65536, readByte c.user.masks a = readByte m (0x90000 + a)) ∧
        (∀ b < 32, c.modes.toNat / 4 ^ b % 4 = 3 → (c.fifo b).held + (c.fifo b).oldest * 2 ^ 18 = readN m (0x300 + 8 * b) 8) ∧
        (∀ g : Fin 4,
          let off := 0x2000 + 1024 * g.val
          let rows := (List.range 6).filter fun r => (readN m (off + 0x40 + 160 * r + 0x90) 8).testBit 9
          EngHeld m off c.eng[g] rows ∧ ∀ e ∈ c.eng[g].entries, e.ahead = []) ∧
        ((∀ g : Fin 4, c.eng[g].entries = []) → ∀ b < 32, 2 ≤ c.modes.toNat / 4 ^ b % 4 → ∀ a < 196608,
          readByte t.mem (4 * 2 ^ 60 + (coreId k).val * 2 ^ 24 + b * 196608 + a) = readByte m (0x140000 + b * 196608 + a)) ∧
        ∃ st, c.strand = some st ∧ st.part = part ∧ st.launch = x.id ∧ st.idx = 0 ∧ st.size = 1 ∧ st.links = [] ∧ st.nv = readN m 0x148 8 ∧
          st.trapvec = word 0x190 ∧ st.trapcause = word 0x198 ∧ st.trapaddr = word 0x1A0 ∧ st.trappc = word 0x1A8 ∧
          (∀ i : Fin 8, st.fl[i] = word (0x200 + 8 * i.val)) ∧ (∀ a < 1024, readByte st.ct a = readByte m (0x400 + a)) ∧
          st.hs = w.testBit 8 ∧ (w.testBit 9 = false → st.frame = none) ∧
          (w.testBit 9 = true → ∃ f, st.frame = some f ∧ FrameHeld m f ∧ Decoded m 0x3000 f.image) ∧
          st.run = (if 0 ∈ x.halted then .halted else .running) ∧ st.frz = (if x.dbg then .debug else .none) ∧
          ∀ z : BitVec 1,
            let y := tileOf st z
            let code := ts / 16 ^ z.toNat % 4
            y.pers = ts.testBit (4 * z.toNat + 2) ∧ y.cfg = .ofNat 9 (ts / 2 ^ (16 + 16 * z.toNat)) ∧ y.poison = [] ∧
            y.st = (if code = 0 then .free else if code = 1 ∧ y.pers = true then .active else .lost) ∧
            (y.st = .active → ∀ a < 327680, readByte y.data a = readByte m (0xA0000 + 0x50000 * z.toNat + a))))

/-- R266, R267, R270, R272, R277, R278, R279: A byte moved, a command's checksum, notify and completion, a marker's completion,
an error, a held fault, and firmware's answers to it. That a command's bytes move one at a time in the order of progress is the
model's choice (assumption 9), and so is that an answer leaves EFAULT all zero, CTX, KIND and ADDR with V (assumption 78). -/
def Obligations.EngineEvents : Prop :=
  ∀ (s : State) (i : BitVec 2) (e : EngEntry),
    let k := s.actor.core
    let j := i.toFin
    let g := s.me.eng[j]
    let c := parseCmd e.blk
    let paused := s.me.efaultNo = some e.no ∧ s.me.efault.toNat / 2 ^ 58 % 4 = i.toNat
    let rest := g.entries.filter fun d => d.no ≠ e.no
    let ends (ev : Instr) (u : State) : Prop := (∀ d ∈ g.entries, 0 < d.no) →
      ∃ b, Timeline g rest b ∧ exec ev s = .next (u.updEng k j fun h => { h with entries := rest, tl := b })
    let gone (n : Nat) (code : BitVec 8) (t : State) : Prop :=
      t.me.eng[j].entries = g.entries.filter (fun d => decide (d.no < n)) ∧ t.me.eng[j].err = some (g.err.getD code) ∧
      t.me.eng[j].last = g.last ∧ (∀ h : Fin 4, h ≠ j → t.me.eng[h] = s.me.eng[h]) ∧
      (0 < n → (∀ d ∈ g.entries, 0 < d.no) → (∃ d ∈ g.entries, d.no = n) → g.tl.toNat < n → t.me.eng[j].tl.toNat < n ∧
        t.me.eng[j].errNo = if g.err = none ∨ g.errNo = 0 then n else min g.errNo n)
    let left (l : List (Nat × Byte)) (a : Nat) : Option Byte := (l.find? fun x => x.1 = a).map fun x => x.2
    (∀ p n, (∀ h : Fin 4, ∀ d ∈ s.me.eng[h].entries, d.marker = true ∨ d.port ≠ p) → exec (.commandDispatch p n) s = .next s) ∧
    (Leads s j e → Able s e → ¬paused → plainCopy e →
      (∀ u v x w y z, nextRead s e = .ok u v x → nextWrite u e v = .ok w y z →
        ∃ r ahead l, Touched w r ∧ SameMem w r ∧ (c.caddr = 0 → l = e.left) ∧
          (c.caddr ≠ 0 → ∀ a, left l a = if a = c.dstAt e.progress then some (.ofNat 8 v) else left e.left a) ∧
          exec (.commandDispatch e.port 1) s = .next (r.updEng k j fun h => { h with
            entries := h.entries.map fun d => if d.no = e.no then { d with progress := e.progress + 1, ahead := ahead, left := l } else d }))) ∧
    (∀ pre post, g.entries = pre ++ e :: post → (∀ d ∈ pre, d.marker = true ∨ d.progress ≠ (parseCmd d.blk).total) →
      e.progress = c.total → Leads s j e → Able s e →
      (paused → exec (.commandComplete i) s = .next s) ∧
      (¬paused → c.caddr = 0 → c.naddr = 0 → ends (.commandComplete i) s) ∧
      (∀ u v x, ¬paused → c.caddr = 0 → c.naddr ≠ 0 →
        access s k false false .e 0 .w false false c.naddr 8 anyPlace (fun _ => some c.nval) = .ok u v x → ends (.commandComplete i) u) ∧
      (∀ u n w v x, ¬paused → c.caddr ≠ 0 → c.naddr = 0 → checksum k c e.left s = .ok (u, n) →
        access u k false false .e 0 .w false false c.caddr 4 anyPlace (fun _ => some n) = .ok w v x → ends (.commandComplete i) w)) ∧
    (inPort c.dst = false → (∀ a ∈ c.dstAddrs, (left e.left a).isSome) →
      checksum k c e.left s = .ok (s, crc32c (c.dstAddrs.map fun a => ((left e.left a).getD 0).toNat))) ∧
    c.dstAddrs.Pairwise (· < ·) ∧ (∀ a, a ∈ c.dstAddrs ↔ ∃ i < c.total, a = c.dstAt i) ∧
    crc32c [0x31, 0x32, 0x33, 0x34, 0x35, 0x36, 0x37, 0x38, 0x39] = 0xE3069283 ∧
    (g.entries.head? = some e → e.marker = true → ends (.markerComplete i) s) ∧
    (g.entries.head? = some e → e.marker = false → exec (.markerComplete i) s = .next s) ∧
    (∀ post f t code, g.entries = e :: post → Leads s j e → Able s e → plainCopy e → nextRead s e = .fault f t →
      (f.cause, code) ∈ [(0x0A, (0x03 : BitVec 8)), (0x0B, 0x02), (0x0C, 0x04), (0x11, 0x05)] →
      ∃ r, exec (.engineError i code) s = .next r ∧ gone e.no code r) ∧
    (∀ f t, Leads s j e → Able s e → plainCopy e → nextRead s e = .fault f t → f.cause = 0x06 ∨ f.cause = 0x09 →
      (s.me.efaultNo ≠ none → exec (.engineFaultHold e.port) s = .next s) ∧
      (s.me.efaultNo = none → exec (.engineFaultHold e.port) s = .next (s.updMe fun h => { h with
        efaultNo := some e.no
        efault := .ofNat 64 (2 ^ 63 + i.toNat * 2 ^ 58 + (if f.cause = 0x06 then 0 else 2) * 2 ^ 56 + f.addr % 2 ^ 55) }))) ∧
    (∀ u v x f t, Leads s j e → Able s e → plainCopy e → nextRead s e = .ok u v x → nextWrite u e v = .fault f t → f.cause = 0x07 →
      s.me.efaultNo = none → exec (.engineFaultHold e.port) s = .next (s.updMe fun h => { h with
        efaultNo := some e.no
        efault := .ofNat 64 (2 ^ 63 + i.toNat * 2 ^ 58 + 1 * 2 ^ 56 + f.addr % 2 ^ 55) })) ∧
    (s.actor.who = .user → Traps .efactRetry s 0x03 0 ∧ Traps .efactFail s 0x03 0) ∧
    (s.actor.who = .mordant → s.me.efaultNo = none → exec .efactRetry s = .next s ∧ exec .efactFail s = .next s) ∧
    (∀ n, s.actor.who = .mordant → s.me.efaultNo = some n →
      exec .efactRetry s = .next (s.updMe fun h => { h with
        efault := 0, efaultNo := none
        tlbE := h.tlbE.filter fun y => !decide (y.page / 2 ^ (if y.big then 29 else 16) = h.efault.toNat % 2 ^ 55 / 2 ^ (if y.big then 29 else 16)) }) ∧
      (s.me.efault.toNat / 2 ^ 58 % 4 = i.toNat → ∃ r, exec .efactFail s = .next r ∧ gone n 0x01 r ∧ r.me.efault = 0 ∧
        r.me.efaultNo = none))

/-- R215, R235, R238, R242, R243, R244, R276, R314, R317, R326, R340: A line that leaves its slice raises the floor; requests of peers and of
the host perform at their home slice, an atomic one by the table of R242; the 256-byte blocks of a C1 page are packed and expanded as
R276 says; a port of Naeri that goes down or up, what is in flight on it trapping or failing REMOTE; and a
replay, whose end a free value decides (assumption 19). That a peer's LDV fills an absent line, with no compression, and that a
misaligned request, or one past the end of its tier, is answered with no bytes, is the model's choice (assumption 52), and so is
which line leaves a full slice (assumption 62), that a line filling it takes the floor as it stood before the one that leaves raises it
(assumption 74), what counts as in flight (assumption 56), and which accesses pack and expand a block, and what poison a block made anew
carries (assumption 55). -/
def Obligations.MemoryEvents : Prop :=
  (∀ (s : State) (key : Nat),
    ((∀ l ∈ s.l2, l.line ≠ key / 64 * 64) → exec (.lineEviction key) s = .next s) ∧
    ∀ l, s.l2Line? key = some l → ∃ t, exec (.lineEviction key) s = .next t ∧ { t with l2 := s.l2, floors := s.floors } = s ∧
      (∀ y, y ∈ t.l2 ↔ y ∈ s.l2 ∧ y.line ≠ key / 64 * 64) ∧ (∀ h, h ≠ homeOf (key / 64 * 64) → t.floor h = s.floor h) ∧
      (t.floor (homeOf (key / 64 * 64))).toNat = max (s.floor (homeOf (key / 64 * 64))).toNat (nextVersion l.ver).toNat) ∧
  (∀ w y e old : Nat, w = 32 ∨ w = 64 → y < 2 ^ w → old < 2 ^ w →
    ∀ x ∈ [(AmoOp.add, some ((old + y) % 2 ^ w)), (.and, some (old &&& y)), (.or, some (old ||| y)), (.xor, some (old ^^^ y)),
        (.max, some (if sgn w old < sgn w y then y else old)), (.min, some (if sgn w y < sgn w old then y else old)),
        (.maxu, some (max old y)), (.minu, some (min old y)), (.swap, some y), (.cas, if old = e then some y else none)],
      amoNew x.1 w y e old = x.2) ∧
  -- the blocks of C1 pages
  (∀ (s : State) (key : Nat), Memory.wf s.mem = true → Memory.wf s.c1 = true →
    let base := key / 256 * 256
    let mark (t : State) (b : Nat) := (readByte t.c1 b).toNat
    let dw (t : State) (q : Nat) := readN t.mem (base + 8 * q) 8
    let kept := (List.range 32).filter fun q => decide (dw s q ≠ 0)
    let S := max 2 (if 7 < (4 + 8 * kept.length + 31) / 32 then 8 else (4 + 8 * kept.length + 31) / 32)
    let elsewhere (t : State) : Prop := (∀ a, a < base ∨ base + 256 ≤ a → readByte t.mem a = readByte s.mem a) ∧
      (∀ b, b ≠ key / 256 → mark t b = mark s b) ∧ (∀ a, a < base ∨ base + 256 ≤ a → (a ∈ t.poison ↔ a ∈ s.poison)) ∧
      { t with mem := s.mem, c1 := s.c1, poison := s.poison, ticket := s.ticket } = s
    -- sector j of the block is poisoned
    let sick (t : State) (j : Nat) : Bool := t.poisonedAt (base + 32 * j) 32
    let tiered : Prop := key / 2 ^ 60 ≠ 4 ∧ ∀ a ∈ s.poison, a % 32 = 0
    (mark s (key / 256) ≠ 1 → s.asRaw key = s) ∧
    (mark s (key / 256) = 1 → elsewhere (s.asRaw key) ∧ mark (s.asRaw key) (key / 256) = S ∧
      (S = 8 → (∀ q < 32, dw (s.asRaw key) q = dw s q) ∧ (s.asRaw key).poison = s.poison) ∧
      (S < 8 → tiered → ∀ j < 8, sick (s.asRaw key) j = (decide (j < S) && (List.range 8).any (sick s))) ∧
      (S < 8 → readN (s.asRaw key).mem base 4 = ((List.range 32).map fun q => if dw s q = 0 then 0 else 2 ^ q).sum ∧
        (∀ i < kept.length, readN (s.asRaw key).mem (base + 4 + 8 * i) 8 = dw s (kept.getD i 0)) ∧
        ∀ a, 4 + 8 * kept.length ≤ a → a < 32 * S → readByte (s.asRaw key).mem (base + a) = 0)) ∧
    (mark s (key / 256) = 1 → (S < 8 → { (s.asRaw key).asC1 key with poison := s.poison } = { s with ticket := (s.asRaw key).ticket }) ∧
      (S = 8 → ∀ a, readByte ((s.asRaw key).asC1 key).mem a = readByte s.mem a)) ∧
    (mark s (key / 256) < 2 ∨ 8 ≤ mark s (key / 256) → s.asC1 key = s) ∧
    (2 ≤ mark s (key / 256) → mark s (key / 256) < 8 → elsewhere (s.asC1 key) ∧ mark (s.asC1 key) (key / 256) = 1 ∧
      (tiered → ∀ j < 8, sick (s.asC1 key) j = (List.range (mark s (key / 256))).any (sick s))) ∧
    (∀ x : Xl, x.key = key → s.inForm x = if x.cmp = 1 then s.asC1 key else s.asRaw key) ∧
    ∀ (x : Xl) (n v : Nat), x.key = key → base ≤ key → key + n ≤ base + 256 →
      Stored (s.inForm x) (s.writeAt x n v) key n v ∧ (x.cmp = 1 → mark (s.writeAt x n v) (key / 256) = 1) ∧
        (x.cmp ≠ 1 → (s.writeAt x n v).c1 = (s.inForm x).c1)) ∧
  (∀ (s : State) (part off : Nat) (r : MemReq) (p : Partition), s.part? part = some p → Memory.wf s.mem = true →
    let len : Nat := match r with
      | .read n => n
      | .write bs => bs.length
      | .amo _ w _ _ => if w then 4 else 8
      | .ldv => 8
      | .reduce _ _ => 4
      | .arrive _ => 16
    let unit : Nat := match r with
      | .read _ => 1
      | .write _ => 1
      | _ => len
    let size (tier : Nat) := p.n * if tier = 0 then 48000000000 else 256000000000
    let peer (tier o : Nat) : Prop := tier = off / 2 ^ 42 % 2 ∧ o = off % 2 ^ 42
    let host (tier o : Nat) : Prop := if off < size 0 then tier = 0 ∧ o = off else tier = 1 ∧ o = off - size 0
    let hostly : Prop := match r with
      | .read _ => True
      | .write _ => True
      | .amo op _ _ _ => op = .add ∨ op = .swap ∨ op = .cas
      | _ => False
    ∀ (i : Instr) (tier o : Nat), (i = .naeriRequest part off r ∧ peer tier o) ∨ (i = .bar2Request part off r ∧ host tier o) →
      -- no block of it is held packed
      let expanded (key : Nat) : Prop := ∀ a, key / 256 ≤ a → a ≤ (key + len) / 256 →
        (readByte s.c1 a).toNat < 2 ∨ 8 ≤ (readByte s.c1 a).toNat
      let ok := p.st ≠ 3 ∧ o + len ≤ size tier ∧ o % unit = 0 ∧ (i = .bar2Request part off r → p.vfOn = true ∧ hostly)
      let key := tier * 2 ^ 60 + (p.first * (if tier = 0 then 48000000000 else 256000000000) + o)
      let old := readN s.mem key len
      let bytes (n v : Nat) : List Byte := (List.range n).map fun j => .ofNat 8 (v / 256 ^ j)
      let rmw (x : Option Nat) : Prop := match x with
        | none => exec i s = .next { s with reply := bytes len old }
        | some w => ∃ t, exec i s = .next t ∧ WritesLine s t key len w ∧ t.reply = bytes len old
      (¬ok → exec i s = .next { s with reply := [] }) ∧
      (expanded key →
      (ok → (∀ bs, r ≠ .write bs) → s.poisonedAt key len = true → exec i s = .next { s with reply := [] }) ∧
      (∀ n, ok → r = .read n → s.poisonedAt key len = false → exec i s = .next { s with reply := bytes n old }) ∧
      (∀ bs, ok → r = .write bs → 0 < bs.length → key % 64 + bs.length ≤ 64 →
        ∃ t, exec i s = .next t ∧ WritesLine s t key bs.length (bytesNat bs) ∧ t.reply = []) ∧
      (∀ op w y e, ok → r = .amo op w y e → s.poisonedAt key len = false →
        rmw (amoNew op (8 * len) (y.toNat % 2 ^ (8 * len)) (e.toNat % 2 ^ (8 * len)) old)) ∧
      (ok → r = .ldv → s.poisonedAt key 8 = false →
        let there := s.l2.filter fun y => decide (homeOf y.line = homeOf key)
        let fill (w : State) : State := { s with
          l2 := { line := key / 64 * 64, ver := s.floor (homeOf key), cmp := 0, dirty := false, tier := 0, tierBad := 0 } :: w.l2
          floors := w.floors
          reply := bytes 8 old ++ bytes 8 (s.version key).toNat }
        ((s.l2Line? key).isSome = true → exec i s = .next { s with reply := bytes 8 old ++ bytes 8 (s.version key).toNat }) ∧
        (s.l2Line? key = none → there.length < 32768 → exec i s = .next (fill s)) ∧
        (∀ y, s.l2Line? key = none → 32768 ≤ there.length → there.getLast? = some y →
          ∃ w, exec (.lineEviction y.line) s = .next w ∧ exec i s = .next (fill w))) ∧
      (∀ op x, ok → r = .reduce op x → s.poisonedAt key 4 = false → rmw (some (match op with
        | .fadd => (addFV fmt32 1 (unpack fmt32 old) (unpack fmt32 x.toNat)).1
        | .iadd => (old + x.toNat) % 2 ^ 32
        | .or => old ||| x.toNat))) ∧
      (∀ x, ok → r = .arrive x → s.poisonedAt key 16 = false →
        let tgt := old % 2 ^ 32
        let cur := min (old / 2 ^ 32 % 2 ^ 32 + x.toNat) (2 ^ 32 - 1)
        let st := old / 2 ^ 64 % 2 ^ 16
        rmw (if 1 < st then none
          else some (tgt + cur * 2 ^ 32 + (if st = 1 ∨ tgt ≤ cur then 1 else 0) * 2 ^ 64 + old / 2 ^ 80 * 2 ^ 80)))) ∧
      (ok → exec i s = exec i ((List.range ((key % 256 + len + 255) / 256)).foldl (fun w b => w.asC1 (key + 256 * b)) s))) ∧
  (∀ (s : State) (i : Nat) (h : i < 16), (∀ p ∈ s.parts, p.first + p.n ≤ 8) →
    let reach := s.ports[i].reach
    let gone (e : TlbEnt) : Bool := decide (e.leaf / 2 ^ 8 % 4 = 3) && reach.contains (e.leaf / 2 ^ 52 % 2 ^ 12)
    let keep (t : List TlbEnt) := t.filter fun e => !gone e
    let own (p : Partition) : Prop := 2 * p.first ≤ i ∧ i < 2 * (p.first + p.n)
    let port (live : Bool) (since : Option Nat) (t : State) : Prop := t.ports = s.ports.set i { live, reach, replay := since }
    let mine (p : Partition) (k : Fin 96) : Prop := k.val / 12 ∈ (List.range p.n).map (p.first + ·)
    -- the peers whose traffic goes by this port
    let cut (p : Partition) : List Nat := reach.filter fun chip => s.ports[i].live &&
      decide (∀ j : Fin 16, j.val < i → 2 * p.first ≤ j.val → s.ports[j].live = true → chip ∉ s.ports[j].reach)
    let beyond (l : List Nat) (w : State) : State :=
      { w with ports := w.ports.map fun q => { q with reach := q.reach.filter fun chip => !l.contains chip } }
    let down (w t : State) : Prop := port false none t ∧ { t with ports := w.ports, cores := w.cores, parts := w.parts } = w ∧
      (∀ p ∈ w.parts, own p → ∀ k : Fin 96, mine p k → (t.core k).tlbS = keep (w.core k).tlbS ∧
        (t.core k).tlbV = keep (w.core k).tlbV ∧ (t.core k).tlbE = keep (w.core k).tlbE) ∧
      ∀ p ∈ w.parts, own p → w.part? p.first = some p → (t.part? p.first).map (·.tlb) = some (keep p.tlb)
    let quiet := ∀ p ∈ s.parts, own p → cut p = []
    let since := s.ports[i].replay.getD s.now
    (∃ t, exec (.naeriPortUp i) s = .next t ∧ port true none t ∧ { t with ports := s.ports } = s) ∧
    (∃ w t, exec (.naeriPortDown i) s = .next t ∧ down w t ∧ w.ports = s.ports ∧ (quiet → w = s)) ∧
    (∀ p, s.parts.find? (fun q => decide (own q)) = some p → mine p s.actor.core →
      -- an access of the scalar thread in flight
      (∀ d a k u v key pl, s.actor.seq = false → s.mayIssue = true → s.atPc = some (.ldd d a k) →
        let ea := (s.rd a + k.signExtend 64).toNat
        ea % 8 = 0 → Ready s u .r ea 8 key pl → s.poisonedAt key 8 = false →
        placeOf (beyond (cut p) s) s.actor.core s.isM .s .r ea 8 = (v, .error ⟨0x0B, ea⟩) →
        ∃ t, exec (.naeriPortDown i) s = .next t ∧ t.strand? = (v.trap 0x0B ea).strand? ∧ t.ctx = (v.trap 0x0B ea).ctx ∧
          t.me.fcause = (v.trap 0x0B ea).me.fcause ∧ t.me.faddr = (v.trap 0x0B ea).me.faddr) ∧
      -- a command in flight
      (∀ (j : Fin 4) e post u v x w y z f r, s.actor.seq = true → s.ctx.queue = [] →
        (∀ k, mine p k → ∀ g : Fin 4, k = s.actor.core ∧ g = j ∨ (s.core k).eng[g].entries = []) →
        s.me.eng[j].entries = e :: post → Leads s j e → Able s e → plainCopy e →
        nextRead s e = .ok u v x → nextWrite u e v = .ok w y z → nextRead (beyond (cut p) s) e = .fault f r → f.cause = 0x0B →
        ∃ t, exec (.naeriPortDown i) s = .next t ∧ t.me.eng[j].entries = (e :: post).filter (fun d => decide (d.no < e.no)) ∧
          t.me.eng[j].err = some (s.me.eng[j].err.getD 0x02))) ∧
    ∃ (fails : Bool) (w t : State), exec (.flitReplay i) s = .next t ∧ (quiet → { w with ticket := s.ticket } = s) ∧
      (fails = false → port s.ports[i].live none t ∧ { t with ports := s.ports, ticket := s.ticket } = s) ∧
      (fails = true → since + 50000 ≤ s.now → down w t) ∧
      (fails = true → s.now < since + 50000 → port s.ports[i].live (some since) t ∧ { t with ports := s.ports, ticket := s.ticket } = s))

/-- R308, R309, R310, R314, R318, R319, R329: Claims, the claim window, handover, override, loss, a function-level reset, and
LIDQ. A claim that comes once the window is up finds it decided: the lowest class wins, then the lowest nonce, then the earliest.
That a window opens at a loss only while a claim is pending is the model's choice (assumption 46), and so is what a function-level
reset leaves (assumption 48) and who stands for physical function 0 (assumption 70). -/
def Obligations.Ownership : Prop :=
  ∀ (s : State) (part sess : Nat) (p : Partition) (who : Master) (nonce : Dword) (root : Option (List Byte)), s.part? part = some p →
    let c : Claim := { who, nonce }
    let pf0 (w : Master) : Prop := w.cls = 2 ∧ w.id = 0
    let vf (w : Master) : Prop := w.cls = 2 ∧ w.id ≠ 0
    let seized (d : Claim) : Partition := { p with
      owner := some d
      openAt := none
      losing := false
      claims := p.claims.filter fun x => x.who ≠ d.who
      readOnly := p.readOnly.filter fun w => w ≠ d.who }
    let reopened (q : Partition) : Partition := { q with
      owner := none, losing := false, openAt := if q.claims = [] then none else some s.now }
    let shut : Partition := { p with
      claims := p.claims.filter fun x => decide ¬vf x.who
      readOnly := p.readOnly.filter fun w => decide ¬vf w }
    let closed := ∃ t, p.openAt = some t ∧ t + 125000 ≤ s.now ∧ p.owner = none
    let won (w : Claim) : Partition := { p with
      owner := some w
      openAt := none
      claims := []
      readOnly := (p.claims.map fun y => y.who).filter fun y => y ≠ w.who }
    let wins (w : Claim) : Prop := ∃ pre post, p.claims = pre ++ w :: post ∧
      (∀ y ∈ pre, w.who.cls < y.who.cls ∨ (w.who.cls = y.who.cls ∧ w.nonce < y.nonce)) ∧
      (∀ y ∈ post, w.who.cls < y.who.cls ∨ (w.who.cls = y.who.cls ∧ w.nonce ≤ y.nonce))
    let joins (q : Partition) : Partition := { q with
      claims := q.claims ++ [c]
      openAt := if q.owner = none ∧ q.openAt = none then some s.now else q.openAt }
    (nonce = 0 ∨ who.cls = 0 → exec (.claim part who nonce) s = .next s) ∧
    (nonce ≠ 0 → who.cls ≠ 0 → ¬closed → Makes (.claim part who nonce) s part (joins p)) ∧
    (nonce ≠ 0 → who.cls ≠ 0 → closed → p.claims = [] → Makes (.claim part who nonce) s part (joins { p with openAt := none })) ∧
    (∀ w, nonce ≠ 0 → who.cls ≠ 0 → closed → wins w → Makes (.claim part who nonce) s part (joins (won w))) ∧
    (nonce = 0 ∨ root ≠ some s.otp.opKey → exec (.class0Override part ⟨sess, root⟩ nonce) s = .next s) ∧
    (nonce ≠ 0 → Makes (.class0Override part ⟨sess, some s.otp.opKey⟩ nonce) s part (seized { who := { cls := 0, id := sess }, nonce })) ∧
    (¬closed → Makes (.claimWindowExpiry part) s part p) ∧
    (closed → p.claims = [] → Makes (.claimWindowExpiry part) s part { p with openAt := none }) ∧
    (∀ w, closed → wins w → Makes (.claimWindowExpiry part) s part (won w)) ∧
    (pf0 who ∨ (p.owner.map fun y => y.who) ≠ some who ∨ (∀ y ∈ p.claims, y.nonce ≠ nonce) →
      Makes (.handover part who nonce) s part p) ∧
    (∀ d, ¬pf0 who → (p.owner.map fun y => y.who) = some who → p.claims.find? (fun y => y.nonce = nonce) = some d →
      Makes (.handover part who nonce) s part { p with owner := some d, losing := false, claims := p.claims.filter fun y => y ≠ d }) ∧
    (p.owner = none → Makes (.ownerLoss part) s part { p with losing := false }) ∧
    (p.owner ≠ none → Makes (.ownerLoss part) s part (reopened p)) ∧
    (∀ o, p.owner = some o → vf o.who → p.under = 0 → Makes (.functionLevelReset part) s part (reopened shut)) ∧
    (∀ o, p.owner = some o → vf o.who → p.under ≠ 0 → Makes (.functionLevelReset part) s part { shut with losing := true }) ∧
    ((∀ o, p.owner = some o → ¬vf o.who) → Makes (.functionLevelReset part) s part shut) ∧
    ∃ t, exec (.lidqRead part) s = .next t ∧ t.reply = natBytes 8 ((p.lidq.head?.map fun y => y.toNat).getD 0) ∧
      PartIs s { t with reply := s.reply } part { p with lidq := p.lidq.drop 1 }

/-- R226, R227, R304, R311, R313, R319: A command is ignored from any master but the owner and refused where it is not permitted; QUIESCE,
RESUME, DHALT and DRESUME do what the spec says, and a quiesce ends once every strand is frozen, its owner then lost if its function was
reset meanwhile. Strands that a swap-out froze drain their engines under QUIESCE too, but in a gang of which an image has been written,
whose engines stay at rest by the model's choice (assumption 87). An engine that ENGQ stopped runs again at DRESUME, but where its
strand's trap is still held. That RESUME in ST 4 leaves the halted launches halted is the model's choice (assumption 42), and so are the
refusal of an argument other than 0 of the commands that take none (assumption 43) and that a window opens after the quiesce only where a
claim is pending (assumption 46). -/
def Obligations.OwnerCommands : Prop :=
  ∀ (s : State) (part : Nat) (p : Partition) (who : Master) (arg : Dword), s.part? part = some p →
    (p.launches.map fun y => y.id).Nodup →
    let owns := (p.owner.map fun y => y.who) = some who ∧ ¬(who.cls = 2 ∧ who.id = 0)
    let zero := arg.toNat / 2 ^ 8 = 0
    let b := arg.toNat / 2 ^ 8 % 16
    let k := arg.toNat / 2 ^ 12 % 16
    let m := arg.toNat / 2 ^ 16 % 16
    let regroups := k ∈ [1, 2, 4, 8] ∧ b % k = 0 ∧ b + k ≤ 8 ∧ m ∈ [1, 2, 4, 8] ∧ m ≤ k ∧ arg.toNat / 2 ^ 20 = 0 ∧
      ∀ q ∈ s.parts, q.first < b + k → b < q.first + q.n →
        b ≤ q.first ∧ q.first + q.n ≤ b + k ∧ (q.owner.map fun y => y.who) = some who ∧ q.st = 2
    let cmds : List (Nat × Instr × Prop) := [(1, .quiesce part who arg, p.st = 0 ∧ zero),
      (2, .resume part who arg, (p.st = 2 ∨ p.st = 4) ∧ zero), (4, .resize part who arg, p.st = 2 ∧ regroups),
      (5, .dhalt part who arg, p.st = 0 ∧ zero), (6, .dresume part who arg, p.st = 4 ∧ zero)]
    let did (q : Partition) (op st : Nat) : Partition := { q with cmdOp := .ofNat 8 op, cmdSt := .ofNat 2 st }
    let swaps (y : Launch) : Bool := y.st = .running && !((List.range (gang y)).all y.halted.contains)
    let whole (y : Launch) : Prop := y.st = .swapping ∧ (y.imgs ++ y.inPlace).length = y.cores.length
    let halts (y : Launch) : Bool := y.st = .running && y.field 0x60 = p.dhlid
    let hits := p.launches.filter halts
    (¬owns → exec (.reset part who arg) s = .next s ∧ ∀ c ∈ cmds, exec c.2.1 s = .next s) ∧
    (owns → ∀ c ∈ cmds, ¬c.2.2 → Makes c.2.1 s part (did p c.1 3)) ∧
    (owns → (p.st = 2 ∨ p.st = 4) → zero → Makes (.resume part who arg) s part { did p 2 2 with st := 0 }) ∧
    (owns → p.st = 0 → zero → ∃ t, exec (.quiesce part who arg) s = .next t ∧
      (∀ k : Fin 96, (∀ y ∈ p.launches, swaps y = true → k.val ∉ y.cores.map (· % 96)) →
        ((∃ y ∈ p.launches, whole y ∧ k.val ∈ y.cores.map (· % 96)) → t.core k = { s.core k with
          strand := (s.core k).strand.map fun st => { st with frz := if st.frz = .swap then .drain else st.frz } }) ∧
        ((∀ y ∈ p.launches, whole y → k.val ∉ y.cores.map (· % 96)) → t.core k = s.core k)) ∧
      { t with parts := s.parts, cores := s.cores } = s ∧ (∀ q, q ≠ part → t.part? q = s.part? q) ∧
      t.part? part = some { did p 1 1 with
        st := 1
        under := 1
        launches := p.launches.map fun y => if swaps y then { y with st := .swapping, imgs := y.cores, inPlace := [] } else y } ∧
      ∀ y ∈ p.launches, swaps y = true → ∀ j ∈ y.cores, ∀ st, (s.core (coreId j)).strand = some st →
        ∃ z, (t.core (coreId j)).strand = some z ∧ z.frz = .drain ∧ z.links = [] ∧ (t.core (coreId j)).fcause.getLsbD 9 = false ∧
          (t.core (coreId j)).user.regs = (s.core (coreId j)).user.regs) ∧
    (p.st = 1 → (∀ y ∈ p.launches, y.st ≠ .running ∧ y.st ≠ .swapping) →
      let done : Partition := { p with st := 2, under := 0, lowAt := none, cmdSt := if p.cmdOp = 1 ∧ p.cmdSt = 1 then 2 else p.cmdSt }
      Makes (.quiesceComplete part) s part (if p.losing = false then done else { done with
        owner := none
        losing := false
        openAt := if p.owner = none then p.openAt else if p.claims = [] then none else some s.now })) ∧
    (¬(p.st = 1 ∧ ∀ y ∈ p.launches, y.st ≠ .running ∧ y.st ≠ .swapping) → Makes (.quiesceComplete part) s part p) ∧
    (owns → p.st = 0 → zero → hits = [] → Makes (.dhalt part who arg) s part { did p 5 2 with lidq := [] }) ∧
    (owns → p.st = 0 → zero → hits ≠ [] → ∃ t, exec (.dhalt part who arg) s = .next t ∧
      OnlyCores s { t with parts := s.parts } (hits.flatMap fun y => y.cores) ∧
      t.part? part = some { did p 5 2 with
        st := 4
        lidq := hits.map fun _ => p.dhlid
        launches := p.launches.map fun y => if halts y then { y with dbg := true } else y } ∧
      ∀ y ∈ hits, ∀ j ∈ y.cores, ∀ st, (s.core (coreId j)).strand = some st →
        ∃ z, (t.core (coreId j)).strand = some z ∧ z.frz = .debug ∧ z.links = [] ∧
          (t.core (coreId j)).user.regs = (s.core (coreId j)).user.regs) ∧
    (owns → p.st = 4 → zero → ∃ t, exec (.dresume part who arg) s = .next t ∧
      t.part? part = some { did p 6 2 with st := 0, lidq := [], launches := p.launches.map fun y => { y with dbg := false } } ∧
      OnlyCores s { t with parts := s.parts } ((p.launches.filter fun y => y.dbg).flatMap fun y => y.cores) ∧
      ∀ y ∈ p.launches, y.dbg = true → ∀ j ∈ y.cores,
        let c := s.core (coreId j)
        { t.core (coreId j) with engOff := c.engOff } = { c with
          user := { c.user with line := none, barFrom := none, icache := imagesWithout c.user [c.user.pc] }
          strand := (s.core (coreId j)).strand.map fun st => { st with frz := if st.frz = .debug then .none else st.frz } } ∧
        (t.core (coreId j)).engOff = (c.engOff && c.strand.any fun st => decide (st.run = .held)))

/-- R212, R221, R245, R304, R311, R312, R313, R315, R318, R322, R323, R327: How the reset of a partition starts, for each of its causes:
ST reads 3, every strand and Mordant has stopped, and translations to it are forgotten; and what it leaves when it ends, with and without
a scrub: ST is 0, launches have completed with the mark, their counters raised or still held, a line written over a poisoned one is
dropped with what its tier held, and every Mordant stands at the entry of the firmware image, which the tables it starts with map, for
firmware alone. RESIZE regroups an aligned block: the new partitions, their carried state, their cores, their L2 slices, and the layout
measured. Where the firmware's tables and virtual address lie is the model's choice, the addresses being free values (assumption 12); so
are the registers, vector file and masks with which Mordant starts, all zero (assumption 2), that a line with a poisoned sector is dropped
whole, its tier keeping its bytes (assumption 30), that the reset of a command is busy until it ends (assumption 45), that a window opens
after it only where a claim is pending (assumption 46), what a regrouped partition carries and zeroes (assumptions 53 and 71), and that
MSIRAISE reads 0 after it (assumption 72). What is said of memory byte by byte is said where no block is held expanded for a C1 page. -/
def Obligations.PartitionResetAndResize : Prop :=
  (∀ (s : State) (part : Nat) (p : Partition) (who : Master) (arg : Dword), s.part? part = some p → p.first + p.n ≤ 8 → 0 < p.n →
     Memory.wf s.mem = true →
     let mine (k : Fin 96) : Prop := p.first ≤ k.val / 12 ∧ k.val / 12 < p.first + p.n
     let owned (key : Nat) : Prop :=
       (p.first * 48000000000 ≤ key ∧ key < (p.first + p.n) * 48000000000) ∨
       (2 ^ 60 + p.first * 256000000000 ≤ key ∧ key < 2 ^ 60 + (p.first + p.n) * 256000000000) ∨
       (4 * 2 ^ 60 + 12 * p.first * 2 ^ 24 ≤ key ∧ key < 4 * 2 ^ 60 + 12 * (p.first + p.n) * 2 ^ 24)
     let len := bytesNat ((s.fwImage.drop 0x0C).take 4)
     let image := (s.fwImage.drop 0x60).take len
     let size := p.n * 256000000000
     let va := (Config.firmwareRegion p.first).toNat * 2 ^ 42 + (size - 1000000000) % 2 ^ 29
     let ptb : Dword := .ofNat 64 ((Config.firmwareAsid p.first).toNat * 2 ^ 48 + (size - 65536) + 0x100)
     let at' := 2 ^ 60 + (p.first + p.n) * 256000000000 - 1000000000
     -- the firmware image, and the two pages of its tables
     let firmware (a : Nat) : Prop := (at' ≤ a ∧ a < at' + len) ∨ (at' + 1000000000 - 131072 ≤ a ∧ a < at' + 1000000000)
     let idle := ∀ k, mine k → ∀ g : Fin 4, (s.core k).eng[g].entries = []
     let elsewhere (t : State) : Prop := ∀ k, ¬mine k →
       { t.core k with tlbS := (s.core k).tlbS, tlbV := (s.core k).tlbV, tlbE := (s.core k).tlbE } = s.core k
     let starts (scrub : Bool) (cmd : BitVec 8 × BitVec 2 × Nat) (t : State) : Prop :=
       (∃ y, t.part? part = some y ∧ { y with tlb := p.tlb } = { p with
         st := 3, scrub := scrub || (decide (p.st = 3) && p.scrub), cmdOp := cmd.1, cmdSt := cmd.2.1, under := cmd.2.2 } ∧
         ∀ e ∈ y.tlb, ¬(e.leaf / 2 ^ 8 % 4 = 3 ∧ e.leaf / 2 ^ 52 % 2 ^ 12 = s.moduleNo * 8 + part)) ∧
       (∀ k, mine k → t.core k = Core.reset) ∧ elsewhere t ∧
       (∀ q ∈ s.parts, ∀ k : Fin 96, ¬mine k → q.first ≤ k.val / 12 → k.val / 12 < q.first + q.n → q.first + q.n ≤ 8 →
         ∀ e ∈ (t.core k).tlbS ++ (t.core k).tlbV ++ (t.core k).tlbE, ¬(e.leaf / 2 ^ 8 % 4 = 3 ∧ e.leaf / 2 ^ 52 % 2 ^ 12 = s.moduleNo * 8 + part)) ∧
       (idle → SameMem s t)
     let stop := (p.cmdOp, if p.cmdSt = 1 ∧ p.cmdOp ≠ 3 then 3 else p.cmdSt, if p.under = 3 then 3 else 0)
     let unmarked (u : State) : Prop := ∀ a, u.c1At a ≠ 1
     let dropped (u : State) (l : L2Line) : Prop := owned l.line ∧ l.dirty = true ∧ u.poisonedAt l.line 64 = true
     let ended (z : Launch) : Launch := { z with st := .done, mark := true, pend := counters z, cores := [], imgs := [], inPlace := [] }
     let ends (t : State) : Prop :=
       (∃ y, t.part? part = some y ∧ y.st = 0 ∧ y.n = p.n ∧ y.claims = p.claims ∧ y.born = s.now ∧ y.wdogAt = s.now ∧
         y.owner = (if p.losing then none else p.owner) ∧ y.losing = false ∧
         y.openAt = (if p.losing = true ∧ p.claims ≠ [] then some s.now else p.openAt) ∧
         y.qtbase = 0 ∧ y.sercnt = 0 ∧ y.tlb = [] ∧ y.lidq = [] ∧ y.plan = false ∧ y.lowAt = none ∧ y.msiVec = none ∧ y.scrub = false ∧
         y.taking = none ∧ y.cmdOp = p.cmdOp ∧ y.cmdSt = (if p.cmdOp = 3 ∧ p.cmdSt = 1 then 2 else p.cmdSt) ∧
         y.mepoch = (if p.plan then p.mepoch + 1 else p.mepoch) ∧ y.under = 0 ∧ (∀ l ∈ y.launches, l.st = .done) ∧
         (p.scrub = false → (p.launches.map fun l => l.id).Nodup → (∀ l ∈ p.launches, l.st = .done → l ∈ y.launches) ∧
           ∀ l ∈ p.launches, l.st ≠ .done → ∀ z ∈ y.launches, z.id = l.id → z.mark = true ∧ z.pend ≠ [] ∧ z.pend <:+ counters l) ∧
         (∀ l, p.scrub = false → p.qcache = [] → p.launches = [l] → l.st ≠ .done → ∃ s1, PartIs s s1 part (withLaunch p l.id ended) ∧
           ∀ u, Counts (withLaunch p l.id ended) l true (counters l) s1 u → y.launches = [] ∧
             (unmarked u → (∀ l ∈ u.l2, ¬dropped u l) → ∀ a, ¬firmware a → readByte t.mem a = readByte u.mem a)) ∧
         (p.scrub = true → y.launches = [] ∧ y.qcache = [] ∧ y.sel = []) ∧ (p.scrub = false → y.sel = p.sel) ∧
         -- the tables Mordant starts with map the firmware gigabyte, for firmware alone
         ((∀ a ∈ s.poison, a % 32 = 0) → (∀ l ∈ s.l2, l.line % 64 = 0) → ∀ o, o < 1000000000 → ∀ kd, va + o < 2 ^ 55 ∧ ∃ e big, walk t y ptb (va + o) = .leaf e big ∧
           checkLeaf t y true kd (va + o) e big = .ok { key := at' + o, tier := 1, pol := 0, cmp := 0, chip := 0 } ∧
           checkLeaf t y false kd (va + o) e big = .error ⟨pflt kd, va + o⟩)) ∧
       (∀ k, mine k → t.core k = { s.core k with
         mordant := { Ctx.reset with pc := .ofNat 64 (va + bytesNat ((s.fwImage.drop 0x10).take 8)) }
         mOn := true
         ptbase := ptb }) ∧
       (∀ k, ¬mine k → t.core k = s.core k) ∧
       (∀ l ∈ t.l2, ¬owned l.line) ∧ (∀ h, (s.floor h).toNat ≤ (t.floor h).toNat) ∧
       (∀ i (h : i < image.length), i < 1000000000 - 131072 → readByte t.mem (at' + i) = image[i]) ∧
       (p.scrub = true → ∀ a, owned a → ¬firmware a → readByte t.mem a = 0) ∧
       (p.scrub = false → p.launches = [] → p.qcache = [] → (s.l2.map fun l => l.line).Nodup → unmarked s →
         (∀ a, ¬firmware a → (∀ l ∈ s.l2, dropped s l → a < l.line ∨ l.line + 64 ≤ a) → readByte t.mem a = readByte s.mem a) ∧
         ((∀ l ∈ s.l2, l.line % 64 = 0) → ∀ l ∈ s.l2, dropped s l → l.tier < 2 ^ 512 → (∀ j < 64, ¬firmware (l.line + j)) → readN t.mem l.line 64 = l.tier))
     let late (t0 limit : Nat) : Prop := t0 + limit ≤ s.now
     len ≤ 1000000000 →
     (p.st ≠ 3 → ∃ t, exec (.partitionReset part) s = .next t ∧ starts false stop t) ∧
     (p.st = 3 → ∃ t, exec (.partitionReset part) s = .next t ∧ ends t) ∧
     (p.st ≠ 3 → late p.wdogAt 250000000 → ∃ t, exec (.watchdogExpiry part) s = .next t ∧ starts false stop t) ∧
     (p.st = 3 ∨ ¬late p.wdogAt 250000000 → exec (.watchdogExpiry part) s = .next s) ∧
     (∀ t0, p.lowAt = some t0 → p.st ≠ 2 → p.st ≠ 3 → late t0 2500000000 →
       ∃ t, exec (.marginQuiesceTimeout part) s = .next t ∧ starts false stop t) ∧
     ((∀ t0, p.lowAt = some t0 → p.st = 2 ∨ p.st = 3 ∨ ¬late t0 2500000000) → exec (.marginQuiesceTimeout part) s = .next s) ∧
     ((p.owner.map fun y => y.who) = some who → ¬(who.cls = 2 ∧ who.id = 0) →
       ∃ t, exec (.reset part who arg) s = .next t ∧ starts (arg.getLsbD 8) (3, 1, 3) t) ∧
     (∀ cause addr, p.st ≠ 3 → s.actor.who = .mordant → s.partOfCore s.actor.core = some p →
       exec (.partitionReset part) s = .next (s.trap cause addr) ∧ exec (.partitionReset part) s = .next (s.vtrap cause addr))) ∧
  (∀ (s : State) (part : Nat) (p : Partition) (who : Master) (arg : Dword), s.part? part = some p →
     let b := arg.toNat / 2 ^ 8 % 16
     let k := arg.toNat / 2 ^ 12 % 16
     let m := arg.toNat / 2 ^ 16 % 16
     (p.owner.map fun y => y.who) = some who → ¬(who.cls = 2 ∧ who.id = 0) → p.st = 2 → k ∈ [1, 2, 4, 8] → b % k = 0 → b + k ≤ 8 →
     m ∈ [1, 2, 4, 8] → m ≤ k → arg.toNat / 2 ^ 20 = 0 → (∀ q ∈ s.parts, 0 < q.n) →
     (∀ (c : Fin 96) st, (s.core c).strand = some st → b ≤ st.part → st.part < b + k → b ≤ c.val / 12 ∧ c.val / 12 < b + k) →
     (∀ q ∈ s.parts, q.first < b + k → b < q.first + q.n →
       b ≤ q.first ∧ q.first + q.n ≤ b + k ∧ (q.owner.map fun y => y.who) = some who ∧ q.st = 2) →
     let slice (h : Nat) := h / 24
     let large (l : Launch) : Prop := (l.st = .waiting ∨ l.st = .ready) ∧ 12 * m < gang l
     ∃ t, exec (.resize part who arg) s = .next t ∧
       (∀ q, q ≠ part → ¬(b ≤ q ∧ q < b + k) → t.part? q = s.part? q) ∧
       (∀ g ∈ (List.range (k / m)).map (fun i => b + m * i), ∃ y, t.part? g = some y ∧ y.n = m ∧ y.st = 2 ∧ y.born = s.now ∧
         y.sercnt = 0 ∧ y.msiVec = none ∧ (y.owner.map fun y => y.who) = some who ∧
         (∀ o, s.part? g = some o → y.qtbase = o.qtbase ∧
           ((∀ l ∈ o.launches, ¬large l) → y.launches = o.launches) ∧
           ((o.launches.map fun l => l.id).Nodup → (∀ l ∈ o.launches, ¬large l → l ∈ y.launches) ∧
             ∀ l ∈ o.launches, large l → ∀ z ∈ y.launches, z.id = l.id → z.st = .done ∧ z.mark = true)) ∧
         (s.part? g = none → y.qtbase = 0 ∧ y.launches = []) ∧
         (∀ c : Fin 96, g ≤ c.val / 12 → c.val / 12 < g + m → t.core c = { Core.reset with
           mordant := { Ctx.reset with pc := .ofNat 64 ((Config.firmwareRegion g).toNat * 2 ^ 42 + (m * 256000000000 - 1000000000) % 2 ^ 29 +
             bytesNat ((s.fwImage.drop 0x10).take 8)) }
           mOn := true
           ptbase := .ofNat 64 ((Config.firmwareAsid g).toNat * 2 ^ 48 + (m * 256000000000 - 65536) + 0x100) }) ∧
         ∀ h h', g ≤ slice h → slice h < g + m → g ≤ slice h' → slice h' < g + m → t.floor h = t.floor h' ∧ (s.floor h').toNat ≤ (t.floor h).toNat) ∧
       (∀ g, b ≤ g → g < b + k → (g - b) % m ≠ 0 → t.part? g = none) ∧
       (∀ c : Fin 96, ¬(b ≤ c.val / 12 ∧ c.val / 12 < b + k) → t.core c = s.core c) ∧
       (∃ r, t.log = s.log ++ [r] ∧ r.ix = 5))

/-- R5, R6, R29, R74, R308, R311, R315, R324: The firmware registers that act on the partition, writes of registers from
outside, and MSI-X messages, which are sent once unmasked. Physical function 0 reaches claims, STATUS and telemetry alone, standing as
the model chooses (assumption 70). The telemetry of SERCNT and MEPOCH is read by the owner, by a read-only master and by it. A
debugger writes a register, or the PC, of a strand it has halted, where the image stays one that R224 assigns (assumption 66). -/
def Obligations.RegistersFromOutside : Prop :=
  ∀ (s : State) (p : Partition) (v : Dword) (part vec off : Nat) (who : Master) (q : Partition), s.partOfCore s.actor.core = some p →
    s.part? p.first = some p → s.part? part = some q →
    let mo := s.actor.who = .mordant
    let num := v.toNat % 16
    let clear (r : Partition) (n : Nat) : Prop := r.msiOn = true ∧ ∃ e, r.msi[n]? = some e ∧ e.masked = false
    let sends (i : Instr) (r : Partition) (n : Nat) (y : Partition) : Prop := ∃ t e, r.msi[n]? = some e ∧ exec i s = .next t ∧
      t.sent = s.sent ++ [(e.addr, e.data)] ∧ PartIs s { t with sent := s.sent } r.first y
    let entry (f : MsiEnt → MsiEnt) : Partition := { q with msi := q.msi.zipIdx.map fun x => if x.2 = vec then f x.1 else x.1 }
    let op := v.toNat % 256
    let pf0 := who.cls = 2 ∧ who.id = 0
    let owns := (q.owner.map fun y => y.who) = some who ∧ ¬pf0
    (¬mo → Traps (.wdog v) s 0x03 0 ∧ Traps (.msiraise v) s 0x03 0) ∧
    (mo → Makes (.wdog v) s p.first { p with wdogAt := s.now }) ∧
    (mo → p.vfOn = false → exec (.msiraise v) s = .next s) ∧
    (mo → p.vfOn = true → clear p num → sends (.msiraise v) p num { p with msiVec := some (.ofNat 4 num) }) ∧
    (mo → p.vfOn = true → ¬clear p num → Makes (.msiraise v) s p.first { p with
      msiVec := some (.ofNat 4 num), msiPend := p.msiPend ||| (1#16 <<< num) }) ∧
    (mo → ∀ d, Gives (.sysr d 0x8D) s d (match p.msiVec with
      | none => 0
      | some n => .ofNat 64 (n.toNat + if p.msiPend.getLsbD n.toNat then 16 else 0))) ∧
    (let due := vec < 16 ∧ q.vfOn = true ∧ q.msiPend.getLsbD vec = true ∧ clear q vec
     (due → sends (.msixPendingSend part vec) q vec { q with msiPend := q.msiPend &&& ~~~(1#16 <<< vec) }) ∧
     (¬due → exec (.msixPendingSend part vec) s = .next s)) ∧
    (∀ (i : BitVec 8) (a : SReg), s.ctx.queue = [] → i.toNat < 0x19 ∨ (0x80 ≤ i.toNat ∧ mo) →
      ∃ t u, exec (.registerWrite (.sys i) (s.rd a)) s = .next u ∧ exec (.sysw i a) s = .next t ∧ t.ctx.pc = u.ctx.succPc ∧ OnlyPc u t) ∧
    (∀ i : BitVec 8, (0x19 ≤ i.toNat ∧ i.toNat < 0x80) ∨ (0x80 ≤ i.toNat ∧ ¬mo) → Traps (.registerWrite (.sys i) v) s 0x03 0) ∧
    (∀ c ∈ [(0x008, Instr.claim part who v), (0x028, .handover part who v)],
      ∃ t, exec (.registerWrite (.window part who c.1) v) s = .next t ∧ exec c.2 s = .next t) ∧
    (∀ c ∈ [(1, Instr.quiesce part who v), (2, .resume part who v), (3, .reset part who v), (4, .resize part who v),
        (5, .dhalt part who v), (6, .dresume part who v)], op = c.1 →
      ∃ t, exec (.registerWrite (.window part who 0x018) v) s = .next t ∧ exec c.2 s = .next t) ∧
    (op = 0 ∨ 6 < op → (owns → Makes (.registerWrite (.window part who 0x018) v) s part { q with cmdOp := .ofNat 8 op, cmdSt := 3 }) ∧
      (¬owns → exec (.registerWrite (.window part who 0x018) v) s = .next s)) ∧
    Makes (.registerWrite (.window part who 0x038) v) s part (if owns then { q with dhlid := v } else q) ∧
    (off ∉ [0x008, 0x018, 0x028, 0x038] → exec (.registerWrite (.window part who off) v) s = .next s) ∧
    Makes (.registerWrite (.msixAddr part vec) v) s part (entry fun e => { e with addr := v }) ∧
    Makes (.registerWrite (.msixData part vec) v) s part (entry fun e => { e with data := v }) ∧
    Makes (.registerWrite (.msixMask part vec) v) s part (entry fun e => { e with masked := v.getLsbD 0 }) ∧
    Makes (.registerWrite (.msixEnable part) v) s part { q with msiOn := v.getLsbD 0 } ∧
    q.telemetry who = (if (q.owner.map fun y => y.who) = some who ∨ who ∈ q.readOnly ∨ pf0 then some (q.sercnt, q.mepoch) else none) ∧
    q.windowRead who 0x000 = q.st.toNat + q.n * 2 ^ 4 + q.first * 2 ^ 8 +
      (match q.owner with | none => 0 | some c => 2 ^ 12 + c.who.cls.toNat * 2 ^ 13) ∧
    q.windowRead who 0x010 = (if (q.owner.map fun y => y.who) = some who then 2 else if ∃ c ∈ q.claims, c.who = who then 1
      else if who ∈ q.readOnly then 3 else 0) ∧
    (¬pf0 → q.windowRead who 0x020 = q.cmdOp.toNat + q.cmdSt.toNat * 2 ^ 8 ∧ q.windowRead who 0x040 = q.lidq.length) ∧
    (∀ o, o ≠ 0x000 → o ≠ 0x010 → pf0 ∨ (o ≠ 0x020 ∧ o ≠ 0x040) → q.windowRead who o = 0) ∧
    (∀ (k : Fin 96) st, (s.core k).strand = some st →
      (st.frz ≠ .debug → exec (.registerWrite (.image k.val off) v) s = .next s) ∧
      (st.frz = .debug → (heldOf (writeN (imageBytes s k st) off 8 v.toNat) st.size).isSome = true →
        (∀ r : SReg, r ≠ 0 → off = 8 * r.toNat → ∃ t, exec (.registerWrite (.image k.val off) v) s = .next t ∧ SameMem s t ∧
          (t.core k).user.reg r = v ∧ (t.core k).user.pregs.getLsbD r.toNat = false ∧
          (∀ q : SReg, q ≠ r → (t.core k).user.reg q = (s.core k).user.reg q) ∧ (t.core k).user.pc = (s.core k).user.pc) ∧
        (off = 0x100 → ∃ t, exec (.registerWrite (.image k.val off) v) s = .next t ∧ SameMem s t ∧ (t.core k).user.pc = v ∧
          ∀ q : SReg, (t.core k).user.reg q = (s.core k).user.reg q)) ∧
      (st.frz = .debug → heldOf (writeN (imageBytes s k st) off 8 v.toNat) st.size = none →
        exec (.registerWrite (.image k.val off) v) s = .next s) ∧
      (st.frz = .debug → debugRead s k off = some (.ofNat 64 (readN (imageBytes s k st) off 8))))

/-- R208, R321, R322, R324, R325, R326, R327, R330: GET_MEASUREMENTS answers the records of an index, or all, on the management port alone
while Ochre is in its ROM, in a byte form that is the model's choice (assumption 50). A corrected and an uncorrectable error are counted,
saturating, and an uncorrectable one poisons the granule it names (of a tile that is not free, Lost or Active, the element), or resets the
partition where it lies in Mordant's state, its memory or the scheduler. A margin report is sent and starts a plan, which is applied at
once in a quiesced partition, and else waits for the next quiesce or reset. -/
def Obligations.ServiceEvents : Prop :=
  (∀ (s : State) (path : MeasPath) (ix : Nat),
    let bytes (r : LogRec) := natBytes 4 r.ix ++ natBytes 4 r.kind ++ natBytes 4 r.sver ++ r.digest
    (path = .doe → s.ochreUp = false → exec (.getMeasurements ⟨path, ix⟩) s = .next { s with reply := [] }) ∧
    (path ≠ .doe ∨ s.ochreUp = true →
      exec (.getMeasurements ⟨path, ix⟩) s = .next { s with reply := (s.log.filter fun r => ix = 0 || r.ix = ix).flatMap bytes })) ∧
  (∀ (s : State) (slice : Nat), s.partOfSlice slice = none → exec (.correctedError slice) s = .next s) ∧
  (∀ (s : State) (part : Nat), s.part? part = none → exec (.marginReport part) s = .next s) ∧
  ∀ (s : State) (part slice key core e byte : Nat) (p : Partition) (r : SReg) (m : MReg) (k : BitVec 3) (z : BitVec 1),
    s.part? part = some p →
    let cor := p.sercnt.toNat % 2 ^ 32
    let unc := p.sercnt.toNat / 2 ^ 32
    let counted : Partition := { p with sercnt := .ofNat 64 (cor + min (unc + 1) (2 ^ 32 - 1) * 2 ^ 32) }
    let resets (i : Instr) : Prop := p.st ≠ 3 → ∃ u t, PartIs s { u with poison := s.poison } part counted ∧ exec i s = .next t ∧ exec (.partitionReset part) u = .next t
    let granule := if key / 2 ^ 60 = 4 then key / 64 * 64 else key / 32 * 32
    let firmware := 2 ^ 60 + (p.first + p.n) * 256000000000 - 1000000000
    let hits (i : Instr) (f : Core → Core) : Prop := ∃ t u, exec i s = .next t ∧ PartIs s u part counted ∧ t = u.updCore (coreId core) f
    let user (f : Ctx → Ctx) (c : Core) : Core := { c with user := f c.user }
    let strand (f : Strand → Strand) (c : Core) : Core := { c with strand := c.strand.map f }
    let spoiled (t : Tile) : Tile := if t.st ≠ .free ∧ e < 32768 then { t with poison := e :: t.poison.filter fun y => y % 32768 ≠ e } else t
    (s.partOfSlice slice = some p → Makes (.correctedError slice) s part { p with
      sercnt := .ofNat 64 (min (cor + 1) (2 ^ 32 - 1) + unc * 2 ^ 32) }) ∧
    (∃ t, exec (.marginReport part) s = .next t ∧ t.reports = s.reports ++ [.lowMargin part] ∧
      PartIs s { t with reports := s.reports } part { p with plan := true, lowAt := if p.st = 2 then none else some s.now }) ∧
    (p.st = 2 → Makes (.marginPlanApply part) s part { p with mepoch := p.mepoch + 1, plan := false, lowAt := none }) ∧
    (p.st ≠ 2 → Makes (.marginPlanApply part) s part { p with plan := true }) ∧
    (0 < p.n → s.parts.find? (fun q => q.ownsKey key) = some p →
      (key < firmware ∨ firmware + 1000000000 ≤ key →
        ∃ t, exec (.uncorrectableError (.mem key)) s = .next t ∧ PartIs s { t with poison := s.poison } part counted ∧
          t.poison = granule :: s.poison.filter fun y => y ≠ granule) ∧
      (firmware ≤ key → key < firmware + 1000000000 → resets (.uncorrectableError (.mem key)))) ∧
    resets (.uncorrectableError (.scheduler part)) ∧
    (core < 96 → s.partOfCore core = some p →
      (∀ i ∈ [Granule.sreg core true r, .mask core true m, .velem core true byte], resets (.uncorrectableError i)) ∧
      ((s.core (coreId core)).strand = none → ∀ i ∈ [Granule.sreg core false r, .mask core false m, .velem core false byte, .fl core k,
        .ct core, .tile core z e], Makes (.uncorrectableError i) s part counted) ∧
      ((s.core (coreId core)).strand ≠ none →
        hits (.uncorrectableError (.sreg core false r)) (user fun c => if r = 0 then c else { c with pregs := c.pregs ||| (1#32 <<< r.toNat) }) ∧
        hits (.uncorrectableError (.mask core false m)) (user fun c => { c with pmasks := c.pmasks ||| (1#8 <<< m.toNat) }) ∧
        hits (.uncorrectableError (.velem core false byte)) (user fun c =>
          let n := sewOf c.vtype / 8
          { c with pvec := (byte / n * n * 32 + n) :: c.pvec.filter fun y => y ≠ byte / n * n * 32 + n }) ∧
        hits (.uncorrectableError (.fl core k)) (strand fun y => { y with pfl := y.pfl ||| (1#8 <<< k.toNat) }) ∧
        hits (.uncorrectableError (.ct core)) (strand fun y => { y with pct := true }) ∧
        hits (.uncorrectableError (.tile core z e)) (strand fun y =>
          if z = 0 then { y with z0 := spoiled y.z0 } else { y with z1 := spoiled y.z1 })))

/-- R18, R245, R320, R321, R322, R323: What an image must be for BOOT, once at each power-up, what is measured, what a refusal leaves, and
the layout formed; the thermal shutdown and the loss of power. The OIDs of the parameter sets are presumed (assumption 21); that every
image is measured after a refusal (assumption 49), that the log outlives a thermal shutdown (assumption 51), that the sizes of the layout
are taken one after another, unchecked (assumption 69), where Mordant's PC and PTBASE point (assumption 12), that its registers, vector
file and masks start at zero (assumption 2), and that memory reads 0 after a loss of power (assumption 1), is the model's choice. SHAKE256
and whether a signature verifies are free functions of the configuration (assumption 59): no concrete image can be shown to be good, or
not to be for its signature alone. -/
def Obligations.BootAndPower : Prop :=
  ∀ (s : State) (die : Nat) (ochre fw train : List Byte),
    let num (img : List Byte) (o n : Nat) := bytesNat ((img.drop o).take n)
    let body (img : List Byte) := img.take (0x60 + num img 0x0C 4)
    let good (kind : Nat) (img : List Byte) : Prop := num img 0 4 = 0x4E5A5049 ∧ num img 4 4 = kind ∧
      Config.shake256 ((img.drop 0x20).take 64) = s.otp.keyDigest ∧ s.otp.floor ≤ num img 8 4 ∧ num img 0x18 8 ∈ [0x10, 0x11, 0x12] ∧
      Config.xmssVerifies (num img 0x18 8) ((img.drop 0x20).take 64) (body img) (img.drop (body img).length) = true
    let rcd (kind : Nat) (img : List Byte) : LogRec := { ix := kind, kind, sver := num img 8 4, digest := Config.shake256 (body img) }
    let measured (t : State) (rest : List Nat) : Prop := ∃ r x, t.log = s.log ++ [rcd 1 ochre, rcd 2 fw, rcd 3 train, r] ++ x ∧ r.ix = 4 ∧
      x.map (fun y => y.ix) = rest
    let refused (kind : Nat) (up : Bool) : Prop := ∃ t, exec (.boot ochre fw train) s = .next t ∧
      t.reports = s.reports ++ [.refused kind] ∧ t.ochreUp = up ∧ t.booted = true ∧ t.powered = true ∧ measured t [] ∧
      (up = true → ∀ i : Fin 16, t.ports[i].live = true ∧ t.ports[i].reach = s.ports[i].reach) ∧ (up = false → t.ports = s.ports) ∧
      { t with reports := s.reports, ochreUp := s.ochreUp, log := s.log, powered := s.powered, booted := s.booted, ports := s.ports } = s
    let sizes := s.otp.layout
    let mine (key : Nat) : Prop := key / 2 ^ 60 ≠ 2 ∧ key / 2 ^ 60 ≠ 3
    let off (t : State) : Prop := t.powered = false ∧ t.booted = false ∧ t.parts = [] ∧ t.l2 = [] ∧ (∀ h, t.floor h = 0) ∧ (∀ k, t.core k = Core.reset) ∧
      (∀ i : Fin 16, t.ports[i].live = false) ∧ ∀ a, mine a → readByte t.mem a = 0 ∧ t.c1At a = 0
    (s.booted = true → exec (.boot ochre fw train) s = .next s) ∧
    (s.booted = false → ¬good 1 ochre → refused 1 false) ∧
    (s.booted = false → good 1 ochre → ¬good 2 fw → refused 2 true) ∧
    (s.booted = false → good 1 ochre → good 2 fw → ¬good 3 train → refused 3 true) ∧
    (s.booted = false → good 1 ochre → good 2 fw → good 3 train → ∃ t, exec (.boot ochre fw train) s = .next t ∧
      t.ochreUp = true ∧ t.booted = true ∧ t.fwImage = fw ∧ measured t [5] ∧ t.reports = s.reports ∧ (∀ i : Fin 16, t.ports[i].live = true) ∧
      t.parts.map (fun p => (p.first, p.n)) = (List.range sizes.length).map (fun i => ((sizes.take i).sum, sizes.getD i 0)) ∧
      (∀ p ∈ t.parts, p = Partition.fresh p.first p.n s.now) ∧
      (sizes.sum ≤ 8 → ∀ p ∈ t.parts, ∀ k : Fin 96, p.first ≤ k.val / 12 → k.val / 12 < p.first + p.n →
        t.core k = { s.core k with
          mordant := { Ctx.reset with pc := .ofNat 64 ((Config.firmwareRegion p.first).toNat * 2 ^ 42 +
            (p.n * 256000000000 - 1000000000) % 2 ^ 29 + num fw 0x10 8) }
          mOn := true
          ptbase := .ofNat 64 ((Config.firmwareAsid p.first).toNat * 2 ^ 48 + (p.n * 256000000000 - 65536) + 0x100) })) ∧
    (∃ t, exec (.thermalShutdown die) s = .next t ∧ off t ∧ t.reports = s.reports ++ [.thermal die] ∧ t.log = s.log) ∧
    (∃ t, exec .powerDown s = .next t ∧ off t ∧ t.log = [] ∧ t.ochreUp = false ∧ t.otp = s.otp)

/-- R19, R20, R21, R22, R23, R140, R155, R210, R211, R212, R213, R214: The LOCAL and CLUSTER windows and the holes beside them,
a vector element's access to another core needing a strand of the same launch there; the walk of the page tables, level by level, with
the malformed and invalid entries it stops on; and the checks of the leaf in order, with the place it gives. That a scalar or engine
access needs no strand on the other core is the model's choice (assumption 29), and so is that a walk leaves L2 as it was
(assumption 6). An entry of the TLB for the page and ASID answers with its own leaf, checked as a walk's is, and a walk's leaf that is
resident enters the TLB, the newest entry there. -/
def Obligations.TranslationChecks : Prop :=
  (∀ (s : State) (p : Partition) (mordant : Bool) (kd : Kind) (va e : Nat) (big : Bool),
    let tier := e / 2 ^ 8 % 4
    let off := e / 2 ^ 16 % 2 ^ 36 * 2 ^ 16 + va % (if big then 2 ^ 29 else 2 ^ 16)
    let slice := if tier = 0 then 48000000000 else 256000000000
    let pf : Flt := ⟨match kd with | .r => 0x06 | .w => 0x07 | .x => 0x08, va⟩
    let allowed : Prop := match kd with
      | .r => e.testBit 1 = true
      | .w => e.testBit 2 = true ∧ e / 2 ^ 10 % 4 ≠ 3
      | .x => e.testBit 3 = true
    let bad := (e.testBit 4 = true ∧ mordant = false) ∨ ¬allowed ∨ e / 2 ^ 14 % 4 ≠ 0 ∨ (tier < 2 ∧ p.n * slice ≤ off)
    let place (key : Nat) : Xl := { key, tier, pol := e / 2 ^ 10 % 4, cmp := e / 2 ^ 12 % 4, chip := e / 2 ^ 52 % 2 ^ 12 }
    let got := checkLeaf s p mordant kd va e big
    (bad → got = .error pf) ∧
    (¬bad → tier < 2 → got = .ok (place (tier * 2 ^ 60 + (p.first * slice + off)))) ∧
    (¬bad → tier = 2 → got = .ok (place (2 * 2 ^ 60 + off % 2 ^ 52))) ∧
    (¬bad → tier = 3 → got = match s.peerKey p (e / 2 ^ 52 % 2 ^ 12) off with
      | some key => .ok (place key)
      | none => .error ⟨0x0B, va⟩)) ∧
  (∀ (s : State) (p : Partition) (ptb : Dword) (va : Nat),
    let size (tier : Nat) := p.n * if tier = 0 then 48000000000 else 256000000000
    let at' (node tier lvl : Nat) := tier * 2 ^ 60 + (p.first * (if tier = 0 then 48000000000 else 256000000000) + (node + 8 * (va / 2 ^ (55 - 13 * lvl) % 2 ^ 13)))
    let reach (node tier st : Nat) : Prop := tier < 2 ∧ st = 0 ∧ node + 0xFFFF < size tier
    let entry (node tier lvl : Nat) := readN s.mem (at' node tier lvl) 8
    let pa (e : Nat) := e / 2 ^ 16 % 2 ^ 36 * 2 ^ 16
    let clean (node tier lvl : Nat) : Prop := s.poisonedAt (at' node tier lvl) 8 = false ∧
      (let e := entry node tier lvl
       e / 2 ^ 6 % 4 = 0 ∧ e / 2 ^ 14 % 4 ≠ 3 ∧ e / 2 ^ 12 % 4 ≠ 3)
    let table (e lvl : Nat) : Prop := e % 2 = 1 ∧ e.testBit 5 = true ∧ lvl ≠ 3 ∧ e / 2 ^ 52 % 2 ^ 12 = 0 ∧ e / 2 ^ 10 % 16 = 0 ∧ e / 2 % 16 = 0
    let leaf (e lvl : Nat) : Prop := e % 2 = 1 ∧ e.testBit 5 = false ∧ lvl ≠ 1 ∧ (e / 2 ^ 8 % 4 ≠ 3 → e / 2 ^ 52 % 2 ^ 12 = 0) ∧
      (lvl = 2 → e / 2 ^ 16 % 2 ^ 13 = 0) ∧ (e / 2 ^ 8 % 4 = 3 → e / 2 ^ 43 % 2 ^ 9 = 0)
    let ends (node tier st lvl : Nat) (r : WalkRes) : Prop :=
      (¬reach node tier st → r = .bad node) ∧
      (reach node tier st →
        (¬clean node tier lvl → r = .bad node) ∧
        (clean node tier lvl →
          (entry node tier lvl % 2 = 0 → r = .invalid) ∧
          (leaf (entry node tier lvl) lvl → r = .leaf (entry node tier lvl) (decide (lvl = 2))) ∧
          (entry node tier lvl % 2 = 1 → ¬leaf (entry node tier lvl) lvl → ¬table (entry node tier lvl) lvl → r = .bad node)))
    let follows (node tier st lvl : Nat) : Prop := reach node tier st ∧ clean node tier lvl ∧ table (entry node tier lvl) lvl
    let r := walk s p ptb va
    let n1 := ptb.toNat / 2 ^ 16 % 2 ^ 26 * 2 ^ 16
    let t1 := ptb.toNat / 2 ^ 8 % 4
    let e1 := entry n1 t1 1
    let e2 := entry (pa e1) (e1 / 2 ^ 8 % 4) 2
    ends n1 t1 0 1 r ∧
    (follows n1 t1 0 1 → ends (pa e1) (e1 / 2 ^ 8 % 4) (e1 / 2 ^ 14 % 4) 2 r) ∧
    (follows n1 t1 0 1 → follows (pa e1) (e1 / 2 ^ 8 % 4) (e1 / 2 ^ 14 % 4) 2 → ends (pa e2) (e2 / 2 ^ 8 % 4) (e2 / 2 ^ 14 % 4) 3 r)) ∧
  (∀ (s : State) (k : Fin 96) (mordant : Bool) (t : TlbSel) (kd : Kind) (va n : Nat),
    let pf (c : Nat) : Flt := ⟨match kd with | .r => 0x06 | .w => 0x07 | .x => c, va⟩
    let local' := 0x7FFF00000000
    let cluster := 0x7FFE00000000
    let got := placeOf s k mordant t kd va n
    let lies (core off : Nat) (port : Bool) : Prop :=
      let modes := (s.core (coreId core)).modes.toNat
      let banks := (List.range 32).filter fun b => modes / 4 ^ b % 4 = 2
      let b := (off - 0xF00000) / 64
      if off + n ≤ banks.length * 196608 then
        got = (s, .ok (.bank core off (4 * 2 ^ 60 + (core * 2 ^ 24 + banks.getD (off / 64 % banks.length) 0 * 196608 +
          (off / 64 / banks.length * 64 + off % 64)))))
      else if port = true ∧ 0xF00000 ≤ off ∧ off < 0xF00800 ∧ off % 64 + n ≤ 64 ∧ modes / 4 ^ b % 4 = 3 then got = (s, .ok (.fifo b))
      else got = (s, .error ⟨0x0C, va⟩)
    (2 ^ 55 ≤ va → got = (s, .error (pf 0x08))) ∧
    (cluster ≤ va → va < 0x800000000000 → kd = .x → got = (s, .error (pf 0x08))) ∧
    (local' ≤ va → va < local' + 2 ^ 24 → kd ≠ .x → lies k.val (va - local') true) ∧
    (cluster ≤ va → va < cluster + 4 * 2 ^ 24 → kd ≠ .x →
      let target := k.val / 4 * 4 + (va - cluster) / 2 ^ 24
      let ours : Prop := target = k.val ∨ t ≠ .v ∨ ∃ a b, (s.core k).strand = some a ∧ (s.core (coreId target)).strand = some b ∧ a.part = b.part ∧ a.launch = b.launch
      (ours → lies target ((va - cluster) % 2 ^ 24) false) ∧ (¬ours → got = (s, .error ⟨0x0C, va⟩))) ∧
    ((cluster + 4 * 2 ^ 24 ≤ va ∧ va < local') ∨ (local' + 2 ^ 24 ≤ va ∧ va < 0x800000000000) → kd ≠ .x → got = (s, .error ⟨0x0C, va⟩)) ∧
    let hit (e : TlbEnt) : Prop := e.asid = (s.core k).ptbase.toNat / 2 ^ 48 ∧
      e.page / 2 ^ (if e.big then 29 else 16) = va / 2 ^ (if e.big then 29 else 16)
    ∀ p, va < 2 ^ 55 → ¬(cluster ≤ va ∧ va < 0x800000000000) → s.partOfCore k = some p →
      (∀ pre e post, (s.core k).tlb t = pre ++ e :: post → hit e → (∀ d ∈ pre, ¬hit d) →
        match checkLeaf s p mordant kd va e.leaf e.big with
        | .error f => got = (s, .error f)
        | .ok x => got = (s, .ok (.xl x))) ∧
      ((∀ e ∈ (s.core k).tlb t, ¬hit e) → match walk s p (s.core k).ptbase va with
      | .bad node => got = (s, .error ⟨0x09, node⟩)
      | .invalid => got = (s, .error (pf 0x08))
      | .leaf e big => match checkLeaf s p mordant kd va e big with
        | .error f => got = (s, .error f)
        | .ok x => ∃ u, got = (u, .ok (.xl x)) ∧ Touched s u ∧ u.mem = s.mem ∧ u.l2 = s.l2 ∧
          ((u.core k).tlb t).head? = some { asid := (s.core k).ptbase.toNat / 2 ^ 48, page := va, big, leaf := e }))

/-- R53, R54, R62, R63, R72: Seven words written out bit by bit from the encoding tables, one for each of seven families, decode
to the instruction they stand for, with its operands. -/
def Obligations.WordsDecode : Prop :=
  decodeInstr 0x0000 0 = some .nop ∧ decodeInstr 0x0107 0 = some (.trap 7) ∧
  decodeInstr 0xA280 0x00005002 = some (.vadd 2 0 (.s 5) ⟨0, false⟩) ∧
  decodeInstr 0x4D08 0x1C83 = some (.amoswap false 3 4 7) ∧
  decodeInstr 0xC601 (0x0003 + 0xCDEF * 2 ^ 16 + 0x89AB * 2 ^ 32) = some (.liu 3 0x89ABCDEF) ∧
  decodeInstr 0x500B 0x00C5 = some (.cpy 3 1 5 6) ∧
  decodeInstr 0xF100 0x004000000102 = some (.vst 2 4 64 .none ⟨0, false⟩)

/-- R53, R54, R62: For every well-formed instruction that is no event, the encoder gives a head and a tail, the decoder reads
the instruction back from them, and a line that holds it alone is legal and gives it at slot 1. -/
def Obligations.DecodesWhatItEncodes : Prop :=
  ∀ i : Instr, i.wf = true → isEvent i = false → ∃ head tail, encode i = some (head, tail) ∧ decodeInstr head tail = some i ∧
    lineLegal (oneLine head tail (head / 2 ^ 14)) = true ∧ decodeSlot (oneLine head tail (head / 2 ^ 14)) 1 = some i

/-- R25, R37, R49, R56, R61, R74, R97, R114, R302, R326: A scalar thread that may issue runs the instruction decoded at its PC in the line
in execution, fetches the line where it is not there, traps an unassigned encoding, and traps POISON on a poisoned source; a user strand's
firmware instruction traps before its sources are read; a sequencer runs the entry at VCP. Step runs that, or the event the agenda names,
or takes one element-beat. Scalar slots and element-beats that both contexts could use fall to Mordant while fewer than its share of the
last 64 did, or while the strand yields; those that one alone could use are its own. An entry that shares its beats runs at the last of
those it is charged, as far as a freeze lets it run; an event that takes a slot or a beat, and would do anything, waits for a turn as the
work of its context does. That an agenda names the turns, and which events take one, is the model's choice (assumption 4), as are that
POISON comes before the other checks of a scalar instruction (assumption 22), that a window of 64 counts this turn and the 63 shared ones
before it, and that an event which would do nothing takes none (assumption 25). -/
def Obligations.StepsRunInstructions : Prop :=
  let firmware (i : Instr) : Prop := i = .eret ∨ i = .engq ∨ i = .tlbinvAll ∨ (∃ d x, i = .sysr d x ∧ 0x80 ≤ x.toNat) ∨
    (∃ x a, i = .sysw x a ∧ 0x80 ≤ x.toNat) ∨ (∃ a b, i = .tlbinvEnt a b) ∨ (∃ a b, i = .tlbinvPg a b) ∨ ∃ a, i = .tlbinvAs a
  let idle (u : State) : Prop := if u.actor.seq then u.ctx.queue = [] ∨ u.live = false else u.mayIssue = false
  let stalls (u v : State) : Prop := v.ctx = u.ctx ∧ v.strand? = u.strand? ∧ v.me.mOn = u.me.mOn ∧ v.parts = u.parts
  let ready (s : State) (w : Who) (seq : Bool) : Prop :=
    let u := { s with actor := { core := s.actor.core, who := w, seq, stop := none } }
    ¬idle u ∧ ∀ v, runJob u = .next v → ¬stalls u v
  (∀ u : State, u.actor.seq = false → u.mayIssue = true →
    (u.ctx.line = none ∨ (∃ la img, u.ctx.line = some (la, img) ∧ la ≠ lineAddr u.ctx.pc) → runJob u = exec .lineFetch u) ∧
    ∀ img, u.ctx.line = some (lineAddr u.ctx.pc, img) →
      (decodeSlot img (pcSlot u.ctx.pc) = none → runJob u = exec .unassignedEncoding u) ∧
      ∀ i, decodeSlot img (pcSlot u.ctx.pc) = some i →
        (firmware i → u.actor.who = .user → runJob u = exec i u) ∧
        (¬(firmware i ∧ u.actor.who = .user) →
          ((∀ r ∈ scalarSrcs i, r ≠ 0 → u.ctx.pregs.getLsbD r.toNat = false) → runJob u = exec i u) ∧
          (∀ r ∈ scalarSrcs i, r ≠ 0 → u.ctx.pregs.getLsbD r.toNat = true →
            ∃ q ∈ scalarSrcs i, u.ctx.pregs.getLsbD q.toNat = true ∧ runJob u = .next (u.trap 0x11 q.toNat)))) ∧
  (∀ (u : State) (e : Entry), u.actor.seq = true → u.live = true → u.ctx.queue.head? = some e → runJob u = exec e.ins u) ∧
  (∀ u : State, idle u → runJob u = .next u) ∧
  (∀ (s u : State) (i : Instr), (nextTurn s = some (u, .job) → step s = runJob u) ∧ (nextTurn s = some (u, .beat) → step s = .next u) ∧
    (nextTurn s = some (u, .event i) → step s = exec i u) ∧ (nextTurn s = none → step s = .fault .noSuchCore)) ∧
  (∀ (s : State) (t : Turn) (r : List Turn) (i : Instr) (h : t.core < 96), s.agenda = t :: r → t.what = some i →
    let named : State := { s with
      agenda := r, now := s.now + t.dt, actor := { core := ⟨t.core, h⟩, who := t.who, seq := t.seq, stop := t.stop } }
    -- the slot (false) or the beats (true) that an event takes
    let takes (q : Bool) : Prop :=
      (q = false ∧ i ∈ [.lineFetch, .vectorPush, .haltRetire, .waitReevaluate, .waitaRemotePoll, .unassignedEncoding]) ∨
      (q = true ∧ i ∈ [.scalarResultDelivery, .lmcfgApply]) ∨
      (q = t.seq ∧ (i = .fifoAccessResume ∨ ∃ c a, i = .trapDelivery c a ∨ i = .mordantTrapHold c a))
    let moves (q : Bool) : Prop :=
      let u := { named with actor := { core := ⟨t.core, h⟩, who := t.who, seq := q, stop := t.stop } }
      ∀ v, exec i u = .next v → ¬stalls u v
    (isEvent i = false → nextTurn s = nextTurn { s with agenda := { t with what := none } :: r }) ∧
    (isEvent i = true → (∀ q, takes q → ¬ready named t.who q ∨ ¬moves q) → step s = exec i named) ∧
    ∀ q u next, isEvent i = true → takes q → ready named t.who q → moves q →
      nextTurn { s with agenda := { t with what := none, seq := q } :: r } = some (u, next) →
      nextTurn s = some (u, if u.actor.who = t.who ∧ next = .job then .event i else next)) ∧
  (∀ (s : State) (t : Turn) (r : List Turn), s.agenda = t :: r → 96 ≤ t.core → step s = .fault .noSuchCore) ∧
  (∀ (s : State) (t : Turn) (r : List Turn) (h : t.core < 96), s.agenda = t :: r → t.what = none →
    let k : Fin 96 := ⟨t.core, h⟩
    let act (w : Who) : State := { s with agenda := r, now := s.now + t.dt, actor := { core := k, who := w, seq := t.seq, stop := t.stop } }
    let ready (w : Who) : Prop := ready (act w) w t.seq
    let c := s.core k
    let f := max (c.fwshare.toNat % 32) 1
    let own (c : Core) := if t.seq then c.arbE else c.arbS
    let m : Bool := decide (((own c).take 63).countP id < f)
    let w : Who := if m then .mordant else .user
    let offered := t.seq = false ∧ s.now + t.dt < c.yieldTo
    let paid (x : Ctx) : Ctx := { x with beats := if t.seq then 0 else x.beats }
    (¬ready .mordant → ∃ u, nextTurn s = some (u, .job) ∧ OnlyCores (act .user) u [t.core] ∧
      (ready .user → u.core k = { c with user := paid c.user, yieldTo := if t.seq then c.yieldTo else 0 }) ∧
      (¬ready .user → u.core k = { c with yieldTo := if t.seq then c.yieldTo else 0 })) ∧
    (ready .mordant → ¬ready .user ∨ offered → ∃ u, nextTurn s = some (u, .job) ∧ OnlyCores (act .mordant) u [t.core] ∧
      u.core k = { c with mordant := paid c.mordant }) ∧
    (ready .mordant → ready .user → ¬offered → t.seq = false → ∃ u, nextTurn s = some (u, .job) ∧ OnlyCores (act w) u [t.core] ∧
      u.core k = { c with arbS := (m :: c.arbS).take 63 }) ∧
    (ready .mordant → ready .user → t.seq = true → ∃ e q u next, (act w).ctx.queue = e :: q ∧ nextTurn s = some (u, next) ∧
      (let n := (act w).ctx.beats + 1
       -- a boundary that the beats taken have passed stops the entry no more
       let a : State := { act w with actor := { core := k, who := w, seq := t.seq, stop := if beats (act w) e < n then none else t.stop } }
       let need := beats a e
       let took (x : Ctx) : Ctx := { x with beats := if n < need then n else 0 }
       OnlyCores a u [t.core] ∧ next = (if n < need then .beat else .job) ∧
         u.core k = { c with
           arbE := if need = 0 then c.arbE else (m :: c.arbE).take 63
           user := if m then c.user else took c.user
           mordant := if m then took c.mordant else c.mordant }))) ∧
  (∀ s : State, s.agenda = [] → ∃ seq : Bool,
    (seq = true ↔ ready { s with now := s.now + 1 } .user true ∨ ready { s with now := s.now + 1 } .mordant true) ∧
    nextTurn s = nextTurn { s with agenda := [{ core := s.actor.core.val, who := .user, seq, stop := none, what := none, dt := 1 }] }) ∧
  ∀ (s : State) (e : Entry),
    let ends (b : Nat) := (b * e.sew + 16383) / 16384
    -- where the entry stops: at the boundary of a freeze, or at VL
    let stop := match s.actor.stop with
      | some b => if b % (16384 / e.sew) = 0 ∧ s.ctx.vstart.toNat < b ∧ b < e.n then b else e.n
      | none => e.n
    let part := if s.ctx.vstart.toNat < stop then ends stop - s.ctx.vstart.toNat * e.sew / 16384 else 0
    let whole := if 0 < e.n then ends e.n else 0
    (∀ d b q m, e.ins = .vadd d b q m → beats s e = part) ∧ (∀ d b m, e.ins = .vrev d b m → beats s e = whole) ∧
    (∀ d b m, e.ins = .vconflict d b m → beats s e = 2 * whole) ∧
    (∀ d b i w q m, e.ins = .vfredsumO d b i w q m → beats s e = (e.n + 3) / 4) ∧
    (∀ d b q, e.ins = .mand d b q → beats s e = (e.n + 16383) / 16384) ∧ (∀ d b q, e.ins = .vextr d b q → beats s e = 1) ∧
    (∀ d b v, e.ins = .vsetvli d b v → beats s e = 0)

/-- For every state whose memory, marks of blocks (assumption 55), vector files, masks, code tables and tiles are lists of bytes in
canonical form (addresses rising, no byte equal to what an unlisted one reads as), a step that answers a next state answers one of which
the same holds. The form is the model's own. -/
def Obligations.StepsKeepCanonicalForm : Prop := ∀ s t : State, Canonical s → step s = .next t → Canonical t

/-- R36, R45, R211, R244, R279, R288, R308, R320, R322, R324: The state at power-on is in canonical form and has no partition;
memory reads zero and every core and context holds its reset value; a partition when formed is available, without an owner,
with its registers at their reset values. The values the spec does not give, memory among them, are the model's choice
(assumptions 1 and 2). -/
def Obligations.ResetValues : Prop :=
  let s := State.reset
  Canonical s ∧ s.parts = [] ∧ s.log = [] ∧ s.ochreUp = false ∧ (∀ h, s.floor h = 0) ∧ (∀ a, readByte s.mem a = 0) ∧ s.c1 = [] ∧
  (∀ k : Fin 96, s.core k = Core.reset) ∧
  s.booted = false ∧ s.l2 = [] ∧ s.reports = [] ∧ (∀ i : Fin 16, s.ports[i].live = false) ∧
  (let c := Core.reset
   c.strand = none ∧ c.arbS = [] ∧ c.arbE = [] ∧ c.yieldTo = 0 ∧ c.engOff = false ∧ c.l1 = [] ∧
   c.stable = [] ∧ c.mOn = false ∧ c.fwshare = 1 ∧ c.ptbase = 0 ∧ c.fcause = 0 ∧ c.faddr = 0 ∧ c.fpc = 0 ∧ c.fret = 0 ∧ c.engctl = 0 ∧
   c.efault = 0 ∧ c.modes = 0 ∧ c.fifos = [] ∧ (∀ i : Fin 4, c.eng[i].last = 0 ∧ c.eng[i].tl = 0 ∧ c.eng[i].err = none ∧ c.eng[i].entries = []) ∧
   c.user = Ctx.reset ∧ c.mordant = Ctx.reset) ∧
  (let c := Ctx.reset
   (∀ r, c.reg r = 0) ∧ c.vl = 0 ∧ c.vtype = 0 ∧ c.vstart = 0 ∧ c.vbase = 0 ∧ c.fflags = 0 ∧ c.fmode = 1 ∧ c.seed = 0 ∧ c.clipcnt = 0 ∧
   c.qcnt = 0 ∧ c.padlo = 0 ∧ c.padhi = 0 ∧ c.padval = 0 ∧ c.queue = [] ∧ c.beats = 0 ∧ c.vfile = [] ∧ c.masks = []) ∧
  ∀ first n now, let p := Partition.fresh first n now
    p.st = 0 ∧ p.owner = none ∧ p.claims = [] ∧ p.openAt = none ∧ p.scrub = false ∧ p.losing = false ∧ p.lowAt = none ∧ p.plan = false ∧
    p.taking = none ∧ p.msiPend = 0 ∧ p.msiVec = none ∧ p.cmdOp = 0 ∧ p.cmdSt = 0 ∧ p.under = 0 ∧ p.qtbase = 0 ∧ p.sercnt = 0 ∧ p.mepoch = 0 ∧ p.launches = [] ∧ p.lidq = [] ∧ p.born = now ∧
    ∀ w, p.status = n * 16 + first * 256 ∧ p.claimst w = 0
end

