-- ==== Sys2Proof/Laws/Memory.lean ====
section
/-! SUPPORT. The laws of sparse bytes: a read after a write, what a write leaves alone, and that every operation keeps the
canonical form. -/

namespace Sys2Proof.Machine

open Sys2Proof

theorem wfFrom_cons {lo a : Nat} {b : Byte} {r : Bytes} :
    Memory.wfFrom lo ((a, b) :: r) = true ↔ lo ≤ a ∧ b ≠ 0 ∧ Memory.wfFrom (a + 1) r = true := by
  simp [Memory.wfFrom, and_assoc]

theorem wfFrom_mono {lo lo' : Nat} {m : Bytes} (h : lo' ≤ lo) (hw : Memory.wfFrom lo m = true) :
    Memory.wfFrom lo' m = true := by
  cases m with
  | nil => rfl
  | cons c r => obtain ⟨a, b⟩ := c; rw [wfFrom_cons] at *; exact ⟨by omega, hw.2⟩

theorem wf_nil : Memory.wf [] = true := rfl

theorem wf_of_wfFrom {lo : Nat} {m : Bytes} (h : Memory.wfFrom lo m = true) : Memory.wf m = true :=
  wfFrom_mono (Nat.zero_le _) h

/-- Nothing listed lies below the bound. -/
theorem readByte_below {lo a : Nat} {m : Bytes} (hw : Memory.wfFrom lo m = true) (h : a < lo) : readByte m a = 0 := by
  cases m with
  | nil => rfl
  | cons c r =>
    obtain ⟨k, b⟩ := c
    rw [wfFrom_cons] at hw
    simp only [readByte]
    rw [if_pos (by omega)]

theorem wfFrom_writeByte {lo a : Nat} {m : Bytes} (b : Byte) (hw : Memory.wfFrom lo m = true) (h : lo ≤ a) :
    Memory.wfFrom lo (writeByte m a b) = true := by
  induction m generalizing lo with
  | nil =>
    simp only [writeByte]
    split
    · rfl
    · exact wfFrom_cons.2 ⟨h, ‹_›, rfl⟩
  | cons c r ih =>
    obtain ⟨k, c⟩ := c
    rw [wfFrom_cons] at hw
    obtain ⟨h1, h2, h3⟩ := hw
    simp only [writeByte]
    split
    · split
      · exact wfFrom_cons.2 ⟨h1, h2, h3⟩
      · exact wfFrom_cons.2 ⟨h, ‹_›, wfFrom_cons.2 ⟨by omega, h2, h3⟩⟩
    · split
      · split
        · exact wfFrom_mono (by omega) h3
        · exact wfFrom_cons.2 ⟨h, ‹_›, wfFrom_mono (by omega) h3⟩
      · exact wfFrom_cons.2 ⟨h1, h2, ih h3 (by omega)⟩

/-- A write of a byte keeps the canonical form. -/
theorem wf_writeByte {m : Bytes} (a : Nat) (b : Byte) (hw : Memory.wf m = true) : Memory.wf (writeByte m a b) = true :=
  wfFrom_writeByte b hw (Nat.zero_le _)

theorem readByte_writeByte_from {lo : Nat} {m : Bytes} (a c : Nat) (b : Byte) (hw : Memory.wfFrom lo m = true) :
    readByte (writeByte m a b) c = if c = a then b else readByte m c := by
  induction m generalizing lo with
  | nil =>
    simp only [writeByte]
    by_cases hb : b = 0
    · simp [hb, readByte]
    · simp only [hb, if_false, readByte]
      by_cases hc : c = a <;> simp [hc]
  | cons e r ih =>
    obtain ⟨k, x⟩ := e
    obtain ⟨h1, h2, h3⟩ := wfFrom_cons.1 hw
    simp only [writeByte]
    split
    · split
      · simp only [readByte]
        by_cases hc : c = a
        · subst hc; simp [*]
        · simp [hc]
      · simp only [readByte]
        by_cases hc : c = a
        · subst hc; simp
        · simp only [hc, if_false]
          by_cases hca : c < a
          · simp [hca, show c < k by omega]
          · simp [hca]
    · split
      · subst a
        split
        · simp only [readByte]
          by_cases hc : c = k
          · subst hc; rw [readByte_below h3 (by omega)]; simp [*]
          · simp only [hc, if_false]
            split
            · exact readByte_below h3 (by omega)
            · rfl
        · simp only [readByte]
          by_cases hc : c = k
          · subst hc; simp
          · simp [hc]
      · simp only [readByte, ih h3]
        by_cases hc : c = a
        · subst hc; simp [*]
        · simp [hc]

/-- A byte reads what was last written there, and every other byte as before. -/
theorem readByte_writeByte {m : Bytes} (a c : Nat) (b : Byte) (hw : Memory.wf m = true) :
    readByte (writeByte m a b) c = if c = a then b else readByte m c :=
  readByte_writeByte_from a c b hw

/-- A write of several bytes keeps the canonical form. -/
theorem wf_writeN {m : Bytes} (a n v : Nat) (hw : Memory.wf m = true) : Memory.wf (writeN m a n v) = true := by
  induction n generalizing m a v with
  | zero => exact hw
  | succ n ih => exact ih _ _ (wf_writeByte _ _ hw)

/-- The byte at an offset of what was written, and every byte outside as before. -/
theorem readByte_writeN {m : Bytes} (a n v c : Nat) (hw : Memory.wf m = true) :
    readByte (writeN m a n v) c = if a ≤ c ∧ c < a + n then .ofNat 8 (v / 256 ^ (c - a)) else readByte m c := by
  induction n generalizing m a v with
  | zero => simp [writeN, show ¬(a ≤ c ∧ c < a) by omega]
  | succ n ih =>
    rw [writeN, ih _ _ (wf_writeByte _ _ hw), readByte_writeByte _ _ _ hw]
    by_cases h1 : c = a
    · subst h1; simp
    · by_cases h2 : a + 1 ≤ c ∧ c < a + 1 + n
      · rw [if_pos h2, if_pos (by omega), Nat.div_div_eq_div_mul, ← Nat.pow_succ',
          show (c - (a + 1)).succ = c - a by omega]
      · rw [if_neg h2, if_neg h1, if_neg (by omega)]

theorem readN_lt (m : Bytes) (a n : Nat) : readN m a n < 256 ^ n := by
  induction n generalizing a with
  | zero => simp [readN]
  | succ n ih =>
    have h1 := ih (a + 1)
    have h2 := (readByte m a).isLt
    rw [readN, Nat.pow_succ]
    omega

/-- Reading depends only on the bytes read. -/
theorem readN_congr {m m' : Bytes} {a n : Nat} (h : ∀ c, a ≤ c → c < a + n → readByte m c = readByte m' c) :
    readN m a n = readN m' a n := by
  induction n generalizing a with
  | zero => rfl
  | succ n ih =>
    rw [readN, readN, h a (by omega) (by omega), ih fun c h1 h2 => h c (by omega) (by omega)]

theorem readN_digits (m : Bytes) (a n v : Nat)
    (h : ∀ i, i < n → readByte m (a + i) = .ofNat 8 (v / 256 ^ i)) : readN m a n = v % 256 ^ n := by
  induction n generalizing a v with
  | zero => simp [readN, Nat.mod_one]
  | succ n ih =>
    have h0 := h 0 (by omega)
    simp only [Nat.add_zero, Nat.pow_zero, Nat.div_one] at h0
    rw [readN, h0, ih (a + 1) (v / 256) fun i hi => by
      have := h (i + 1) (by omega)
      rw [show a + (i + 1) = a + 1 + i by omega] at this
      rw [this, Nat.div_div_eq_div_mul, ← Nat.pow_succ'], BitVec.toNat_ofNat, show 256 ^ (n + 1) = 256 * 256 ^ n from Nat.pow_succ',
      Nat.mod_mul]

/-- Bytes read back what was written there. -/
theorem readN_writeN {m : Bytes} (a n v : Nat) (hw : Memory.wf m = true) : readN (writeN m a n v) a n = v % 256 ^ n :=
  readN_digits _ _ _ _ fun i hi => by
    rw [readByte_writeN _ _ _ _ hw, if_pos (by omega), Nat.add_sub_cancel_left]

/-- Bytes apart from what was written read as before. -/
theorem readN_writeN_of_apart {m : Bytes} (a n v c k : Nat) (hw : Memory.wf m = true) (h : c + k ≤ a ∨ a + n ≤ c) :
    readN (writeN m a n v) c k = readN m c k :=
  readN_congr fun d h1 h2 => by rw [readByte_writeN _ _ _ _ hw, if_neg (by omega)]

/-- Canonical lists that read alike are equal. -/
theorem bytes_ext_from {lo : Nat} {m m' : Bytes} (h : Memory.wfFrom lo m = true) (h' : Memory.wfFrom lo m' = true)
    (he : ∀ a, readByte m a = readByte m' a) : m = m' := by
  induction m generalizing m' lo with
  | nil =>
    cases m' with
    | nil => rfl
    | cons c r =>
      obtain ⟨k, b⟩ := c
      have := he k
      simp [readByte] at this
      exact absurd this.symm (wfFrom_cons.1 h').2.1
  | cons c r ih =>
    obtain ⟨k, b⟩ := c
    obtain ⟨h1, h2, h3⟩ := wfFrom_cons.1 h
    cases m' with
    | nil =>
      have := he k
      simp [readByte] at this
      exact absurd this h2
    | cons c' r' =>
      obtain ⟨k', b'⟩ := c'
      obtain ⟨g1, g2, g3⟩ := wfFrom_cons.1 h'
      have e1 := he k
      have e2 := he k'
      simp only [readByte, lt_irrefl, if_false, if_true] at e1 e2
      have hk : k = k' := by
        rcases Nat.lt_trichotomy k k' with hlt | rfl | hgt
        · simp [hlt] at e1; exact absurd e1 h2
        · rfl
        · simp [hgt] at e2; exact absurd e2.symm g2
      subst hk
      simp at e1
      subst e1
      rw [ih h3 g3 fun a => by
        have := he a
        simp only [readByte] at this
        by_cases h4 : a < k
        · rw [readByte_below h3 (by omega), readByte_below g3 (by omega)]
        · by_cases h5 : a = k
          · rw [readByte_below h3 (by omega), readByte_below g3 (by omega)]
          · simpa [h4, h5] using this]

/-- Canonical bytes that read alike are equal. -/
theorem bytes_ext {m m' : Bytes} (h : Memory.wf m = true) (h' : Memory.wf m' = true)
    (he : ∀ a, readByte m a = readByte m' a) : m = m' := bytes_ext_from h h' he

theorem wfFrom_filter {lo : Nat} {m : Bytes} (f : Host.Cell → Bool) (hw : Memory.wfFrom lo m = true) :
    Memory.wfFrom lo (m.filter f) = true := by
  induction m generalizing lo with
  | nil => rfl
  | cons c r ih =>
    obtain ⟨k, b⟩ := c
    obtain ⟨h1, h2, h3⟩ := wfFrom_cons.1 hw
    rw [List.filter_cons]
    split
    · exact wfFrom_cons.2 ⟨h1, h2, ih h3⟩
    · exact wfFrom_mono (by omega) (ih h3)

/-- Leaving bytes out keeps the canonical form. -/
theorem wf_filter {m : Bytes} (f : Host.Cell → Bool) (hw : Memory.wf m = true) : Memory.wf (m.filter f) = true :=
  wfFrom_filter f hw

theorem readByte_filter {lo : Nat} {m : Bytes} (f : Nat → Bool) (a : Nat) (hw : Memory.wfFrom lo m = true) :
    readByte (m.filter fun c => f c.1) a = if f a then readByte m a else 0 := by
  induction m generalizing lo with
  | nil => simp [readByte]
  | cons c r ih =>
    obtain ⟨k, b⟩ := c
    obtain ⟨h1, h2, h3⟩ := wfFrom_cons.1 hw
    have hb : ∀ g : Host.Cell → Bool, a ≤ k → readByte (r.filter g) a = 0 := fun g h =>
      readByte_below (wfFrom_filter g h3) (by omega)
    rw [List.filter_cons]
    by_cases hf : f k
    · simp only [hf, if_true, readByte, ih h3]
      by_cases h4 : a < k
      · simp [h4]
      · by_cases h5 : a = k
        · subst h5; simp [hf]
        · simp [h4, h5]
    · simp only [hf, readByte]
      by_cases h4 : a < k
      · simp [h4, hb _ (by omega)]
      · by_cases h5 : a = k
        · subst h5; simp [hf, hb _ (by omega)]
        · simp [h4, h5, ih h3]

theorem wf_eraseRange {m : Bytes} (lo hi : Nat) (hw : Memory.wf m = true) : Memory.wf (eraseRange m lo hi) = true :=
  wf_filter _ hw

/-- An erased range reads 0, and every other byte as before. -/
theorem readByte_eraseRange {m : Bytes} (lo hi a : Nat) (hw : Memory.wf m = true) :
    readByte (eraseRange m lo hi) a = if lo ≤ a ∧ a < hi then 0 else readByte m a := by
  unfold eraseRange
  rw [readByte_filter (fun x => !(decide (lo ≤ x) && decide (x < hi))) a hw]
  by_cases h : lo ≤ a ∧ a < hi
  · simp [h]
  · rw [if_neg h, if_pos (by simp; omega)]

theorem wfFrom_slice {lo d : Nat} {m : Bytes} (hw : Memory.wfFrom lo m = true)
    (hd : ∀ c ∈ m, d ≤ c.1) : Memory.wfFrom (lo - d) (m.map fun c => (c.1 - d, c.2)) = true := by
  induction m generalizing lo with
  | nil => rfl
  | cons c r ih =>
    obtain ⟨k, b⟩ := c
    obtain ⟨h1, h2, h3⟩ := wfFrom_cons.1 hw
    have h4 : d ≤ k := hd (k, b) (by simp)
    refine wfFrom_cons.2 ⟨by omega, h2, ?_⟩
    have := ih h3 fun c hc => hd c (by simp [hc])
    rwa [show k + 1 - d = k - d + 1 by omega] at this

/-- A slice is in canonical form. -/
theorem wf_sliceRange {m : Bytes} (lo hi : Nat) (hw : Memory.wf m = true) : Memory.wf (sliceRange m lo hi) = true := by
  unfold sliceRange
  refine wf_of_wfFrom (wfFrom_slice (d := lo) (lo := 0) (wfFrom_filter _ hw) fun c hc => ?_)
  simp at hc
  exact hc.2.1

theorem wf_foldl_write {src : List Host.Cell} {m : Bytes} (g : Bytes → Host.Cell → Bytes)
    (hg : ∀ m c, Memory.wf m = true → Memory.wf (g m c) = true) (hw : Memory.wf m = true) :
    Memory.wf (src.foldl g m) = true := by
  induction src generalizing m with
  | nil => exact hw
  | cons c r ih => exact ih (hg _ _ hw)

/-- Copying a slice in keeps the canonical form. -/
theorem wf_blit {m : Bytes} (lo len : Nat) (src : Bytes) (hw : Memory.wf m = true) : Memory.wf (blit m lo len src) = true :=
  wf_foldl_write _ (fun m c h => by split; exacts [wf_writeByte _ _ h, h]) (wf_eraseRange _ _ hw)

theorem wf_writeBit {m : Bytes} (base i : Nat) (v : Bool) (hw : Memory.wf m = true) :
    Memory.wf (writeBit m base i v) = true := wf_writeByte _ _ hw

theorem fld_one (x i : Nat) : fld x i 1 = (x.testBit i).toNat := by
  simp only [fld, pow_one, Nat.testBit_eq_decide_div_mod_eq]
  by_cases h : x / 2 ^ i % 2 = 1
  · simp [h]
  · simp [h]; omega

/-- A bit reads back what was written, and every other bit as before. -/
theorem readBit_writeBit {m : Bytes} (base i : Nat) (v : Bool) (j : Nat) (hw : Memory.wf m = true) :
    readBit (writeBit m base i v) base j = if j = i then v else readBit m base j := by
  unfold readBit writeBit
  rw [readByte_writeByte _ _ _ hw]
  by_cases hb : j / 8 = i / 8
  · rw [if_pos (by omega), hb]
    generalize readByte m (base + i / 8) = x
    have hx := x.isLt
    have hi : i % 8 < 8 := Nat.mod_lt _ (by omega)
    have hj : j % 8 < 8 := Nat.mod_lt _ (by omega)
    have hij : j = i ↔ j % 8 = i % 8 := by omega
    simp only [hij, BitVec.toNat_ofNat]
    generalize i % 8 = p at *
    generalize j % 8 = q at *
    clear hij hb hw
    generalize x.toNat = y at *
    have key : ∀ y < 256, ∀ p < 8, ∀ q < 8, ∀ v : Bool,
        decide (fld ((y - fld y p 1 * 2 ^ p + v.toNat * 2 ^ p) % 2 ^ 8) q 1 = 1) =
          if q = p then v else decide (fld y q 1 = 1) := by decide +kernel
    simpa using key y hx p hi q hj v
  · rw [if_neg (by omega), if_neg (by rintro rfl; exact hb rfl)]

/-- A written bit leaves every bit of another base's bytes. -/
theorem readBit_writeBit_of_apart {m : Bytes} (base i : Nat) (v : Bool) (base' j : Nat) (hw : Memory.wf m = true)
    (h : base' + j / 8 ≠ base + i / 8) : readBit (writeBit m base i v) base' j = readBit m base' j := by
  unfold readBit writeBit
  rw [readByte_writeByte _ _ _ hw, if_neg h]

end Sys2Proof.Machine
end

