-- ==== Sys2Proof/Laws/State.lean ====
section
/-! SUPPORT. One lemma per field per update of the state: cores, contexts, registers, flags, vector elements and memory. -/

namespace Sys2Proof.Machine

open Sys2Proof

/-! A core set. -/

@[simp] theorem setCore_now (s : State) (k : Fin 96) (c : Core) : (s.setCore k c).now = s.now := rfl
@[simp] theorem setCore_powered (s : State) (k : Fin 96) (c : Core) : (s.setCore k c).powered = s.powered := rfl
@[simp] theorem setCore_actor (s : State) (k : Fin 96) (c : Core) : (s.setCore k c).actor = s.actor := rfl
@[simp] theorem setCore_agenda (s : State) (k : Fin 96) (c : Core) : (s.setCore k c).agenda = s.agenda := rfl
@[simp] theorem setCore_parts (s : State) (k : Fin 96) (c : Core) : (s.setCore k c).parts = s.parts := rfl
@[simp] theorem setCore_mem (s : State) (k : Fin 96) (c : Core) : (s.setCore k c).mem = s.mem := rfl
@[simp] theorem setCore_c1 (s : State) (k : Fin 96) (c : Core) : (s.setCore k c).c1 = s.c1 := rfl
@[simp] theorem setCore_poison (s : State) (k : Fin 96) (c : Core) : (s.setCore k c).poison = s.poison := rfl
@[simp] theorem setCore_l2 (s : State) (k : Fin 96) (c : Core) : (s.setCore k c).l2 = s.l2 := rfl
@[simp] theorem setCore_floors (s : State) (k : Fin 96) (c : Core) : (s.setCore k c).floors = s.floors := rfl
@[simp] theorem setCore_ports (s : State) (k : Fin 96) (c : Core) : (s.setCore k c).ports = s.ports := rfl
@[simp] theorem setCore_peers (s : State) (k : Fin 96) (c : Core) : (s.setCore k c).peers = s.peers := rfl
@[simp] theorem setCore_moduleNo (s : State) (k : Fin 96) (c : Core) : (s.setCore k c).moduleNo = s.moduleNo := rfl
@[simp] theorem setCore_otp (s : State) (k : Fin 96) (c : Core) : (s.setCore k c).otp = s.otp := rfl
@[simp] theorem setCore_booted (s : State) (k : Fin 96) (c : Core) : (s.setCore k c).booted = s.booted := rfl
@[simp] theorem setCore_ochreUp (s : State) (k : Fin 96) (c : Core) : (s.setCore k c).ochreUp = s.ochreUp := rfl
@[simp] theorem setCore_fwImage (s : State) (k : Fin 96) (c : Core) : (s.setCore k c).fwImage = s.fwImage := rfl
@[simp] theorem setCore_log (s : State) (k : Fin 96) (c : Core) : (s.setCore k c).log = s.log := rfl
@[simp] theorem setCore_reports (s : State) (k : Fin 96) (c : Core) : (s.setCore k c).reports = s.reports := rfl
@[simp] theorem setCore_ticket (s : State) (k : Fin 96) (c : Core) : (s.setCore k c).ticket = s.ticket := rfl
@[simp] theorem setCore_reply (s : State) (k : Fin 96) (c : Core) : (s.setCore k c).reply = s.reply := rfl
@[simp] theorem setCore_sent (s : State) (k : Fin 96) (c : Core) : (s.setCore k c).sent = s.sent := rfl

@[simp] theorem setCore_core (s : State) (k : Fin 96) (c : Core) : (s.setCore k c).core k = c := by
  simp [State.setCore, State.core]

theorem setCore_core_ne (s : State) (k j : Fin 96) (c : Core) (h : j ≠ k) : (s.setCore k c).core j = s.core j := by
  have : k.val ≠ j.val := fun e => h (Fin.ext e.symm)
  simp [State.setCore, State.core, this]

@[simp] theorem setCore_setCore (s : State) (k : Fin 96) (c d : Core) : (s.setCore k c).setCore k d = s.setCore k d := by
  simp [State.setCore]

@[simp] theorem setCore_self (s : State) (k : Fin 96) : s.setCore k (s.core k) = s := by
  simp [State.setCore, State.core]

/-! A core changed. -/

@[simp] theorem updCore_now (s : State) (k : Fin 96) (g : Core → Core) : (s.updCore k g).now = s.now := rfl
@[simp] theorem updCore_powered (s : State) (k : Fin 96) (g : Core → Core) : (s.updCore k g).powered = s.powered := rfl
@[simp] theorem updCore_actor (s : State) (k : Fin 96) (g : Core → Core) : (s.updCore k g).actor = s.actor := rfl
@[simp] theorem updCore_agenda (s : State) (k : Fin 96) (g : Core → Core) : (s.updCore k g).agenda = s.agenda := rfl
@[simp] theorem updCore_parts (s : State) (k : Fin 96) (g : Core → Core) : (s.updCore k g).parts = s.parts := rfl
@[simp] theorem updCore_mem (s : State) (k : Fin 96) (g : Core → Core) : (s.updCore k g).mem = s.mem := rfl
@[simp] theorem updCore_c1 (s : State) (k : Fin 96) (g : Core → Core) : (s.updCore k g).c1 = s.c1 := rfl
@[simp] theorem updCore_poison (s : State) (k : Fin 96) (g : Core → Core) : (s.updCore k g).poison = s.poison := rfl
@[simp] theorem updCore_l2 (s : State) (k : Fin 96) (g : Core → Core) : (s.updCore k g).l2 = s.l2 := rfl
@[simp] theorem updCore_floors (s : State) (k : Fin 96) (g : Core → Core) : (s.updCore k g).floors = s.floors := rfl
@[simp] theorem updCore_ports (s : State) (k : Fin 96) (g : Core → Core) : (s.updCore k g).ports = s.ports := rfl
@[simp] theorem updCore_peers (s : State) (k : Fin 96) (g : Core → Core) : (s.updCore k g).peers = s.peers := rfl
@[simp] theorem updCore_moduleNo (s : State) (k : Fin 96) (g : Core → Core) : (s.updCore k g).moduleNo = s.moduleNo := rfl
@[simp] theorem updCore_otp (s : State) (k : Fin 96) (g : Core → Core) : (s.updCore k g).otp = s.otp := rfl
@[simp] theorem updCore_booted (s : State) (k : Fin 96) (g : Core → Core) : (s.updCore k g).booted = s.booted := rfl
@[simp] theorem updCore_ochreUp (s : State) (k : Fin 96) (g : Core → Core) : (s.updCore k g).ochreUp = s.ochreUp := rfl
@[simp] theorem updCore_fwImage (s : State) (k : Fin 96) (g : Core → Core) : (s.updCore k g).fwImage = s.fwImage := rfl
@[simp] theorem updCore_log (s : State) (k : Fin 96) (g : Core → Core) : (s.updCore k g).log = s.log := rfl
@[simp] theorem updCore_reports (s : State) (k : Fin 96) (g : Core → Core) : (s.updCore k g).reports = s.reports := rfl
@[simp] theorem updCore_ticket (s : State) (k : Fin 96) (g : Core → Core) : (s.updCore k g).ticket = s.ticket := rfl
@[simp] theorem updCore_reply (s : State) (k : Fin 96) (g : Core → Core) : (s.updCore k g).reply = s.reply := rfl
@[simp] theorem updCore_sent (s : State) (k : Fin 96) (g : Core → Core) : (s.updCore k g).sent = s.sent := rfl

@[simp] theorem updCore_core (s : State) (k : Fin 96) (g : Core → Core) : (s.updCore k g).core k = g (s.core k) := by
  simp [State.updCore]

theorem updCore_core_ne (s : State) (k j : Fin 96) (g : Core → Core) (h : j ≠ k) : (s.updCore k g).core j = s.core j :=
  setCore_core_ne s k j _ h

@[simp] theorem updCore_updCore (s : State) (k : Fin 96) (f g : Core → Core) :
    (s.updCore k f).updCore k g = s.updCore k fun c => g (f c) := by
  simp [State.updCore]

theorem updCore_id (s : State) (k : Fin 96) (f : Core → Core) (h : f (s.core k) = s.core k) : s.updCore k f = s := by
  simp [State.updCore, h]

/-! The acting core changed. -/

@[simp] theorem updMe_now (s : State) (g : Core → Core) : (s.updMe g).now = s.now := rfl
@[simp] theorem updMe_powered (s : State) (g : Core → Core) : (s.updMe g).powered = s.powered := rfl
@[simp] theorem updMe_actor (s : State) (g : Core → Core) : (s.updMe g).actor = s.actor := rfl
@[simp] theorem updMe_agenda (s : State) (g : Core → Core) : (s.updMe g).agenda = s.agenda := rfl
@[simp] theorem updMe_parts (s : State) (g : Core → Core) : (s.updMe g).parts = s.parts := rfl
@[simp] theorem updMe_mem (s : State) (g : Core → Core) : (s.updMe g).mem = s.mem := rfl
@[simp] theorem updMe_c1 (s : State) (g : Core → Core) : (s.updMe g).c1 = s.c1 := rfl
@[simp] theorem updMe_poison (s : State) (g : Core → Core) : (s.updMe g).poison = s.poison := rfl
@[simp] theorem updMe_l2 (s : State) (g : Core → Core) : (s.updMe g).l2 = s.l2 := rfl
@[simp] theorem updMe_floors (s : State) (g : Core → Core) : (s.updMe g).floors = s.floors := rfl
@[simp] theorem updMe_ports (s : State) (g : Core → Core) : (s.updMe g).ports = s.ports := rfl
@[simp] theorem updMe_peers (s : State) (g : Core → Core) : (s.updMe g).peers = s.peers := rfl
@[simp] theorem updMe_moduleNo (s : State) (g : Core → Core) : (s.updMe g).moduleNo = s.moduleNo := rfl
@[simp] theorem updMe_otp (s : State) (g : Core → Core) : (s.updMe g).otp = s.otp := rfl
@[simp] theorem updMe_booted (s : State) (g : Core → Core) : (s.updMe g).booted = s.booted := rfl
@[simp] theorem updMe_ochreUp (s : State) (g : Core → Core) : (s.updMe g).ochreUp = s.ochreUp := rfl
@[simp] theorem updMe_fwImage (s : State) (g : Core → Core) : (s.updMe g).fwImage = s.fwImage := rfl
@[simp] theorem updMe_log (s : State) (g : Core → Core) : (s.updMe g).log = s.log := rfl
@[simp] theorem updMe_reports (s : State) (g : Core → Core) : (s.updMe g).reports = s.reports := rfl
@[simp] theorem updMe_ticket (s : State) (g : Core → Core) : (s.updMe g).ticket = s.ticket := rfl
@[simp] theorem updMe_reply (s : State) (g : Core → Core) : (s.updMe g).reply = s.reply := rfl
@[simp] theorem updMe_sent (s : State) (g : Core → Core) : (s.updMe g).sent = s.sent := rfl

@[simp] theorem updMe_me (s : State) (g : Core → Core) : (s.updMe g).me = g s.me := by
  simp [State.updMe, State.me]

@[simp] theorem updMe_updMe (s : State) (f g : Core → Core) : (s.updMe f).updMe g = s.updMe fun c => g (f c) := by
  simp [State.updMe]

theorem updMe_id (s : State) (f : Core → Core) (h : f s.me = s.me) : s.updMe f = s := updCore_id s _ f h

/-! A context of a core. -/

@[simp] theorem core_updCtx_mOn (c : Core) (w : Who) (g : Ctx → Ctx) : (c.updCtx w g).mOn = c.mOn := by cases w <;> rfl
@[simp] theorem core_updCtx_strand (c : Core) (w : Who) (g : Ctx → Ctx) : (c.updCtx w g).strand = c.strand := by cases w <;> rfl
@[simp] theorem core_updCtx_fwshare (c : Core) (w : Who) (g : Ctx → Ctx) : (c.updCtx w g).fwshare = c.fwshare := by cases w <;> rfl
@[simp] theorem core_updCtx_ptbase (c : Core) (w : Who) (g : Ctx → Ctx) : (c.updCtx w g).ptbase = c.ptbase := by cases w <;> rfl
@[simp] theorem core_updCtx_fcause (c : Core) (w : Who) (g : Ctx → Ctx) : (c.updCtx w g).fcause = c.fcause := by cases w <;> rfl
@[simp] theorem core_updCtx_faddr (c : Core) (w : Who) (g : Ctx → Ctx) : (c.updCtx w g).faddr = c.faddr := by cases w <;> rfl
@[simp] theorem core_updCtx_fpc (c : Core) (w : Who) (g : Ctx → Ctx) : (c.updCtx w g).fpc = c.fpc := by cases w <;> rfl
@[simp] theorem core_updCtx_fret (c : Core) (w : Who) (g : Ctx → Ctx) : (c.updCtx w g).fret = c.fret := by cases w <;> rfl
@[simp] theorem core_updCtx_engctl (c : Core) (w : Who) (g : Ctx → Ctx) : (c.updCtx w g).engctl = c.engctl := by cases w <;> rfl
@[simp] theorem core_updCtx_efault (c : Core) (w : Who) (g : Ctx → Ctx) : (c.updCtx w g).efault = c.efault := by cases w <;> rfl
@[simp] theorem core_updCtx_efaultNo (c : Core) (w : Who) (g : Ctx → Ctx) : (c.updCtx w g).efaultNo = c.efaultNo := by cases w <;> rfl
@[simp] theorem core_updCtx_modes (c : Core) (w : Who) (g : Ctx → Ctx) : (c.updCtx w g).modes = c.modes := by cases w <;> rfl
@[simp] theorem core_updCtx_fifos (c : Core) (w : Who) (g : Ctx → Ctx) : (c.updCtx w g).fifos = c.fifos := by cases w <;> rfl
@[simp] theorem core_updCtx_eng (c : Core) (w : Who) (g : Ctx → Ctx) : (c.updCtx w g).eng = c.eng := by cases w <;> rfl
@[simp] theorem core_updCtx_tlbS (c : Core) (w : Who) (g : Ctx → Ctx) : (c.updCtx w g).tlbS = c.tlbS := by cases w <;> rfl
@[simp] theorem core_updCtx_tlbV (c : Core) (w : Who) (g : Ctx → Ctx) : (c.updCtx w g).tlbV = c.tlbV := by cases w <;> rfl
@[simp] theorem core_updCtx_tlbE (c : Core) (w : Who) (g : Ctx → Ctx) : (c.updCtx w g).tlbE = c.tlbE := by cases w <;> rfl
@[simp] theorem core_updCtx_l1 (c : Core) (w : Who) (g : Ctx → Ctx) : (c.updCtx w g).l1 = c.l1 := by cases w <;> rfl
@[simp] theorem core_updCtx_stable (c : Core) (w : Who) (g : Ctx → Ctx) : (c.updCtx w g).stable = c.stable := by cases w <;> rfl
@[simp] theorem core_updCtx_arbS (c : Core) (w : Who) (g : Ctx → Ctx) : (c.updCtx w g).arbS = c.arbS := by cases w <;> rfl
@[simp] theorem core_updCtx_arbE (c : Core) (w : Who) (g : Ctx → Ctx) : (c.updCtx w g).arbE = c.arbE := by cases w <;> rfl
@[simp] theorem core_updCtx_yieldTo (c : Core) (w : Who) (g : Ctx → Ctx) : (c.updCtx w g).yieldTo = c.yieldTo := by cases w <;> rfl
@[simp] theorem core_updCtx_engOff (c : Core) (w : Who) (g : Ctx → Ctx) : (c.updCtx w g).engOff = c.engOff := by cases w <;> rfl

@[simp] theorem core_updCtx_ctx (c : Core) (w : Who) (g : Ctx → Ctx) : (c.updCtx w g).ctx w = g (c.ctx w) := by cases w <;> rfl

@[simp] theorem core_updCtx_updCtx (c : Core) (w : Who) (f g : Ctx → Ctx) :
    (c.updCtx w f).updCtx w g = c.updCtx w fun x => g (f x) := by cases w <;> rfl

theorem core_updCtx_id (c : Core) (w : Who) (f : Ctx → Ctx) (h : f (c.ctx w) = c.ctx w) : c.updCtx w f = c := by
  cases w <;> simp_all [Core.updCtx, Core.ctx]

/-! The acting context changed. -/

@[simp] theorem updCtx_now (s : State) (g : Ctx → Ctx) : (s.updCtx g).now = s.now := rfl
@[simp] theorem updCtx_powered (s : State) (g : Ctx → Ctx) : (s.updCtx g).powered = s.powered := rfl
@[simp] theorem updCtx_actor (s : State) (g : Ctx → Ctx) : (s.updCtx g).actor = s.actor := rfl
@[simp] theorem updCtx_agenda (s : State) (g : Ctx → Ctx) : (s.updCtx g).agenda = s.agenda := rfl
@[simp] theorem updCtx_parts (s : State) (g : Ctx → Ctx) : (s.updCtx g).parts = s.parts := rfl
@[simp] theorem updCtx_mem (s : State) (g : Ctx → Ctx) : (s.updCtx g).mem = s.mem := rfl
@[simp] theorem updCtx_c1 (s : State) (g : Ctx → Ctx) : (s.updCtx g).c1 = s.c1 := rfl
@[simp] theorem updCtx_poison (s : State) (g : Ctx → Ctx) : (s.updCtx g).poison = s.poison := rfl
@[simp] theorem updCtx_l2 (s : State) (g : Ctx → Ctx) : (s.updCtx g).l2 = s.l2 := rfl
@[simp] theorem updCtx_floors (s : State) (g : Ctx → Ctx) : (s.updCtx g).floors = s.floors := rfl
@[simp] theorem updCtx_ports (s : State) (g : Ctx → Ctx) : (s.updCtx g).ports = s.ports := rfl
@[simp] theorem updCtx_peers (s : State) (g : Ctx → Ctx) : (s.updCtx g).peers = s.peers := rfl
@[simp] theorem updCtx_moduleNo (s : State) (g : Ctx → Ctx) : (s.updCtx g).moduleNo = s.moduleNo := rfl
@[simp] theorem updCtx_otp (s : State) (g : Ctx → Ctx) : (s.updCtx g).otp = s.otp := rfl
@[simp] theorem updCtx_booted (s : State) (g : Ctx → Ctx) : (s.updCtx g).booted = s.booted := rfl
@[simp] theorem updCtx_ochreUp (s : State) (g : Ctx → Ctx) : (s.updCtx g).ochreUp = s.ochreUp := rfl
@[simp] theorem updCtx_fwImage (s : State) (g : Ctx → Ctx) : (s.updCtx g).fwImage = s.fwImage := rfl
@[simp] theorem updCtx_log (s : State) (g : Ctx → Ctx) : (s.updCtx g).log = s.log := rfl
@[simp] theorem updCtx_reports (s : State) (g : Ctx → Ctx) : (s.updCtx g).reports = s.reports := rfl
@[simp] theorem updCtx_ticket (s : State) (g : Ctx → Ctx) : (s.updCtx g).ticket = s.ticket := rfl
@[simp] theorem updCtx_reply (s : State) (g : Ctx → Ctx) : (s.updCtx g).reply = s.reply := rfl
@[simp] theorem updCtx_sent (s : State) (g : Ctx → Ctx) : (s.updCtx g).sent = s.sent := rfl

@[simp] theorem updCtx_me_mOn (s : State) (g : Ctx → Ctx) : (s.updCtx g).me.mOn = s.me.mOn := by simp [State.updCtx]
@[simp] theorem updCtx_me_strand (s : State) (g : Ctx → Ctx) : (s.updCtx g).me.strand = s.me.strand := by simp [State.updCtx]
@[simp] theorem updCtx_me_fwshare (s : State) (g : Ctx → Ctx) : (s.updCtx g).me.fwshare = s.me.fwshare := by simp [State.updCtx]
@[simp] theorem updCtx_me_ptbase (s : State) (g : Ctx → Ctx) : (s.updCtx g).me.ptbase = s.me.ptbase := by simp [State.updCtx]
@[simp] theorem updCtx_me_fcause (s : State) (g : Ctx → Ctx) : (s.updCtx g).me.fcause = s.me.fcause := by simp [State.updCtx]
@[simp] theorem updCtx_me_faddr (s : State) (g : Ctx → Ctx) : (s.updCtx g).me.faddr = s.me.faddr := by simp [State.updCtx]
@[simp] theorem updCtx_me_fpc (s : State) (g : Ctx → Ctx) : (s.updCtx g).me.fpc = s.me.fpc := by simp [State.updCtx]
@[simp] theorem updCtx_me_fret (s : State) (g : Ctx → Ctx) : (s.updCtx g).me.fret = s.me.fret := by simp [State.updCtx]
@[simp] theorem updCtx_me_engctl (s : State) (g : Ctx → Ctx) : (s.updCtx g).me.engctl = s.me.engctl := by simp [State.updCtx]
@[simp] theorem updCtx_me_efault (s : State) (g : Ctx → Ctx) : (s.updCtx g).me.efault = s.me.efault := by simp [State.updCtx]
@[simp] theorem updCtx_me_efaultNo (s : State) (g : Ctx → Ctx) : (s.updCtx g).me.efaultNo = s.me.efaultNo := by simp [State.updCtx]
@[simp] theorem updCtx_me_modes (s : State) (g : Ctx → Ctx) : (s.updCtx g).me.modes = s.me.modes := by simp [State.updCtx]
@[simp] theorem updCtx_me_fifos (s : State) (g : Ctx → Ctx) : (s.updCtx g).me.fifos = s.me.fifos := by simp [State.updCtx]
@[simp] theorem updCtx_me_eng (s : State) (g : Ctx → Ctx) : (s.updCtx g).me.eng = s.me.eng := by simp [State.updCtx]
@[simp] theorem updCtx_me_tlbS (s : State) (g : Ctx → Ctx) : (s.updCtx g).me.tlbS = s.me.tlbS := by simp [State.updCtx]
@[simp] theorem updCtx_me_tlbV (s : State) (g : Ctx → Ctx) : (s.updCtx g).me.tlbV = s.me.tlbV := by simp [State.updCtx]
@[simp] theorem updCtx_me_tlbE (s : State) (g : Ctx → Ctx) : (s.updCtx g).me.tlbE = s.me.tlbE := by simp [State.updCtx]
@[simp] theorem updCtx_me_l1 (s : State) (g : Ctx → Ctx) : (s.updCtx g).me.l1 = s.me.l1 := by simp [State.updCtx]
@[simp] theorem updCtx_me_stable (s : State) (g : Ctx → Ctx) : (s.updCtx g).me.stable = s.me.stable := by simp [State.updCtx]
@[simp] theorem updCtx_me_arbS (s : State) (g : Ctx → Ctx) : (s.updCtx g).me.arbS = s.me.arbS := by simp [State.updCtx]
@[simp] theorem updCtx_me_arbE (s : State) (g : Ctx → Ctx) : (s.updCtx g).me.arbE = s.me.arbE := by simp [State.updCtx]
@[simp] theorem updCtx_me_yieldTo (s : State) (g : Ctx → Ctx) : (s.updCtx g).me.yieldTo = s.me.yieldTo := by simp [State.updCtx]
@[simp] theorem updCtx_me_engOff (s : State) (g : Ctx → Ctx) : (s.updCtx g).me.engOff = s.me.engOff := by simp [State.updCtx]

@[simp] theorem updCtx_ctx (s : State) (g : Ctx → Ctx) : (s.updCtx g).ctx = g s.ctx := by
  simp [State.updCtx, State.ctx]

@[simp] theorem updCtx_updCtx (s : State) (f g : Ctx → Ctx) : (s.updCtx f).updCtx g = s.updCtx fun x => g (f x) := by
  simp [State.updCtx]

theorem updCtx_id (s : State) (f : Ctx → Ctx) (h : f s.ctx = s.ctx) : s.updCtx f = s :=
  updMe_id s _ (core_updCtx_id _ _ _ h)

@[simp] theorem updCtx_strand? (s : State) (g : Ctx → Ctx) : (s.updCtx g).strand? = s.strand? := by
  simp [State.strand?]

@[simp] theorem updCtx_isM (s : State) (g : Ctx → Ctx) : (s.updCtx g).isM = s.isM := rfl

@[simp] theorem updCtx_nv (s : State) (g : Ctx → Ctx) : (s.updCtx g).nv = s.nv := by simp [State.nv]

@[simp] theorem updCtx_vregBytes (s : State) (g : Ctx → Ctx) : (s.updCtx g).vregBytes = s.vregBytes := by
  simp [State.vregBytes]

@[simp] theorem updCtx_maskBits (s : State) (g : Ctx → Ctx) : (s.updCtx g).maskBits = s.maskBits := rfl

/-! Control. -/

@[simp] theorem advance_regs (c : Ctx) : c.advance.regs = c.regs := rfl
@[simp] theorem advance_icache (c : Ctx) : c.advance.icache = c.icache := rfl
@[simp] theorem advance_vl (c : Ctx) : c.advance.vl = c.vl := rfl
@[simp] theorem advance_vtype (c : Ctx) : c.advance.vtype = c.vtype := rfl
@[simp] theorem advance_vstart (c : Ctx) : c.advance.vstart = c.vstart := rfl
@[simp] theorem advance_vbase (c : Ctx) : c.advance.vbase = c.vbase := rfl
@[simp] theorem advance_fflags (c : Ctx) : c.advance.fflags = c.fflags := rfl
@[simp] theorem advance_fmode (c : Ctx) : c.advance.fmode = c.fmode := rfl
@[simp] theorem advance_seed (c : Ctx) : c.advance.seed = c.seed := rfl
@[simp] theorem advance_clipcnt (c : Ctx) : c.advance.clipcnt = c.clipcnt := rfl
@[simp] theorem advance_qcnt (c : Ctx) : c.advance.qcnt = c.qcnt := rfl
@[simp] theorem advance_padlo (c : Ctx) : c.advance.padlo = c.padlo := rfl
@[simp] theorem advance_padhi (c : Ctx) : c.advance.padhi = c.padhi := rfl
@[simp] theorem advance_padval (c : Ctx) : c.advance.padval = c.padval := rfl
@[simp] theorem advance_queue (c : Ctx) : c.advance.queue = c.queue := rfl
@[simp] theorem advance_vfile (c : Ctx) : c.advance.vfile = c.vfile := rfl
@[simp] theorem advance_masks (c : Ctx) : c.advance.masks = c.masks := rfl
@[simp] theorem advance_pregs (c : Ctx) : c.advance.pregs = c.pregs := rfl
@[simp] theorem advance_pmasks (c : Ctx) : c.advance.pmasks = c.pmasks := rfl
@[simp] theorem advance_pvec (c : Ctx) : c.advance.pvec = c.pvec := rfl
@[simp] theorem advance_barFrom (c : Ctx) : c.advance.barFrom = c.barFrom := rfl
@[simp] theorem advance_beats (c : Ctx) : c.advance.beats = c.beats := rfl
@[simp] theorem advance_pc (c : Ctx) : c.advance.pc = c.succPc := rfl

/-! A scalar register written. -/

@[simp] theorem setReg_pc (c : Ctx) (r : SReg) (x : Dword) : (c.setReg r x).pc = c.pc := by unfold Ctx.setReg; split <;> rfl
@[simp] theorem setReg_line (c : Ctx) (r : SReg) (x : Dword) : (c.setReg r x).line = c.line := by unfold Ctx.setReg; split <;> rfl
@[simp] theorem setReg_icache (c : Ctx) (r : SReg) (x : Dword) : (c.setReg r x).icache = c.icache := by unfold Ctx.setReg; split <;> rfl
@[simp] theorem setReg_vl (c : Ctx) (r : SReg) (x : Dword) : (c.setReg r x).vl = c.vl := by unfold Ctx.setReg; split <;> rfl
@[simp] theorem setReg_vtype (c : Ctx) (r : SReg) (x : Dword) : (c.setReg r x).vtype = c.vtype := by unfold Ctx.setReg; split <;> rfl
@[simp] theorem setReg_vstart (c : Ctx) (r : SReg) (x : Dword) : (c.setReg r x).vstart = c.vstart := by unfold Ctx.setReg; split <;> rfl
@[simp] theorem setReg_vbase (c : Ctx) (r : SReg) (x : Dword) : (c.setReg r x).vbase = c.vbase := by unfold Ctx.setReg; split <;> rfl
@[simp] theorem setReg_fflags (c : Ctx) (r : SReg) (x : Dword) : (c.setReg r x).fflags = c.fflags := by unfold Ctx.setReg; split <;> rfl
@[simp] theorem setReg_fmode (c : Ctx) (r : SReg) (x : Dword) : (c.setReg r x).fmode = c.fmode := by unfold Ctx.setReg; split <;> rfl
@[simp] theorem setReg_seed (c : Ctx) (r : SReg) (x : Dword) : (c.setReg r x).seed = c.seed := by unfold Ctx.setReg; split <;> rfl
@[simp] theorem setReg_clipcnt (c : Ctx) (r : SReg) (x : Dword) : (c.setReg r x).clipcnt = c.clipcnt := by unfold Ctx.setReg; split <;> rfl
@[simp] theorem setReg_qcnt (c : Ctx) (r : SReg) (x : Dword) : (c.setReg r x).qcnt = c.qcnt := by unfold Ctx.setReg; split <;> rfl
@[simp] theorem setReg_padlo (c : Ctx) (r : SReg) (x : Dword) : (c.setReg r x).padlo = c.padlo := by unfold Ctx.setReg; split <;> rfl
@[simp] theorem setReg_padhi (c : Ctx) (r : SReg) (x : Dword) : (c.setReg r x).padhi = c.padhi := by unfold Ctx.setReg; split <;> rfl
@[simp] theorem setReg_padval (c : Ctx) (r : SReg) (x : Dword) : (c.setReg r x).padval = c.padval := by unfold Ctx.setReg; split <;> rfl
@[simp] theorem setReg_queue (c : Ctx) (r : SReg) (x : Dword) : (c.setReg r x).queue = c.queue := by unfold Ctx.setReg; split <;> rfl
@[simp] theorem setReg_vfile (c : Ctx) (r : SReg) (x : Dword) : (c.setReg r x).vfile = c.vfile := by unfold Ctx.setReg; split <;> rfl
@[simp] theorem setReg_masks (c : Ctx) (r : SReg) (x : Dword) : (c.setReg r x).masks = c.masks := by unfold Ctx.setReg; split <;> rfl
@[simp] theorem setReg_pmasks (c : Ctx) (r : SReg) (x : Dword) : (c.setReg r x).pmasks = c.pmasks := by unfold Ctx.setReg; split <;> rfl
@[simp] theorem setReg_pvec (c : Ctx) (r : SReg) (x : Dword) : (c.setReg r x).pvec = c.pvec := by unfold Ctx.setReg; split <;> rfl
@[simp] theorem setReg_barFrom (c : Ctx) (r : SReg) (x : Dword) : (c.setReg r x).barFrom = c.barFrom := by unfold Ctx.setReg; split <;> rfl
@[simp] theorem setReg_beats (c : Ctx) (r : SReg) (x : Dword) : (c.setReg r x).beats = c.beats := by unfold Ctx.setReg; split <;> rfl

/-- A register reads back what was written, unless it is s0 or another (R80). -/
theorem setReg_reg (c : Ctx) (r q : SReg) (x : Dword) :
    (c.setReg r x).reg q = if q = r ∧ r ≠ 0 then x else c.reg q := by
  unfold Ctx.setReg Ctx.reg
  by_cases hq : q = 0 <;> by_cases hr : r = 0 <;> by_cases hqr : q = r <;> simp_all
  have : r.toNat ≠ q.toNat := fun e => hqr (BitVec.eq_of_toNat_eq e.symm)
  simp [this]

/-- Writing s0 changes nothing (R80). -/
@[simp] theorem setReg_zero (c : Ctx) (x : Dword) : c.setReg 0 x = c := by simp [Ctx.setReg]

/-- s0 reads 0 (R80). -/
@[simp] theorem reg_zero (c : Ctx) : c.reg 0 = 0 := by simp [Ctx.reg]

/-! Flags raised. -/

@[simp] theorem orFlags_regs (c : Ctx) (n : Nat) : (c.orFlags n).regs = c.regs := rfl
@[simp] theorem orFlags_pc (c : Ctx) (n : Nat) : (c.orFlags n).pc = c.pc := rfl
@[simp] theorem orFlags_line (c : Ctx) (n : Nat) : (c.orFlags n).line = c.line := rfl
@[simp] theorem orFlags_icache (c : Ctx) (n : Nat) : (c.orFlags n).icache = c.icache := rfl
@[simp] theorem orFlags_vl (c : Ctx) (n : Nat) : (c.orFlags n).vl = c.vl := rfl
@[simp] theorem orFlags_vtype (c : Ctx) (n : Nat) : (c.orFlags n).vtype = c.vtype := rfl
@[simp] theorem orFlags_vstart (c : Ctx) (n : Nat) : (c.orFlags n).vstart = c.vstart := rfl
@[simp] theorem orFlags_vbase (c : Ctx) (n : Nat) : (c.orFlags n).vbase = c.vbase := rfl
@[simp] theorem orFlags_fmode (c : Ctx) (n : Nat) : (c.orFlags n).fmode = c.fmode := rfl
@[simp] theorem orFlags_seed (c : Ctx) (n : Nat) : (c.orFlags n).seed = c.seed := rfl
@[simp] theorem orFlags_clipcnt (c : Ctx) (n : Nat) : (c.orFlags n).clipcnt = c.clipcnt := rfl
@[simp] theorem orFlags_qcnt (c : Ctx) (n : Nat) : (c.orFlags n).qcnt = c.qcnt := rfl
@[simp] theorem orFlags_padlo (c : Ctx) (n : Nat) : (c.orFlags n).padlo = c.padlo := rfl
@[simp] theorem orFlags_padhi (c : Ctx) (n : Nat) : (c.orFlags n).padhi = c.padhi := rfl
@[simp] theorem orFlags_padval (c : Ctx) (n : Nat) : (c.orFlags n).padval = c.padval := rfl
@[simp] theorem orFlags_queue (c : Ctx) (n : Nat) : (c.orFlags n).queue = c.queue := rfl
@[simp] theorem orFlags_vfile (c : Ctx) (n : Nat) : (c.orFlags n).vfile = c.vfile := rfl
@[simp] theorem orFlags_masks (c : Ctx) (n : Nat) : (c.orFlags n).masks = c.masks := rfl
@[simp] theorem orFlags_pregs (c : Ctx) (n : Nat) : (c.orFlags n).pregs = c.pregs := rfl
@[simp] theorem orFlags_pmasks (c : Ctx) (n : Nat) : (c.orFlags n).pmasks = c.pmasks := rfl
@[simp] theorem orFlags_pvec (c : Ctx) (n : Nat) : (c.orFlags n).pvec = c.pvec := rfl
@[simp] theorem orFlags_barFrom (c : Ctx) (n : Nat) : (c.orFlags n).barFrom = c.barFrom := rfl
@[simp] theorem orFlags_beats (c : Ctx) (n : Nat) : (c.orFlags n).beats = c.beats := rfl
@[simp] theorem orFlags_fflags (c : Ctx) (n : Nat) : (c.orFlags n).fflags = c.fflags ||| .ofNat 64 n := rfl

/-! A vector element written. -/

@[simp] theorem vwrite_regs (c : Ctx) (a n x : Nat) : (c.vwrite a n x).regs = c.regs := rfl
@[simp] theorem vwrite_pc (c : Ctx) (a n x : Nat) : (c.vwrite a n x).pc = c.pc := rfl
@[simp] theorem vwrite_line (c : Ctx) (a n x : Nat) : (c.vwrite a n x).line = c.line := rfl
@[simp] theorem vwrite_icache (c : Ctx) (a n x : Nat) : (c.vwrite a n x).icache = c.icache := rfl
@[simp] theorem vwrite_vl (c : Ctx) (a n x : Nat) : (c.vwrite a n x).vl = c.vl := rfl
@[simp] theorem vwrite_vtype (c : Ctx) (a n x : Nat) : (c.vwrite a n x).vtype = c.vtype := rfl
@[simp] theorem vwrite_vstart (c : Ctx) (a n x : Nat) : (c.vwrite a n x).vstart = c.vstart := rfl
@[simp] theorem vwrite_vbase (c : Ctx) (a n x : Nat) : (c.vwrite a n x).vbase = c.vbase := rfl
@[simp] theorem vwrite_fflags (c : Ctx) (a n x : Nat) : (c.vwrite a n x).fflags = c.fflags := rfl
@[simp] theorem vwrite_fmode (c : Ctx) (a n x : Nat) : (c.vwrite a n x).fmode = c.fmode := rfl
@[simp] theorem vwrite_seed (c : Ctx) (a n x : Nat) : (c.vwrite a n x).seed = c.seed := rfl
@[simp] theorem vwrite_clipcnt (c : Ctx) (a n x : Nat) : (c.vwrite a n x).clipcnt = c.clipcnt := rfl
@[simp] theorem vwrite_qcnt (c : Ctx) (a n x : Nat) : (c.vwrite a n x).qcnt = c.qcnt := rfl
@[simp] theorem vwrite_padlo (c : Ctx) (a n x : Nat) : (c.vwrite a n x).padlo = c.padlo := rfl
@[simp] theorem vwrite_padhi (c : Ctx) (a n x : Nat) : (c.vwrite a n x).padhi = c.padhi := rfl
@[simp] theorem vwrite_padval (c : Ctx) (a n x : Nat) : (c.vwrite a n x).padval = c.padval := rfl
@[simp] theorem vwrite_queue (c : Ctx) (a n x : Nat) : (c.vwrite a n x).queue = c.queue := rfl
@[simp] theorem vwrite_masks (c : Ctx) (a n x : Nat) : (c.vwrite a n x).masks = c.masks := rfl
@[simp] theorem vwrite_pregs (c : Ctx) (a n x : Nat) : (c.vwrite a n x).pregs = c.pregs := rfl
@[simp] theorem vwrite_pmasks (c : Ctx) (a n x : Nat) : (c.vwrite a n x).pmasks = c.pmasks := rfl
@[simp] theorem vwrite_barFrom (c : Ctx) (a n x : Nat) : (c.vwrite a n x).barFrom = c.barFrom := rfl
@[simp] theorem vwrite_beats (c : Ctx) (a n x : Nat) : (c.vwrite a n x).beats = c.beats := rfl
@[simp] theorem vwrite_vfile (c : Ctx) (a n x : Nat) : (c.vwrite a n x).vfile = writeN c.vfile a n x := rfl

/-! A context whose line is fetched again. -/

@[simp] theorem refetch_regs (c : Ctx) : c.refetch.regs = c.regs := rfl
@[simp] theorem refetch_pc (c : Ctx) : c.refetch.pc = c.pc := rfl
@[simp] theorem refetch_vl (c : Ctx) : c.refetch.vl = c.vl := rfl
@[simp] theorem refetch_vtype (c : Ctx) : c.refetch.vtype = c.vtype := rfl
@[simp] theorem refetch_vstart (c : Ctx) : c.refetch.vstart = c.vstart := rfl
@[simp] theorem refetch_vbase (c : Ctx) : c.refetch.vbase = c.vbase := rfl
@[simp] theorem refetch_fflags (c : Ctx) : c.refetch.fflags = c.fflags := rfl
@[simp] theorem refetch_fmode (c : Ctx) : c.refetch.fmode = c.fmode := rfl
@[simp] theorem refetch_seed (c : Ctx) : c.refetch.seed = c.seed := rfl
@[simp] theorem refetch_clipcnt (c : Ctx) : c.refetch.clipcnt = c.clipcnt := rfl
@[simp] theorem refetch_qcnt (c : Ctx) : c.refetch.qcnt = c.qcnt := rfl
@[simp] theorem refetch_padlo (c : Ctx) : c.refetch.padlo = c.padlo := rfl
@[simp] theorem refetch_padhi (c : Ctx) : c.refetch.padhi = c.padhi := rfl
@[simp] theorem refetch_padval (c : Ctx) : c.refetch.padval = c.padval := rfl
@[simp] theorem refetch_queue (c : Ctx) : c.refetch.queue = c.queue := rfl
@[simp] theorem refetch_vfile (c : Ctx) : c.refetch.vfile = c.vfile := rfl
@[simp] theorem refetch_masks (c : Ctx) : c.refetch.masks = c.masks := rfl
@[simp] theorem refetch_pregs (c : Ctx) : c.refetch.pregs = c.pregs := rfl
@[simp] theorem refetch_pmasks (c : Ctx) : c.refetch.pmasks = c.pmasks := rfl
@[simp] theorem refetch_pvec (c : Ctx) : c.refetch.pvec = c.pvec := rfl
@[simp] theorem refetch_beats (c : Ctx) : c.refetch.beats = c.beats := rfl
@[simp] theorem refetch_line (c : Ctx) : c.refetch.line = none := rfl
@[simp] theorem refetch_barFrom (c : Ctx) : c.refetch.barFrom = none := rfl
@[simp] theorem forget_regs (c : Ctx) (pc : Dword) : (c.forget pc).regs = c.regs := rfl
@[simp] theorem forget_pc (c : Ctx) (pc : Dword) : (c.forget pc).pc = c.pc := rfl
@[simp] theorem forget_line (c : Ctx) (pc : Dword) : (c.forget pc).line = c.line := rfl
@[simp] theorem forget_vl (c : Ctx) (pc : Dword) : (c.forget pc).vl = c.vl := rfl
@[simp] theorem forget_vtype (c : Ctx) (pc : Dword) : (c.forget pc).vtype = c.vtype := rfl
@[simp] theorem forget_vstart (c : Ctx) (pc : Dword) : (c.forget pc).vstart = c.vstart := rfl
@[simp] theorem forget_vbase (c : Ctx) (pc : Dword) : (c.forget pc).vbase = c.vbase := rfl
@[simp] theorem forget_fflags (c : Ctx) (pc : Dword) : (c.forget pc).fflags = c.fflags := rfl
@[simp] theorem forget_fmode (c : Ctx) (pc : Dword) : (c.forget pc).fmode = c.fmode := rfl
@[simp] theorem forget_seed (c : Ctx) (pc : Dword) : (c.forget pc).seed = c.seed := rfl
@[simp] theorem forget_clipcnt (c : Ctx) (pc : Dword) : (c.forget pc).clipcnt = c.clipcnt := rfl
@[simp] theorem forget_qcnt (c : Ctx) (pc : Dword) : (c.forget pc).qcnt = c.qcnt := rfl
@[simp] theorem forget_padlo (c : Ctx) (pc : Dword) : (c.forget pc).padlo = c.padlo := rfl
@[simp] theorem forget_padhi (c : Ctx) (pc : Dword) : (c.forget pc).padhi = c.padhi := rfl
@[simp] theorem forget_padval (c : Ctx) (pc : Dword) : (c.forget pc).padval = c.padval := rfl
@[simp] theorem forget_queue (c : Ctx) (pc : Dword) : (c.forget pc).queue = c.queue := rfl
@[simp] theorem forget_vfile (c : Ctx) (pc : Dword) : (c.forget pc).vfile = c.vfile := rfl
@[simp] theorem forget_masks (c : Ctx) (pc : Dword) : (c.forget pc).masks = c.masks := rfl
@[simp] theorem forget_pregs (c : Ctx) (pc : Dword) : (c.forget pc).pregs = c.pregs := rfl
@[simp] theorem forget_pmasks (c : Ctx) (pc : Dword) : (c.forget pc).pmasks = c.pmasks := rfl
@[simp] theorem forget_pvec (c : Ctx) (pc : Dword) : (c.forget pc).pvec = c.pvec := rfl
@[simp] theorem forget_barFrom (c : Ctx) (pc : Dword) : (c.forget pc).barFrom = c.barFrom := rfl
@[simp] theorem forget_beats (c : Ctx) (pc : Dword) : (c.forget pc).beats = c.beats := rfl

/-! Memory written. -/

@[simp] theorem writeKey_now (s : State) (k n v : Nat) : (s.writeKey k n v).now = s.now := rfl
@[simp] theorem writeKey_powered (s : State) (k n v : Nat) : (s.writeKey k n v).powered = s.powered := rfl
@[simp] theorem writeKey_actor (s : State) (k n v : Nat) : (s.writeKey k n v).actor = s.actor := rfl
@[simp] theorem writeKey_agenda (s : State) (k n v : Nat) : (s.writeKey k n v).agenda = s.agenda := rfl
@[simp] theorem writeKey_parts (s : State) (k n v : Nat) : (s.writeKey k n v).parts = s.parts := rfl
@[simp] theorem writeKey_c1 (s : State) (k n v : Nat) : (s.writeKey k n v).c1 = s.c1 := rfl
@[simp] theorem writeKey_l2 (s : State) (k n v : Nat) : (s.writeKey k n v).l2 = s.l2 := rfl
@[simp] theorem writeKey_floors (s : State) (k n v : Nat) : (s.writeKey k n v).floors = s.floors := rfl
@[simp] theorem writeKey_ports (s : State) (k n v : Nat) : (s.writeKey k n v).ports = s.ports := rfl
@[simp] theorem writeKey_peers (s : State) (k n v : Nat) : (s.writeKey k n v).peers = s.peers := rfl
@[simp] theorem writeKey_moduleNo (s : State) (k n v : Nat) : (s.writeKey k n v).moduleNo = s.moduleNo := rfl
@[simp] theorem writeKey_otp (s : State) (k n v : Nat) : (s.writeKey k n v).otp = s.otp := rfl
@[simp] theorem writeKey_booted (s : State) (k n v : Nat) : (s.writeKey k n v).booted = s.booted := rfl
@[simp] theorem writeKey_ochreUp (s : State) (k n v : Nat) : (s.writeKey k n v).ochreUp = s.ochreUp := rfl
@[simp] theorem writeKey_fwImage (s : State) (k n v : Nat) : (s.writeKey k n v).fwImage = s.fwImage := rfl
@[simp] theorem writeKey_log (s : State) (k n v : Nat) : (s.writeKey k n v).log = s.log := rfl
@[simp] theorem writeKey_reports (s : State) (k n v : Nat) : (s.writeKey k n v).reports = s.reports := rfl
@[simp] theorem writeKey_ticket (s : State) (k n v : Nat) : (s.writeKey k n v).ticket = s.ticket := rfl
@[simp] theorem writeKey_reply (s : State) (k n v : Nat) : (s.writeKey k n v).reply = s.reply := rfl
@[simp] theorem writeKey_sent (s : State) (k n v : Nat) : (s.writeKey k n v).sent = s.sent := rfl
@[simp] theorem writeKey_cores (s : State) (k n v : Nat) : (s.writeKey k n v).cores = s.cores := rfl
@[simp] theorem writeKey_mem (s : State) (k n v : Nat) : (s.writeKey k n v).mem = writeN s.mem k n v := rfl

/-! A free choice counted. -/

@[simp] theorem free_now (s : State) (f : Nat → Nat) : (s.free f).2.now = s.now := rfl
@[simp] theorem free_powered (s : State) (f : Nat → Nat) : (s.free f).2.powered = s.powered := rfl
@[simp] theorem free_actor (s : State) (f : Nat → Nat) : (s.free f).2.actor = s.actor := rfl
@[simp] theorem free_agenda (s : State) (f : Nat → Nat) : (s.free f).2.agenda = s.agenda := rfl
@[simp] theorem free_parts (s : State) (f : Nat → Nat) : (s.free f).2.parts = s.parts := rfl
@[simp] theorem free_mem (s : State) (f : Nat → Nat) : (s.free f).2.mem = s.mem := rfl
@[simp] theorem free_c1 (s : State) (f : Nat → Nat) : (s.free f).2.c1 = s.c1 := rfl
@[simp] theorem free_poison (s : State) (f : Nat → Nat) : (s.free f).2.poison = s.poison := rfl
@[simp] theorem free_l2 (s : State) (f : Nat → Nat) : (s.free f).2.l2 = s.l2 := rfl
@[simp] theorem free_floors (s : State) (f : Nat → Nat) : (s.free f).2.floors = s.floors := rfl
@[simp] theorem free_ports (s : State) (f : Nat → Nat) : (s.free f).2.ports = s.ports := rfl
@[simp] theorem free_peers (s : State) (f : Nat → Nat) : (s.free f).2.peers = s.peers := rfl
@[simp] theorem free_moduleNo (s : State) (f : Nat → Nat) : (s.free f).2.moduleNo = s.moduleNo := rfl
@[simp] theorem free_otp (s : State) (f : Nat → Nat) : (s.free f).2.otp = s.otp := rfl
@[simp] theorem free_booted (s : State) (f : Nat → Nat) : (s.free f).2.booted = s.booted := rfl
@[simp] theorem free_ochreUp (s : State) (f : Nat → Nat) : (s.free f).2.ochreUp = s.ochreUp := rfl
@[simp] theorem free_fwImage (s : State) (f : Nat → Nat) : (s.free f).2.fwImage = s.fwImage := rfl
@[simp] theorem free_log (s : State) (f : Nat → Nat) : (s.free f).2.log = s.log := rfl
@[simp] theorem free_reports (s : State) (f : Nat → Nat) : (s.free f).2.reports = s.reports := rfl
@[simp] theorem free_reply (s : State) (f : Nat → Nat) : (s.free f).2.reply = s.reply := rfl
@[simp] theorem free_sent (s : State) (f : Nat → Nat) : (s.free f).2.sent = s.sent := rfl
@[simp] theorem free_cores (s : State) (f : Nat → Nat) : (s.free f).2.cores = s.cores := rfl

end Sys2Proof.Machine
end

