-- ==== Sys2Proof/Laws/Access.lean ====
section
/-! SUPPORT. What an access may change (R229): said once, as the properties of states that its primitive effects keep. -/

namespace Sys2Proof.Claims

open Sys2Proof Sys2Proof.Machine

/-- A property of states that the primitive effects of accesses keep: bytes written at a key, a block given another form, poison changed,
the lines and the floors of L2, a free choice counted, and the TLBs, caches and FIFOs of a core. -/
structure AccClosed (P : State → Prop) : Prop where
  write : ∀ s key n v, P s → P (s.writeKey key n v)
  form  : ∀ s a n v b m, P s → P { s with mem := writeN s.mem a n v, c1 := writeByte s.c1 b m }
  byte  : ∀ s a v, P s → P { s with mem := writeByte s.mem a v }
  pois  : ∀ s ps, P s → P { s with poison := ps }
  l2    : ∀ s l, P s → P { s with l2 := l }
  floor : ∀ s l, P s → P { s with floors := l }
  tick  : ∀ s n, P s → P { s with ticket := n }
  core  : ∀ s k (d : Core), P s →
    { d with tlbS := (s.core k).tlbS, tlbV := (s.core k).tlbV, tlbE := (s.core k).tlbE, l1 := (s.core k).l1,
             stable := (s.core k).stable, fifos := (s.core k).fifos } = s.core k → P (s.setCore k d)

variable {P : State → Prop}

theorem AccClosed.upd (h : AccClosed P) (s : State) (k : Fin 96) (f : Core → Core)
    (hf : ∀ c, { f c with tlbS := c.tlbS, tlbV := c.tlbV, tlbE := c.tlbE, l1 := c.l1, stable := c.stable, fifos := c.fifos } = c)
    (hs : P s) : P (s.updCore k f) := h.core s k _ hs (hf _)

theorem AccClosed.slack (h : AccClosed P) (key n : Nat) (s : State) (hs : P s) : P (s.slack key n) := by
  induction n generalizing s with
  | zero => exact hs
  | succ n ih => exact ih _ (h.byte _ _ _ (h.tick s _ hs))

theorem AccClosed.inForm (h : AccClosed P) (s : State) (x : Xl) (hs : P s) : P (s.inForm x) := by
  unfold State.inForm State.asC1 State.asRaw
  dsimp only
  split
  · by_cases hm : (decide (2 ≤ s.c1At x.key) && decide (s.c1At x.key < 8)) = true
    · rw [if_pos hm]; exact h.pois _ _ (h.form _ _ _ _ _ _ hs)
    · rw [if_neg hm]; exact hs
  · by_cases hm : s.c1At x.key = 1
    · rw [if_pos hm]
      split
      · exact h.slack _ _ _ (h.form _ _ _ _ _ _ hs)
      · exact h.pois _ _ (h.slack _ _ _ (h.form _ _ _ _ _ _ hs))
    · rw [if_neg hm]; exact hs

theorem AccClosed.writeAt (h : AccClosed P) (s : State) (x : Xl) (n v : Nat) (hs : P s) : P (s.writeAt x n v) := by
  have hw := h.write _ x.key n v (h.inForm s x hs)
  unfold State.writeAt
  dsimp only
  split
  · exact h.form _ 0 0 0 _ _ hw
  · exact hw

theorem AccClosed.dropLine (h : AccClosed P) (s : State) (a : Nat) (hs : P s) : P (s.dropLine a) := by
  unfold State.dropLine
  split
  · exact hs
  · dsimp only
    split
    · exact h.floor _ _ (h.l2 s _ hs)
    · exact h.l2 s _ hs

theorem AccClosed.fillLine (h : AccClosed P) (s : State) (l : L2Line) (w : Bool) (hs : P s) : P (s.fillLine l w) := by
  unfold State.fillLine
  dsimp only
  split
  · exact h.l2 _ _ hs
  · split
    · exact h.l2 _ _ (h.dropLine _ _ hs)
    · exact h.l2 _ _ hs

theorem AccClosed.touch (h : AccClosed P) {s t : State} {x : Xl} {wr : Bool} {ea : Nat} (ht : s.touch x wr ea = .ok t)
    (hs : P s) : P t := by
  unfold State.touch at ht
  split at ht
  · cases ht; exact hs
  · dsimp only at ht
    split at ht
    · split at ht
      · cases ht
      · split at ht <;> cases ht
        · exact h.l2 s _ hs
        · exact hs
    · split at ht <;> cases ht
      · exact hs
      · exact h.fillLine s _ _ hs

/-- The scheduler's writes change only what an access may. -/
theorem AccClosed.schedStores (h : AccClosed P) {p : Partition} {ptb : Dword} {l : List (Nat × Nat)} {s t : State}
    (ht : schedStores p ptb l s = .ok t) (hs : P s) : P t := by
  induction l generalizing s with
  | nil => cases ht; exact hs
  | cons w r ih =>
    unfold Machine.schedStores at ht
    split at ht
    · cases ht
    · split at ht
      · cases ht
      · rename_i h1; exact ih ht (h.writeAt _ _ _ _ (h.touch h1 hs))

theorem AccClosed.translate (h : AccClosed P) (s : State) (k : Fin 96) (m : Bool) (t : TlbSel) (kd : Kind) (va : Nat)
    (hs : P s) : P (Machine.translate s k m t kd va).1 := by
  unfold Machine.translate
  split
  · exact hs
  · dsimp only
    split
    · exact hs
    · split
      · exact hs
      · exact hs
      · split
        · exact hs
        · refine h.core s k _ hs ?_
          cases t <;> rfl

/-- A placement ends in the state given, or in the one its translation leaves. -/
theorem placeOf_state (s : State) (P : State → Prop) (k : Fin 96) (m : Bool) (t : TlbSel) (kd : Kind) (va n : Nat)
    (h0 : P s) (h : P (Machine.translate s k m t kd va).1) : P (placeOf s k m t kd va n).1 := by
  unfold placeOf
  by_cases h1 : 2 ^ 55 ≤ va
  · rw [if_pos h1]; exact h0
  rw [if_neg h1]
  by_cases h2 : 0x7FFE00000000 ≤ va ∧ va < 0x800000000000
  · rw [if_pos h2]
    by_cases h3 : kd = .x
    · rw [if_pos h3]; exact h0
    rw [if_neg h3]
    by_cases h4 : localBase ≤ va ∧ va < localBase + 0x1000000
    · rw [if_pos h4]; exact h0
    rw [if_neg h4]
    by_cases h5 : va < clusterBase 4
    · rw [if_pos h5]; exact h0
    · rw [if_neg h5]; exact h0
  · rw [if_neg h2]
    split
    · rename_i hu; rw [hu] at h; exact h
    · rename_i hu; rw [hu] at h; exact h

theorem AccClosed.placeOf (h : AccClosed P) (s : State) (k : Fin 96) (m : Bool) (t : TlbSel) (kd : Kind) (va n : Nat)
    (hs : P s) : P (placeOf s k m t kd va n).1 :=
  placeOf_state s P k m t kd va n hs (h.translate s k m t kd va hs)

theorem AccClosed.ringWrite (h : AccClosed P) (s : State) (k b o n v : Nat) (hs : P s) : P (ringWrite s k b o n v) := by
  induction n generalizing s o v with
  | zero => exact hs
  | succ n ih => exact ih _ _ _ (h.write _ _ _ _ hs)

theorem AccClosed.fifoPop (h : AccClosed P) {s t : State} {k : Fin 96} {b n v : Nat} (hp : fifoPop s k b n = some (v, t))
    (hs : P s) : P t := by
  unfold Machine.fifoPop at hp
  dsimp only at hp
  split at hp
  · cases hp
  · cases hp; exact h.upd s k _ (fun c => rfl) hs

theorem AccClosed.fifoPush (h : AccClosed P) {s t : State} {k : Fin 96} {b n v : Nat} (hp : fifoPush s k b n v = some t)
    (hs : P s) : P t := by
  unfold Machine.fifoPush at hp
  dsimp only at hp
  split at hp
  · cases hp
  · cases hp; exact h.upd _ k _ (fun c => rfl) (h.ringWrite _ _ _ _ _ _ hs)

theorem AccClosed.stableFill (h : AccClosed P) (s : State) (k : Fin 96) (hint key : Nat) (hs : P s) :
    P (stableFill s k hint key) := by
  unfold Machine.stableFill
  dsimp only
  split
  · exact hs
  · exact h.upd _ k _ (fun c => rfl) (h.pois _ _ hs)

/-- The state an access ends in. -/
def accState : Acc → State
  | .ok s _ _ => s
  | .fault _ s => s
  | .wait s => s

/-- An access keeps what its primitive effects keep. -/
theorem AccClosed.access (h : AccClosed P) (s : State) (k : Fin 96) (m q : Bool) (t : TlbSel) (hint : Nat) (kd : Kind)
    (rd ff : Bool) (va n : Nat) (ok : Place → Bool) (f : Nat → Option Nat) (hs : P s) :
    P (accState (access s k m q t hint kd rd ff va n ok f)) := by
  have h0 := h.placeOf s k m t kd va n hs
  unfold Machine.access
  split
  · rename_i u e hu
    rw [hu] at h0
    exact h0
  · rename_i u p hu
    rw [hu] at h0
    split
    · exact h0
    · split
      · split
        · exact h0
        · split
          · exact h0
          · split
            · split
              · split
                · exact h0
                · exact h.fifoPop ‹_› h0
              · exact h0
            · split
              · exact h.fifoPush ‹_› h0
              · exact h0
      · split
        · exact h0
        · split
          · exact h0
          · dsimp only
            split
            · exact h.write _ _ _ _ h0
            · exact h0
      · dsimp only
        split
        · split
          · exact h0
          · exact h.upd u k (fun c => { c with stable := _ }) (fun c => rfl) h0
        · split
          · exact h0
          · rename_i w hw
            have h1 := h.touch hw h0
            split
            · exact h0
            · rename_i x _ _ _
              have h2 (y : Xl) (g : Core → List (Nat × Bool)) :=
                h.upd (w.inForm y) k (fun c => if m then c else { c with l1 := g c }) (fun c => by split <;> rfl)
                  (h.inForm w y h1)
              split
              · exact h.writeAt _ _ _ _ (h2 _ _)
              · dsimp only [accState]
                split
                · exact h.stableFill _ _ _ _ (h2 _ _)
                · exact h2 _ fun c => l1After c.l1 t _ _

/-! The properties kept. -/

theorem touched_refl (s : State) : Touched s s := ⟨rfl, fun _ => rfl⟩

theorem Touched.trans {s t u : State} (h : Touched s t) (g : Touched t u) : Touched s u := by
  obtain ⟨h1, h2⟩ := h
  obtain ⟨g1, g2⟩ := g
  refine ⟨?_, fun k => ?_⟩
  · clear h2 g2
    cases s; cases t; cases u
    simp only [State.mk.injEq] at *
    simp_all
  · have a := h2 k
    have b := g2 k
    rw [← a, ← b]

theorem touched_setCore (s : State) (k : Fin 96) (d : Core)
    (h : { d with tlbS := (s.core k).tlbS, tlbV := (s.core k).tlbV, tlbE := (s.core k).tlbE, l1 := (s.core k).l1,
                  stable := (s.core k).stable, fifos := (s.core k).fifos } = s.core k) : Touched s (s.setCore k d) := by
  refine ⟨rfl, fun j => ?_⟩
  by_cases hj : j = k
  · subst hj; rw [setCore_core]; exact h
  · rw [setCore_core_ne _ _ _ _ hj]

/-- What accesses may change. -/
theorem accClosed_touched (s : State) : AccClosed (Touched s) where
  write _ _ _ _ h := h.trans ⟨rfl, fun _ => rfl⟩
  form _ _ _ _ _ _ h := h.trans ⟨rfl, fun _ => rfl⟩
  byte _ _ _ h := h.trans ⟨rfl, fun _ => rfl⟩
  pois _ _ h := h.trans ⟨rfl, fun _ => rfl⟩
  l2 _ _ h := h.trans ⟨rfl, fun _ => rfl⟩
  floor _ _ h := h.trans ⟨rfl, fun _ => rfl⟩
  tick _ _ h := h.trans ⟨rfl, fun _ => rfl⟩
  core _ _ _ h hd := h.trans (touched_setCore _ _ _ hd)

/-- The marks beside the blocks stay in canonical form. -/
theorem accClosed_c1 : AccClosed fun s => Memory.wf s.c1 = true where
  write _ _ _ _ h := h
  form _ _ _ _ _ _ h := wf_writeByte _ _ h
  byte _ _ _ h := h
  pois _ _ h := h
  l2 _ _ h := h
  floor _ _ h := h
  tick _ _ h := h
  core _ _ _ h _ := h

/-- Memory stays in its canonical form. -/
theorem accClosed_wf : AccClosed fun s => Memory.wf s.mem = true where
  write _ _ _ _ h := wf_writeN _ _ _ h
  form _ _ _ _ _ _ h := wf_writeN _ _ _ h
  byte _ _ _ h := wf_writeByte _ _ h
  pois _ _ h := h
  l2 _ _ h := h
  floor _ _ h := h
  tick _ _ h := h
  core _ _ _ h _ := h

/-- An access changes nothing but what accesses may change. -/
theorem touched_acc (s : State) (t : TlbSel) (hint : Nat) (kd : Kind) (rd ff : Bool) (va n : Nat) (ok : Place → Bool)
    (f : Nat → Option Nat) : Touched s (accState (s.acc t hint kd rd ff va n ok f)) :=
  (accClosed_touched s).access s _ _ _ _ _ _ _ _ _ _ _ _ (touched_refl s)

/-! A scalar access that can perform. -/

theorem accClosed_ctx (k : Fin 96) (q : Who) (c : Ctx) : AccClosed fun s => (s.core k).ctx q = c where
  write _ _ _ _ h := h
  form _ _ _ _ _ _ h := h
  byte _ _ _ h := h
  pois _ _ h := h
  l2 _ _ h := h
  floor _ _ h := h
  tick _ _ h := h
  core s j d h hd := by
    by_cases hj : k = j
    · subst hj
      rw [setCore_core, ← h, ← hd]
      cases q <;> rfl
    · rw [setCore_core_ne _ _ _ _ hj, h]

theorem translate_fields (s : State) (k : Fin 96) (m : Bool) (t : TlbSel) (kd : Kind) (va : Nat) :
    let u := (Machine.translate s k m t kd va).1
    u.mem = s.mem ∧ u.poison = s.poison ∧ u.l2 = s.l2 ∧ u.floors = s.floors ∧ u.ticket = s.ticket ∧ u.c1 = s.c1 := by
  unfold Machine.translate
  split
  · exact ⟨rfl, rfl, rfl, rfl, rfl, rfl⟩
  · dsimp only
    split
    · exact ⟨rfl, rfl, rfl, rfl, rfl, rfl⟩
    · split
      · exact ⟨rfl, rfl, rfl, rfl, rfl, rfl⟩
      · exact ⟨rfl, rfl, rfl, rfl, rfl, rfl⟩
      · split <;> exact ⟨rfl, rfl, rfl, rfl, rfl, rfl⟩

/-- A placement touches no memory, no block's form, no poison and no line. -/
theorem placeOf_fields (s : State) (k : Fin 96) (m : Bool) (t : TlbSel) (kd : Kind) (va n : Nat) :
    let u := (placeOf s k m t kd va n).1
    u.mem = s.mem ∧ u.poison = s.poison ∧ u.l2 = s.l2 ∧ u.floors = s.floors ∧ u.ticket = s.ticket ∧ u.c1 = s.c1 :=
  placeOf_state s (fun u => u.mem = s.mem ∧ u.poison = s.poison ∧ u.l2 = s.l2 ∧ u.floors = s.floors ∧ u.ticket = s.ticket ∧
      u.c1 = s.c1) k m t kd va n ⟨rfl, rfl, rfl, rfl, rfl, rfl⟩ (translate_fields s k m t kd va)

theorem verUp_eq (v : Dword) : verUp v = nextVersion v := by
  unfold verUp nextVersion
  by_cases h : v = BitVec.allOnes 64
  · subst h; rfl
  · have h' : v.toNat ≠ 2 ^ 64 - 1 := fun e => h (BitVec.eq_of_toNat_eq (by rw [e]; rfl))
    rw [if_neg h, if_neg h']
    apply BitVec.eq_of_toNat_eq
    have := v.isLt
    simp

theorem find_l2_map (l : List L2Line) (line : Nat) (g : L2Line → L2Line) (hg : ∀ y, (g y).line = y.line) :
    (l.map fun y => if y.line = line then g y else y).find? (fun y => y.line = line) =
      (l.find? fun y => y.line = line).map g := by
  induction l with
  | nil => rfl
  | cons y l ih =>
    by_cases h : y.line = line
    · simp [h, hg]
    · simp [h, ih]

/-- A line that leaves changes the lines and the floors alone. -/
theorem dropLine_rest (s : State) (a : Nat) : { s.dropLine a with l2 := s.l2, floors := s.floors } = s := by
  unfold State.dropLine
  split
  · rfl
  · dsimp only
    split <;> rfl

/-- A fill changes the lines and the floors alone. -/
theorem fillLine_rest (s : State) (l : L2Line) (w : Bool) : { s.fillLine l w with l2 := s.l2, floors := s.floors } = s := by
  unfold State.fillLine
  dsimp only
  split
  · rfl
  · split
    · have h := dropLine_rest s ‹L2Line›.line
      generalize s.dropLine _ = u at *
      cases u; cases s
      simp only [State.mk.injEq] at *
      exact h
    · rfl

/-- An absent line that fills its slice is found there. -/
theorem fillLine_found (s : State) (l : L2Line) (w : Bool) (key : Nat) (hl : l.line = lineOf key) (hn : s.l2Line? key = none) :
    (s.fillLine l w).l2Line? key = some l := by
  have hd (a : Nat) : (s.dropLine a).l2.find? (fun y => y.line = lineOf key) = none := by
    unfold State.dropLine
    split
    · exact hn
    · have : ∀ p : L2Line → Bool, (s.l2.filter p).find? (fun y => y.line = lineOf key) = none := fun p => by
        unfold State.l2Line? at hn
        rw [List.find?_eq_none] at *
        intro y hy
        exact hn y (List.mem_filter.mp hy).1
      dsimp only
      split <;> exact this _
  have hc (m : List L2Line) (hm : m.find? (fun y => y.line = lineOf key) = none) :
      (if w then m ++ [l] else l :: m).find? (fun y => y.line = lineOf key) = some l := by
    cases w
    · simp [hl]
    · simp only [if_true]
      rw [List.find?_append, hm]
      simp [hl]
  unfold State.fillLine State.l2Line?
  refine hc _ ?_
  split
  · exact hn
  · split
    · exact hd _
    · exact hn

/-- Reaching a line whose class agrees succeeds, keeps its version on a read, and raises it on a write (R214, R235, R244). -/
theorem touch_ok (s : State) (x : Xl) (wr : Bool) (ea : Nat)
    (h : x.tier = 2 ∨ ∀ l, s.l2Line? x.key = some l → l.cmp.toNat = x.cmp) :
    ∃ t, s.touch x wr ea = .ok t ∧ t.mem = s.mem ∧ t.poison = s.poison ∧ t.c1 = s.c1 ∧ (wr = false → t.version x.key = s.version x.key) ∧ (wr = true → Bumped s t x.key (.xl x)) := by
  by_cases h2 : x.tier = 2
  · refine ⟨s, ?_, rfl, rfl, rfl, fun _ => rfl, fun _ h3 => absurd h2 h3⟩
    unfold State.touch
    rw [if_pos h2]
  · have hc := h.resolve_left h2
    unfold State.touch
    rw [if_neg h2]
    cases hl : s.l2Line? x.key with
    | some l =>
      have hcl : ¬(l.cmp.toNat ≠ x.cmp) := fun hn => hn (hc l hl)
      dsimp only
      rw [if_neg hcl]
      cases wr
      · exact ⟨s, rfl, rfl, rfl, rfl, fun _ => rfl, fun h => by cases h⟩
      · refine ⟨_, rfl, rfl, rfl, rfl, (fun h => by cases h), fun _ _ _ => ?_⟩
        have := find_l2_map s.l2 (lineOf x.key) s.dirtied fun _ => rfl
        unfold State.version State.l2Line? at *
        dsimp only
        rw [this, hl]
        exact verUp_eq _
    | none =>
      dsimp only
      by_cases hp : x.pol = 2
      · rw [if_pos hp]
        refine ⟨s, rfl, rfl, rfl, rfl, fun _ => rfl, fun _ _ h4 => ?_⟩
        rcases h4 with h4 | h4
        · exact absurd hp h4
        · rw [hl] at h4; cases h4
      · rw [if_neg hp]
        have hm (l : L2Line) (w : Bool) : (s.fillLine l w).mem = s.mem := by
          have h := congrArg State.mem (fillLine_rest s l w); exact h
        have hp (l : L2Line) (w : Bool) : (s.fillLine l w).poison = s.poison := by
          have h := congrArg State.poison (fillLine_rest s l w); exact h
        have hb (l : L2Line) (w : Bool) : (s.fillLine l w).c1 = s.c1 := by
          have h := congrArg State.c1 (fillLine_rest s l w); exact h
        refine ⟨_, rfl, hm _ _, hp _ _, hb _ _, fun hw => ?_, fun hw _ _ => ?_⟩
        · subst hw
          unfold State.version
          rw [fillLine_found s _ _ x.key rfl hl, hl]
          rfl
        · subst hw
          unfold State.version
          rw [fillLine_found s _ _ x.key rfl hl, hl]
          exact verUp_eq _

theorem hintPol_zero (p : Nat) : hintPol p 0 = 2 ↔ p = 2 := by
  unfold hintPol
  by_cases h3 : p = 3
  · simp [h3]
  · by_cases h2 : p = 2
    · simp [h2]
    · by_cases h1 : p = 1
      · simp [h1]
      · simp [h3, h2, h1]

theorem poisonedAt_congr {s t : State} (h : t.poison = s.poison) (key n : Nat) :
    t.poisonedAt key n = s.poisonedAt key n := by
  unfold State.poisonedAt
  rw [h]

theorem version_congr {s t : State} (h : t.l2 = s.l2) (g : t.floors = s.floors) (key : Nat) :
    t.version key = s.version key := by
  unfold State.version State.l2Line? State.floor
  rw [h, g]

theorem touched_actor {s t : State} (h : Touched s t) : t.actor = s.actor := by
  have := congrArg State.actor h.1
  exact this

/-- A block in the form of its page stays as it is (R276). -/
theorem inForm_eq {s : State} {x : Xl} (h : InForm s x) : s.inForm x = s := by
  unfold InForm at h
  unfold State.inForm State.asC1 State.asRaw State.c1At
  dsimp only at *
  by_cases hc : x.cmp = 1
  · rw [if_pos hc] at h ⊢
    have : (decide (2 ≤ (readByte s.c1 (x.key / 256)).toNat) && decide ((readByte s.c1 (x.key / 256)).toNat < 8)) = false := by
      rcases h with h | h <;> simp <;> omega
    rw [this]; rfl
  · rw [if_neg hc] at h ⊢
    rw [if_neg h]

theorem inForm_congr {s t : State} {x : Xl} (h : t.c1 = s.c1) (p : Nat) : InForm t { x with pol := p } ↔ InForm s x := by
  unfold InForm
  rw [h]

/-- A write to a block in the form of its page (R276): its bytes, and nothing else but its mark and poison. -/
theorem writeAt_form {s : State} {x : Xl} (h : InForm s x) (n v : Nat) :
    (s.writeAt x n v).mem = writeN s.mem x.key n v ∧ (s.writeAt x n v).l2 = s.l2 ∧ (s.writeAt x n v).floors = s.floors := by
  unfold State.writeAt
  rw [inForm_eq h]
  dsimp only
  split <;> exact ⟨rfl, rfl, rfl⟩

/-- A scalar access that can perform does: what it answers, what it writes, and what it does to its line's version. -/
theorem acc_ready {s u : State} {kd : Kind} {ea n key : Nat} {pl : Place} (rd ff : Bool) (ok : Place → Bool)
    (f : Nat → Option Nat) (h : Ready s u kd ea n key pl) (hok : ok pl = true)
    (hp : rd = true → s.poisonedAt key n = false) :
    ∃ w ver, s.acc .s 0 kd rd ff ea n ok f = .ok w (readN s.mem key n) ver ∧ Touched s w ∧ w.ctx = s.ctx ∧
      (f (readN s.mem key n) = none → w.mem = s.mem ∧ w.version key = s.version key) ∧
      (∀ z, f (readN s.mem key n) = some z → w.mem = writeN s.mem key n z ∧ Bumped s w key pl) ∧
      ∀ x, pl = .xl x → ver = w.version key := by
  unfold Ready at h
  obtain ⟨hpl, hm⟩ := h
  have hf := placeOf_fields s s.actor.core s.isM .s kd ea n
  have ht := touched_acc s .s 0 kd rd ff ea n ok f
  have hk := (accClosed_ctx s.actor.core s.actor.who s.ctx).access s s.actor.core s.isM s.actor.seq .s 0 kd rd ff ea n ok f rfl
  rw [hpl] at hf
  obtain ⟨hmem, hpo, hl2, hfl, -, -⟩ := hf
  dsimp only at hmem hpo hl2 hfl
  have hpo' : rd = true → u.poisonedAt key n = false := fun hr => by rw [poisonedAt_congr hpo]; exact hp hr
  have hnp : (rd && u.poisonedAt key n) = false := by cases rd; exacts [rfl, by simpa using hpo' rfl]
  have key2 : ∀ w v ver, s.acc .s 0 kd rd ff ea n ok f = .ok w v ver → Touched s w ∧ w.ctx = s.ctx := fun w v ver e => by
    unfold State.acc at e ht
    rw [e] at ht hk
    refine ⟨ht, ?_⟩
    have ha : w.actor = s.actor := touched_actor ht
    simp only [State.ctx, State.me, ha]
    exact hk
  cases pl with
  | fifo b => exact hm.elim
  | bank target off k =>
    obtain ⟨rfl, hsb⟩ := hm
    have hs : s.acc .s 0 kd rd ff ea n ok f = match f (readN s.mem k n) with
        | some z => .ok (u.writeKey k n z) (readN s.mem k n) 0
        | none => .ok u (readN s.mem k n) 0 := by
      unfold State.acc Machine.access
      rw [hpl]
      simp only [hok, hsb, hnp, State.readKey, hmem]
      cases f (readN s.mem k n) <;> simp
    cases hz : f (readN s.mem k n) with
    | none =>
      rw [hz] at hs
      exact ⟨u, 0, hs, (key2 _ _ _ hs).1, (key2 _ _ _ hs).2, fun _ => ⟨hmem, version_congr hl2 hfl _⟩, (fun z h => by cases h),
        fun x h => by cases h⟩
    | some z =>
      rw [hz] at hs
      exact ⟨_, 0, hs, (key2 _ _ _ hs).1, (key2 _ _ _ hs).2, (fun h => by cases h),
        (fun y h => by cases h; exact ⟨by rw [writeKey_mem, hmem], trivial⟩), fun x h => by cases h⟩
  | xl x =>
    obtain ⟨rfl, hform, hc⟩ := hm
    obtain ⟨t, h1, h2, h3, hc1, h7, h8⟩ := touch_ok u { x with pol := hintPol x.pol 0 } (f (readN s.mem x.key n)).isSome ea hc
    let v := t.updCore s.actor.core fun c => if s.isM then c else
      { c with l1 := l1After c.l1 .s { x with pol := hintPol x.pol 0 } (f (readN s.mem x.key n)).isSome }
    have hfu : u.inForm { x with pol := hintPol x.pol 0 } = u := inForm_eq ((inForm_congr rfl _).2 hform)
    have hft : InForm t { x with pol := hintPol x.pol 0 } := (inForm_congr hc1 _).2 hform
    have hfv : InForm v { x with pol := hintPol x.pol 0 } := hft
    have hnt : (rd && t.poisonedAt x.key n) = false := by rw [poisonedAt_congr h3]; exact hnp
    have hs : s.acc .s 0 kd rd ff ea n ok f = match f (readN s.mem x.key n) with
        | some z => .ok (v.writeAt { x with pol := hintPol x.pol 0 } n z) (readN s.mem x.key n) (v.version x.key)
        | none => .ok v (readN s.mem x.key n) (v.version x.key) := by
      unfold State.acc Machine.access
      rw [hpl]
      simp only [hok, State.readKey, hmem, stableUse, hfu, h1, hnt, inForm_eq hft]
      cases hz : f (readN s.mem x.key n) <;> simp [v, hz]
    have hv : ∀ key, v.version key = t.version key := fun key => version_congr rfl rfl key
    have hu : ∀ key, u.version key = s.version key := fun key => version_congr hl2 hfl key
    cases hz : f (readN s.mem x.key n) with
    | none =>
      rw [hz] at hs h7
      exact ⟨v, _, hs, (key2 _ _ _ hs).1, (key2 _ _ _ hs).2, fun _ => ⟨h2.trans hmem, by rw [hv, h7 rfl, hu]⟩,
        (fun z h => by cases h), fun y h => rfl⟩
    | some z =>
      rw [hz] at hs h8
      refine ⟨_, _, hs, (key2 _ _ _ hs).1, (key2 _ _ _ hs).2, (fun h => by cases h), fun y h => ?_,
        fun y h => (version_congr (writeAt_form hfv n z).2.1 (writeAt_form hfv n z).2.2 _).symm⟩
      cases h
      obtain ⟨w1, w2, w3⟩ := writeAt_form hfv n z
      refine ⟨w1.trans (congrArg (fun m => writeN m x.key n z) (h2.trans hmem)), fun ha hb => ?_⟩
      have := h8 rfl ha (hb.imp (fun h => by simpa [hintPol_zero] using h) fun h => by
        unfold State.l2Line? at *; rwa [hl2])
      rw [show (v.writeAt { x with pol := hintPol x.pol 0 } n z).version x.key = t.version x.key from version_congr w2 w3 _, this, hu]

end Sys2Proof.Claims
end

