-- ==== Sys2Proof/Laws/Encoding.lean ====
section
/-! SUPPORT. The forms of R62 read back what the encoder lays down: one lemma per form, and the field codes of R63. -/

namespace Sys2Proof.Laws

open Sys2Proof

/-- A field of a number split at the field's lower end. -/
theorem fld_split (lo hi k n : Nat) (h : lo < 2 ^ k) : fld (lo + hi * 2 ^ k) k n = hi % 2 ^ n := by
  unfold fld
  rw [Nat.add_mul_div_right _ _ (Nat.two_pow_pos k), Nat.div_eq_of_lt h, Nat.zero_add]

/-- A head's minor. -/
theorem fld_head_minor (maj l mn : Nat) (hn : mn < 256) : fld (encHead maj l mn) 0 8 = mn := by
  unfold fld encHead; omega

/-- A head's major. -/
theorem fld_head_major (maj l mn : Nat) (hm : maj < 64) (hn : mn < 256) : fld (encHead maj l mn) 8 6 = maj := by
  unfold fld encHead; omega

/-- A head's tail length. -/
theorem fld_head_len (maj l mn : Nat) (hl : l < 4) (hm : maj < 64) (hn : mn < 256) : fld (encHead maj l mn) 14 2 = l := by
  unfold fld encHead; omega

/-- A head and its tail reach their major's decoder. -/
theorem decodeInstr_encHead (maj l mn t : Nat) (hm : maj < 64) (hn : mn < 256) (h : majorL maj = some l) (hl : l < 4) :
    decodeInstr (encHead maj l mn) t = decodeMajor maj mn t := by
  simp [decodeInstr, fld_head_minor maj l mn hn, fld_head_major maj l mn hm hn, fld_head_len maj l mn hl hm hn, h]

/-- A register's number names the register. -/
theorem ofNat_toNat {w : Nat} (r : BitVec w) : BitVec.ofNat w r.toNat = r := by simp

/-- Form S1. -/
theorem formS1_encS1 (d a b : SReg) (f : SReg → SReg → SReg → Option Instr) :
    formS1 (encS1 d.toNat a.toNat b.toNat) f = f d a b := by
  have hd := d.isLt; have ha := a.isLt; have hb := b.isLt
  have e0 : fld (encS1 d.toNat a.toNat b.toNat) 0 5 = d.toNat := by unfold fld encS1; omega
  have e1 : fld (encS1 d.toNat a.toNat b.toNat) 5 5 = a.toNat := by unfold fld encS1; omega
  have e2 : fld (encS1 d.toNat a.toNat b.toNat) 10 5 = b.toNat := by unfold fld encS1; omega
  have e3 : fld (encS1 d.toNat a.toNat b.toNat) 15 1 = 0 := by unfold fld encS1; omega
  simp [formS1, e0, e1, e2, e3]

/-- Form S1 laid down with plain numbers. -/
theorem formS1_nat (d a b : Nat) (hd : d < 32) (ha : a < 32) (hb : b < 32) (f : SReg → SReg → SReg → Option Instr) :
    formS1 (encS1 d a b) f = f (.ofNat 5 d) (.ofNat 5 a) (.ofNat 5 b) := by
  have h := formS1_encS1 (.ofNat 5 d) (.ofNat 5 a) (.ofNat 5 b) f
  simpa [Nat.mod_eq_of_lt hd, Nat.mod_eq_of_lt ha, Nat.mod_eq_of_lt hb] using h

/-- Form V2. -/
theorem formV2_encV2 (vd va vb m z aux : Nat) (hd : vd < 64) (ha : va < 64) (hb : vb < 64) (hm : m < 8) (hz : z < 2)
    (hx : aux < 1024) (hp : m ≠ 0 ∨ z = 0) (f : VReg → VReg → Nat → Pred → Nat → Option Instr) :
    formV2 (encV2 vd va vb m z aux) f = f (.ofNat 6 vd) (.ofNat 6 va) vb ⟨.ofNat 3 m, z = 1⟩ aux := by
  have e0 : fld (encV2 vd va vb m z aux) 0 6 = vd := by unfold fld encV2; omega
  have e1 : fld (encV2 vd va vb m z aux) 6 6 = va := by unfold fld encV2; omega
  have e2 : fld (encV2 vd va vb m z aux) 12 6 = vb := by unfold fld encV2; omega
  have e3 : fld (encV2 vd va vb m z aux) 18 3 = m := by unfold fld encV2; omega
  have e4 : fld (encV2 vd va vb m z aux) 21 1 = z := by unfold fld encV2; omega
  have e5 : fld (encV2 vd va vb m z aux) 22 10 = aux := by unfold fld encV2; omega
  have hn : ¬ (m = 0 ∧ z = 1) := by omega
  simp [formV2, e0, e1, e2, e3, e4, e5, hn]

/-- The low word of form V3 is form V2. -/
theorem fld_encV3_low (vd va vb m z aux vc sc x : Nat) (hd : vd < 64) (ha : va < 64) (hb : vb < 64) (hm : m < 8) (hz : z < 2)
    (hx : aux < 1024) : fld (encV3 vd va vb m z aux vc sc x) 0 32 = encV2 vd va vb m z aux := by
  unfold fld encV3 encV2; omega

/-- Field vc of form V3. -/
theorem fld_encV3_vc (vd va vb m z aux vc sc x : Nat) (hd : vd < 64) (ha : va < 64) (hb : vb < 64) (hm : m < 8) (hz : z < 2)
    (hx : aux < 1024) (hc : vc < 64) : fld (encV3 vd va vb m z aux vc sc x) 32 6 = vc := by
  unfold fld encV3 encV2; omega

/-- Field sc of form V3. -/
theorem fld_encV3_sc (vd va vb m z aux vc sc x : Nat) (hd : vd < 64) (ha : va < 64) (hb : vb < 64) (hm : m < 8) (hz : z < 2)
    (hx : aux < 1024) (hc : vc < 64) (hs : sc < 32) : fld (encV3 vd va vb m z aux vc sc x) 38 5 = sc := by
  unfold fld encV3 encV2; omega

/-- Field aux5 of form V3. -/
theorem fld_encV3_aux (vd va vb m z aux vc sc x : Nat) (hd : vd < 64) (ha : va < 64) (hb : vb < 64) (hm : m < 8) (hz : z < 2)
    (hx : aux < 1024) (hc : vc < 64) (hs : sc < 32) (h5 : x < 32) : fld (encV3 vd va vb m z aux vc sc x) 43 5 = x := by
  unfold fld encV3 encV2; omega

/-- Fields vc and sc of form V3 together. -/
theorem fld_encV3_vcsc (vd va vb m z aux vc sc x : Nat) (hd : vd < 64) (ha : va < 64) (hb : vb < 64) (hm : m < 8) (hz : z < 2)
    (hx : aux < 1024) (hc : vc < 64) (hs : sc < 32) : fld (encV3 vd va vb m z aux vc sc x) 32 11 = vc + sc * 64 := by
  unfold fld encV3 encV2; omega

/-- Form M3. -/
theorem formM3_encM3 (v sa sb vi m z aux k : Nat) (hv : v < 64) (ha : sa < 32) (hb : sb < 32) (hi : vi < 64) (hm : m < 8)
    (hz : z < 2) (hx : aux < 64) (hk : k < 65536) (hp : m ≠ 0 ∨ z = 0)
    (f : VReg → SReg → SReg → Nat → Pred → Nat → BitVec 16 → Option Instr) :
    formM3 (encM3 v sa sb vi m z aux k) f
      = f (.ofNat 6 v) (.ofNat 5 sa) (.ofNat 5 sb) vi ⟨.ofNat 3 m, z = 1⟩ aux (.ofNat 16 k) := by
  have e0 : fld (encM3 v sa sb vi m z aux k) 0 6 = v := by unfold fld encM3; omega
  have e1 : fld (encM3 v sa sb vi m z aux k) 6 5 = sa := by unfold fld encM3; omega
  have e2 : fld (encM3 v sa sb vi m z aux k) 11 5 = sb := by unfold fld encM3; omega
  have e3 : fld (encM3 v sa sb vi m z aux k) 16 6 = vi := by unfold fld encM3; omega
  have e4 : fld (encM3 v sa sb vi m z aux k) 22 3 = m := by unfold fld encM3; omega
  have e5 : fld (encM3 v sa sb vi m z aux k) 25 1 = z := by unfold fld encM3; omega
  have e6 : fld (encM3 v sa sb vi m z aux k) 26 6 = aux := by unfold fld encM3; omega
  have e7 : fld (encM3 v sa sb vi m z aux k) 32 16 = k := by unfold fld encM3; omega
  have hn : ¬ (m = 0 ∧ z = 1) := by omega
  simp [formM3, e0, e1, e2, e3, e4, e5, e6, e7, hn]

/-- Form S2's fields. -/
theorem fld_encS2 (d a k : Nat) (hd : d < 32) (ha : a < 32) (hk : k < 2 ^ 22) :
    fld (encS2 d a k) 0 5 = d ∧ fld (encS2 d a k) 5 5 = a ∧ fld (encS2 d a k) 10 22 = k := by
  unfold fld encS2; omega

/-- Form S3's fields. -/
theorem fld_encS3 (d k : Nat) (hd : d < 32) (hk : k < 2 ^ 32) :
    fld (encS3 d k) 0 5 = d ∧ fld (encS3 d k) 5 11 = 0 ∧ fld (encS3 d k) 16 32 = k := by
  unfold fld encS3; omega

/-- Form B2's fields. -/
theorem fld_encB2 (a b s o : Nat) (ha : a < 32) (hb : b < 32) (hs : s < 32) (ho : o < 2 ^ 17) :
    fld (encB2 a b s o) 0 5 = a ∧ fld (encB2 a b s o) 5 5 = b ∧ fld (encB2 a b s o) 10 5 = s ∧ fld (encB2 a b s o) 15 17 = o := by
  unfold fld encB2; omega

/-- Form J2's fields. -/
theorem fld_encJ2 (d s o : Nat) (hd : d < 32) (hs : s < 32) (ho : o < 2 ^ 22) :
    fld (encJ2 d s o) 0 5 = d ∧ fld (encJ2 d s o) 5 5 = s ∧ fld (encJ2 d s o) 10 22 = o := by
  unfold fld encJ2; omega

/-- A b operand's field and kind read back (R63). -/
theorem formB_bit (b : BOp) (n : Nat) (hn : n < 128) (f : BOp → Option Instr) : formB (b.bit * 128 + n) b.fld f = f b := by
  cases b with
  | v r => simp [formB, BOp.bit, BOp.fld, hn]
  | s r => have := r.isLt; simp [formB, BOp.bit, BOp.fld]; intro h; omega

/-- A b operand's field is one of 64. -/
theorem bop_fld_lt (b : BOp) : b.fld < 64 := by
  cases b with
  | v r => exact r.isLt
  | s r => exact Nat.lt_trans r.isLt (by decide)

/-- A b operand's bit. -/
theorem bop_bit_lt (b : BOp) : b.bit < 2 := by cases b <;> simp [BOp.bit]

/-- A predicate read back. -/
theorem pred_back (p : Pred) : (⟨.ofNat 3 p.m.toNat, p.z.toNat = 1⟩ : Pred) = p := by
  obtain ⟨m, z⟩ := p; cases z <;> simp

/-- Form V2 of registers and a predicate. -/
theorem formV2_pred (vd va : VReg) (vb : Nat) (p : Pred) (aux : Nat) (hb : vb < 64) (hx : aux < 1024) (hp : p.wf = true)
    (f : VReg → VReg → Nat → Pred → Nat → Option Instr) :
    formV2 (encV2 vd.toNat va.toNat vb p.m.toNat p.z.toNat aux) f = f vd va vb p aux := by
  have hq : p.m.toNat ≠ 0 ∨ p.z.toNat = 0 := by
    obtain ⟨m, z⟩ := p
    cases z
    · exact .inr rfl
    · refine .inl fun h => ?_
      have : m = 0 := BitVec.eq_of_toNat_eq (by simpa using h)
      simp [Pred.wf, this] at hp
  have hz : p.z.toNat < 2 := by cases p.z <;> decide
  rw [formV2_encV2 _ _ _ _ _ _ vd.isLt va.isLt hb p.m.isLt hz hx hq, pred_back]
  simp

/-- Form M3 of registers and a predicate. -/
theorem formM3_pred (v : VReg) (sa sb : SReg) (vi : Nat) (p : Pred) (aux : Nat) (k : BitVec 16) (hi : vi < 64) (hx : aux < 64)
    (hp : p.wf = true) (f : VReg → SReg → SReg → Nat → Pred → Nat → BitVec 16 → Option Instr) :
    formM3 (encM3 v.toNat sa.toNat sb.toNat vi p.m.toNat p.z.toNat aux k.toNat) f = f v sa sb vi p aux k := by
  have hq : p.m.toNat ≠ 0 ∨ p.z.toNat = 0 := by
    obtain ⟨m, z⟩ := p
    cases z
    · exact .inr rfl
    · refine .inl fun h => ?_
      have : m = 0 := BitVec.eq_of_toNat_eq (by simpa using h)
      simp [Pred.wf, this] at hp
  have hz : p.z.toNat < 2 := by cases p.z <;> decide
  rw [formM3_encM3 _ _ _ _ _ _ _ _ v.isLt sa.isLt sb.isLt hi p.m.isLt hz hx k.isLt hq, pred_back]
  simp

/-- No predicate. -/
theorem noPred_wf : (⟨0, false⟩ : Pred).wf = true := rfl

/-- The format code read back. -/
theorem ffmt_back (f : FFmt) : FFmt.ofCode f.code = f := by cases f <;> rfl

/-- Codes of the operand kinds stay in their fields. -/
theorem ffmt_code_lt (f : FFmt) : f.code < 4 := by cases f <;> decide

end Sys2Proof.Laws
end

