-- ==== Sys2Proof/Laws/Engine.lean ====
section
/-! SUPPORT. A copy engine's moves change what accesses may change, and nothing else (R266 to R281). -/

namespace Sys2Proof.Claims

open Sys2Proof Sys2Proof.Machine

/-- What a move's result satisfies, if it performed. -/
def Mv.All {α : Type} (Q : α → Prop) : Mv α → Prop
  | .ok a => Q a
  | _ => True

theorem Mv.All.bind {α β : Type} {Q : α → Prop} {R : β → Prop} {m : Mv α} {g : α → Mv β} (h : Mv.All Q m)
    (hg : ∀ a, Q a → Mv.All R (g a)) : Mv.All R (m.bind g) := by
  cases m
  · exact hg _ h
  all_goals trivial

variable {P : State → Prop}

theorem AccClosed.mv (h : AccClosed P) (s : State) (k : Fin 96) (m q : Bool) (t : TlbSel) (hint : Nat) (kd : Kind)
    (rd ff : Bool) (va n : Nat) (ok : Place → Bool) (f : Nat → Option Nat) (hs : P s) :
    Mv.All (fun r => P r.1) (Machine.access s k m q t hint kd rd ff va n ok f).mv := by
  have := h.access s k m q t hint kd rd ff va n ok f hs
  revert this
  cases Machine.access s k m q t hint kd rd ff va n ok f with
  | ok u v w => exact id
  | fault f u => intro _; unfold Acc.mv; dsimp only; split <;> trivial
  | wait u => intro _; trivial

theorem AccClosed.engRead (h : AccClosed P) (k : Fin 96) (hint op : Nat) (fifo : Bool) (n va : Nat) (s : State) (hs : P s) :
    Mv.All (fun r => P r.1) (Machine.engRead k hint op fifo n va s) := by
  induction n generalizing va s with
  | zero => exact hs
  | succ n ih => exact (h.mv _ _ _ _ _ _ _ _ _ _ _ _ _ hs).bind fun r hr => (ih _ _ hr).bind fun q hq => hq

theorem AccClosed.engWrite (h : AccClosed P) (k : Fin 96) (hint op : Nat) (fifo : Bool) (n va v : Nat) (s : State)
    (hs : P s) : Mv.All P (Machine.engWrite k hint op fifo n va v s) := by
  induction n generalizing va v s with
  | zero => exact hs
  | succ n ih => exact (h.mv _ _ _ _ _ _ _ _ _ _ _ _ _ hs).bind fun r hr => ih _ _ _ hr

theorem AccClosed.mcWrite (h : AccClosed P) (target n a v : Nat) (s : State) (hs : P s) :
    Mv.All P (Machine.mcWrite target n a v s) := by
  induction n generalizing a v s with
  | zero => exact hs
  | succ n ih =>
    unfold Machine.mcWrite
    split
    · exact ih _ _ _ (h.write _ _ _ _ hs)
    · trivial

theorem AccClosed.engContribute (h : AccClosed P) (k : Fin 96) (baddr c : Nat) (s : State) (hs : P s) :
    Mv.All P (Machine.engContribute k baddr c s) := by
  unfold Machine.engContribute
  split
  · exact hs
  · exact (h.mv _ _ _ _ _ _ _ _ _ _ _ _ _ hs).bind fun r hr => by split <;> trivial

theorem AccClosed.unitValue (h : AccClosed P) (k : Fin 96) (c : Cmd) (u : Nat) (s : State) (hs : P s) :
    Mv.All (fun r => P r.1) (Machine.unitValue k c u s) := by
  unfold Machine.unitValue
  split
  · exact (h.engRead _ _ _ _ _ _ _ hs).bind fun r hr => hr
  · exact (h.engRead _ _ _ _ _ _ _ hs).bind fun r hr => (h.engRead _ _ _ _ _ _ _ hr).bind fun q hq => hq
  · exact (h.engRead _ _ _ _ _ _ _ hs).bind fun r hr => (h.engRead _ _ _ _ _ _ _ hr).bind fun q hq =>
      (h.engRead _ _ _ _ _ _ _ hq).bind fun t ht => ht
  · split <;> exact h.engRead _ _ _ _ _ _ _ hs

theorem AccClosed.unitDeliver (h : AccClosed P) (k : Fin 96) (c : Cmd) (u v : Nat) (s : State) (hs : P s) :
    Mv.All P (Machine.unitDeliver k c u v s) := by
  unfold Machine.unitDeliver
  dsimp only
  split
  · exact (h.engWrite _ _ _ _ _ _ _ _ hs).bind fun r hr => h.engContribute _ _ _ _ hr
  · generalize mcTargets s k c = l
    suffices ∀ m : Mv State, Mv.All P m → Mv.All P (l.foldl _ m) from this _ hs
    induction l with
    | nil => exact fun _ hm => hm
    | cons t l ih =>
      intro m hm
      exact ih _ (hm.bind fun r hr => (h.mcWrite _ _ _ _ _ hr).bind fun r hr => h.engContribute _ _ _ _ hr)

theorem AccClosed.moveUnit (h : AccClosed P) (k : Fin 96) (c : Cmd) (u : Nat) (ah : List Nat) (s : State) (hs : P s) :
    Mv.All (fun r => P r.1) (Machine.moveUnit k c u ah s) := by
  unfold Machine.moveUnit
  refine Mv.All.bind (Q := fun r => P r.1) ?_ fun r hr => Mv.All.bind (h.unitDeliver _ _ _ _ _ hr) fun t ht => (ht : P t)
  unfold takeUnit
  split
  · exact hs
  · exact h.unitValue _ _ _ _ hs

theorem AccClosed.moveUnits (h : AccClosed P) (k : Fin 96) (c : Cmd) (last n u : Nat) (ah : List Nat) (l : List (Nat × Byte))
    (s : State) (hs : P s) : P (Machine.moveUnits k c last n u ah l s).2.2.2.1 := by
  induction n generalizing u ah l s with
  | zero => exact hs
  | succ n ih =>
    unfold Machine.moveUnits
    split
    · exact hs
    · have := h.moveUnit k c u ah s hs
      revert this
      cases Machine.moveUnit k c u ah s with
      | ok t => exact fun ht => ih _ _ _ _ ht
      | err _ => exact fun _ => hs
      | flt _ => exact fun _ => hs
      | wait => exact fun _ => hs

theorem AccClosed.readAhead (h : AccClosed P) (k : Fin 96) (c : Cmd) (last n u : Nat) (s : State) (hs : P s) :
    P (Machine.readAhead k c last n u s).2 := by
  induction n generalizing u s with
  | zero => exact hs
  | succ n ih =>
    unfold Machine.readAhead
    split
    · exact hs
    · have := h.unitValue k c u s hs
      revert this
      cases Machine.unitValue k c u s with
      | ok r => exact fun hr => ih _ _ hr
      | err _ => exact fun _ => hs
      | flt _ => exact fun _ => hs
      | wait => exact fun _ => hs

theorem AccClosed.abandonUnits (h : AccClosed P) (k : Fin 96) (c : Cmd) (n u : Nat) (ah : List Nat) (s : State) (hs : P s) :
    P (Machine.abandonUnits k c n u ah s) := by
  induction n generalizing u ah s with
  | zero => exact hs
  | succ n ih =>
    have ht := h.tick s (s.ticket + 1) hs
    unfold Machine.abandonUnits
    refine ih _ _ _ ?_
    split
    · have := h.moveUnit k { c with baddr := 0 } u ah (s.free Config.abandonedByteNew).2 ht
      revert this
      cases Machine.moveUnit k { c with baddr := 0 } u ah (s.free Config.abandonedByteNew).2 with
      | ok t => exact id
      | err _ => exact fun _ => ht
      | flt _ => exact fun _ => ht
      | wait => exact fun _ => ht
    · exact ht

theorem AccClosed.abandonEntry (h : AccClosed P) (k : Fin 96) (s : State) (e : EngEntry) (hs : P s) :
    P (Machine.abandonEntry k s e) := by
  unfold Machine.abandonEntry
  split
  · exact hs
  · dsimp only
    split
    · exact hs
    · exact h.abandonUnits _ _ _ _ _ _ hs

theorem AccClosed.abandonEntries (h : AccClosed P) (k : Fin 96) (l : List EngEntry) (s : State) (hs : P s) :
    P (l.foldl (Machine.abandonEntry k) s) := by
  induction l generalizing s with
  | nil => exact hs
  | cons e l ih => exact ih _ (h.abandonEntry _ _ _ hs)

/-- The engine contexts of a core are not what accesses change. -/
theorem accClosed_eng (k : Fin 96) (g : Vector EngCtx 4) : AccClosed fun s => (s.core k).eng = g where
  write _ _ _ _ h := h
  form _ _ _ _ _ _ h := h
  byte _ _ _ h := h
  pois _ _ h := h
  l2 _ _ h := h
  floor _ _ h := h
  tick _ _ h := h
  core s j d h hd := by
    by_cases hj : k = j
    · subst hj
      rw [setCore_core, ← h, ← hd]
    · rw [setCore_core_ne _ _ _ _ hj, h]

theorem updEng_eng (s : State) (k : Fin 96) (i : Fin 4) (f : EngCtx → EngCtx) :
    ((s.updEng k i f).core k).eng = (s.core k).eng.set i (f (s.core k).eng[i]) := by
  simp [State.updEng]

/-- Abandonment leaves the entries numbered below, and every other context's. -/
theorem abandonFrom_entries (s : State) (k : Fin 96) (i j : Fin 4) (no : Nat) (code : BitVec 8) :
    ((abandonFrom s k i no code).core k).eng[j].entries =
      if j = i then (s.core k).eng[i].entries.filter (fun e => !decide (no ≤ e.no)) else (s.core k).eng[j].entries := by
  have h := (accClosed_eng k (s.core k).eng).abandonEntries k
    ((s.core k).eng[i].entries.filter fun e => no ≤ e.no) s rfl
  unfold abandonFrom
  dsimp only
  have key : ∀ (t : State) (c : Bool), (((if c then t.updCore k fun c => { c with efault := 0, efaultNo := none } else t)).core k).eng
      = (t.core k).eng := fun t c => by cases c <;> simp
  rw [key, updEng_eng, h]
  by_cases hj : j = i
  · subst hj
    simp only [if_true, Fin.getElem_fin, Vector.getElem_set_self, EngCtx.advance]
  · have : i.val ≠ j.val := fun e => hj (Fin.ext e.symm)
    simp [hj, this]

/-- After an abort of every context no entry is outstanding. -/
theorem abortAll_entries (s : State) (k : Fin 96) (j : Fin 4) : ((abortAll s k).core k).eng[j].entries = [] := by
  unfold abortAll
  simp only [List.foldl_cons, List.foldl_nil, abandonFrom_entries]
  have : ∀ l : List EngEntry, l.filter (fun e => !decide (0 ≤ e.no)) = [] := fun l => by simp
  match j with
  | 0 => simp
  | 1 => simp
  | 2 => simp
  | 3 => simp

end Sys2Proof.Claims
end

