-- ==== Sys2Proof/Laws/Scalar.lean ====
section
/-! SUPPORT. What the shared ends of scalar instructions do: a result written and retired, a retirement, a jump. -/

namespace Sys2Proof.Claims

open Sys2Proof Sys2Proof.Machine

theorem sameMem_refl (s : State) : SameMem s s := fun _ => rfl

theorem sameMem_updCtx (s : State) (f : Ctx → Ctx) : SameMem s (s.updCtx f) := fun _ => rfl

/-- A change of the acting context is a change of nothing else. -/
theorem onlyCtx_updCtx (s : State) (f : Ctx → Ctx) : OnlyCtx s (s.updCtx f) := by
  refine ⟨?_, sameMem_updCtx s f⟩
  rw [updCtx_updCtx]
  exact updCtx_id _ _ rfl

theorem onlyPc_advance (s : State) : OnlyPc s s.retire := by
  refine ⟨onlyCtx_updCtx s _, ?_⟩
  simp only [State.retire, updCtx_ctx]
  rfl

theorem onlyPc_goto (s : State) (x : Dword) : OnlyPc s (s.goto x) := by
  refine ⟨onlyCtx_updCtx s _, ?_⟩
  simp only [State.goto, updCtx_ctx]

@[simp] theorem retire_pc (s : State) : s.retire.ctx.pc = s.ctx.succPc := by simp [State.retire]

@[simp] theorem goto_pc (s : State) (x : Dword) : (s.goto x).ctx.pc = x := by simp [State.goto]

theorem succPc_setReg (c : Ctx) (r : SReg) (x : Dword) : (c.setReg r x).succPc = c.succPc := by
  unfold Ctx.setReg
  split <;> rfl

/-- A written register reads back, and every other as before (R80). -/
theorem wrote_setReg (s : State) (d : SReg) (x : Dword) (f : Ctx → Ctx) (hr : ∀ c, (f c).regs = c.regs)
    (hp : ∀ c, (f c).pregs = c.pregs) : Wrote s (s.updCtx fun c => f (c.setReg d x)) d x := by
  intro r
  constructor
  · have : ∀ c : Ctx, (f c).reg r = c.reg r := fun c => by simp only [Ctx.reg, hr]
    simp only [State.rd, updCtx_ctx, this, setReg_reg]
  · simp only [updCtx_ctx, hp]
    unfold Ctx.setReg
    by_cases hd : d = 0
    · simp [hd]
    · rw [if_neg hd]
      have h1 : (r.toNat < 32) := r.isLt
      have h2 : (d.toNat < 32) := d.isLt
      simp only [BitVec.getLsbD_and, BitVec.getLsbD_not, BitVec.getLsbD_shiftLeft, BitVec.getLsbD_one]
      by_cases hrd : r = d
      · subst hrd; simp [show r ≠ 0#5 from hd]
      · have : r.toNat ≠ d.toNat := fun e => hrd (BitVec.eq_of_toNat_eq e)
        simp [hrd, h1]
        by_cases h3 : r.toNat < d.toNat
        · simp [h3]
        · have : r.toNat - d.toNat ≠ 0 := by omega
          simp [this]

theorem wrote_ret (s : State) (d : SReg) (x : Dword) : Wrote s (s.ret d x) d x := by
  have := wrote_setReg s d x Ctx.advance (fun _ => rfl) (fun _ => rfl)
  simpa only [State.ret, State.wr, State.retire, updCtx_updCtx] using this

theorem wrote_goto (s : State) (d : SReg) (x y : Dword) : Wrote s ((s.wr d x).goto y) d x := by
  have := wrote_setReg s d x (fun c => { c with pc := y, line := none }) (fun _ => rfl) (fun _ => rfl)
  simpa only [State.wr, State.goto, updCtx_updCtx] using this

theorem onlyScalar_ret (s : State) (d : SReg) (x : Dword) : OnlyScalar s (s.ret d x) := by
  simp only [State.ret, State.wr, State.retire, updCtx_updCtx]
  refine ⟨onlyCtx_updCtx s _, ?_⟩
  simp only [updCtx_ctx, Ctx.advance]
  unfold Ctx.setReg
  split <;> rfl

theorem onlyScalar_goto (s : State) (d : SReg) (x y : Dword) : OnlyScalar s ((s.wr d x).goto y) := by
  simp only [State.wr, State.goto, updCtx_updCtx]
  refine ⟨onlyCtx_updCtx s _, ?_⟩
  simp only [updCtx_ctx]
  unfold Ctx.setReg
  split <;> rfl

@[simp] theorem ret_pc (s : State) (d : SReg) (x : Dword) : (s.ret d x).ctx.pc = s.ctx.succPc := by
  simp [State.ret, State.wr, State.retire, succPc_setReg]

/-- An instruction that ends by writing a result gives it. -/
theorem gives_of_ret {i : Instr} {s : State} {d : SReg} {x : Dword} (h : exec i s = .next (s.ret d x)) : Gives i s d x :=
  ⟨_, h, wrote_ret s d x, ret_pc s d x, onlyScalar_ret s d x⟩

/-- An instruction that ends by retiring from `u`, standing at the same PC, has the effect `u` shows. -/
theorem runs_of_retire {i : Instr} {s u : State} (h : exec i s = .next u.retire) (hp : u.ctx.succPc = s.ctx.succPc) :
    Runs i s u :=
  ⟨_, h, by rw [retire_pc, hp], onlyPc_advance u⟩

/-! Floating point. -/

/-- The enabled flags of the model are the ones FMODE names (R103). -/
theorem enabledFlags_ne_zero (s : State) (fl : Nat) : enabledFlags s.ctx.fmode fl ≠ 0 ↔ Enabled s fl := by
  unfold enabledFlags Enabled BitVec.getLsbD
  generalize s.ctx.fmode.toNat = m
  have hb : ∀ j, (fl % 64 &&& fld m 8 6).testBit j = (decide (j < 6) && fl.testBit j && m.testBit (8 + j)) := fun j => by
    rw [Nat.testBit_and, show (64 : Nat) = 2 ^ 6 from rfl, Nat.testBit_mod_two_pow, fld, Nat.testBit_mod_two_pow,
      Nat.testBit_div_two_pow]
    cases decide (j < 6) <;> simp [Nat.add_comm j 8]
  constructor
  · intro h
    obtain ⟨j, hj⟩ := Nat.exists_testBit_of_ne_zero h
    rw [hb] at hj
    simp at hj
    exact ⟨j, hj.1.1, hj.1.2, hj.2⟩
  · rintro ⟨j, h1, h2, h3⟩ h
    have := hb j
    rw [h] at this
    simp [h1, h2, h3] at this

theorem raised_orFlags (s : State) (fl : Nat) : Raised s (s.orFlags fl) fl := by
  refine ⟨by simp [State.orFlags], onlyCtx_updCtx s _, ?_⟩
  simp only [State.orFlags, updCtx_ctx, Ctx.orFlags]

/-- An instruction that ends by the common end of scalar floating point does what R90 says. -/
theorem fgives_of_fpRet {i : Instr} {s : State} {d : SReg} {v fl : Nat} (h : exec i s = .next (s.fpRet d v fl)) :
    FGives i s d v fl := by
  have he : enabledFlags (s.orFlags fl).ctx.fmode fl ≠ 0 ↔ Enabled s fl := by
    rw [← enabledFlags_ne_zero]; simp [State.orFlags]
  refine ⟨fun hE => ⟨s.orFlags fl, ?_, raised_orFlags s fl⟩, fun hE => ⟨(s.orFlags fl).ret d (.ofNat 64 v), ?_, ?_, ?_, ?_, ?_⟩⟩
  · rw [h, State.fpRet, if_pos (he.2 hE)]
  · rw [h, State.fpRet, if_neg fun hc => hE (he.1 hc)]
  · intro r
    have := wrote_ret (s.orFlags fl) d (.ofNat 64 v) r
    simpa [State.rd, State.orFlags, Ctx.reg] using this
  · rw [ret_pc]; simp [State.orFlags]; rfl
  · simp [State.orFlags, State.ret, State.wr, State.retire]
  · simp only [State.orFlags, State.ret, State.wr, State.retire, updCtx_updCtx]
    refine ⟨onlyCtx_updCtx s _, ?_⟩
    simp only [updCtx_ctx, Ctx.advance]
    unfold Ctx.setReg
    split <;> rfl

end Sys2Proof.Claims
end

