-- ==== Sys2Proof/Laws/Trap.lean ====
section
/-! SUPPORT. What taking a trap does (R219 to R223): a delivery to TRAPVEC, a trap held for Mordant. -/

namespace Sys2Proof.Claims

open Sys2Proof Sys2Proof.Machine

theorem onlyMe_updMe (s : State) (f : Core → Core) : OnlyMe s (s.updMe f) := by
  refine ⟨?_, fun _ => rfl⟩
  rw [updMe_updMe]
  exact updMe_id _ _ rfl

/-- A delivery leaves what R223 says. -/
theorem delivered_deliver (s : State) (st : Strand) (cause : BitVec 8) (addr tpc : Dword) (hs : s.strand? = some st) :
    Delivered s (s.updMe fun c => c.deliver cause.toNat addr tpc) st cause addr tpc := by
  have hm : s.me.strand = some st := hs
  have hc : (.ofNat 64 (cause.toNat % 256) : Dword) = cause.zeroExtend 64 := by
    apply BitVec.eq_of_toNat_eq
    have := cause.isLt
    simp
    omega
  refine ⟨onlyMe_updMe s _, ?_, ?_, ?_, fun k => ?_⟩
  · simp only [State.strand?, updMe_me, Core.deliver, hm, hc, Core.frameOf]
  · simp only [updMe_me, Core.deliver, hm, Ctx.refetch, Ctx.forget, imagesWithout, List.filter_filter]
    congr 2
    funext x
    rw [Bool.eq_iff_iff]
    simp only [Bool.and_eq_true, decide_eq_true_eq, List.all_cons, List.all_nil, and_true]
    exact and_comm
  · simp only [updMe_me, Core.deliver, hm]
    rw [← hm]
  · simp only [updMe_me, Core.deliver, hm, Fin.getElem_fin, Vector.getElem_map]
    congr 1
    apply List.map_congr_left
    intro e _
    by_cases h : 0 < e.w
    · simp [h]
    · simp [h]

/-- A trap held for Mordant leaves what R221 says. -/
theorem held_hold (s : State) (st : Strand) (cause : BitVec 8) (addr tpc : Dword) (vec : Bool) (self : Option Dword)
    (hs : s.strand? = some st) (hd : st.run ≠ .draining) :
    Held s (s.updMe fun c => c.hold cause.toNat addr tpc vec self) st cause addr tpc vec self := by
  have hm : s.me.strand = some st := hs
  have he : s.me.endDrain = s.me := by simp only [Core.endDrain, hm, if_neg hd]
  refine ⟨onlyMe_updMe s _, ?_, ?_, ?_, ?_, ?_, ?_⟩
  · simp only [State.strand?, updMe_me, Core.hold, he, hm]
  · simp only [updMe_me, Core.hold, he, hm, fcauseWord, BitVec.toNat_ofNat]
    have h1 := cause.isLt
    have h2 : s.me.user.vstart.toNat % 65536 < 65536 := Nat.mod_lt _ (by omega)
    cases st.hs <;> cases vec <;> simp <;> omega
  · simp only [updMe_me, Core.hold, he, hm]
  · simp only [updMe_me, Core.hold, he, hm]
  · simp only [updMe_me, Core.hold, he, hm, Ctx.refetch, Ctx.forget, imagesWithout, lineAddr]
    congr 2
    funext x
    simp
  · simp only [updMe_me, Core.hold, he, hm]
    rw [← hm]

theorem heldCause_iff (cause : BitVec 8) (hs : Bool) :
    heldCause cause.toNat hs = true ↔ cause.toNat ∈ [0x06, 0x07, 0x08, 0x09] ∨ hs = true := by
  simp [heldCause]
  tauto

/-- Taking a trap, for a strand of the user context (R221). -/
theorem takeTrap_user (s : State) (st : Strand) (cause : BitVec 8) (addr : Dword) (vec : Bool) (self : Option Dword)
    (hu : s.actor.who = .user) (hs : s.strand? = some st) (hd : st.run ≠ .draining) :
    let tpc := if vec then (s.ctx.queue.head?.map (·.pc)).getD s.ctx.pc else s.ctx.pc
    let t := takeTrap s cause.toNat addr vec self
    (heldCause cause.toNat st.hs = true → Held s t st cause addr tpc vec self) ∧
    (heldCause cause.toNat st.hs = false → st.trapvec ≠ 0 → Delivered s t st cause addr tpc) ∧
    (heldCause cause.toNat st.hs = false → st.trapvec = 0 → t = cancelLaunch s st.part st.launch) := by
  have hm : (s.core s.actor.core).strand = some st := hs
  have hc : s.ctx = (s.core s.actor.core).user := by simp [State.ctx, hu, Core.ctx, State.me]
  intro tpc t
  have ht : t = if heldCause cause.toNat st.hs then s.updMe fun c => c.hold cause.toNat addr tpc vec self
      else deliverTrap s s.actor.core cause.toNat addr tpc := by
    simp only [t, takeTrap, hu, hm, tpc, hc]
    rfl
  refine ⟨fun h => ?_, fun h h0 => ?_, fun h h0 => ?_⟩
  · rw [ht, if_pos h]; exact held_hold s st cause addr tpc vec self hs hd
  · rw [ht, h, if_neg (by simp), deliverTrap, hm]
    simp only [if_neg h0]
    exact delivered_deliver s st cause addr tpc hs
  · rw [ht, h, if_neg (by simp), deliverTrap, hm]
    simp only [if_pos h0]

end Sys2Proof.Claims
end

