-- ==== Sys2Proof/Tests/Slice0.lean ====
section
/-! SUPPORT. The model's own tests: ill-formed terms that are refused, words written out from the spec's encodings, single
steps with results computed by hand from the spec, and states that meet the hypotheses of the statements. -/

set_option Elab.async false

namespace Sys2Proof.Tests

open Sys2Proof Sys2Proof.Machine Sys2Proof.Claims

/-! Ill-formed terms. -/

theorem test_wf_zeroing_without_mask : (Instr.vadd 2 0 (.s 5) ⟨0, true⟩).wf = false := by decide
theorem test_wf_no_predicate : (Instr.vadd 2 0 (.s 5) ⟨0, false⟩).wf = true := by decide
theorem test_wf_sysr_gap : (Instr.sysr 3 0x19).wf = false ∧ (Instr.sysr 3 0x7F).wf = false ∧ (Instr.sysr 3 0x18).wf = true := by decide
theorem test_wf_sysw_gap : (Instr.sysw 0x19 3).wf = false ∧ (Instr.sysw 0x80 3).wf = true := by decide
theorem test_wf_ldv_odd : (Instr.ldv 3 4 0).wf = false := by decide
theorem test_wf_rounding : (Instr.vfadd .f32 2 3 (.v 4) 6 ⟨0, false⟩).wf = false := by decide
theorem test_wf_reduction_rounding : (Instr.vfredsumO .f32 2 3 4 6 0).wf = false := by decide
theorem test_wf_vcvt_code : (Instr.vcvt 14 10 2 3 0 false ⟨0, false⟩).wf = false := by decide
theorem test_wf_vcvt_integer_rounding : (Instr.vcvt 0 1 2 3 1 false ⟨0, false⟩).wf = false := by decide
theorem test_wf_vcvt_to_integer_ns : (Instr.vcvt 10 2 2 3 0 true ⟨0, false⟩).wf = false := by decide
theorem test_wf_vq4_rounding : (Instr.vq4 0 .f32 false 2 3 4 0 2).wf = false := by decide
theorem test_wf_vq4_scale : (Instr.vq4 0 .f32 false 2 3 4 5 1).wf = false := by decide
theorem test_wf_vqt8_rounding : (Instr.vqt8 .f32 2 3 4 0).wf = false := by decide
theorem test_wf_vrred_source : (Instr.vrred .iadd .bf16 2 4 0 0 ⟨0, false⟩).wf = false := by decide
theorem test_wf_vrred_scale : (Instr.vrred .fadd .w32 2 4 3 0 ⟨0, false⟩).wf = false := by decide
theorem test_wf_packed_source : (Instr.vpmulLo 2 3 32 1 ⟨0, false⟩).wf = false := by decide

/-! Decoding: heads and tails written out from R62, R63, R72 and the tables of the sections. -/

theorem test_decode_sys : decodeInstr 0x0000 0 = some .nop ∧ decodeInstr 0x0107 0 = some (.trap 7) := by decide +kernel
theorem test_decode_li : decodeInstr 0xC601 (0x0003 + 0xCDEF * 2 ^ 16 + 0x89AB * 2 ^ 32) = some (.liu 3 0x89ABCDEF) := by decide +kernel
theorem test_decode_amo : decodeInstr 0x4D08 0x1C83 = some (.amoswap false 3 4 7) ∧ decodeInstr 0x4D89 0x1C83 = some (.amocas true 3 4 7) := by
  decide +kernel
theorem test_decode_valset : decodeInstr 0x4E00 0x1483 = some (.valset 3 4 5) := by decide +kernel
theorem test_decode_wait : decodeInstr 0x4F00 0x18A0 = some (.waitaEq 5 6) := by decide +kernel
theorem test_decode_eng : decodeInstr 0x500B 0x00C5 = some (.cpy 3 1 5 6) := by decide +kernel
theorem test_decode_work : decodeInstr 0x5100 0x1483 = some (.spawn 3 4 5) ∧ decodeInstr 0x5102 0x0080 = some (.cancel 4) := by decide +kernel
theorem test_decode_lmcfg : decodeInstr 0x5200 0x00A0 = some (.lmcfg 5) := by decide +kernel
theorem test_decode_fl : decodeInstr 0x5301 0x00A0 = some (.flset 1 5) := by decide +kernel
theorem test_decode_tlbinv : decodeInstr 0x5400 0x1480 = some (.tlbinvEnt 4 5) := by decide +kernel
theorem test_decode_vcfg : decodeInstr 0x6000 0x00A0 = some (.vcfg 5) := by decide +kernel
theorem test_decode_vint : decodeInstr 0xA280 0x00005002 = some (.vadd 2 0 (.s 5) ⟨0, false⟩) := by decide +kernel
theorem test_decode_vfp : decodeInstr 0xA307 0x00843084 = some (.vfma .f32 4 2 (.v 3) 2 ⟨1, false⟩) := by decide +kernel
theorem test_decode_vcmp : decodeInstr 0xA402 0x002C1002 = some (.vcmp .lt 2 0 (.v 1) ⟨3, true⟩) := by decide +kernel
theorem test_decode_mask : decodeInstr 0x6510 0x0044 = some (.mpopc 4 2) ∧ decodeInstr 0x6512 0x0443 = some (.mtov 35 2) := by decide +kernel
theorem test_decode_vred : decodeInstr 0xA708 0x06006085 = some (.vfredsumO .bf16 5 2 6 0 0) := by decide +kernel
theorem test_decode_vcvt : decodeInstr 0xA9AC 0x84 = some (.vcvt 10 12 4 2 0 false ⟨0, false⟩) := by decide +kernel
theorem test_decode_vq4 : decodeInstr 0xEA00 0x00061C400084 = some (.vq4 1 .bf16 false 4 2 6 0 1) := by decide +kernel
theorem test_decode_tabld : decodeInstr 0xEA05 0x01C000000000 = some (.tabld 7) := by decide +kernel
theorem test_decode_vpack : decodeInstr 0xEB02 0x100002003085 = some (.vpfld 5 2 3 1 2 ⟨0, false⟩) := by decide +kernel
theorem test_decode_top : decodeInstr 0xEC83 0x014000010200 = some (.topF 1 8 16 5 0 0) := by decide +kernel
theorem test_decode_vgath : decodeInstr 0xF003 0x000050900108 = some (.vgath 8 4 16 0 .none .w32 true ⟨2, false⟩) := by decide +kernel
theorem test_decode_vst : decodeInstr 0xF100 0x004000000102 = some (.vst 2 4 64 .none ⟨0, false⟩) := by decide +kernel
theorem test_decode_vrred : decodeInstr 0xF106 0x102 = some (.vrred .fadd .w32 2 4 0 0 ⟨0, false⟩) := by decide +kernel
theorem test_decode_vstash : decodeInstr 0xF107 0x000004002902 = some (.vstash 2 4 5 0 true false false) := by decide +kernel
/-- MIN 0x01 of ALUI, and a nonzero unused field, are no instruction (R73, R85). -/
theorem test_decode_unassigned : decodeInstr 0x8501 0x64 = none ∧ decodeInstr 0x4420 0x1483 = none := by decide +kernel

/-! Single steps. The machine: core 0 of a partition of one slice runs a strand of a launch of one; virtual addresses 0 to 512 MiB
are the partition's first 512 MiB of GDDR-7, readable, writable and executable. -/

/-- The leaf of that page. -/
def page : TlbEnt := { asid := 0, page := 0, big := true, leaf := 0xF }
/-- The machine. -/
def s0 : State := ((State.withFetchWord .reset 16 0).updCore 0 fun c => { c with tlbS := [page], tlbV := [page], tlbE := [page] })
/-- Scalar registers set. -/
def regs (l : List (SReg × Dword)) (s : State) : State := l.foldl (fun s x => s.updCtx fun c => c.setReg x.1 x.2) s
/-- Bytes of memory set. -/
def bytes (a n v : Nat) (s : State) : State := { s with mem := writeN s.mem a n v }
/-- The state after a step of `i`. -/
def after (i : Instr) (s : State) : State := match exec i s with | .next t => t | _ => s
/-- A register after a step of `i`. -/
def reg (i : Instr) (s : State) (d : SReg) : Dword := (after i s).rd d

theorem test_add_wraps : reg (.add 3 4 5) (regs [(4, 2 ^ 64 - 1), (5, 2)] s0) 3 = 1 := by decide +kernel
theorem test_sub_wraps : reg (.sub 3 4 5) (regs [(4, 1), (5, 2)] s0) 3 = 0xFFFFFFFFFFFFFFFF := by decide +kernel
theorem test_sra_fills : reg (.sra 3 4 5) (regs [(4, 0x8000000000000000), (5, 68)] s0) 3 = 0xF800000000000000 := by decide +kernel
theorem test_slt_signed : reg (.slt 3 4 5) (regs [(4, 0xFFFFFFFFFFFFFFFF), (5, 0)] s0) 3 = 1 := by decide +kernel
theorem test_mulh_signed : reg (.mulh 3 4 5) (regs [(4, 0xFFFFFFFFFFFFFFFF), (5, 2)] s0) 3 = 0xFFFFFFFFFFFFFFFF := by decide +kernel
theorem test_mulhu_unsigned : reg (.mulhu 3 4 5) (regs [(4, 0xFFFFFFFFFFFFFFFF), (5, 2)] s0) 3 = 1 := by decide +kernel
/-- R84's table. -/
theorem test_div_saturates : reg (.div 3 4 5) (regs [(4, 0x8000000000000000), (5, 0xFFFFFFFFFFFFFFFF)] s0) 3 = 0x7FFFFFFFFFFFFFFF := by
  decide +kernel
/-- R84's table. -/
theorem test_div_truncates : reg (.div 3 4 5) (regs [(4, 0xFFFFFFFFFFFFFFF9), (5, 2)] s0) 3 = 0xFFFFFFFFFFFFFFFD := by decide +kernel
/-- R84's table. -/
theorem test_rem_sign : reg (.rem 3 4 5) (regs [(4, 0xFFFFFFFFFFFFFFF9), (5, 2)] s0) 3 = 0xFFFFFFFFFFFFFFFF := by decide +kernel
/-- R84's table. -/
theorem test_remu_by_zero : reg (.remu 3 4 5) (regs [(4, 9)] s0) 3 = 9 := by decide +kernel
theorem test_clz_zero : reg (.clz 3 4) s0 3 = 64 := by decide +kernel
theorem test_bswap : reg (.bswap 3 4) (regs [(4, 0x0123456789ABCDEF)] s0) 3 = 0xEFCDAB8967452301 := by decide +kernel
theorem test_sel_old_destination : reg (.sel 3 4 5) (regs [(3, 1), (4, 7), (5, 8)] s0) 3 = 7 := by decide +kernel
theorem test_sltiu_sign_extends : reg (.sltiu 3 4 0x3FFFFF) (regs [(4, 9)] s0) 3 = 1 := by decide +kernel
/-- R86's example. -/
theorem test_lih_keeps_low : reg (.lih 3 0x01234567) (regs [(3, 0x89ABCDEF)] s0) 3 = 0x0123456789ABCDEF := by decide +kernel
theorem test_s0_discards : reg (.li 0 5) s0 0 = 0 := by decide +kernel
theorem test_fadd_one_and_one : reg (.fadd .f32 3 4 5) (regs [(4, 0x3F800000), (5, 0x3F800000)] s0) 3 = 0x40000000 := by decide +kernel
theorem test_fdiv_by_zero : reg (.fdiv .f32 3 4 5) (regs [(4, 0x3F800000)] s0) 3 = 0x7F800000 ∧
    (after (.fdiv .f32 3 4 5) (regs [(4, 0x3F800000)] s0)).ctx.fflags = 0x28 := by decide +kernel
theorem test_fsqrt_of_negative : reg (.fsqrt .f64 3 4) (regs [(4, 0xBFF0000000000000)] s0) 3 = 0x7FF8000000000000 := by decide +kernel
theorem test_fcvt_saturates : reg (.fcvtI .f32 3 4) (regs [(4, 0x7F800000)] s0) 3 = 0x7FFFFFFFFFFFFFFF := by decide +kernel
/-- R89's table. -/
theorem test_fclass_table : [0x00000000, 0x80000000, 0xC0200000, 0x40400000, 0x00000001, 0xFF800000, 0x7FC00000].map
    (fun x => reg (.fclass .f32 3 4) (regs [(4, x)] s0) 3) = [0x41, 0xC1, 0x84, 0x44, 0x02, 0x88, 0x10] := by decide +kernel
theorem test_branch_back : (after (.beq 4 5 0x1FFFF 3) (s0.updCtx fun c => { c with pc := 0x1002 })).ctx.pc = 0xFC6 := by decide +kernel
theorem test_jalr_same_register : (after (.jalr 4 4) (regs [(4, 0x2004)] s0)).ctx.pc = 0x2004 ∧
    reg (.jalr 4 4) (regs [(4, 0x2004)] s0) 4 = s0.ctx.succPc := by decide +kernel
theorem test_ldb_sign : reg (.ldb 3 4 0x3FFFFF) (bytes 0x1000 1 0x80 (regs [(4, 0x1001)] s0)) 3 = 0xFFFFFFFFFFFFFF80 := by decide +kernel
theorem test_ldhu_little_endian : reg (.ldhu 3 4 0) (bytes 0x1000 2 0x1280 (regs [(4, 0x1000)] s0)) 3 = 0x1280 := by decide +kernel
theorem test_std_stores : (after (.std 4 0 5) (regs [(4, 0x1000), (5, 0x0102030405060708)] s0)).readKey 0x1000 4 = 0x05060708 := by
  decide +kernel
theorem test_store_raises_version : (after (.stb 4 0 5) (regs [(4, 0x1000)] s0)).version 0x1000 = 1 := by decide +kernel
theorem test_ldw_misaligned : (after (.ldw 3 4 0) (regs [(4, 0x1002)] (s0.updStrand fun y => { y with trapvec := 0x40 }))).strand?.map
    (fun y => (y.trapcause, y.trapaddr, y.hs)) = some (5, 0x1002, true) := by decide +kernel
theorem test_ldd_above_va : (after (.ldd 3 4 0) (regs [(4, 0x80000000000000)] s0)).me.fcause = 0x206 := by decide +kernel
theorem test_amocas_fails : reg (.amocas true 3 4 5) (bytes 0x1000 4 0xFFFFFFFF (regs [(3, 1), (4, 0x1000), (5, 7)] s0)) 3 = 0xFFFFFFFFFFFFFFFF ∧
    (after (.amocas true 3 4 5) (bytes 0x1000 4 0xFFFFFFFF (regs [(3, 1), (4, 0x1000), (5, 7)] s0))).readKey 0x1000 4 = 0xFFFFFFFF := by
  decide +kernel
theorem test_amomin_signed : (after (.amomin true 3 4 5) (bytes 0x1000 4 5 (regs [(4, 0x1000), (5, 0xFFFFFFFF)] s0))).readKey 0x1000 4 =
    0xFFFFFFFF := by decide +kernel
theorem test_valset_checks_version : reg (.valset 3 4 5) (bytes 0x1000 16 (0x2000 + 9 * 2 ^ 64) (regs [(4, 0x1000), (5, 1)] s0)) 3 = 1 := by
  decide +kernel
theorem test_bararr_opens : (after (.bararr 4 5) (bytes 0x1000 16 2 (regs [(4, 0x1000), (5, 2)] s0))).readKey 0x1000 16 =
    2 + 2 * 2 ^ 32 + 2 ^ 64 := by decide +kernel
theorem test_waitt_never_issued : (after (.waitt 0 3 4) (regs [(4, 1)] (s0.updStrand fun y => { y with trapvec := 0x40 }))).strand?.map
    (fun y => y.trapcause) = some 3 := by decide +kernel
theorem test_tlpost_numbers : reg (.tlpost 2 3) s0 3 = 1 := by decide +kernel
theorem test_trap_successor : (after (.trap 7) (s0.updStrand fun y => { y with trapvec := 0x40 })).strand?.map
    (fun y => (y.trapcause, y.trapaddr, y.trappc)) = some (0x13, 7, s0.ctx.succPc) := by decide +kernel
theorem test_eret_is_privileged : (after .eret (s0.updStrand fun y => { y with trapvec := 0x40 })).strand?.map
    (fun y => y.trapcause) = some 3 := by decide +kernel
theorem test_vsetvli : reg (.vsetvli 3 4 2) (regs [(4, 100000)] s0) 3 = 2048 := by decide +kernel

/-! The vector stream. -/

/-- `i` at VCP, with its captured scalars, VL and VTYPE. -/
def vec (i : Instr) (vl vtype a b c : Dword) (s : State) : State :=
  { s.updCtx fun x => { x with queue := [{ ins := i, pc := 2, a, b, c, vl, vtype }] } with
    actor := { core := 0, who := .user, seq := true, stop := none } }
/-- Bytes of a vector register set. -/
def vreg (r n v : Nat) (s : State) : State := s.updCtx fun x => { x with vfile := writeN x.vfile (8192 * r) n v }
/-- Element `j` of `w` bits of register `r` after a step of `i`. -/
def elem (i : Instr) (s : State) (r : VReg) (w j : Nat) : Nat := (after i s).vget r w j
/-- No predicate. -/
def np : Pred := ⟨0, false⟩

theorem test_vadd_wraps : elem (.vadd 4 2 (.s 5) np) (vec (.vadd 4 2 (.s 5) np) 3 0 0 2 0 (vreg 2 3 0x01FF05 s0)) 4 8 1 = 1 := by decide +kernel
theorem test_vadd_zeroing : elem (.vadd 4 2 (.s 5) ⟨1, true⟩) (vec (.vadd 4 2 (.s 5) ⟨1, true⟩) 1 0 0 2 0 (vreg 4 1 7 s0)) 4 8 0 = 0 := by
  decide +kernel
theorem test_vaddsat_clips : elem (.vaddsat 4 2 (.s 5) np) (vec (.vaddsat 4 2 (.s 5) np) 1 0 0 1 0 (vreg 2 1 0x7F s0)) 4 8 0 = 0x7F ∧
    (after (.vaddsat 4 2 (.s 5) np) (vec (.vaddsat 4 2 (.s 5) np) 1 0 0 1 0 (vreg 2 1 0x7F s0))).ctx.fflags = 0x80 := by decide +kernel
theorem test_vsra_by_width : elem (.vsra 4 2 (.s 5) np) (vec (.vsra 4 2 (.s 5) np) 1 0 0 9 0 (vreg 2 1 0x82 s0)) 4 8 0 = 0xC1 := by decide +kernel
theorem test_vfadd_f16 : elem (.vfadd .f16 4 2 (.v 3) 2 np) (vec (.vfadd .f16 4 2 (.v 3) 2 np) 1 1 0 0 0
    (vreg 2 2 0x3C00 (vreg 3 2 0x3C00 s0))) 4 16 0 = 0x4000 := by decide +kernel
theorem test_vcmp_signed : (after (.vcmp .lt 2 0 (.v 1) np) (vec (.vcmp .lt 2 0 (.v 1) np) 1 0 0 0 0 (vreg 0 1 0xFF s0))).mbit 2 0 = true := by
  decide +kernel
theorem test_mfirst_none : reg (.mfirst 3 2) (vec (.mfirst 3 2) 5 0 0 0 0 s0) 3 = 0xFFFFFFFFFFFFFFFF := by decide +kernel
theorem test_vextr_sign : reg (.vextr 3 2 5) (vec (.vextr 3 2 5) 1 0 0 1 0 (vreg 2 2 0x8000 s0)) 3 = 0xFFFFFFFFFFFFFF80 := by decide +kernel
theorem test_vslidedn_past_end : [0, 1].map (elem (.vslidedn 4 2 5 np) (vec (.vslidedn 4 2 5 np) 2 0 0 1 0 (vreg 2 3 0x030201 s0)) 4 8) =
    [2, 0] := by decide +kernel
theorem test_vredsum_adds_first : elem (.vredsum 5 2 6 0) (vec (.vredsum 5 2 6 0) 3 0 0 0 0 (vreg 2 3 0x030201 (vreg 6 1 10 s0))) 5 8 0 = 16 := by
  decide +kernel
theorem test_vfredsum_f32 : elem (.vfredsumO .f32 5 2 6 2 0) (vec (.vfredsumO .f32 5 2 6 2 0) 2 2 0 0 0
    (vreg 2 8 0x3F8000003F800000 (vreg 6 4 0x3F800000 s0))) 5 32 0 = 0x40400000 := by decide +kernel
theorem test_vcvt_to_e4m3 : elem (.vcvt 10 12 4 2 2 false np) (vec (.vcvt 10 12 4 2 2 false np) 1 2 0 0 0 (vreg 2 4 0x3F800000 s0)) 4 8 0 =
    0x38 := by decide +kernel
theorem test_vcvt_saturates : elem (.vcvt 2 0 4 2 0 false np) (vec (.vcvt 2 0 4 2 0 false np) 1 2 0 0 0 (vreg 2 4 300 s0)) 4 8 0 = 127 := by
  decide +kernel
/-- R163: a C4 code 0xF of type 0 under X = 32 is −1. -/
theorem test_vdq4_minus_one : elem (.vdq4 .f32 4 2 6 2 false) (vec (.vdq4 .f32 4 2 6 2 false) 48 2 0 0 0
    (vreg 2 1 0x0F (vreg 6 1 0x20 s0))) 4 32 0 = 0xBF800000 := by decide +kernel
theorem test_flset_flget : reg (.flget 1 3) (vec (.flget 1 3) 0 0 0 0 0 (after (.flset 1 5) (vec (.flset 1 5) 0 0 0x11 0 0 s0))) 3 = 0x11 := by
  decide +kernel
/-- R138: two scratchpad banks are not permitted, one is. -/
theorem test_lmcfg_counts : (after (.lmcfg 5) (vec (.lmcfg 5) 0 0 0xA 0 0 (s0.updStrand fun y => { y with trapvec := 0x40 }))).strand?.map
    (fun y => y.trapcause) = some 3 ∧ (after (.lmcfg 5) (vec (.lmcfg 5) 0 0 0x2 0 0 s0)).me.modes = 2 := by decide +kernel
theorem test_vst_stores : (after (.vst 2 4 64 .none np) (vec (.vst 2 4 64 .none np) 2 2 0x1000 0 0 (vreg 2 8 0x1122334455667788 s0))).readKey
    0x1040 8 = 0x1122334455667788 := by decide +kernel
theorem test_vlds_stride : elem (.vlds 2 4 5 0 .none np) (vec (.vlds 2 4 5 0 .none np) 2 0 0x1000 0xFFFFFFFFFFFFFFFF 0
    (bytes 0xFFF 2 0x0201 s0)) 2 8 1 = 1 := by decide +kernel
theorem test_vld2_columns : [0, 1, 2].map (elem (.vld2 2 4 5 6 0 .none np) (vec (.vld2 2 4 5 6 0 .none np) 3 0 0x1000 16 2
    (bytes 0x1000 17 (0x0201 + 3 * 2 ^ 128) s0)) 2 8) = [1, 3, 2] := by decide +kernel
theorem test_vgath_scaled : elem (.vgath 8 4 16 0 .none .w32 true np) (vec (.vgath 8 4 16 0 .none .w32 true np) 1 1 0x1000 0 0
    (vreg 16 4 3 (bytes 0x1006 2 0xBEEF s0))) 8 16 0 = 0xBEEF := by decide +kernel
/-- R151: with one element kept and PADHI 5, the coordinates 4 and 5 are refilled from memory and padded. -/
theorem test_vsld_pads : [0, 1, 2].map (elem (.vsld 2 4 5 6 0 .none true) (vec (.vsld 2 4 5 6 0 .none true) 3 0 0x1000 2 4
    (vreg 2 3 0x030201 (bytes 0x1000 2 0x0908 (s0.updCtx fun c => { c with padlo := 0, padhi := 5, padval := 0xEE })))) 2 8) = [3, 8, 0xEE] := by
  decide +kernel
theorem test_vrred_adds : (after (.vrred .fadd .w32 2 4 0 0 np) (vec (.vrred .fadd .w32 2 4 0 0 np) 1 2 0x1000 0 0
    (vreg 2 4 0x3F800000 (bytes 0x1000 4 0x3F800000 s0)))).readKey 0x1000 4 = 0x40000000 := by decide +kernel
theorem test_vpmul_low : elem (.vpmulLo 4 2 3 1 np) (vec (.vpmulLo 4 2 3 1 np) 1 3 0 0 0 (vreg 2 8 5 (vreg 3 8 7
    (s0.updStrand fun y => { y with fl := y.fl.set 1 (1 + 32 * 16 + 8 * 2 ^ 11 + 8 * 2 ^ 16 + 32 * 2 ^ 23) })))) 4 64 0 = 35 := by decide +kernel
/-- R166's table: 1.0 is E 0x3FFF, S 0x4000_0000_0000_0000. -/
theorem test_twr_one : (after (.twr 0 false 2 5 np) (vec (.twr 0 false 2 5 np) 1 2 0 0 0 (vreg 2 4 0x3F800000
    (s0.updStrand fun y => { y with z0 := { y.z0 with st := .active } })))).strand?.map (fun y => readN y.z0.data 0 10) =
    some 0x3FFF4000000000000000 := by decide +kernel
/-- R166's table: −1.0 is E 0x3FFE, S 0x8000_0000_0000_0000. -/
theorem test_a80_minus_one : (a80Of fmt32 0xBF800000).1 = 0x3FFE8000000000000000 := by decide +kernel
theorem test_vcfg_zeroes : (after (.vcfg 5) (regs [(5, 8)] (vreg 2 4 7 s0))).nv = 8 ∧ (after (.vcfg 5) (regs [(5, 8)] (vreg 2 4 7 s0))).ctx.vfile = [] := by
  decide +kernel

/-! States that meet the hypotheses of the statements. -/

/-- Whether an access performs. -/
def performs : Acc → Bool
  | .ok _ _ _ => true
  | _ => false
/-- The state, value and version of an access that performs. -/
def got : Acc → State × Nat × Dword
  | .ok t v w => (t, v, w)
  | _ => (.reset, 0, 0)
theorem got_ok {a : Acc} (h : performs a = true) : a = .ok (got a).1 (got a).2.1 (got a).2.2 := by cases a <;> simp_all [performs, got]
theorem chain_one {s : State} {act : Nat → Bool} {acc : Nat → State → Acc} (n : Nat) (h : act n = true) (ha : performs (acc n s) = true) :
    Chain s act acc n (n + 1) (fun j => if j = n then s else (got (acc n s)).1) (fun _ => (got (acc n s)).2.1) (fun _ => (got (acc n s)).2.2) := by
  refine ⟨by simp, fun j h0 h1 => ?_⟩
  obtain rfl : j = n := by omega
  simp [h, ← got_ok ha]
/-- The state a placement answers. -/
def placed (s : State) (kd : Kind) (ea n : Nat) : State := (placeOf s s.actor.core s.isM .s kd ea n).1
/-- The place of a byte of that page. -/
def at' (a : Nat) : Place := .xl ⟨a, 0, 0, 0, 0⟩
theorem ready_xl {t : TlbSel} {s : State} {kd : Kind} {ea n : Nat} {x : Xl} (h : (placeOf s s.actor.core s.isM t kd ea n).2 = .ok (.xl x))
    (hl : (placeOf s s.actor.core s.isM t kd ea n).1.l2 = [] ∧ (placeOf s s.actor.core s.isM t kd ea n).1.c1 = []) :
    ReadyOn t s (placeOf s s.actor.core s.isM t kd ea n).1 kd ea n x.key (.xl x) := by
  obtain ⟨hl, hc⟩ := hl
  refine ⟨?_, rfl, ?_, .inr fun l hf => ?_⟩
  · rw [← h]
  · simp [InForm, hc, readByte]
  · simp [State.l2Line?, hl] at hf

/-- `s0` with an instruction at its PC. -/
def runs (i : Instr) : State := match encode i with
  | some (h, t) => s0.updCtx fun c => { c with line := some (0, oneLine h t (h / 2 ^ 14)) }
  | none => s0
/-- `s0` whose strand has a trap vector. -/
def sv : State := s0.updStrand fun y => { y with trapvec := 0x40 }
/-- `s0` in handler state. -/
def sh : State := s0.updStrand fun y => { y with hs := true, trapvec := 0x40, nv := 64, frame := some {
  regs := Vector.replicate 32 0, pregs := 0, spc := 0, image := [], vstart := 0, vbase := 0, fmode := 1, seed := 0, padlo := 0, padhi := 0, padval := 0,
  nv := 64, vl := 0, vtype := 0 } }
/-- Mordant of core 0 acts, with a trap held. -/
def mord (act : Dword) (s : State) : State :=
  { s.updCore 0 fun c => { c with mOn := true, fcause := 0x200, fret := act } with actor := { core := 0, who := .mordant, seq := false, stop := none } }

theorem witness_division : let s := regs [(4, 0x8000000000000000), (5, 0xFFFFFFFFFFFFFFFF), (6, 7)] s0
    (s.rd 6).toInt ≠ 0 ∧ ¬((s.rd 4).toInt = -2 ^ 63 ∧ (s.rd 6).toInt = -1) ∧ (s.rd 4).toInt = -2 ^ 63 ∧ (s.rd 5).toInt = -1 ∧
    (s.rd 7).toInt = 0 := by decide +kernel
theorem witness_control_flow : let s := s0.updCtx fun c => { c with line := some (64, 0x3), pc := 64 + 2 * 3 }
    let t := s0.updCtx fun c => { c with line := some (64, 0x3), pc := 64 + 2 * 2 }
    64 % 64 = 0 ∧ 64 + 64 < 2 ^ 55 ∧ s.ctx.line = some (64, 0x3) ∧ s.ctx.pc = .ofNat 64 (64 + 2 * 3) ∧ lineH 0x3 ≤ 3 ∧
    t.ctx.pc = .ofNat 64 (64 + 2 * 2) ∧ 2 < lineH 0x3 := by decide +kernel
theorem witness_scalar_fp : (1 ≤ s0.ctx.fmode.toNat % 8 ∧ s0.ctx.fmode.toNat % 8 ≤ 5) ∧
    ¬(1 ≤ (s0.updCtx fun c => { c with fmode := 6 }).ctx.fmode.toNat % 8 ∧ (s0.updCtx fun c => { c with fmode := 6 }).ctx.fmode.toNat % 8 ≤ 5) := by
  decide +kernel
/-- 0, a subnormal, 3.0, 2.5, infinity, and both kinds of NaN. -/
theorem witness_fclass : [0, 1, 0x40400000, 0x40200000, 0x7F800000, 0x7FC00000, 0x7F800001].map
    (fun x => (x / 2 ^ 23 % 2 ^ 8, decide (x % 2 ^ 23 = 0))) =
    [(0, true), (0, false), (128, false), (128, false), (255, true), (255, false), (255, false)] := by decide +kernel
/-- Whether a value is finite. -/
def isFin : FV → Bool
  | .fin _ _ _ => true
  | _ => false
theorem finite_of {F : Fmt} {x : Nat} (h : isFin (unpack F x) = true) : Claims.Finite F x := by
  unfold Claims.Finite
  cases hu : unpack F x <;> simp_all [isFin]
theorem witness_fp_rounds : (1 ≤ 2 ∧ 2 ≤ 5) ∧ Claims.Finite fmt32 0x3F800000 ∧ Claims.Finite fmt32 (fpAdd fmt32 2 0x3F800000 0x3F800000).1 :=
  ⟨by decide, finite_of (by decide +kernel), finite_of (by decide +kernel)⟩
theorem witness_fp_special : unpack fmt32 0x7FC00000 = .nan false ∧ unpack fmt32 0x7F800001 = .nan true ∧ unpack fmt32 0x7F800000 = .inf false ∧
    unpack fmt32 0xFF800000 = .inf true := by decide +kernel
theorem witness_fences : s0.ctx.queue = [] ∧ (vec .nop 0 0 0 0 0 s0).ctx.queue ≠ [] ∧ s0.actor.who = .user ∧
    (mord 0 s0).actor.who = .mordant := by decide +kernel
theorem witness_halt : let s := State.withFetchWord .reset 16 1
    s.actor.who = .user ∧ s.strand?.isSome = true ∧ s.ctx.queue = [] ∧ (∀ k : Fin 4, s.me.eng[k].entries = []) ∧ s.mayIssue = true ∧
    s.atPc = some .halt := by decide +kernel
theorem witness_traps : sv.actor.who = .user ∧ (sv.strand?.map fun y => (y.hs, y.trapvec, y.run)) = some (false, 0x40, .running) ∧ sv.live = true ∧
    (sh.strand?.map fun y => (y.hs, y.run)) = some (true, .running) ∧ (s0.strand?.map fun y => y.trapvec) = some 0 ∧ (6 : Nat) ∈ [0x06, 0x07, 0x08, 0x09] ∧
    (5 : Nat) ∉ [0x06, 0x07, 0x08, 0x09] := by decide +kernel
theorem witness_eret : [(0 : Dword), 1, 2, 3].map (fun a => ((mord a sv).actor.who, (mord a sv).strand?.map fun y => (y.hs, y.trapvec),
    (mord a sv).me.fret.toNat % 4, (mord a sv).me.fcause.getLsbD 9, (mord a sv).me.user.queue.length)) =
    [(.mordant, some (false, 0x40), 0, true, 0), (.mordant, some (false, 0x40), 1, true, 0), (.mordant, some (false, 0x40), 2, true, 0),
      (.mordant, some (false, 0x40), 3, true, 0)] := by decide +kernel
theorem witness_eret_frame : ((mord 3 sh).strand?.map fun y => (y.hs, y.frame.map fun f => f.nv, y.nv)) = some (true, some 64, 64) ∧
    (((mord 3 (sh.updStrand fun y => { y with nv := 8 })).strand?.map fun y => (y.hs, y.frame.map fun f => f.nv, y.nv)) = some (true, some 64, 8)) ∧
    (mord 3 (vec .nop 0 0 0 0 0 sh)).me.user.queue ≠ [] := by decide +kernel
theorem witness_engq : (mord 0 (s0.updMe fun c => { c with strand := none })).strand? = none ∧ (mord 0 s0).me.engctl.getLsbD 0 = false ∧
    (mord 0 (s0.updMe fun c => { c with engctl := 1 })).me.engctl.getLsbD 0 = true := by decide +kernel
theorem witness_firmware : s0.actor.who = .user ∧ 0x80 ≤ (0x80 : BitVec 8).toNat := by decide +kernel
theorem witness_access : ∀ kd ∈ [Kind.r, .w], ∀ n ∈ [1, 2, 4, 8, 16], 0x1000 % n = 0 ∧ s0.poisonedAt 0x1000 n = false ∧
    (placeOf s0 s0.actor.core s0.isM .s kd 0x1000 n).2 = .ok (at' 0x1000) ∧ Memory.wf s0.mem = true := by decide +kernel
theorem witness_ready : Ready s0 (placed s0 .w 0x1000 8) .w 0x1000 8 0x1000 (at' 0x1000) :=
  ready_xl (x := ⟨0x1000, 0, 0, 0, 0⟩) (by decide +kernel) (by decide +kernel)
theorem witness_access_faults : 0x1001 % 2 ≠ 0 ∧ 2 ^ 55 % 8 = 0 ∧
    (placeOf s0 s0.actor.core s0.isM .s .r (2 ^ 55) 8).2 = .error ⟨0x06, 2 ^ 55⟩ := by decide +kernel
/-- One check of version 0, which the absent line has, and one store; and a check of version 9, which fails. -/
def vset (v : Nat) : State := bytes 0x1000 32 (0x2000 + v * 2 ^ 64 + 0x2008 * 2 ^ 128 + 7 * 2 ^ 192) (regs [(4, 0x1000), (5, 0x101)] s0)
theorem witness_valset : ∀ v ∈ [0, 9], let s := vset v
    (match (loadMany 4 (s.rd 4).toNat s).2 with | .ok vs => some vs | _ => none) = some [0x2000, v, 0x2008, 7] ∧
    (match (valsetPlaces [0x2000, 0x2008] (loadMany 4 (s.rd 4).toNat s).1).2 with | .ok xs => some xs | _ => none) =
      some [⟨0x2000, 0, 0, 0, 0⟩, ⟨0x2008, 0, 0, 0, 0⟩] ∧ s.c1 = [] ∧
    (s.rd 5).toNat % 32 = 1 ∧ (s.rd 5).toNat / 256 % 32 = 1 ∧ (s.rd 5).toNat / 32 % 8 = 0 ∧ (s.rd 5).toNat / 2 ^ 13 = 0 ∧
    ((valsetPlaces [0x2000, 0x2008] (loadMany 4 (s.rd 4).toNat s).1).1.version 0x2000).toNat = 0 := by decide +kernel
theorem witness_waita : readN (bytes 0x1000 8 5 s0).mem 0x1000 8 = 5 ∧ s0.poisonedAt 0x1000 8 = false := by decide +kernel
/-- A context with one entry outstanding, and one in error state. -/
def eng1 (err : Option (BitVec 8)) : State := s0.updEng 0 0 fun g => { g with last := 2, tl := 1, err := err }
theorem witness_timeline : (eng1 none).actor.who = .user ∧ (eng1 none).me.eng[(0 : Fin 4)].tl = 1 ∧ (eng1 none).me.eng[(0 : Fin 4)].last = 2 ∧
    (eng1 none).me.eng[(0 : Fin 4)].err = none ∧ (eng1 (some 3)).me.eng[(0 : Fin 4)].err = some 3 := by decide +kernel
/-- A barrier with target 2 in each state, and a malformed one. -/
theorem witness_barriers : [0, 1, 2, 3].map (fun v => decide (readN (bytes 0x1000 16 (2 + v * 2 ^ 64) s0).mem 0x1000 16 / 2 ^ 64 % 2 ^ 16 ≤ 2)) =
    [true, true, true, false] := by decide +kernel
theorem witness_barrier_timeout :
    let s := { (runs (.barwt 3 4)).updCtx fun c => { c with barFrom := some 0 } with now := 2500 }
    s.mayIssue = true ∧ s.atPc = some (.barwt 3 4) ∧ s.ctx.barFrom = some 0 ∧ 0 + 1 * 2500 ≤ s.now := by decide +kernel

/-- A launch of one strand, on core 0. -/
def job : Launch where
  id := 0
  q := 0
  ptb := 0
  rcd := [0x40, 0, 0x4000000, 1 + 64 * 2 ^ 32, 0, 0, 0, 0, 0x1000, 0, 0, 0, 5, 0, 0, 0]
  pri := 0
  st := .running
  everRun := true
  readSeq := 0
  readySeq := 0
  placedAt := 0
  cores := [0]
  halted := []
  barB := [0]
  barL := 0
  arrived := []
  imgs := []
  inPlace := []
  dbg := false
  mark := false
  pend := []
  depHeld := false
/-- `s0` with launches, its queue table at GDDR-7 offset 0 and the page in the scheduler's TLB. -/
def sj (ls : List Launch) : State := { s0 with parts := s0.parts.map fun p => { p with tlb := [page], launches := ls, nextId := ls.length } }
/-- The partition of a state. -/
def pt (s : State) : Partition := (s.part? 0).getD (.fresh 0 1 0)
/-- The descriptor of queue 0: HEAD, TAIL, PTB, CTL, ERR. -/
def desc (h t c e : Nat) (s : State) : State := bytes 0 40 (h + t * 2 ^ 64 + c * 2 ^ 192 + e * 2 ^ 256) s
/-- Sixteen doublewords at an address. -/
def block (a : Nat) (ws : List Dword) (s : State) : State := bytes a 128 (ws.foldr (fun w n => w.toNat + 2 ^ 64 * n) 0) s

theorem witness_barl : let s := sj [job]
    let t := sj [{ job with cores := [0, 1], barB := [0, 0] }]
    s.actor.who = .user ∧ s.strand?.isSome = true ∧ s.ctx.queue = [] ∧ s.launch? 0 0 = some job ∧ (∀ j < job.cores.length, j = 0) ∧
    t.launch? 0 0 = some { job with cores := [0, 1], barB := [0, 0] } ∧
    (sj [{ job with cores := [0, 1], barB := [0, 0], barL := 1 }]).launch? 0 0 = some { job with cores := [0, 1], barB := [0, 0], barL := 1 } := by
  decide +kernel
theorem witness_system_registers : s0.strand?.isSome = true ∧ (s0.partOfCore s0.actor.core).isSome = true ∧ s0.ctx.queue = [] ∧
    (vec .nop 0 0 0 0 0 s0).ctx.queue ≠ [] ∧ (mord 0 s0).strand?.isSome = true := by decide +kernel
/-- A block that copies 8 bytes from 0x2000 to 0x3000. -/
def cpy8 : List Dword := [0x2000, 0x3000, 8 + 2 ^ 32, 1 + 2 ^ 32, 0, 0, 0, 0, 0, 0, 0, 0, 0, 0, 0, 0]
/-- An entry of that block. -/
def ent (no ord : Nat) (marker : Bool) : EngEntry :=
  { no, ord, port := 0, marker, blk := cpy8, progress := 0, ahead := [], left := [], w := 0, fr := false }
theorem witness_copy : let s := block 0x1000 cpy8 (regs [(4, 0x1000)] s0)
    let a := s.acc .s 0 .r true false 0x1000 64 anyPlace fun _ => none
    let b := (got a).1.acc .s 0 .r true false (0x1000 + 64) 64 anyPlace fun _ => none
    (s.rd 4).toNat % 128 = 0 ∧ performs a = true ∧ performs b = true ∧ blockWords ((got a).2.1 + (got b).2.1 * 2 ^ 512) = cpy8 ∧
    cmdOk (parseCmd cpy8) 1 = true ∧ s.me.eng[(0 : Fin 4)].entries.length < 6 ∧ s.me.eng[(0 : Fin 4)].err = none ∧
    sbUsed s.me s.actor.core 0 + cmdRanges (parseCmd cpy8) s.actor.core 0 ≤ 16 ∧
    cmdOk (parseCmd (cpy8.set 2 8)) 1 = false := by decide +kernel
theorem witness_full_context : (s0.updEng 0 0 fun g => { g with last := 6, entries := (List.range 6).map fun i => ent (i + 1) i false }).me.eng[(0 : Fin 4)].entries.length = 6 ∧
    (s0.updEng 0 0 fun g => { g with last := 1, err := some 7, entries := [ent 1 0 false] }).me.eng[(0 : Fin 4)].err = some 7 := by decide +kernel
theorem witness_spawn : let p := pt (sj [])
    let s := block 0x2000 job.rcd (desc 0 0 1 0 (regs [(4, 0x2000)] (sj [])))
    let a := s.acc .s 0 .r true false 0x2000 64 anyPlace fun _ => none
    let b := (got a).1.acc .s 0 .r true false (0x2000 + 64) 64 anyPlace fun _ => none
    let w := (got b).1.acc .s 0 .w false false (0x2000 + 0x70) 8 anyPlace fun _ => some 0
    s.partOfCore s.actor.core = some p ∧ (s.rd 4).toNat % 128 = 0 ∧ p.descOk 0 = true ∧ descRead s p 0 0x18 % 2 = 1 ∧ descRead s p 0 0x20 = 0 ∧
    performs a = true ∧ performs b = true ∧ recordValid p (blockWords ((got a).2.1 + (got b).2.1 * 2 ^ 512)) = true ∧ performs w = true ∧
    descRead (got w).1 p 0 0x08 = 0 ∧ recordValid p (job.rcd.set 3 0) = false ∧ descRead (desc 0 0 0 0 s) p 0 0x18 % 2 = 0 ∧
    descRead (desc 0 0 1 5 s) p 0 0x20 ≠ 0 := by decide +kernel
theorem witness_spawn_after : let p := pt (sj [])
    let s := desc 0x3000 0x3000 1 0 (sj [])
    let w := s.acc .s 0 .w false false (0x2000 + 0x70) 8 anyPlace fun _ => some 0
    performs w = true ∧ descRead (got w).1 p 0 0x08 ≠ 0 ∧
    performs ((descWrite (got w).1 p 0 0x08 0x2000).acc .s 0 .w false false (addrAdd 0x3000 0x70) 8 anyPlace fun _ => some 0x2000) = true := by
  decide +kernel
/-- A queue table that no queue can be read from. -/
def noq (ls : List Launch) : State := { sj ls with parts := (sj ls).parts.map fun p => { p with qtbase := 0x200 } }
theorem witness_cancel : let s := regs [(4, 0x1000)] (noq [job])
    s.partOfCore s.actor.core = some (pt s) ∧ s.part? 0 = some (pt s) ∧ (pt s).first = 0 ∧ (pt s).descOk 0 = false ∧ s.rd 4 ≠ 0 ∧
    (pt s).launches = [job] ∧ job.st ≠ .done ∧ job.field 0x40 = s.rd 4 ∧ s.rd 0 = 0 ∧
    (∀ l ∈ (pt s).launches, ∀ o ∈ [0x40, 0x48, 0x50], l.field o ≠ 0x2000) := by decide +kernel
theorem witness_tlb : let s := mord 0 s0
    s.actor.who = .mordant ∧ s.partOfCore s.actor.core = some (pt s) ∧ s.part? (pt s).first = some (pt s) := by decide +kernel
theorem witness_cache : (match cachePlace s0 (2 ^ 55) with | .ok none => true | _ => false) = true ∧
    (match cachePlace s0 0x1000 with | .ok (some k) => decide (k = 0x1000) | _ => false) = true ∧
    (match cachePlace (s0.updMe fun c => { c with tlbS := [], ptbase := 0x200 }) 0x1000 with | .error _ => true | _ => false) = true ∧
    s0.l2 = [] := by decide +kernel
theorem witness_push : let s := s0.updCtx fun c => { c with vl := 1, vtype := 2 }
    s.actor.seq = false ∧ (pushRule s (.vadd 4 2 (.s 5) np)).isSome = true ∧ s.ctx.vtype.getLsbD 8 = false ∧ s.nv = 64 ∧ s.ctx.queue.length < 64 ∧
    s.ctx.pregs = 0 ∧ (pushRule s (.vadd 4 2 (.s 5) np)).map (fun r => (r.regs, r.dep, r.early, r.late 32 1)) = some ([4, 2], true, true, true) := by
  decide +kernel
theorem witness_push_refused : let ill := s0.updCtx fun c => { c with vtype := 0x100 }
    let few := s0.updStrand fun y => { y with nv := 8 }
    let full := s0.updCtx fun c => { c with queue := List.replicate 64 { ins := .nop, pc := 2, a := 0, b := 0, c := 0, vl := 0, vtype := 0 } }
    ill.ctx.vtype.getLsbD 8 = true ∧ few.nv = 8 ∧ ¬(8 : VReg).toNat < few.nv ∧ 64 ≤ full.ctx.queue.length ∧
    (pushRule s0 (.vadd 5 2 (.s 5) np)).map (fun r => r.late 32 2) = some false ∧
    (s0.updCtx fun c => { c with pregs := 0x20 }).ctx.pregs.getLsbD 5 = true := by decide +kernel
theorem witness_vcfg : (mord 0 s0).actor.who = .mordant ∧ s0.actor.who = .user ∧ s0.ctx.queue = [] ∧ (8 : Nat) ∈ [8, 16, 32, 64] ∧ (9 : Nat) ∉ [8, 16, 32, 64] := by
  decide +kernel
/-- The entry at VCP. -/
def hd (s : State) : Entry := s.ctx.queue.headD { ins := .nop, pc := 0, a := 0, b := 0, c := 0, vl := 0, vtype := 0 }
theorem atHead_of {s : State} (h : s.actor.seq = true ∧ s.ctx.queue.head? = some (hd s) ∧ Memory.wf s.ctx.vfile = true ∧
    Memory.wf s.ctx.masks = true ∧ s.actor.stop = none ∧ s.ctx.pvec = [] ∧ s.ctx.pmasks = 0) : AtHead s (hd s) :=
  ⟨⟨h.1, h.2.1, h.2.2.1, h.2.2.2.1⟩, h.2.2.2.2⟩
theorem witness_lmcfg : let s := vec (.lmcfg 5) 0 0 0x2 0 0 s0
    AtHead s (hd s) ∧ s.strand?.isSome = true ∧ Memory.wf s.mem = true ∧ (∀ g : Fin 4, s.me.eng[g].entries = []) ∧
    ((List.range 32).countP fun b => (0x2 : Nat) / 4 ^ b % 4 = 2) = 1 ∧ ((List.range 32).countP fun b => (0xA : Nat) / 4 ^ b % 4 = 2) = 2 :=
  ⟨atHead_of (by decide +kernel), by decide +kernel⟩
/-- A copy into bank 0, which an LMCFG of bank 0 waits for. -/
theorem witness_lmcfg_held :
    let e : EngEntry := { ent 1 0 false with blk := cpy8.set 1 0x7FFF00000000 }
    let s := ((vec (.lmcfg 5) 0 0 0 0 0 s0).updMe fun c => { c with modes := 2 }).updEng 0 0 fun g => { g with last := 1, entries := [e] }
    lmcfgHeld s [0] = true := by decide +kernel
theorem not_enabled {s : State} (h : s.ctx.fmode = 1) (fl : Nat) : ¬Enabled s fl := by
  rintro ⟨j, hj, -, hb⟩
  rw [h] at hb
  have h6 : ∀ j < 6, (1 : Dword).getLsbD (8 + j) = false := by decide
  rw [h6 j hj] at hb
  cases hb
theorem witness_lanes : let s := vec (.vfadd .f32 4 2 (.v 3) 2 np) 1 2 0 0 0 s0
    AtHead s (hd s) ∧ s.ctx.vstart.toNat < (hd s).n ∧ (fpLane s (hd s) (.vfadd .f32 4 2 (.v 3) 2 np)).isSome = true ∧
    (intLane s (hd s) (.vadd 4 2 (.v 3) np)).isSome = true ∧ ∀ fl, ¬Enabled s fl :=
  ⟨atHead_of (by decide +kernel), by decide +kernel, by decide +kernel, by decide +kernel, fun fl => not_enabled (by decide +kernel) fl⟩
/-- A division by zero under an enabled DZ, a poisoned source, and a freeze at element 512. -/
theorem witness_stops : let i : Instr := .vfdiv .f32 4 2 (.v 3) 2 np
    let s := (vec i 1000 2 0 0 0 (vreg 2 4 0x3F800000 s0)).updCtx fun c => { c with fmode := 0x801 }
    s.ctx.pmasks = 0 ∧ s.actor.stop = none ∧ ((fpLane s (hd s) i).map fun l => (l.f 0).2 / 8 % 2) = some 1 ∧ s.ctx.fmode.getLsbD (8 + 3) = true ∧
    (s.updCtx fun c => { c with pvec := [8192 * 2 * 32 + 4] }).vpois 2 32 0 = true ∧ (s.updCtx fun c => { c with pmasks := 2 }).ctx.pmasks.getLsbD 1 = true ∧
    512 % (16384 / 32) = 0 ∧ s.ctx.vstart.toNat < 512 ∧ 512 < (hd s).n := by decide +kernel

theorem witness_masks : let s := vec (.vcmp .lt 2 0 (.v 1) np) 1 0 0 0 0 s0
    AtHead s (hd s) ∧ (cmpLane s (hd s) (.vcmp .lt 2 0 (.v 1) np)).isSome = true ∧ s.ctx.vstart.toNat < (hd s).n ∧
    (maskWhole s (hd s) (.mnot 2 1)).isSome = true ∧ (permLane s (hd s) (.mtov 35 2)).isSome = true ∧
    (intReduction s (hd s) (.vredsum 5 2 6 0)).isSome = true ∧ (∀ fl, ¬Enabled s fl) ∧ s.mbit 1 0 = false ∧
    (s.updCtx fun c => { c with masks := writeBit c.masks 8192 0 true }).mbit 1 0 = true :=
  ⟨atHead_of (by decide +kernel), by decide +kernel, by decide +kernel, by decide +kernel, by decide +kernel, by decide +kernel,
    fun fl => not_enabled (by decide +kernel) fl, by decide +kernel, by decide +kernel⟩
theorem witness_delivery : let s := vec (.mpopc 4 2) 1 0 0 0 0 s0
    s.live = true ∧ (hd s).ins = .mpopc 4 2 := by decide +kernel
theorem witness_float_reduction : let i : Instr := .vfredsumF .f32 5 2 6 2 0
    let s := vec i 1 2 0 0 0 (vreg 2 4 0x3F800000 s0)
    AtHead s (hd s) ∧ (hd s).sew = 32 ∧ actives s (hd s) 2 0 = [0x3F800000] ∧ modeAt s 2 = 2 ∧ Claims.Finite fmt32 0x3F800000 ∧
    Claims.Finite fmt32 (s.vget 6 32 0) ∧ (hd (vec i 0 2 0 0 0 s0)).n = 0 :=
  ⟨atHead_of (by decide +kernel), by decide +kernel, by decide +kernel, by decide +kernel, finite_of (by decide +kernel),
    finite_of (by decide +kernel), by decide +kernel⟩
theorem witness_conversions : let s := vec (.vdq4 .f32 4 2 6 2 false) 48 2 0 0 0 s0
    AtHead s (hd s) ∧ s.actor.who = .user ∧ (s.strand?.map fun y => y.pct) = some false ∧ (hd s).n % 48 = 0 ∧ s.ctx.vstart.toNat < (hd s).n :=
  ⟨atHead_of (by decide +kernel), by decide +kernel⟩
theorem witness_formats : 0x3F800000 < 2 ^ widthOf 10 ∧ Claims.Finite (fmtOfCode 10) 0x3F800000 ∧ unpack (fmtOfCode 10) 0x7FC00000 = .nan false ∧
    (∀ x ∈ [0x3F800000, 0xC0000000], Claims.Finite fmt32 x) ∧ ¬Claims.Finite fmt32 0x7F800000 ∧
    (convertElem 10 12 2 false 0x7F000000 0).clip = true ∧ 32 % 64 ≠ 63 ∧ s0.actor.who = .user ∧ s0.strand?.isSome = true :=
  ⟨by decide +kernel, finite_of (by decide +kernel), by decide +kernel, fun x hx => finite_of (by revert x; decide +kernel),
    (by rintro ⟨n, m, e, h⟩; rw [show unpack fmt32 0x7F800000 = .inf false by decide +kernel] at h; cases h), by decide +kernel⟩
/-- A layout of one field of 32 bits, and containers 5 and 7 as their fields. -/
def lay : Nat := 1 + 32 * 16 + 8 * 2 ^ 11 + 8 * 2 ^ 16 + 32 * 2 ^ 23
theorem witness_layout : (layoutOf lay).ok = true ∧ 5 < 2 ^ (layoutOf lay).cw ∧ areFields (layoutOf lay) (layoutOf lay).sa 5 [5] ∧
    areFields (layoutOf lay) (layoutOf lay).sb 7 [7] ∧ (joined (layoutOf lay) 5 7).ovf = false ∧
    (joined (layoutOf lay) (2 ^ 32) 2).ovf = true ∧ lay < 2 ^ 64 := by
  refine ⟨by decide +kernel, by decide +kernel, ⟨by decide +kernel, by decide +kernel, ?_⟩, ⟨by decide +kernel, by decide +kernel, ?_⟩, by decide +kernel,
    by decide +kernel, by decide +kernel⟩ <;>
  · intro d hd
    have : (layoutOf lay).k - 1 = 0 := by decide +kernel
    simp [this] at hd
/-- `s0` with that layout in fl1, with overflow ignored, flagged or trapping. -/
def pk (ov : Nat) (i : Instr) (vl : Dword) : State := vec i vl 3 0 0 0 (vreg 2 8 (2 ^ 32) (vreg 3 8 2
  (s0.updStrand fun y => { y with fl := y.fl.set 1 (.ofNat 64 (lay + ov * 2 ^ 30)) })))
theorem witness_packed : let i : Instr := .vpmulLo 4 2 3 1 np
    let s := pk 2 i 1
    AtHead s (hd s) ∧ (s.strand?.map fun y => (y.nv, y.pfl.getLsbD 1)) = some (64, false) ∧ s.actor.who = .user ∧ (hd s).sew = 64 ∧
    (joined (layoutOf (lay + 2 * 2 ^ 30)) (s.vget 2 64 0) (s.vget 3 64 0)).ovf = true ∧ (layoutOf (lay + 2 * 2 ^ 30)).ok = true ∧
    (layoutOf (lay + 2 ^ 30)).ov = 1 ∧ (hd (pk 0 i 0)).n = 0 ∧ (layoutOf 0).ok = false ∧
    wordOk s 2 (hd s) (layoutOf lay) = true := ⟨atHead_of (by decide +kernel), by decide +kernel⟩
theorem witness_vector_access : ReadyOn .v s0 (placeOf s0 s0.actor.core s0.isM .v .w 0x1000 8).1 .w 0x1000 8 0x1000 (at' 0x1000) ∧
    aligned 0x1000 8 ∧ s0.poisonedAt 0x1000 8 = false ∧ s0.version 0x1000 ≠ .ofNat 64 (2 ^ 64 - 1) :=
  ⟨ready_xl (x := ⟨0x1000, 0, 0, 0, 0⟩) (by decide +kernel) (by decide +kernel), by unfold aligned; decide, by decide +kernel, by decide +kernel⟩
/-- An access of the vector stream. -/
def vacc (s : State) (kd : Kind) (ea n : Nat) (ok : Place → Bool) (f : Nat → Option Nat) : Acc := s.acc .v 0 kd true false ea n ok f
theorem witness_vector_load : let i : Instr := .vld 2 4 0 .none np
    let s := vec i 1 2 0x1000 0 0 s0
    AtHead s (hd s) ∧ (loadLane s (hd s) i).isSome = true ∧ s.ctx.vstart.toNat < (hd s).n ∧
    (∃ st v ver, Chain s (fun _ => true) (fun j t => vacc t .r (unitAt (hd s) 0 j) 4 anyPlace fun _ => none) 0 1 st v ver) ∧
    aligned (unitAt (hd s) 0 0) 4 ∧ ¬aligned (unitAt (hd (vec i 1 2 0x1001 0 0 s0)) 0 0) 4 ∧
    (match vacc s .r (2 ^ 55) 4 anyPlace fun _ => none with | .fault _ _ => true | _ => false) = true ∧
    (loadLane s (hd s) (.vld2 2 4 5 6 0 .none np)).map (fun l => l.runs) = some false :=
  ⟨atHead_of (by decide +kernel), by decide +kernel, by decide +kernel, ⟨_, _, _, chain_one 0 rfl (by decide +kernel)⟩,
    by unfold aligned; decide +kernel, by unfold aligned; decide +kernel, by decide +kernel, by decide +kernel⟩
theorem witness_vector_store : let i : Instr := .vst 2 4 0 .none np
    let s := vec i 1 2 0x1000 0 0 s0
    AtHead s (hd s) ∧ (storeLane s (hd s) i).isSome = true ∧
    (∃ st v ver, Chain s (fun _ => true) (fun j t => vacc t .w (unitAt (hd s) 0 j) 4 anyPlace fun _ => some 7) 0 1 st v ver) :=
  ⟨atHead_of (by decide +kernel), by decide +kernel, ⟨_, _, _, chain_one 0 rfl (by decide +kernel)⟩⟩
/-- A load from an empty FIFO port waits. -/
theorem witness_vector_wait : let s := (vec (.vld 2 4 0 .none np) 1 2 0x7FFF00F00000 0 0 s0).updMe fun c => { c with modes := 3 }
    (match s.acc .v 0 .r true true 0x7FFF00F00000 4 anyPlace fun _ => none with | .wait _ => true | _ => false) = true ∧
    aligned 0x7FFF00F00000 4 := ⟨by decide +kernel, by unfold aligned; decide⟩
theorem witness_slide : let i : Instr := .vsld 2 4 5 6 0 .none false
    let s := vec i 1 2 0x1000 1 0 s0
    AtHead s (hd s) ∧ s.actor.who = .user ∧ (s.strand?.map fun y => Memory.wf y.ct) = some true ∧ s.ctx.vstart.toNat < (hd s).n ∧
    ∃ st v ver, Chain s (fun j => decide (0 ≤ j)) (fun j t => vacc t .r ((baseAt (hd s) 0 + j * 4) % 2 ^ 64) 4 anyPlace fun _ => none) 0 1 st v ver :=
  ⟨atHead_of (by decide +kernel), by decide +kernel, by decide +kernel, by decide +kernel, ⟨_, _, _, chain_one 0 rfl (by decide +kernel)⟩⟩
/-- The last word of the table, with VSTART at 255. -/
theorem witness_table : let s := (vec (.tabld 7) 0 0 0 0 0x1000 s0).updCtx fun c => { c with vstart := 255 }
    s.ctx.vstart.toNat ≤ 256 ∧ aligned (0x1000 + 4 * 255) 4 ∧
    ∃ st v ver, Chain s (fun _ => true) (fun j t => vacc t .r ((0x1000 + 4 * j) % 2 ^ 64) 4 anyPlace fun _ => none) 255 256 st v ver :=
  ⟨by decide +kernel, by unfold aligned; decide, ⟨_, _, _, chain_one 255 rfl (by decide +kernel)⟩⟩
theorem witness_links : let i : Instr := .vgl 2 4 3 0 .sew false np
    let s := vec i 1 2 0x1000 0 0 s0
    AtHead s (hd s) ∧ s.ctx.vstart.toNat < (hd s).n ∧ aligned (indexAt s (hd s) 0 3 .sew false 0) 4 ∧
    (∃ st v ver, Chain s (fun _ => true) (fun j t => vacc t .r (indexAt s (hd s) 0 3 .sew false j) 4 linkPlace fun _ => none) 0 1 st v ver) ∧
    (∃ st v ver, Chain s (fun _ => true) (fun j t => vsccElem (indexAt s (hd s) 0 3 .sew false j) 4 7 none t) 0 1 st v ver) ∧
    ∃ st v ver, Chain s (fun _ => true) (fun j t => vacc t .w ((baseAt (hd s) 0 + 4 * j) % 2 ^ 64) 4 redPlace fun old => some (old + 1)) 0 1 st v ver :=
  ⟨atHead_of (by decide +kernel), by decide +kernel, by unfold aligned; decide +kernel, ⟨_, _, _, chain_one 0 rfl (by decide +kernel)⟩,
    ⟨_, _, _, chain_one 0 rfl (by decide +kernel)⟩, ⟨_, _, _, chain_one 0 rfl (by decide +kernel)⟩⟩
/-- A page of CMP 0b10. -/
def cmpPage : State := s0.updMe fun c => { c with tlbV := [{ page with leaf := 0x200F }] }
theorem witness_sepia : let s := vec (.vstash 2 4 5 0 false true false) 64 2 0x1000 0x3000 0 cmpPage
    AtHead s (hd s) ∧ (hd s).n % 64 = 0 ∧ s.ctx.vstart.toNat % 64 = 0 ∧ s.ctx.vstart.toNat < (hd s).n ∧
    (match (stashPlaces s .w true 64 0x1000 0x3000).2 with | .ok x => some (x.1.key, x.2.key) | _ => none) = some (0x1000, 0x3000) ∧
    (match (stashPlaces s .r false 64 0x1000 0x3000).2 with | .ok x => some (x.1.key, x.2.key) | _ => none) = some (0x1000, 0x3000) ∧
    s.poisonedAt 0x1000 64 = false ∧ (s.updCtx fun c => { c with vstart := 3 }).ctx.vstart.toNat % 64 ≠ 0 :=
  ⟨atHead_of (by decide +kernel), by decide +kernel⟩
theorem witness_accumulator : a80Round 1 0 = (0x3FFF4000000000000000, 0) ∧ a80Round 0 0 = (0, 0) ∧
    0xFFFF ≤ (a80Round 1 70000).1 / 2 ^ 64 ∧ a80Val (0xFFFF * 2 ^ 64) = .nan false ∧ 0x3FFF4000000000000000 < 2 ^ 80 ∧
    0x3FFF4000000000000000 / 2 ^ 64 < 0xFFFF ∧ Claims.Finite (tileFmt false) (a80Read (tileFmt false) 0x3FFF4000000000000000).1 :=
  ⟨by decide +kernel, by decide +kernel, by decide +kernel, by decide +kernel, by decide +kernel, by decide +kernel, finite_of (by decide +kernel)⟩
/-- A tile in a state. -/
def tl (st : TileSt) (cfg : BitVec 9) (i : Instr) (vl c : Dword) : State := vec i vl 2 0 0 c (s0.updStrand fun y => { y with z0 := { y.z0 with st, cfg } })
theorem witness_tiles : let i : Instr := .topF 0 8 16 5 0 0
    let s := tl .active 0x99 i 0 1
    AtHead s (hd s) ∧ s.actor.who = .user ∧ (s.strand?.map fun y => ((tileOf y 0).st, (tileOf y 0).poison, Memory.wf (tileOf y 0).data)) =
      some (.active, [], true) ∧ ((tl .free 0 i 0 0).strand?.map fun y => (tileOf y 0).st) = some .free ∧
    ((tl .lost 0 i 0 0).strand?.map fun y => (tileOf y 0).st) = some .lost ∧ s.ctx.vstart.toNat < 1 ∧ 2 * (256 * 1) ≤ 1 * s.vregBytes :=
  ⟨atHead_of (by decide +kernel), by decide +kernel⟩
theorem witness_tile_rows : let s := tl .active 0 (.trd 0 false 2 5 np) 1 0
    AtHead s (hd s) ∧ 0 + ((hd s).n - 1) / 256 ≤ 127 ∧ s.ctx.vstart.toNat < (hd s).n ∧ ¬(127 + (257 - 1) / 256 ≤ 127) :=
  ⟨atHead_of (by decide +kernel), by decide +kernel⟩
theorem witness_tile_moves : let s := (tl .active 0 (.tsave 0 5) 0 0x40000).updCtx fun c => { c with vstart := 5119 }
    s.ctx.vstart.toNat < 5120 ∧ 0x40000 % 64 = 0 ∧
    (∃ st v ver, Chain s (fun _ => true) (fun q t => vacc t .w ((0x40000 + 64 * q) % 2 ^ 64) 64 anyPlace fun _ => some 0) 5119 5120 st v ver) ∧
    ∃ st v ver, Chain s (fun _ => true) (fun q t => vacc t .r ((0x40000 + 64 * q) % 2 ^ 64) 64 anyPlace fun _ => none) 5119 5120 st v ver :=
  ⟨by decide +kernel, by decide, ⟨_, _, _, chain_one 5119 rfl (by decide +kernel)⟩, ⟨_, _, _, chain_one 5119 rfl (by decide +kernel)⟩⟩

/-- A line of one NOP, at 0x1000 and the key of that address. -/
def nopLine : Nat := 0x0001
theorem witness_fetch : let s := (bytes 0x1000 64 nopLine s0).updCtx fun c => { c with pc := 0x1002, line := none }
    s.mayIssue = true ∧ s.ctx.pc.toNat / 64 * 64 = 0x1000 ∧ (placeOf s s.actor.core s.isM .s .x 0x1000 64).2 = .ok (at' 0x1000) ∧
    (match s.touch ⟨0x1000, 0, 0, 0, 0⟩ false 0x1000 with
      | .ok v => some (v.poisonedAt 0x1000 64, readN v.mem 0x1000 64) | .error _ => none) = some (false, nopLine) ∧
    0 < s.ctx.pc.toNat / 2 % 32 ∧ s.ctx.pc.toNat / 2 % 32 ≤ nopLine % 32 ∧ s.ctx.pc.toNat % 2 = 0 ∧
    ({ s with poison := [0x1000] } : State).poisonedAt 0x1000 64 = true := by decide +kernel
theorem witness_unassigned : let s := s0.updCtx fun c => { c with line := some (0, 0x3F * 2 ^ 16 + 1) }
    s.mayIssue = true ∧ lineAddr s.ctx.pc = 0 ∧ decodeSlot (0x3F * 2 ^ 16 + 1) (pcSlot s.ctx.pc) = none := by decide +kernel
theorem witness_waits : (runs (.waitaEq 4 5)).atPc = some (.waitaEq 4 5) ∧ (runs (.waitaEq 4 5)).mayIssue = true ∧
    (runs (.ldd 3 4 0)).atPc = some (.ldd 3 4 0) ∧ (runs (.ldd 3 4 0)).actor.seq = false ∧
    (vec (.vld 2 4 0 .none np) 1 2 0 0 0 s0).live = true ∧ (hd (vec (.vld 2 4 0 .none np) 1 2 0 0 0 s0)).ins = .vld 2 4 0 .none np := by
  decide +kernel
/-- A launch whose only strand has retired HALT. -/
def ended : Launch := { job with halted := [0] }
/-- The state after the first increment of a completion. -/
def counted (s : State) (a : Nat) (f : Nat → Nat) : Bool × State :=
  match schedAccess s (pt s) 0 a (some f) with
  | .ok (_, t) => (true, t)
  | .error _ => (false, s)
theorem witness_completion : (sj [ended]).part? 0 = some (pt (sj [ended])) ∧ (sj [ended]).launch? 0 0 = some ended ∧ ended.st = .running ∧
    (∀ i < gang ended, i ∈ ended.halted) ∧ (∀ k ∈ ended.cores, k < 96) ∧ counters ended = [0x1000, 0, 0] ∧
    ((pt (sj [ended])).descOk 0 = true ∧ descRead (sj [ended]) (pt (sj [ended])) 0 0x20 = 0) ∧
    (counted (sj [ended]) 0x1000 fun old => (old % 2 ^ 63 + 1) % 2 ^ 63).1 = true ∧
    (sj [{ job with st := .waiting }]).launch? 0 0 = some { job with st := .waiting } ∧
    (sj [{ job with st := .done, pend := [0x1000] }]).launch? 0 0 = some { job with st := .done, pend := [0x1000] } ∧
    descRead (desc 0 0 1 5 (sj [])) (pt (sj [])) 0 0x20 ≠ 0 := by decide +kernel
theorem witness_cancelled_strand : let x := { job with rcd := job.rcd.set 8 0 }
    let s := sj [x]
    let p := pt s
    s.launch? 0 0 = some x ∧ x.cores = [0] ∧ gang x = 1 ∧ ((s.core 0).strand.map fun y => (y.part, y.launch, y.idx, y.run)) = some (0, 0, 0, .running) ∧
    (∀ g : Fin 4, (s.core 0).eng[g].entries = []) ∧ counters x = [0, 0, 0] ∧ saveOk s p x.ptb (x.saveBase 0) = true ∧
    (counted s (x.saveBase 0 + 0x198) fun _ => 0x14).1 = true ∧ (counted s (x.saveBase 0 + 0x1A0) fun _ => 0).1 = true ∧
    (counted s (x.saveBase 0 + 0x1A8) fun _ => 2).1 = true := by decide +kernel
theorem witness_records : let s := block 0x2000 job.rcd (desc 0x2000 0x2000 0xF 0 (sj []))
    let p := pt s
    s.part? 0 = some p ∧ p.descOk 0 = true ∧ p.qcache = [] ∧ p.st ≠ 3 ∧ descRead s p 0 0x18 % 2 = 1 ∧ descRead s p 0 0x20 = 0 ∧
    p.launches.length < 4096 ∧ descRead s p 0 0 = 0x2000 ∧ 0x2000 % 128 = 0 ∧ recordValid p job.rcd = true ∧ p.sel = [] ∧
    (∀ i < 16, (match schedAccess s p 0 ((0x2000 + 8 * i) % 2 ^ 64) none with | .ok x => some x.1 | .error _ => none) =
      some (job.rcd.getD i 0).toNat) ∧ (job.rcd.getD 4 0) = 0 ∧ (job.rcd.getD 6 0) = 0 ∧ Memory.wf s.mem = true ∧
    descRead (desc 0 0 0xF 0 s) p 0 0 = 0 ∧ descRead (desc 0 0 0 0 s) p 0 0x18 % 2 = 0 ∧ 0x2001 % 128 ≠ 0 ∧
    (match schedAccess s p 0 (2 ^ 55) none with | .ok _ => false | .error f => decide (f.cause < 256 ∧ f.addr < 2 ^ 64)) = true := by decide +kernel
theorem witness_queue_state : let s := block 0x2000 (job.rcd.set 14 0x3000) (desc 0 0x2000 0xF 0 (sj []))
    let c (b w : Nat) : State := { s with parts := s.parts.map fun p => { p with qcache := [(0, b, w)] } }
    ((pt (c 0x2000 0)).qcache.find? fun x => x.1 = 0) = some (0, 0x2000, 0) ∧ ((pt (c 0x2000 0x3000)).qcache.find? fun x => x.1 = 0) = some (0, 0x2000, 0x3000) ∧
    (match schedAccess (c 0x2000 0) (pt (c 0x2000 0)) 0 ((0x2000 + 0x70) % 2 ^ 64) none with | .ok x => some x.1 | .error _ => none) = some 0x3000 ∧
    descRead s (pt s) 0 8 = 0x2000 := by decide +kernel
/-- A launch that waits on a counter at 0x2000 to reach 3. -/
def dep (req : Dword) : Launch := { job with st := .waiting, cores := [], rcd := (job.rcd.set 4 0x2000).set 5 req }
theorem witness_dependences : let s (v : Nat) := bytes 0x2000 8 v (sj [dep 3])
    (s 3).launch? 0 0 = some (dep 3) ∧ (pt (s 3)).descOk 0 = true ∧ descRead (s 3) (pt (s 3)) 0 0x20 = 0 ∧
    (dep 3).field 0x20 = 0x2000 ∧ (dep 3).field 0x28 = 3 ∧ (dep 3).field 0x30 = 0 ∧
    [2, 3, 2 ^ 63 + 3].map (fun v => match counterRead (s v) (pt (s v)) 0 0x2000 with | .ok x => some x.1 | .error _ => none) =
      [some 2, some 3, some (2 ^ 63 + 3)] ∧
    (match counterRead (s 3) (pt (s 3)) 0 (2 ^ 55) with | .ok _ => false | .error f => decide (f.cause < 256 ∧ f.addr < 2 ^ 64)) = true := by decide +kernel
/-- A launch ready for its first placement, and one that runs on core 1 with a higher priority number and a later place. -/
def nextUp : Launch := { job with id := 1, st := .ready, everRun := false, pri := 3, cores := [], barB := [], readSeq := 1, readySeq := 1 }
theorem first_one {p : Partition} {x : Launch} (h : p.launches = [x]) (hw : waitsForCores x) : IsFirst p x := by
  refine ⟨by simp [h], hw, fun y hy _ => .inl ?_⟩
  simpa [h] using hy
theorem witness_placement : let s := sj [nextUp]
    s.part? 0 = some (pt s) ∧ IsFirst (pt s) nextUp ∧ (pt s).first + (pt s).n ≤ 8 ∧ Memory.wf s.mem = true ∧ (pt s).st = 0 ∧
    Arranged 1 [1] (freeOf s (pt s)) ∧ ¬Arranged 1 [0] (freeOf s (pt s)) := by
  refine ⟨by decide +kernel, first_one (by decide +kernel) (.inl rfl), by decide +kernel, by decide +kernel, by decide +kernel, ?_, ?_⟩
  · exact ⟨by decide, by decide, by decide +kernel, by decide⟩
  · intro h
    exact absurd (h.2.2.1 0 (by simp)) (by decide +kernel)
theorem witness_release : let x := { job with cores := [0, 1], barB := [0, 0], arrived := [0], halted := [1] }
    (sj [x]).launch? 0 0 = some x ∧ x.st = .running ∧ (∀ i < x.cores.length, i ∈ x.arrived ∨ i ∈ x.halted) ∧ x.barB.length = x.cores.length ∧
    (∀ i < x.cores.length, x.barB.getD i 0 ≤ x.barL) ∧ x.cores.Nodup ∧ (∀ k ∈ x.cores, k < 96) ∧
    (runs .barl).ctx.line.isSome = true ∧ nextUp.st ≠ .running := by decide +kernel
/-- All twelve cores of the partition taken by one launch of a lower priority. -/
def full : State :=
  let all := List.range 12
  let x := { job with cores := all, rcd := job.rcd.set 3 (12 + 64 * 2 ^ 32), barB := List.replicate 12 0 }
  all.foldl (fun s k => s.updCore (coreId k) fun c => { c with strand := some (Strand.start 0 0 k 12 64 false false) }) (sj [x, nextUp])
theorem witness_swap : (freeOf full (pt full) = [] ∧ (pt full).st = 0 ∧ (∀ y ∈ (pt full).launches, y.imgs = []) ∧
    ((pt full).launches.map fun y => y.id).Nodup ∧ ((pt full).launches.filter fun y => y.st = .running && decide (y.pri < nextUp.pri) &&
      !((List.range (gang y)).all y.halted.contains)).map (fun y => (y.id, y.cores)) = [(0, List.range 12)]) ∧
    IsFirst (pt full) nextUp ∧ Kept nextUp ∧ (∀ k ∈ List.range 12, Rested (full.core (coreId k))) ∧ ArrangedFor nextUp [1] (List.range 12) ∧
    ¬FitsFor nextUp [] := by
  refine ⟨by decide +kernel, ⟨by decide +kernel, .inl rfl, ?_⟩, .inl rfl, by unfold Rested; decide +kernel,
    by unfold ArrangedFor Arranged; decide +kernel, ?_⟩
  · have : (pt full).launches = [{ job with cores := List.range 12, rcd := job.rcd.set 3 (12 + 64 * 2 ^ 32), barB := List.replicate 12 0 }, nextUp] := by
      decide +kernel
    intro y hy hw
    rw [this] at hy
    simp only [List.mem_cons, List.not_mem_nil, or_false] at hy
    rcases hy with rfl | rfl
    · rcases hw with h | h | h <;> simp [job] at h
    · exact .inl rfl
  · rintro ⟨cs, ⟨hl, -, hm, -⟩, -⟩
    have h1 : gang nextUp = 1 := by decide +kernel
    rw [h1] at hl
    obtain ⟨k, rfl⟩ := List.length_eq_one_iff.mp hl
    simpa using hm k (by simp)
theorem witness_images : Memory.wf s0.mem = true ∧ ((s0.core 0).strand.map fun st => (Memory.wf st.ct, Memory.wf st.z0.data, Memory.wf st.z1.data)) =
    some (true, true, true) ∧ Memory.wf (s0.core 0).user.vfile = true ∧ Memory.wf (s0.core 0).user.masks = true := by decide +kernel
/-- A strand frozen in place for a swap, its image still to write. -/
def leaving : Launch := { job with st := .swapping, imgs := [0] }
theorem witness_image_write : let s := (sj [leaving]).updStrand fun y => { y with frz := .swap }
    s.partOfCore s.actor.core = some (pt s) ∧ s.part? (pt s).first = some (pt s) ∧
    (pt s).launches.find? (fun y => y.st = .swapping && (y.imgs ++ y.inPlace).contains s.actor.core.val) = some leaving ∧
    0 ∈ leaving.imgs ∧ s.strand?.isSome = true ∧ saveOk s (pt s) leaving.ptb (leaving.saveBase 0) = true ∧
    (s.strand?.map fun st => strandPoisoned s 0 st) = some false ∧
    ((imagePages s.me.modes false false).all fun j =>
      match translateSched s (pt s) leaving.ptb .w (leaving.saveBase 0 + 65536 * j) with | .ok _ => true | .error _ => false) = true ∧
    saveOk s (pt s) leaving.ptb 1 = false ∧ (∀ j ∈ [0], Rested (s.core (coreId j))) ∧
    (((settleGang s leaving).core 0).strand.map fun y => (y.frz, y.run)) = some (.swap, .running) ∧
    (s.strand?.map fun y => decide (y.run ≠ .held ∧ y.run ≠ .draining ∧ y.frz ≠ .drain)) = some true := by
  unfold Rested
  decide +kernel
/-- A launch swapped out whole, and one whose strand is still in place. -/
def away : Launch := { job with st := .swapped, cores := [] }
/-- An image of the strand of a launch of one, of a partition of one slice: NV, LAUNCH_SIZE, PART_ID and VCP. -/
def image (s : State) : State := bytes 0x4000148 8 64 (bytes 0x4000118 8 1 (bytes 0x4000128 8 0x10 (bytes 0x4000160 8 1 s)))
theorem witness_resume : let s := image (sj [away])
    let t := sj [{ job with st := .swapping, inPlace := [0] }]
    s.part? 0 = some (pt s) ∧ IsFirst (pt s) away ∧ (pt s).st = 0 ∧ away.st ≠ .ready ∧ gang away = 1 ∧ 1 ∈ freeOf s (pt s) ∧
    (loadImage s (pt s) away 0 (coreId 1)).isSome = true ∧ loadImage (noq [away]) (pt s) { away with rcd := away.rcd.set 2 1 } 0 (coreId 1) = none ∧
    IsFirst (pt t) { job with st := .swapping, inPlace := [0] } ∧ ArrangedFor { job with st := .swapping, inPlace := [0] } [0] (freeOf t (pt t) ++ [0]) ∧
    ¬ArrangedFor { job with st := .swapping, inPlace := [0] } [1] (freeOf t (pt t) ++ [0]) ∧ 12 * (pt s).n < 13 := by
  refine ⟨by decide +kernel, first_one (by decide +kernel) (.inr (.inl rfl)), by decide +kernel, by decide, by decide +kernel, by decide +kernel,
    by decide +kernel, ?_, first_one (by decide +kernel) (.inr (.inr ⟨rfl, rfl⟩)), by unfold ArrangedFor Arranged; decide +kernel,
    by unfold ArrangedFor Arranged; decide +kernel, by decide +kernel⟩
  have : (loadImage (noq [away]) (pt (image (sj [away]))) { away with rcd := away.rcd.set 2 1 } 0 (coreId 1)).isNone = true := by decide +kernel
  simpa using this

/-- `s0` with an entry outstanding on context 0. -/
def se (e : EngEntry) : State := s0.updEng 0 0 fun g => { g with last := 1, entries := [e] }
/-- The cause of an access that faults. -/
def faultOf : Acc → Option Nat
  | .fault f _ => some f.cause
  | _ => none
theorem leads_one {s : State} {e : EngEntry} (h0 : s.me.eng[(0 : Fin 4)].entries = [e]) (hm : e.marker = false)
    (h : ∀ j : Fin 4, j ≠ 0 → s.me.eng[j].entries = []) : Leads s 0 e := by
  refine ⟨by rw [h0]; exact List.mem_singleton.mpr rfl, hm, fun j d hd _ _ => ?_⟩
  by_cases hj : j = 0
  · subst hj
    rw [h0] at hd
    exact .inl ⟨rfl, by simpa using hd⟩
  · rw [h j hj] at hd
    simp at hd
theorem able_one {s : State} {e : EngEntry} (hw : e.w = 0) (ho : s.me.engOff = false) (h : (s.strand?.map fun y => decide (y.frz ≠ .swap)) = some true) :
    Able s e := by
  refine ⟨hw, ho, ?_⟩
  cases hs : s.strand? with
  | none => simp [hs] at h
  | some y => exact ⟨y, rfl, by simpa [hs] using h⟩
theorem witness_engine_dispatch : let e := ent 1 0 false
    let s := se e
    Leads s 0 e ∧ Able s e ∧ s.me.efaultNo = none ∧ plainCopy e ∧ performs (nextRead s e) = true ∧
    performs (nextWrite (got (nextRead s e)).1 e (got (nextRead s e)).2.1) = true := by
  refine ⟨leads_one (by decide +kernel) rfl (by decide +kernel), able_one rfl (by decide +kernel) (by decide +kernel), by decide +kernel, ?_,
    by decide +kernel, by decide +kernel⟩
  unfold plainCopy
  decide +kernel
theorem witness_engine_complete : let e := { ent 1 0 false with progress := 8 }
    let f := { e with blk := (cpy8.set 11 0x5000).set 12 7 }
    let g := { e with blk := cpy8.set 15 0x5000 }
    e.progress = (parseCmd e.blk).total ∧ (parseCmd e.blk).caddr = 0 ∧ (parseCmd e.blk).naddr = 0 ∧ (parseCmd f.blk).naddr = 0x5000 ∧
    (se e).me.eng[(0 : Fin 4)].entries = [] ++ e :: [] ∧
    performs (access (se f) 0 false false .e 0 .w false false 0x5000 8 anyPlace fun _ => some 7) = true ∧ (parseCmd g.blk).caddr = 0x5000 ∧
    (match checksum 0 (parseCmd g.blk) ((List.range 8).map fun i => (0x3000 + i, 1)) (se g) with | .ok _ => true | _ => false) = true ∧
    (se { e with marker := true }).me.eng[(0 : Fin 4)].entries.head?.map (fun d => d.marker) = some true := by decide +kernel
/-- The read of a poisoned byte, of a line filled under another class, of an unbanked window offset, of a peer that is not there, and of an
unmapped address; and a write of a page that may not be written. -/
theorem witness_engine_faults : let e := ent 1 0 false
    faultOf (nextRead { se e with poison := [0x2000] } e) = some 0x11 ∧
    faultOf (nextRead { se e with l2 := [{ line := 0x2000, ver := 0, cmp := 2, dirty := false, tier := 0, tierBad := 0 }] } e) = some 0x0A ∧
    faultOf (nextRead (se e) { e with blk := cpy8.set 0 0x7FFF00000000 }) = some 0x0C ∧
    faultOf (nextRead ((se e).updMe fun c => { c with tlbE := [{ page with leaf := 0x30F }] }) e) = some 0x0B ∧
    faultOf (nextRead ((se e).updMe fun c => { c with tlbE := [] }) e) = some 0x06 ∧
    faultOf (nextWrite ((se e).updMe fun c => { c with tlbE := [{ page with leaf := 0x3 }] }) e 0) = some 0x07 := by decide +kernel
theorem witness_engine_answers : (mord 0 s0).actor.who = .mordant ∧ (mord 0 s0).me.efaultNo = none ∧
    ((mord 0 s0).updMe fun c => { c with efaultNo := some 1, efault := .ofNat 64 (2 ^ 63) }).me.efaultNo = some 1 ∧ s0.actor.who = .user := by
  decide +kernel
/-- A line of L2. -/
def line (a : Nat) (v : Dword) : L2Line := { line := a, ver := v, cmp := 0, dirty := false, tier := 0, tierBad := 0 }
theorem witness_memory_events : ({ s0 with l2 := [line 0x2000 3] } : State).l2Line? 0x2008 = some (line 0x2000 3) ∧ s0.part? 0 = some (pt s0) ∧ Memory.wf s0.mem = true ∧ (pt s0).st ≠ 3 ∧
    0x2000 + 8 ≤ 48000000000 ∧ 0x2000 % 16 = 0 ∧ s0.poisonedAt 0x2000 16 = false ∧ 0x2000 % 64 + 1 ≤ 64 ∧
    (pt { s0 with parts := s0.parts.map fun p => { p with vfOn := true } }).vfOn = true ∧
    ({ s0 with poison := [0x2000] } : State).poisonedAt 0x2000 8 = true ∧ (∀ p ∈ s0.parts, p.first + p.n ≤ 8) := by decide +kernel
/-- `s0` with its partition changed. -/
def sp (f : Partition → Partition) : State := { s0 with parts := s0.parts.map f }
/-- Two masters, and a claim of each. -/
def m1 : Master := { cls := 1, id := 1 }
def m2 : Master := { cls := 2, id := 1 }
theorem witness_ownership : let claimed := sp fun p => { p with claims := [⟨m1, 9⟩, ⟨m2, 3⟩], openAt := some 0 }
    let late := { claimed with now := 125000 }
    let owned := sp fun p => { p with owner := some ⟨m1, 9⟩, claims := [⟨m2, 3⟩] }
    late.part? 0 = some (pt late) ∧ (pt late).openAt = some 0 ∧ 0 + 125000 ≤ late.now ∧ (pt late).owner = none ∧
    ((pt late).claims.all fun y => y = ⟨m1, 9⟩ || decide (m1.cls < y.who.cls)) = true ∧ (9 : Dword) ≠ 0 ∧ m1.cls ≠ 0 ∧
    ((pt owned).owner.map fun y => y.who) = some m1 ∧ (pt owned).claims.find? (fun y => y.nonce = 3) = some ⟨m2, 3⟩ ∧
    (pt (sp fun p => { p with owner := some ⟨m2, 3⟩ })).owner = some ⟨m2, 3⟩ ∧ m2.cls = 2 ∧ (pt s0).owner = none := by decide +kernel
/-- R329: an override takes ownership when the session's chain ends in the operator key, and only then. -/
theorem test_override : let s := { sp fun p => { p with owner := some ⟨m2, 3⟩ } with otp := { s0.otp with opKey := [7] } }
    let who (root : Option (List Byte)) : Option Master := (pt (after (.class0Override 0 ⟨5, root⟩ 9) s)).owner.map fun y => y.who
    who (some [7]) = some ⟨0, 5⟩ ∧ who (some [8]) = some m2 ∧ who none = some m2 := by decide +kernel
/-- A partition in a state, owned by a master. -/
def own (st : BitVec 3) (ls : List Launch) : State := sp fun p => { p with st, owner := some ⟨m1, 9⟩, launches := ls }
theorem witness_commands : [0, 1, 2, 4].map (fun st => ((own st [job]).part? 0).map fun p => (p.st, p.owner.map fun y => y.who)) =
    [some (0, some m1), some (1, some m1), some (2, some m1), some (4, some m1)] ∧ ((pt (own 0 [job])).launches.map fun y => y.id).Nodup ∧
    (0x1 : Dword).toNat / 2 ^ 8 = 0 ∧ (0x10001 : Dword).toNat / 2 ^ 8 ≠ 0 ∧
    ((pt (own 1 [{ job with st := .waiting }])).launches.all fun y => y.st ≠ .running && y.st ≠ .swapping) = true ∧
    ((pt (sp fun p => { p with dhlid := 5, launches := [job] })).launches.filter fun y => y.st = .running && y.field 0x60 = 5).length = 1 ∧
    (s0.core 0).strand.isSome = true := by decide +kernel
theorem witness_resets : let low := sp fun p => { p with lowAt := some 0 }
    s0.part? 0 = some (pt s0) ∧ (pt s0).first + (pt s0).n ≤ 8 ∧ 0 < (pt s0).n ∧ Memory.wf s0.mem = true ∧
    bytesNat ((s0.fwImage.drop 0x0C).take 4) ≤ 1000000000 ∧ (pt s0).wdogAt + 250000000 ≤ 250000000 ∧ ¬((pt s0).wdogAt + 250000000 ≤ s0.now) ∧
    (pt low).lowAt = some 0 ∧ (pt low).st ≠ 2 ∧ (pt s0).launches = [] ∧ (pt s0).qcache = [] ∧ (mord 0 s0).actor.who = .mordant ∧
    (mord 0 s0).partOfCore 0 = some (pt s0) := by decide +kernel
/-- Two quiesced partitions of one slice joined: BASE 0, K 2, M 2. -/
theorem witness_resize : let s := { own 2 [] with parts := [{ pt (own 2 []) with first := 0 }, { pt (own 2 []) with first := 1 }] }
    let arg := (4 + 0 * 2 ^ 8 + 2 * 2 ^ 12 + 2 * 2 ^ 16 : Nat)
    (s.part? 0).map (fun p => (p.owner.map fun y => y.who, p.st)) = some (some m1, 2) ∧ arg / 2 ^ 8 % 16 = 0 ∧ arg / 2 ^ 12 % 16 = 2 ∧
    arg / 2 ^ 16 % 16 = 2 ∧ arg / 2 ^ 20 = 0 ∧ (∀ q ∈ s.parts, 0 < q.n) ∧
    (∀ q ∈ s.parts, q.first + q.n ≤ 2 ∧ (q.owner.map fun y => y.who) = some m1 ∧ q.st = 2) ∧
    ((List.range 96).all fun k => ((s.core (coreId k)).strand.map fun y => decide (y.part = k / 12)).getD true) = true := by decide +kernel
theorem witness_outside : let on := mord 0 (sp fun p => { p with vfOn := true, msiOn := true, msi := p.msi.map fun e => { e with masked := false } })
    on.partOfCore on.actor.core = some (pt on) ∧ on.part? (pt on).first = some (pt on) ∧ (pt on).vfOn = true ∧ (pt on).msiOn = true ∧
    ((pt on).msi[3]?.map fun e => e.masked) = some false ∧ ((pt s0).msi[3]?.map fun e => e.masked) = some true ∧ (pt (sp fun p => { p with vfOn := false })).vfOn = false ∧
    on.ctx.queue = [] ∧ (sp fun p => { p with msiPend := 8 }).part? 0 = some { pt s0 with msiPend := 8 } ∧ (8 : BitVec 16).getLsbD 3 = true := by
  decide +kernel
theorem witness_service : s0.partOfSlice 8 = none ∧ s0.part? 3 = none ∧ s0.partOfSlice 0 = some (pt s0) ∧ (pt (own 2 [])).st = 2 ∧ (pt s0).st ≠ 2 ∧
    s0.parts.find? (fun q => q.ownsKey 0x2000) = some (pt s0) ∧ 0x2000 < 2 ^ 60 + 256000000000 - 1000000000 ∧
    s0.parts.find? (fun q => q.ownsKey (2 ^ 60 + 256000000000 - 1)) = some (pt s0) ∧ s0.partOfCore 0 = some (pt s0) ∧
    (s0.core (coreId 0)).strand ≠ none ∧ (s0.core (coreId 1)).strand = none ∧ s0.partOfCore 1 = some (pt s0) := by decide +kernel
/-- An image that BOOT refuses whatever the functions that the spec only names answer; with no partition, and with one. The clauses of an
image that is good cover the rest: whether one is rests on those functions, which have no value in Lean. -/
theorem witness_boot : State.reset.parts = [] ∧ s0.parts ≠ [] ∧ bytesNat (([] : List Byte).take 4) ≠ 0x4E5A5049 := by decide +kernel
/-- Three levels of page tables at 0x10000, 0x20000 and 0x30000 of GDDR-7. -/
def tables : State := bytes 0x10000 8 (0x21 + 2 * 2 ^ 16) (bytes 0x20000 8 (0x21 + 3 * 2 ^ 16) (bytes 0x30000 8 (0xF + 5 * 2 ^ 16)
  (s0.updMe fun c => { c with tlbS := [], ptbase := 0x10000 })))
theorem witness_walk : walk tables (pt tables) 0x10000 0 = .leaf (0xF + 5 * 2 ^ 16) false ∧ walk s0 (pt s0) 0x10000 0 = .invalid ∧
    walk s0 (pt s0) 0x10200 0 = .bad 0x10000 ∧ tables.partOfCore 0 = some (pt tables) ∧
    tlbFind ((tables.core 0).tlb .s) ((tables.core 0).ptbase.toNat / 2 ^ 48) 0 = none ∧ readN tables.mem 0x10000 8 % 2 = 1 ∧
    (readN tables.mem 0x10000 8).testBit 5 = true ∧ (readN tables.mem 0x30000 8).testBit 5 = false ∧ readN tables.mem 0x20000 8 / 2 % 16 = 0 := by
  decide +kernel
theorem witness_leaf : (0xF : Nat).testBit 1 = true ∧ (0xF : Nat).testBit 4 = false ∧ (0x1F : Nat).testBit 4 = true ∧ (0x30F : Nat) / 2 ^ 8 % 4 = 3 ∧
    (0x20F : Nat) / 2 ^ 8 % 4 = 2 ∧ (5 : Nat) * 2 ^ 16 < 1 * 48000000000 := by decide
theorem witness_windows : 0x7FFF00000000 + 64 < 0x7FFF00000000 + 2 ^ 24 ∧ 0 / 4 * 4 + (0x7FFE00000000 - 0x7FFE00000000) / 2 ^ 24 = 0 ∧
    (s0.core (coreId 1)).strand = none ∧ ((List.range 32).filter fun b => (2 : Nat) / 4 ^ b % 4 = 2) = [0] := by decide +kernel
theorem witness_round_trip : (Instr.vadd 2 0 (.s 5) np).wf = true ∧ isEvent (.vadd 2 0 (.s 5) np) = false := by decide
/-- A turn. -/
def turn (s : State) : Option State := match nextTurn s with
  | some (u, .job) => some u
  | _ => none
theorem witness_steps : (turn (runs .nop)).map (fun u => (u.actor.seq, u.mayIssue, u.ctx.line.isSome, u.atPc)) = some (false, true, true, some .nop) ∧
    (turn (s0.updCtx fun c => { c with line := none })).map (fun u => (u.actor.seq, u.mayIssue, u.ctx.line.isSome)) = some (false, true, false) ∧
    (turn (s0.updCtx fun c => { c with line := some (0, 0x3F * 2 ^ 16 + 1) })).map (fun u => (u.mayIssue, u.atPc)) = some (true, none) ∧
    (turn (vec .nop 1 2 0 0 0 s0)).map (fun u => (u.actor.seq, u.live, u.ctx.queue.length)) = some (true, true, 1) ∧
    (turn ((runs (.add 3 4 5)).updCtx fun c => { c with pregs := 0x10 })).map (fun u => (u.mayIssue, u.atPc, u.ctx.pregs.getLsbD 4)) =
      some (true, some (.add 3 4 5), true) ∧
    (turn (s0.updStrand fun y => { y with frz := .debug })).map (fun u => u.mayIssue) = some false ∧ isEvent .lineFetch = true := by decide +kernel
/-- Whether what the acting context would run changes its context. -/
def does (s : State) : Bool := match runJob s with
  | .next t => decide (t.ctx ≠ s.ctx)
  | _ => true
/-- The user strand and Mordant of a core both have work, a NOP or a VCONFLICT. -/
def both (seq : Bool) : State :=
  let e : Entry := { ins := .vconflict 1 2 np, pc := 2, a := 0, b := 0, c := 0, vl := 1, vtype := 2 }
  { (runs .nop).updMe fun c => { c with mOn := true, user := { c.user with queue := [e] }, mordant := { c.user with queue := [e] } } with
    agenda := [{ core := 0, who := .user, seq, stop := none, what := none, dt := 1 }] }
/-- Core 0 acting for a context. -/
def by' (w : Who) (seq : Bool) (s : State) : State := { s with actor := { core := 0, who := w, seq, stop := none } }
theorem witness_shares : ∀ q ∈ [false, true], (by' .user q (both q)).live = true ∧ (by' .mordant q (both q)).live = true ∧
    does (by' .user q (both q)) = true ∧ does (by' .mordant q (both q)) = true ∧ ¬((both q).now + 1 < ((both q).core 0).yieldTo) ∧
    ((both q).updMe fun c => { c with yieldTo := 64 }).me.yieldTo = 64 := by decide +kernel
/-- R302: with f at 1, Mordant takes one slot, and the next beat of its entry of two; R114: VCONFLICT is charged two for a strip. -/
theorem test_shares : (match nextTurn (both false) with | some (u, .job) => some (u.actor.who, u.me.arbS) | _ => none) = some (.mordant, [true]) ∧
    (match nextTurn (both true) with | some (u, .beat) => some (u.actor.who, u.me.arbE, u.me.mordant.beats) | _ => none) = some (.mordant, [true], 1) ∧
    (match nextTurn ((both true).updMe fun c => { c with arbE := [true] }) with
      | some (u, .beat) => some (u.actor.who, u.me.arbE, u.me.user.beats) | _ => none) = some (.user, [false, true], 1) ∧
    beats (by' .user true (both true)) ((by' .user true (both true)).ctx.queue.headD (hd s0)) = 2 := by decide +kernel
/-- R49: a wait whose condition is false leaves its slots to Mordant. -/
theorem test_waiting_yields : let s := { (regs [(4, 0x1000), (5, 1)] (runs (.waitaEq 4 5))).updMe fun c => { c with mOn := true, mordant := { c.user with line := (runs .nop).ctx.line } } with
      agenda := [{ core := 0, who := .user, seq := false, stop := none, what := none, dt := 1 }] }
    s.ready .user false = false ∧ (match nextTurn s with | some (u, .job) => some (u.actor.who, u.me.arbS) | _ => none) = some (.mordant, []) := by
  decide +kernel
/-- A firmware instruction of a user strand traps before its poisoned source does (R74). -/
theorem test_firmware_before_poison : let s := ((runs (.sysw 0x80 5)).updCtx fun c => { c with pregs := 0x20 }).updStrand fun y => { y with trapvec := 0x40 }
    (match step s with | .next t => t.strand?.map fun y => y.trapcause | _ => none) = some 0x03 := by decide +kernel
theorem witness_canonical : Canonical State.reset := by
  refine ⟨rfl, rfl, fun k => ?_⟩
  have : State.reset.core k = Core.reset := by simp [State.core, State.reset]
  rw [this]
  exact ⟨rfl, rfl, rfl, rfl, fun st h => by simp [Core.reset] at h⟩
/-- `s0` with bank 0 a FIFO that holds `n` bytes. -/
def fifo (n : Nat) : State := s0.updMe fun c => { c with modes := 3, fifos := [{ bank := 0, held := n, oldest := 196600 }] }
/-- Its port, reached by the scalar thread and by the vector stream; 8 bytes held, 4, and none free. -/
theorem witness_fifo : ∀ n ∈ [4, 8, 196608], ∀ kd ∈ [Kind.r, .w],
    AtPort (fifo n) (placeOf (fifo n) (fifo n).actor.core (fifo n).isM .s kd 0x7FFF00F00000 8).1 kd 0x7FFF00F00000 8 0 ∧
    (placeOf (fifo n) (fifo n).actor.core (fifo n).isM .v kd 0x7FFF00F00000 8).2 = .ok (.fifo 0) ∧
    sbDelays (placeOf (fifo n) (fifo n).actor.core (fifo n).isM .v kd 0x7FFF00F00000 8).1 (fifo n).actor.core (fifo n).actor.seq 0 0xF00000 8
      (decide (kd = .w)) = false := by
  have h : ∀ n ∈ [4, 8, 196608], ∀ kd ∈ [Kind.r, .w],
      (placeOf (fifo n) (fifo n).actor.core (fifo n).isM .s kd 0x7FFF00F00000 8).2 = .ok (.fifo 0) ∧
      sbDelays (placeOf (fifo n) (fifo n).actor.core (fifo n).isM .s kd 0x7FFF00F00000 8).1 (fifo n).actor.core (fifo n).actor.seq 0
        (0x7FFF00F00000 - localBase) 8 (decide (kd = .w)) = false ∧
      (placeOf (fifo n) (fifo n).actor.core (fifo n).isM .v kd 0x7FFF00F00000 8).2 = .ok (.fifo 0) ∧
      sbDelays (placeOf (fifo n) (fifo n).actor.core (fifo n).isM .v kd 0x7FFF00F00000 8).1 (fifo n).actor.core (fifo n).actor.seq 0 0xF00000 8
        (decide (kd = .w)) = false := by decide +kernel
  exact fun n hn kd hk => ⟨⟨Prod.ext rfl (h n hn kd hk).1, (h n hn kd hk).2.1⟩, (h n hn kd hk).2.2⟩
theorem witness_fifo_held : (fifoBytes (fifo 8) 0 0).length = 8 ∧ (fifoBytes (fifo 4) 0 0).length = 4 ∧ ¬(196608 < 8 + 8) ∧
    (∀ key ∈ (fifoKeys (fifo 8) 0 0).take 8, (fifo 8).poisonedAt key 1 = false) ∧
    (∃ key ∈ (fifoKeys (fifo 8) 0 0).take 8, ({ fifo 8 with poison := [4 * 2 ^ 60 + 196544] } : State).poisonedAt key 1 = true) := by decide +kernel
/-- R142: the oldest byte is the lowest, and a wrapped queue reads on from the start of its bank. -/
theorem test_fifo_pops_oldest : reg (.ldbu 3 4 0) (bytes (4 * 2 ^ 60 + 196600) 8 0x8877665544332211 (regs [(4, 0x7FFF00F00000)] (fifo 12))) 3 = 0x11 ∧
    ((after (.ldbu 3 4 0) (bytes (4 * 2 ^ 60 + 196600) 8 0x8877665544332211 (regs [(4, 0x7FFF00F00000)] (fifo 12)))).me.fifo 0).oldest = 196601 := by
  decide +kernel
theorem witness_ldv_window : let b := s0.updMe fun c => { c with modes := 2 }
    (placeOf b b.actor.core b.isM .s .r 0x7FFF00000000 8).2 = .ok (.bank 0 0 (4 * 2 ^ 60)) := by decide +kernel
/-- Sets of VALSET: a store on a line no check names, a misaligned entry, one that faults, one on an uncached page, a poisoned one, and one
that is not readable. -/
theorem witness_valset_refused :
    let two (a b : Nat) : State := bytes 0x1000 32 (a + b * 2 ^ 128) (regs [(4, 0x1000), (5, 0x101)] s0)
    let loads (s : State) := match (loadMany 4 (s.rd 4).toNat s).2 with | .ok vs => some vs | _ => none
    let place (s : State) (va : Nat) := (placeOf (loadMany 4 (s.rd 4).toNat s).1 0 false .s .w va 8).2
    loads (two 0x2000 0x2040) = some [0x2000, 0, 0x2040, 0] ∧ 0x2000 / 64 ≠ 0x2040 / 64 ∧ loads (two 0x2001 0x2008) = some [0x2001, 0, 0x2008, 0] ∧
    place (two (2 ^ 55) 0) (2 ^ 55) = .error ⟨0x07, 2 ^ 55⟩ ∧
    place ((two 0x2000 0x2000).updMe fun c => { c with tlbS := [{ page with leaf := 0x80F }] }) 0x2000 = .ok (.xl ⟨0x2000, 0, 2, 0, 0⟩) ∧
    place (two 0x2000 0x2000) 0x2000 = .ok (at' 0x2000) ∧
    (match (two 0x2000 0x2000).touch ⟨0x2000, 0, 0, 0, 0⟩ false 0x2000 with
      | .ok z => some (({ z with poison := [0x2000] } : State).poisonedAt 0x2000 8) | .error _ => none) = some true ∧
    (match (loadMany 4 (2 ^ 55) s0).2 with | .error (some f) => some f.cause | _ => none) = some 0x06 := by decide +kernel
theorem witness_raised : ¬(0x01 ≤ (0x14 : BitVec 8).toNat ∧ (0x14 : BitVec 8).toNat ≤ 0x13) ∧ 0x01 ≤ (0x05 : BitVec 8).toNat ∧ (0x05 : BitVec 8).toNat ≤ 0x13 := by
  decide
theorem witness_drain_ends : let s := sh.updStrand fun y => { y with run := .draining, selfPc := some 0x2004 }
    s.actor.who = .user ∧ (s.strand?.map fun y => (y.run, y.hs)) = some (.draining, true) ∧
    engDrained (s0.updEng 0 0 fun g => { g with last := 1, entries := [ent 1 0 false] }) 0 = false := by decide +kernel
theorem witness_cancel_queues : let s := regs [(4, 0x1000)] (block 0x2000 job.rcd (desc 0x2000 0x2000 1 0 (sj [job])))
    s.partOfCore s.actor.core = some (pt s) ∧ s.part? (pt s).first = some (pt s) ∧ s.rd 4 ≠ 0 ∧ (pt s).descOk 0 = true ∧ descRead s (pt s) 0 0x08 = 0x2000 ∧
    (pt s).qcache = [] ∧ State.reset.partOfCore State.reset.actor.core = none ∧ Memory.wf s.mem = true := by decide +kernel
/-- A stable page, with one way of stable cache that holds its line or not. -/
theorem witness_stable : let s := s0.updMe fun c => { c with modes := 1, tlbV := [{ page with leaf := 0xC0B }] }
    (placeOf s 0 false .v .r 0x1000 8).2 = .ok (.xl ⟨0x1000, 0, 3, 0, 0⟩) ∧ ((List.range 32).countP fun b => s.me.modes.toNat / 4 ^ b % 4 = 1) = 1 ∧
    (s.me.stable.find? fun l => l.1 = 0x1000) = none ∧
    ((s.updMe fun c => { c with stable := [(0x1000, 5, 0)] }).me.stable.find? fun l => l.1 = 0x1000) = some (0x1000, 5, 0) ∧
    ({ s with poison := [4 * 2 ^ 60 + 64 * (0x1000 / 64)] } : State).poisonedAt (byteOfBank 0 0 (64 * (0x1000 / 64 % 3072))) 64 = true := by decide +kernel
theorem witness_sums : (∃ p ∈ [(FV.fin false 0 0, FV.inf false), (.nan false, .fin false 1 0)], mulFV p.1 p.2 = none) ∧
    mulFV (.inf true) (.fin false 1 0) = some (.inf true) ∧ mulFV (.inf false) (.fin false 1 0) = some (.inf false) := by decide +kernel
theorem witness_resetting : (sp fun p => { p with st := 3 }).part? 0 = some (pt (sp fun p => { p with st := 3 })) ∧
    (pt (sp fun p => { p with st := 3 })).st = 3 ∧ (pt (sp fun p => { p with st := 3, scrub := true })).scrub = true := by decide +kernel
/-- A strand cancelled while an ERET drains it. -/
theorem witness_cancelled_drain : let x := { job with rcd := job.rcd.set 8 0 }
    let s := ((sj [x]).updStrand fun y => { y with hs := true, run := .draining, selfPc := some 2 }).updMe fun c => { c with mOn := true, fcause := 0x200, fret := 3 }
    let t := abortAll (s.updCore 0 Core.endDrain) 0
    s.launch? 0 0 = some x ∧ ((s.core 0).strand.map fun y => (y.run, y.selfPc)) = some (.draining, some 2) ∧ saveOk t (pt s) x.ptb (x.saveBase 0) = true ∧
    (counted t (x.saveBase 0 + 0x198) fun _ => 0x14).1 = true ∧ (counted t (x.saveBase 0 + 0x1A8) fun _ => 2).1 = true := by decide +kernel
theorem witness_selected : let s := block 0x2000 job.rcd (desc 0x2000 0x2000 0xF 0 { sj [] with parts := (sj []).parts.map fun p => { p with sel := [(0, 0x1000, 0x2000)] } })
    (∃ x ∈ (pt s).sel, x.1 = 0 ∧ ∃ o ∈ [8, 9, 10], job.rcd.getD o 0 = x.2.1) ∧ recordValid (pt s) job.rcd = true ∧
    (match translateSched s (pt s) 0 .r (2 ^ 55) with | .error f => decide (f.addr = 2 ^ 55) | .ok _ => false) = true := by decide +kernel
/-- A strand that QUIESCE drains, one of a launch that left its cores to another, and one with a poisoned register. -/
theorem witness_image_waits : let s := (sj [leaving]).updStrand fun y => { y with frz := .drain }
    let held := { leaving with imgs := [], inPlace := [0] }
    let t := sj [held, nextUp]
    engDrained s 0 = true ∧ engDrained (s.updEng 0 0 fun g => { g with last := 1, entries := [ent 1 0 false] }) 0 = false ∧
    (∀ y ∈ (pt t).launches, y.imgs = []) ∧ (pt t).taking = none ∧
    (((sj [leaving]).updStrand fun y => { y with frz := .swap }).updCtx fun c => { c with pregs := 8 }).strand?.map
      (fun st => strandPoisoned ((sj [leaving]).updCtx fun c => { c with pregs := 8 }) 0 st) = some true := by decide +kernel
/-- A save area of zeros holds no image. -/
theorem witness_bad_image : let s := sj [away]
    (∀ j < 10, PageOf s (pt s) away j []) ∧ ¬Assigned [] 1 := by
  refine ⟨fun j hj => ?_, fun h => by have h1 := h.2.2.2.2.2.1; revert h1; decide⟩
  have h : ∀ j < 10, (match translateSched (sj [away]) (pt (sj [away])) away.ptb .r (away.saveBase 0 + 65536 * j) with | .ok _ => true | .error _ => false) = true := by
    decide +kernel
  specialize h j hj
  split at h
  · refine ⟨_, ‹_›, fun o _ => ?_⟩
    rw [show ∀ lo hi, (sj [away]).rawRange lo hi = sj [away] from fun lo hi => by
      unfold State.rawRange; rw [show (sj [away]).c1 = [] by decide +kernel]; rfl, show (sj [away]).mem = [] by decide +kernel]
    rfl
  · cases h
/-- A slice that has no room for the line of key 0. -/
theorem witness_full_slice : let s : State := { s0 with l2 := List.replicate 32768 (line 1536 3) }
    s.l2Line? 0 = none ∧ (s.l2.filter fun y => decide (homeOf y.line = homeOf 0)).length = 32768 := by
  have h : homeOf 1536 = homeOf 0 := by decide +kernel
  generalize 32768 = n
  refine ⟨?_, ?_⟩
  · simp [State.l2Line?, line, lineOf]
  · simp [line, h]
/-- A page of a partition of another module, which the port 0 reaches. -/
def remote (s : State) : State :=
  let e := { page with leaf := 0x30F + 8 * 2 ^ 52 }
  { s.updMe fun c => { c with tlbS := [e], tlbE := [e] } with ports := s.ports.set 0 { live := true, reach := [8], replay := none }, peers := [(8, 1)] }
/-- The same with the port's traffic cut. -/
def cutOff (s : State) : State := { s with ports := s.ports.map fun q => { q with reach := q.reach.filter fun c => !decide (c = 8) } }
theorem witness_port_down : let s := regs [(4, 0x1000)] (remote (runs (.ldd 3 4 0)))
    s.mayIssue = true ∧ s.atPc = some (.ldd 3 4 0) ∧ (placeOf s 0 false .s .r 0x1000 8).2 = .ok (.xl ⟨3 * 2 ^ 60 + 8 * 2 ^ 43 + 0x1000, 3, 0, 0, 8⟩) ∧
    (placeOf (cutOff s) 0 false .s .r 0x1000 8).2 = .error ⟨0x0B, 0x1000⟩ ∧ s.l2 = [] ∧ s.poison = [] ∧
    s.parts.find? (fun p => decide (2 * p.first ≤ 0 ∧ 0 < 2 * (p.first + p.n))) = some (pt s) := by decide +kernel
/-- A copy to a page of this partition from one of that. -/
theorem witness_port_command :
    let e := ent 1 0 false
    let two (t : List TlbEnt) : List TlbEnt := [{ page with big := false, page := 0x30000, leaf := 0xF + 3 * 2 ^ 16 }] ++ t
    let e := { e with blk := e.blk.set 1 0x30000 }
    let s := { (remote (se e)).updMe fun c => { c with tlbE := two c.tlbE } with actor := { core := 0, who := .user, seq := true, stop := none } }
    s.ctx.queue = [] ∧ s.me.eng[(0 : Fin 4)].entries = [e] ∧ performs (nextRead s e) = true ∧
    performs (nextWrite (got (nextRead s e)).1 e (got (nextRead s e)).2.1) = true ∧ faultOf (nextRead (cutOff s) e) = some 0x0B ∧ Able s e ∧
    Leads s 0 e := by
  refine ⟨by decide +kernel, by decide +kernel, by decide +kernel, by decide +kernel, by decide +kernel,
    able_one rfl (by decide +kernel) (by decide +kernel), leads_one (by decide +kernel) rfl (by decide +kernel)⟩
theorem witness_masters : let p0 : Master := { cls := 2, id := 0 }
    (p0.cls = 2 ∧ p0.id = 0) ∧ (m2.cls = 2 ∧ m2.id ≠ 0) ∧ (pt (sp fun p => { p with owner := some ⟨m2, 9⟩, under := 1 })).under = 1 ∧ (pt s0).under = 0 ∧
    (pt (sp fun p => { p with owner := some ⟨m2, 9⟩, losing := true, st := 1 })).losing = true ∧
    ((m1.cls < m2.cls) ∨ (m1.cls = m2.cls ∧ (3 : Dword) ≤ 3)) := by decide +kernel
/-- A line written over poison, and its tier's old bytes. -/
theorem witness_dropped : let s : State := { sp (fun p => { p with st := 3 }) with poison := [0x2000], l2 := [{ line 0x2000 3 with dirty := true, tier := 7 }] }
    s.part? 0 = some (pt s) ∧ (pt s).st = 3 ∧ (pt s).launches = [] ∧ (pt s).qcache = [] ∧ (s.l2.map fun l => l.line).Nodup ∧
    (∀ l ∈ s.l2, l.dirty = true ∧ s.poisonedAt l.line 64 = true ∧ l.tier < 2 ^ 512 ∧ l.line % 64 = 0) ∧ (∀ a ∈ s.poison, a % 32 = 0) := by decide +kernel
theorem witness_large : 12 * 1 < gang { nextUp with rcd := nextUp.rcd.set 3 (13 + 64 * 2 ^ 32) } ∧ nextUp.st = .ready := by decide +kernel
/-- A strand halted by a debugger, and words that an image may and may not hold at NV. -/
theorem witness_debugger : let s := s0.updStrand fun y => { y with frz := .debug }
    (s.strand?.map fun st => (st.frz, (heldOf (writeN (imageBytes s 0 st) 0x18 8 7) st.size).isSome, (heldOf (writeN (imageBytes s 0 st) 0x100 8 0x44) st.size).isSome,
      (heldOf (writeN (imageBytes s 0 st) 0x148 8 9) st.size).isSome)) = some (.debug, true, true, false) := by decide +kernel
theorem witness_power : State.reset.booted = false ∧ State.reset.ochreUp = false ∧ ({ State.reset with booted := true } : State).booted = true := by decide

/-! States that meet the hypotheses of the clauses of poison, of the forms of blocks, and of the rest of the images. -/

/-- `s0` with pages of a leaf. -/
def leafed (e : Nat) (s : State) : State := s.updMe fun c => { c with tlbS := [{ page with leaf := e }], tlbV := [{ page with leaf := e }] }
/-- A poisoned operand; a page of the host, which a barrier and a link do not reach; an uncached one; and a window. -/
theorem witness_refused_places : let s : State := { s0 with poison := [0x1000] }
    Ready s (placed s .w 0x1000 8) .w 0x1000 8 0x1000 (at' 0x1000) ∧ Ready s (placed s .r 0x1000 8) .r 0x1000 8 0x1000 (at' 0x1000) ∧
    s.poisonedAt 0x1000 8 = true ∧
    (placeOf (leafed 0x20F s0) 0 false .s .w 0x1000 16).2 = .ok (.xl ⟨2 * 2 ^ 60 + 0x1000, 2, 0, 0, 0⟩) ∧
    (placeOf (leafed 0x20F s0) 0 false .v .w 0x1000 4).2 = .ok (.xl ⟨2 * 2 ^ 60 + 0x1000, 2, 0, 0, 0⟩) ∧
    (placeOf (leafed 0x80F s0) 0 false .v .r 0x1000 4).2 = .ok (.xl ⟨0x1000, 0, 2, 0, 0⟩) ∧
    (placeOf (s0.updMe fun c => { c with modes := 2 }) 0 false .s .w 0x7FFF00000000 16).2 = .ok (.bank 0 0 (4 * 2 ^ 60)) ∧
    (placeOf (fifo 8) 0 false .s .w 0x7FFF00F00000 4).2 = .ok (.fifo 0) ∧ (placeOf (fifo 8) 0 false .s .r 0x7FFF00F00000 8).2 = .ok (.fifo 0) :=
  ⟨ready_xl (x := ⟨0x1000, 0, 0, 0, 0⟩) (by decide +kernel) (by decide +kernel), ready_xl (x := ⟨0x1000, 0, 0, 0, 0⟩) (by decide +kernel) (by decide +kernel),
    by decide +kernel⟩
/-- What the next job of the strand raises: MISALIGN of an LDW at 0x1002; and a BRK, no instruction, and an FLGET of a poisoned layout. -/
theorem witness_raises :
    (match runJob (((regs [(4, 0x1002)] (runs (.ldw 3 4 0))).updStrand fun y => { y with hs := false, trapvec := 2 })) with
      | .next t => t.strand?.map fun z => (z.hs, z.trapcause, z.trapaddr) | _ => none) = some (true, 0x05, 0x1002) ∧
    (runs .brk).atPc = some .brk ∧ (runs .brk).mayIssue = true ∧
    (let s := (vec (.flget 1 3) 0 0 0 0 0 s0).updStrand fun y => { y with pfl := 2, trapvec := 0x40 }
     s.live = true ∧ (hd s).ins = .flget 1 3 ∧ (s.strand?.map fun y => (y.pfl.getLsbD 1, y.hs)) = some (true, false)) := by decide +kernel
/-- A frozen strand whose engine an ENGQ holds; and an LMCFG_APPLY of it. -/
theorem witness_frozen_engine : let s := (mord 0 sv).updMe fun c => { c with engOff := true }
    (s.updStrand fun y => { y with frz := .debug }).me.strand.any (fun y => decide (y.frz ≠ .none)) = true ∧
    (let t := (vec (.lmcfg 5) 0 0 2 0 0 s0).updStrand fun y => { y with frz := .debug }
     t.live = false ∧ (hd t).ins = .lmcfg 5) := by decide +kernel
/-- A full queue, at which a VSETVL waits. -/
theorem witness_full_queue : let s := s0.updCtx fun c => { c with queue := List.replicate 64 (hd s0) }
    s.actor.seq = false ∧ s.actor.who = .user ∧ 64 ≤ s.ctx.queue.length := by decide +kernel
/-- A poisoned CTL, ERR, and TAIL of queue 0; and an error. -/
theorem witness_poisoned_descriptor : let s (o : Nat) : State := { desc 0 0x2000 1 0 (sj [dep 3]) with poison := [o / 32 * 32] }
    (pt (s 0)).descOk 0 = true ∧ (pt (s 0)).qtbase = 0 ∧ (s 0x18).poisonedAt ((pt (s 0)).descKey 0 0x18) 8 = true ∧
    (s 0x20).poisonedAt ((pt (s 0)).descKey 0 0x18) 8 = false ∧ (s 0x20).poisonedAt ((pt (s 0)).descKey 0 0x20) 8 = true ∧
    (s 0x08).poisonedAt ((pt (s 0)).descKey 0 0x08) 8 = true ∧ (s 0x20).launch? 0 0 = some (dep 3) ∧ (pt (s 0)).st ≠ 3 ∧
    descRead (desc 0 0 1 5 (sj [])) (pt (sj [])) 0 0x20 ≠ 0 := by decide +kernel
/-- R291, R326: a record read of a queue whose ERR is poisoned stops it, FADR naming the doubleword. -/
theorem test_poisoned_queue : let t := after (.recordRead 0 0) { desc 0x2000 0x2000 1 0 (sj []) with poison := [0x20] }
    (t.readKey 0x20 8, t.readKey 0x28 8) = (0x11, 0x20) := by decide +kernel
/-- A launch of one strand that has retired HALT. -/
theorem witness_cancelled_halt : let x := { job with rcd := job.rcd.set 8 0, halted := [0] }
    let s := (sj [x]).updStrand fun y => { y with run := .halted }
    s.launch? 0 0 = some x ∧ x.cores = [0] ∧ gang x = 1 ∧ ((s.core 0).strand.map fun y => (y.part, y.launch, y.idx, y.run)) = some (0, 0, 0, .halted) ∧
    counters x = [0, 0, 0] := by decide +kernel
/-- A store of a poisoned element at an aligned, a misaligned and an unmapped address. -/
theorem witness_poisoned_store : let s (a : Dword) := (vec (.vst 2 4 0 .none np) 1 2 a 0 0 s0).updCtx fun c => { c with pvec := [2 * 8192 * 32 + 4] }
    AtVcp (s 0x1000) (hd (s 0x1000)) ∧ (s 0x1000).ctx.pmasks = 0 ∧ (s 0x1000).vpois 2 32 0 = true ∧ (storeLane (s 0) (hd (s 0)) (.vst 2 4 0 .none np)).isSome = true ∧
    aligned (unitAt (hd (s 0x1000)) 0 0) 4 ∧ ¬aligned (unitAt (hd (s 0x1001)) 0 0) 4 ∧
    performs (vacc (s 0x1000) .w 0x1000 4 anyPlace fun _ => some 0) = true ∧ faultOf (vacc (s 0) .w (2 ^ 55) 4 anyPlace fun _ => some 0) = some 0x07 :=
  ⟨⟨by decide +kernel, by decide +kernel, by decide +kernel, by decide +kernel⟩, by decide +kernel, by decide +kernel, by decide +kernel,
    by unfold aligned; decide +kernel, by unfold aligned; decide +kernel, by decide +kernel, by decide +kernel⟩
/-- An instruction with VSTART at VL. -/
theorem witness_nothing_left : let s := (vec (.vcmp .lt 2 0 (.v 1) np) 4 0 0 0 0 s0).updCtx fun c => { c with vstart := 4 }
    AtHead s (hd s) ∧ (hd s).n ≤ s.ctx.vstart.toNat ∧ (cmpLane s (hd s) (.vcmp .lt 2 0 (.v 1) np)).isSome = true ∧
    (loadLane s (hd s) (.vld 2 4 0 .none np)).isSome = true := ⟨atHead_of (by decide +kernel), by decide +kernel⟩
/-- Mordant's own queue, and a page of a peer that is stable. -/
theorem witness_mordant_head : let s := by' .mordant true (both true)
    AtHead s (hd s) ∧ s.actor.who = .mordant ∧
    (placeOf (leafed (0xF0B + 8 * 2 ^ 52) (remote s0)) 0 false .v .r 0x1000 8).2 = .ok (.xl ⟨3 * 2 ^ 60 + 8 * 2 ^ 43 + 0x1000, 3, 3, 0, 8⟩) :=
  ⟨atHead_of (by decide +kernel), by decide +kernel⟩
/-- A poisoned active tile, and a poisoned operand. -/
theorem witness_poisoned_tile : let i : Instr := .topF 0 8 16 5 0 0
    let s := tl .active 0x99 i 0 1
    (((s.updStrand fun y => { y with z0 := { y.z0 with poison := [3] } }).strand?.map fun y => (tileOf y 0).poison) = some [3]) ∧
    (s.updCtx fun c => { c with pvec := [8 * 8192 * 32 + 2] }).vpois 8 16 0 = true ∧ 2 * (128 * 1) ≤ 2 ^ ((hd s).vtype.toNat / 8 % 4) * s.vregBytes := by
  decide +kernel
/-- A NaN, a signalling one, and both infinities, in FP32. -/
theorem witness_special_sums : isNaN fmt32 0x7FC00000 = true ∧ isSNaN fmt32 0x7F800001 = true ∧ infOf fmt32 false = 0x7F800000 ∧
    infOf fmt32 true = 0xFF800000 ∧ isNaN fmt32 0x7F800000 = false := by decide +kernel
/-- A fetch past the end of the address space. -/
theorem witness_fetch_fault : let s := s0.updCtx fun c => { c with pc := .ofNat 64 (2 ^ 55 + 2), line := none }
    s.mayIssue = true ∧ (placeOf s s.actor.core s.isM .s .x (2 ^ 55) 64).2 = .error ⟨0x08, 2 ^ 55⟩ := by decide +kernel
/-- A block of one doubleword held expanded, and the same packed: in two sectors, a map and the doubleword. -/
def c1of (m : Byte) (n v : Nat) : State := { bytes 0x1000 n v s0 with c1 := [(0x10, m)] }
theorem witness_c1 : (readByte (c1of 1 8 7).c1 (0x1000 / 256)).toNat = 1 ∧ (readByte (c1of 2 12 0).c1 (0x1000 / 256)).toNat = 2 ∧
    Memory.wf (c1of 1 8 7).mem = true ∧ Memory.wf (c1of 1 8 7).c1 = true ∧ (readByte s0.c1 0x10).toNat = 0 := by decide +kernel
/-- R276: a block whose doubleword 3 alone is 7 is stored as the map 8 and the doubleword 7, S being 2; and back. -/
theorem test_c1_packs : let s := ({ bytes 0x1018 8 7 s0 with c1 := [(0x10, 1)] } : State).asRaw 0x1018
    (readByte s.mem 0x1000, readByte s.mem 0x1004, s.c1At 0x1000) = (8, 7, 2) := by decide +kernel
theorem test_c1_expands : ({ bytes 0x1000 12 (8 + 7 * 2 ^ 32) s0 with c1 := [(0x10, 2)] } : State).asC1 0x1040 |>.readKey 0x1018 8 |> (· = 7) := by
  decide +kernel
/-- The page of a save area of which a line is present under CMP 2; an engine context with an entry; a queue and a frame. -/
theorem witness_image_parts : OtherClass { s0 with l2 := [{ line 0x4000040 3 with cmp := 2 }] } 0x4000000 ∧ ¬OtherClass s0 0x4000000 ∧
    (let c := (se (ent 1 0 false)).core 0
     c.user.queue.length ≤ 64 ∧ (∀ g : Fin 4, c.eng[g].entries.length ≤ 6)) ∧
    (sh.strand?.map fun y => (y.frame.map fun f => decide (f.image.length ≤ 64))) = some (some true) ∧
    ((vec (.vadd 4 2 (.s 5) np) 3 0 0 2 0 s0).ctx.queue.length ≤ 64) ∧
    (IsFirst (pt (sj [away])) away ∧ (pt (sj [away])).taking ≠ some away.id) ∧ (∀ y ∈ (pt (sj [job])).launches, ¬waitsForCores y) := by
  refine ⟨⟨_, List.mem_singleton.mpr rfl, by decide, by decide, by decide⟩,
    (by rintro ⟨y, hy, -⟩; rw [show s0.l2 = [] by decide +kernel] at hy; cases hy),
    by decide +kernel, by decide +kernel, by decide +kernel, ⟨first_one (by decide +kernel) (.inr (.inl rfl)), by decide +kernel⟩, ?_⟩
  intro y hy
  rw [show (pt (sj [job])).launches = [job] by decide +kernel, List.mem_singleton] at hy
  subst hy
  rintro (h | h | h) <;> simp [job] at h
/-- R225, R281: the head of a queue image's entry, and the number and state of an engine entry. -/
theorem test_image_words : let s := (vec (.vadd 4 2 (.s 5) np) 3 0 0 2 0 (se (ent 1 0 false)))
    (s.strand?.map fun st => let m := imageBytes s 0 st
      (readN m 0x108 8, readN m 0x1000 2, readN m 0x1018 8, readN m 0x20C0 8, readN m 0x20D0 8)) = some (1, 0xA280, 2, 1, 512) := by decide +kernel
/-- A reset partition with a launch still running, whose counter its completion raises. -/
theorem witness_reset_launch : let p := fun (p : Partition) => { p with st := (3 : BitVec 3) }
    let s : State := { sj [job] with parts := (sj [job]).parts.map p }
    s.part? 0 = some (pt s) ∧ (pt s).st = 3 ∧ (pt s).scrub = false ∧ (pt s).launches = [job] ∧ (pt s).qcache = [] ∧ job.st ≠ .done ∧ s.c1 = [] ∧
    counters job = [0x1000, 0, 0] ∧ (counted s 0x1000 fun old => 2 ^ 63 + (old % 2 ^ 63 + 1) % 2 ^ 63).1 = true ∧ s.l2 = [] := by decide +kernel
/-- An active tile, which an error in an element poisons. -/
theorem witness_spoiled_tile : ((tl .active 0x99 (.topF 0 8 16 5 0 0) 0 1).strand?.map fun y => y.z0.st) = some .active ∧ 3 < 32768 := by decide +kernel
/-- An event that takes a slot, of a context that has work, and one of a context that has none; and an entry that a freeze stops. -/
theorem witness_event_turns : let t (w : Who) : Turn := { core := 0, who := w, seq := false, stop := none, what := some .lineFetch, dt := 1 }
    isEvent .lineFetch = true ∧ isEvent .nop = false ∧ (by' .user false (runs .nop)).ready .user false = true ∧
    (by' .mordant false (runs .nop)).ready .mordant false = false ∧ ({ runs .nop with agenda := [t .user] } : State).agenda = [t .user] ∧
    512 % (16384 / 32) = 0 := by decide +kernel

/-! States that meet the hypotheses of the clauses on special values, on Mordant, and on what stops. -/

/-- One and minus zero in FP32, beside the infinities. -/
theorem witness_infinities : unpack fmt32 0x7F800000 = .inf false ∧ unpack fmt32 0xFF800000 = .inf true ∧ Claims.Finite fmt32 0x3F800000 ∧
    valOf fmt32 0x3F800000 ≠ 0 ∧ (false = true ↔ valOf fmt32 0x3F800000 < 0) ∧ Claims.Finite fmt32 0x80000000 ∧ valOf fmt32 0x80000000 = 0 := by
  have h1 : unpack fmt32 0x3F800000 = .fin false 0x800000 (-23) := by decide +kernel
  have h0 : unpack fmt32 0x80000000 = .fin true 0 (-149) := by decide +kernel
  exact ⟨by decide +kernel, by decide +kernel, ⟨_, _, _, h1⟩, by simp [valOf, h1, ratOf], by simp [valOf, h1, ratOf],
    ⟨_, _, _, h0⟩, by simp [valOf, h0, ratOf]⟩
/-- Mordant of core 0 runs with its queue empty, and with an entry in it. -/
theorem witness_mordant_halts : (mord 0 s0).actor.who = .mordant ∧ (mord 0 s0).ctx.queue = [] ∧
    (by' .mordant false (both true)).actor.who = .mordant ∧ (by' .mordant false (both true)).ctx.queue ≠ [] := by decide +kernel
/-- A strand with no trap vector, and one in handler state, at a BRK. -/
theorem witness_traps_within : s0.actor.who = .user ∧ (s0.strand?.map fun y => (y.hs, y.trapvec)) = some (false, 0) ∧
    (sh.strand?.map fun y => (y.hs, decide (y.run ≠ .draining))) = some (true, true) := by decide +kernel
/-- Sixteen bytes in a FIFO, all of a set of one check; eight, fewer than it needs; and a byte of the second doubleword poisoned. -/
theorem witness_port_set : let p := 0x7FFF00F00000
    let s (n : Nat) := fifo n
    p % 8 = 0 ∧ (∀ i < 2, AtPort (s 16) (s 16) .r (p + 8 * i) 8 0) ∧ (fifoBytes (s 16) 0 0).length = 16 ∧ (fifoBytes (s 8) 0 0).length = 8 ∧
    (∀ key ∈ fifoKeys (s 16) 0 0, (s 16).poisonedAt key 1 = false) ∧
    (let t : State := { s 16 with poison := [4 * 2 ^ 60] }
     (∀ key ∈ (fifoKeys t 0 0).take 8, t.poisonedAt key 1 = false) ∧ ∃ key ∈ fifoKeys t 0 0, t.poisonedAt key 1 = true) := by
  unfold AtPort
  decide +kernel
/-- Mordant with nothing placed on its core. -/
theorem witness_alone : let s := mord 0 (s0.updMe fun c => { c with strand := none })
    s.actor.who = .mordant ∧ s.strand?.isNone = true ∧ (s.partOfCore s.actor.core).isSome = true ∧ 0x8E ≤ (0x8E : BitVec 8).toNat := by decide +kernel
/-- A vector instruction that captures three scalars, the second or the third poisoned. -/
theorem witness_poisoned_scalars : let i : Instr := .vld2 2 4 5 6 0 .none np
    let s (m : BitVec 32) := (s0.updCtx fun c => { c with vl := 1, vtype := 2, pregs := m })
    (pushRule (s 0) i).map (fun r => (r.a, r.b, r.c)) = some (4, 5, 6) ∧
    (s 0x20).ctx.pregs.getLsbD 4 = false ∧ (s 0x20).ctx.pregs.getLsbD 5 = true ∧ (s 0x40).ctx.pregs.getLsbD 5 = false ∧
    (s 0x40).ctx.pregs.getLsbD 6 = true := by decide +kernel
/-- Compares, conversions and packed instructions: a signalling NaN under an enabled NV, a product that overflows, a poisoned source, a
poisoned layout, and a strip that a freeze ends. -/
theorem witness_courses :
    (let i : Instr := .vfcmp .eq .f32 2 3 (.v 4) np
     let s := (vec i 1000 2 0 0 0 (vreg 3 4 0x7F800001 s0)).updCtx fun c => { c with fmode := 0x1001 }
     s.ctx.pmasks = 0 ∧ s.actor.stop = none ∧ s.ctx.fmode.getLsbD (8 + 4) = true ∧
     (courseOf s (hd s) i).map (fun c => ((c.fl 0).testBit 4, c.strip, c.srcs 0)) = some (true, 32, [(3, 32, 0), (4, 32, 0)]) ∧
     512 % (16384 / 32) = 0 ∧ s.ctx.vstart.toNat < 512 ∧ 512 < (hd s).n) ∧
    (let i : Instr := .vcvt 10 12 2 3 2 false np
     let s := vec i 1 2 0 0 0 s0
     (courseOf s (hd s) i).isSome = true ∧ (s.updCtx fun c => { c with pvec := [3 * 8192 * 32 + 4] }).vpois 3 32 0 = true) ∧
    (let i : Instr := .vpmulLo 4 2 3 1 np
     let s := pk 2 i 1
     (courseOf s (hd s) i).isSome = true ∧ (hd s).n = 1 ∧ layoutReg i = some 1 ∧
     ((s.updStrand fun y => { y with pfl := 2 }).strand?.map fun y => y.pfl.getLsbD 1) = some true) := by decide +kernel
/-- One active element of VGL, VSCC and VRRED, ready to perform. -/
theorem witness_links_complete : let i : Instr := .vgl 2 4 3 0 .sew false np
    let s := vec i 1 2 0x1000 0 0 s0
    let z : Xl := ⟨0x1000, 0, 0, 0, 0⟩
    (hd s).n = 0 + 1 ∧ s.ctx.vstart = 0 ∧ indexAt s (hd s) 0 3 .sew false 0 = 0x1000 ∧ (baseAt (hd s) 0 + 4 * 0) % 2 ^ 64 = 0x1000 ∧
    aligned 0x1000 4 ∧ s.poisonedAt z.key (max 4 4) = false ∧ Memory.wf s.mem = true ∧ z.pol ≠ 2 ∧ z.tier < 2 ∧
    ReadyOn .v s (placeOf s s.actor.core s.isM .v .r 0x1000 4).1 .r 0x1000 4 0x1000 (.xl z) ∧
    ReadyOn .v s (placeOf s s.actor.core s.isM .v .w 0x1000 4).1 .w 0x1000 4 0x1000 (.xl z) := by
  refine ⟨by decide +kernel, by decide +kernel, by decide +kernel, by decide +kernel, by unfold aligned; decide, by decide +kernel, by decide +kernel,
    by decide, by decide, ready_xl (x := ⟨0x1000, 0, 0, 0, 0⟩) (by decide +kernel) (by decide +kernel),
    ready_xl (x := ⟨0x1000, 0, 0, 0, 0⟩) (by decide +kernel) (by decide +kernel)⟩
/-- Elements of the three that are misaligned, and that lie on a page of the host. -/
theorem witness_links_stop : let i : Instr := .vgl 2 4 3 0 .sew false np
    let s (a : Dword) := vec i 1 2 a 0 0 s0
    AtHead (s 0x1001) (hd (s 0x1001)) ∧ ¬aligned (indexAt (s 0x1001) (hd (s 0x1001)) 0 3 .sew false 0) 4 ∧ ¬aligned ((baseAt (hd (s 0x1001)) 0 + 4 * 0) % 2 ^ 64) 4 ∧
    (let t := leafed 0x20F (s 0x1000)
     faultOf (vacc t .r 0x1000 4 linkPlace fun _ => none) = some 0x0A ∧ faultOf (vsccElem 0x1000 4 7 none t) = some 0x0A ∧
     faultOf (vacc t .w 0x1000 4 redPlace fun old => some (old + 1)) = some 0x0A) ∧
    (let t := (s 0x1000).updCtx fun c => { c with vstart := 1 }
     (hd t).n ≤ t.ctx.vstart.toNat) :=
  ⟨atHead_of (by decide +kernel), by unfold aligned; decide +kernel, by unfold aligned; decide +kernel, by decide +kernel⟩
/-- A slide and a table load that are misaligned, or not mapped, and with nothing left. -/
theorem witness_slides_stop : let i : Instr := .vsld 2 4 5 6 0 .none false
    let s (a : Dword) := vec i 1 2 a 1 0 s0
    AtHead (s 0x1001) (hd (s 0x1001)) ∧ ¬aligned ((baseAt (hd (s 0x1001)) 0 + 0 * 4) % 2 ^ 64) 4 ∧ ¬aligned ((0x1001 + 4 * 0) % 2 ^ 64) 4 ∧
    faultOf (vacc (s 0) .r (2 ^ 55) 4 anyPlace fun _ => none) = some 0x06 ∧ aligned (2 ^ 55) 4 ∧
    256 ≤ ((vec (.tabld 7) 0 0 0 0 0x1000 s0).updCtx fun c => { c with vstart := 256 }).ctx.vstart.toNat :=
  ⟨atHead_of (by decide +kernel), by unfold aligned; decide +kernel, by unfold aligned; decide, by decide +kernel, by unfold aligned; decide, by decide +kernel⟩
/-- A block of codes that is misaligned, one on a page that is not Sepia's, and a poisoned one; and VSTART past VL. -/
theorem witness_sepia_stops : let s := vec (.vstash 2 4 5 0 false true false) 64 2 0x1000 0x3000 0 cmpPage
    let err (t : State) (kd : Kind) (wr : Bool) (a : Nat) : Option Nat := match (stashPlaces t kd wr 64 a 0x3000).2 with | .ok _ => none | .error f => some f.cause
    err s .w true 0x1001 = some 0x05 ∧ err (vec (.vstash 2 4 5 0 false true false) 64 2 0x1000 0x3000 0 s0) .w true 0x1000 = some 0x0A ∧
    err s .r false (2 ^ 55) = some 0x06 ∧ 0 < (hd s).n / 64 ∧ ({ s with poison := [0x1000] } : State).poisonedAt 0x1000 64 = true ∧
    (let t := s.updCtx fun c => { c with vstart := 64 }
     (hd t).n ≤ t.ctx.vstart.toNat ∧ t.ctx.vstart.toNat % 64 = 0) := by decide +kernel
/-- Infinities of A80, and sums that hold an infinity, 0 × ∞, and a signalling NaN. -/
theorem witness_infinite_sums : a80Val (0xFFFF * 2 ^ 64 + 1) = .inf false ∧ a80Val (0xFFFF * 2 ^ 64 + 2 ^ 64 - 1) = .inf true ∧
    a80Val 0 = .fin false 0 (-16445) ∧ mulFV (.inf false) (.fin false 1 0) = some (.inf false) ∧ mulFV (.inf false) (.fin false 0 0) = none ∧
    (FV.nan true).isNaN = true := by decide +kernel
/-- A raw move of a tile that begins past its last chunk. -/
theorem witness_tile_past : let s := (tl .active 0 (.tsave 0 5) 0 0x40001).updCtx fun c => { c with vstart := 5120 }
    5120 ≤ s.ctx.vstart.toNat ∧ (s.strand?.map fun y => (tileOf y 0).st) = some .active := by decide +kernel
/-- A launch of two strands, one of which has retired HALT; its cancellation; and its strand whose record cannot be written. -/
theorem witness_cancelled_gang : let x := { job with cores := [0, 1], halted := [0], rcd := job.rcd.set 3 (2 + 64 * 2 ^ 32) }
    let s := (sj [x]).updStrand fun y => { y with run := .halted, size := 2 }
    s.launch? 0 0 = some x ∧ x.st = .running ∧ (∃ i < gang x, i ∉ x.halted) ∧
    ((s.core (coreId (x.cores.getD 0 0))).strand.map fun y => (y.part, y.launch, y.idx, y.run)) = some (0, 0, 0, .halted) ∧
    (∀ g : Fin 4, (s.core 0).eng[g].entries = []) ∧ (∀ i < gang ended, i ∈ ended.halted) ∧
    saveOk (noq [job]) (pt (noq [job])) job.ptb 1 = false := by decide +kernel
theorem witness_record_writes : let s := sj [job]
    let w (va v : Nat) (s : State) : Option State := match schedStores (pt s) job.ptb [(va, v)] s with | .ok t => some t | .error _ => none
    (((w 0x4000198 0x14 s).bind (w 0x40001A0 0)).bind (w 0x40001A8 2)).isSome = true ∧ (w (2 ^ 55) 0 s).isNone = true ∧
    (match translateSched s (pt s) job.ptb .w 0x4000198 with | .ok z => some (z.tier, z.cmp, s.c1) | .error _ => none) = some (0, 0, []) ∧ s.l2 = [] := by
  decide +kernel
/-- An eviction that meets a poisoned PTB, one of a queue with nothing taken, and one whose last record has no successor. -/
theorem witness_evictions : let s := block 0x2000 job.rcd (desc 0 0x2000 0xF 0 (sj []))
    let c (b : Nat) (ps : List Nat) : State := { s with poison := ps, parts := s.parts.map fun p => { p with qcache := [(0, b, 0)] } }
    ((pt (c 0 [])).qcache.find? fun x => x.1 = 0) = some (0, 0, 0) ∧
    (c 0x2000 [0]).poisonedAt ((pt s).descKey 0 0x10) 8 = true ∧ (c 0x2000 []).poisonedAt ((pt s).descKey 0 0x10) 8 = false ∧
    (match schedAccess (c 0x2000 []) (pt (c 0x2000 [])) 0 ((0x2000 + 0x70) % 2 ^ 64) none with | .ok x => some (x.1, descRead x.2 (pt (c 0x2000 [])) 0 8) | .error _ => none) =
      some (0, 0x2000) := by decide +kernel
/-- A launch of two with one strand still in place, for which another is swapped out; and one that stays in place. -/
theorem witness_kept : let x := { job with st := .swapping, cores := [2, 5], inPlace := [5], rcd := job.rcd.set 3 (2 + 64 * 2 ^ 32) }
    Kept x ∧ ArrangedFor x [3, 5] [3, 5] ∧ ¬ArrangedFor x [5, 3] [3, 5] := by
  unfold Kept ArrangedFor Arranged
  decide +kernel
/-- An engine that has read ahead, in the gang that is taken; and at rest. -/
theorem witness_reads_ahead : ¬Rested ((se { ent 1 0 false with ahead := [7] }).core 0) ∧ Rested ((se (ent 1 0 false)).core 0) := by
  unfold Rested
  decide +kernel
/-- An image of an engine context whose numbers no issues leave: an entry numbered 2 above LAST 1; and one with the entry numbered 1. -/
theorem witness_numbers : let img (n : Nat) : Bytes := writeN (writeN (writeN [] 0x2000 8 1) 0x20C0 8 n) 0x20D0 8 512
    ¬Numbered (img 2) 0x2000 ∧ Numbered (img 1) 0x2000 ∧ Numbered [] 0x2400 := by
  unfold Numbered
  decide +kernel
/-- R281: the same of what a resume reads. -/
theorem test_image_numbers : let img (n : Nat) : Bytes := writeN (writeN (writeN (writeN [] 0x2000 8 1) 0x20C0 8 n) 0x20D0 8 (512 + 256)) 0x20D8 8 0
    (engCtxOf (img 2) 0 1 0 0).isNone = true ∧ ((engCtxOf (img 1) 0 1 0 0).map fun g => g.entries.map fun e => e.no) = some [1] := by decide +kernel
/-- A gang wholly in place, and one of which an image has been written. -/
theorem witness_in_place : let x := { job with st := .swapping, cores := [0, 1], inPlace := [0, 1] }
    (x.imgs ++ x.inPlace).length = x.cores.length ∧ ({ x with inPlace := [1] }.imgs ++ { x with inPlace := [1] }.inPlace).length ≠ x.cores.length ∧ x.st = .swapping := by
  decide +kernel
/-- A Lost tile, in which an error poisons an element. -/
theorem witness_spoiled_lost : ((tl .lost 0x99 (.topF 0 8 16 5 0 0) 0 1).strand?.map fun y => decide (y.z0.st ≠ .free)) = some true := by decide +kernel
/-- R208, R326: an error in an element of a Lost tile, which a TLOADT may have loaded, poisons it. -/
theorem test_lost_tile_spoiled : (((after (.uncorrectableError (.tile 0 0 3)) (tl .lost 0x99 (.topF 0 8 16 5 0 0) 0 1)).core 0).strand.map fun y => y.z0.poison) =
    some [3] := by decide +kernel
/-- The TLB entry that answers for a page. -/
theorem witness_tlb_hit : (s0.core 0).tlb .s = [] ++ page :: [] ∧ page.asid = (s0.core 0).ptbase.toNat / 2 ^ 48 ∧
    page.page / 2 ^ 29 = 0x1000 / 2 ^ 29 ∧ (∀ e ∈ (tables.core 0).tlb .s, ¬(e.asid = 0)) := by decide +kernel
/-- An event of a context that has work: one that would do something, and one that would not. -/
theorem witness_event_moves : (vec (.mpopc 4 2) 1 0 0 0 0 s0).ready .user true = true ∧
    (vec (.mpopc 4 2) 1 0 0 0 0 s0).eventMoves .scalarResultDelivery true = true ∧
    ((vec (.vadd 4 2 (.s 5) np) 1 2 0 0 0 s0).eventMoves .scalarResultDelivery true = false) := by decide +kernel
/-- R114: an event that does nothing spends none of the beats that the entry at the head has paid. -/
theorem test_idle_event_keeps_beats : let s := (both true).updMe fun c => { c with user := { c.user with beats := 1 } }
    let t : State := { s with agenda := [{ core := 0, who := .user, seq := true, stop := none, what := some .scalarResultDelivery, dt := 1 }] }
    (match step t with | .next u => some u.me.user.beats | _ => none) = some 1 := by decide +kernel
/-- R326: a poisoned sector of a packed block poisons the block it is expanded to. -/
theorem test_c1_poison : let s : State := { c1of 2 12 (8 + 7 * 2 ^ 32) with poison := [0x1020] }
    (s.asC1 0x1000).poisonedAt 0x10E0 8 = true ∧ (c1of 2 12 8).poisonedAt 0x10E0 8 = false := by decide +kernel

end Sys2Proof.Tests
end

section
/-! Division (R84): the machine's quotients and remainders are those of truncating division wherever the quotient fits. -/

namespace Sys2Proof.Claims

open Sys2Proof Sys2Proof.Machine

/-- Where the quotient fits, DIV is truncating division. -/
theorem toInt_divS_of_fits {x y : Dword} (hy : y.toInt ≠ 0) (h : ¬(x.toInt = -2 ^ 63 ∧ y.toInt = -1)) :
    (divS x y).toInt = x.toInt.tdiv y.toInt := by
  have hy0 : y ≠ 0 := fun e => hy (by rw [e]; rfl)
  have hfit : x ≠ BitVec.intMin 64 ∨ y ≠ -1#64 := by
    by_contra! hc
    exact h ⟨by rw [hc.1]; rfl, by rw [hc.2]; rfl⟩
  have hq := BitVec.toInt_sdiv_of_ne_or_ne x y hfit
  have hlt : x.toInt.tdiv y.toInt < 2 ^ 63 := hq ▸ BitVec.toInt_lt
  simp only [divS, if_neg hy0, if_neg (not_le.2 hlt)]
  rw [← hq, BitVec.ofInt_toInt]

/-- The one quotient that does not fit saturates. -/
theorem toInt_divS_overflow {x y : Dword} (hx : x.toInt = -2 ^ 63) (hy : y.toInt = -1) : (divS x y).toInt = 2 ^ 63 - 1 := by
  have hy0 : y ≠ 0 := fun e => by rw [e] at hy; exact absurd hy (by decide)
  simp only [divS, if_neg hy0, hx, hy]
  decide

/-- Division by zero saturates toward the sign of x. -/
theorem toInt_divS_zero (x : Dword) :
    (divS x 0).toInt = if x.toInt = 0 then 0 else if 0 < x.toInt then 2 ^ 63 - 1 else -2 ^ 63 := by
  have hx : x = 0 ↔ x.toInt = 0 := BitVec.toInt_inj.symm
  rcases lt_trichotomy x.toInt 0 with h | h | h
  · simp only [divS, hx, if_true, if_neg h.ne, if_pos h, if_neg h.not_gt]; decide
  · simp only [divS, hx, if_true, h]; rfl
  · simp only [divS, hx, if_true, if_neg h.ne', if_pos h, if_neg h.not_gt]; decide

@[simp] theorem remS_zero (x : Dword) : remS x 0 = x := rfl

/-- Every remainder by a nonzero number fits. -/
theorem toInt_remS {x y : Dword} (hy : y.toInt ≠ 0) : (remS x y).toInt = x.toInt.tmod y.toInt := by
  have hy0 : y ≠ 0 := fun e => hy (by rw [e]; rfl)
  rw [remS, if_neg hy0, ← BitVec.toInt_srem, BitVec.ofInt_toInt]

/-- A truncating remainder has the sign of its dividend. -/
theorem tmod_eq_zero_or_neg_iff (a b : Int) : a.tmod b = 0 ∨ (a.tmod b < 0 ↔ a < 0) := by
  have hpos : 0 ≤ a → 0 ≤ a.tmod b := Int.tmod_nonneg b
  have hneg : 0 ≤ -a → 0 ≤ (-a).tmod b := Int.tmod_nonneg b
  rw [Int.neg_tmod] at hneg
  omega

/-- DIV and REM of the same operands (R84). -/
theorem divS_remS (x y : Dword) :
    (y.toInt ≠ 0 → ¬(x.toInt = -2 ^ 63 ∧ y.toInt = -1) →
      x.toInt = (divS x y).toInt * y.toInt + (remS x y).toInt ∧ (remS x y).toInt.natAbs < y.toInt.natAbs ∧
        ((remS x y).toInt = 0 ∨ ((remS x y).toInt < 0 ↔ x.toInt < 0))) ∧
    (x.toInt = -2 ^ 63 → y.toInt = -1 → (divS x y).toInt = 2 ^ 63 - 1 ∧ (remS x y).toInt = 0) ∧
    (y.toInt = 0 → remS x y = x ∧
      (divS x y).toInt = if x.toInt = 0 then 0 else if 0 < x.toInt then 2 ^ 63 - 1 else -2 ^ 63) := by
  refine ⟨fun hy hfit => ?fits, fun hx hy => ?overflow, fun hy => ?zero⟩
  case fits =>
    rw [toInt_divS_of_fits hy hfit, toInt_remS hy]
    refine ⟨(Int.tdiv_mul_add_tmod _ _).symm, ?_, tmod_eq_zero_or_neg_iff _ _⟩
    rw [Int.natAbs_tmod]
    exact Nat.mod_lt _ (Int.natAbs_pos.2 hy)
  case overflow =>
    exact ⟨toInt_divS_overflow hx hy, by rw [toInt_remS (by omega), hx, hy]; rfl⟩
  case zero =>
    obtain rfl : y = 0 := BitVec.toInt_inj.1 hy
    exact ⟨remS_zero x, toInt_divS_zero x⟩

/-- DIVU and REMU of the same operands (R84). -/
theorem divU_remU (x y : Dword) :
    (y.toNat ≠ 0 → x.toNat = (divU x y).toNat * y.toNat + (remU x y).toNat ∧ (remU x y).toNat < y.toNat) ∧
    (y.toNat = 0 → remU x y = x ∧ (divU x y).toNat = if x.toNat = 0 then 0 else 2 ^ 64 - 1) := by
  constructor
  · intro hy
    have hy0 : y ≠ 0 := fun e => hy (by rw [e]; rfl)
    have hdiv : (divU x y).toNat = x.toNat / y.toNat := by
      rw [divU, if_neg hy0, BitVec.toNat_ofNat, Nat.mod_eq_of_lt ((Nat.div_le_self _ _).trans_lt x.isLt)]
    have hrem : (remU x y).toNat = x.toNat % y.toNat := by
      rw [remU, if_neg hy0, BitVec.toNat_ofNat, Nat.mod_eq_of_lt ((Nat.mod_le _ _).trans_lt x.isLt)]
    rw [hdiv, hrem]
    exact ⟨(Nat.div_add_mod' _ _).symm, Nat.mod_lt _ (Nat.pos_of_ne_zero hy)⟩
  · intro hy
    obtain rfl : y = 0 := BitVec.eq_of_toNat_eq hy
    refine ⟨rfl, ?_⟩
    have hx : x = 0 ↔ x.toNat = 0 := BitVec.toNat_inj.symm
    by_cases h : x.toNat = 0
    · simp only [divU, hx, if_true, h]; rfl
    · simp only [divU, hx, if_true, if_neg h]; rfl

/-- Settles O2: the quotient and the remainder are the model's `divS` and `remS`, `divU` and `remU`. -/
theorem divisionResults : Obligations.DivisionResults := by
  intro s d a b
  exact ⟨⟨divS (s.rd a) (s.rd b), remS (s.rd a) (s.rd b), gives_of_ret rfl, gives_of_ret rfl, divS_remS _ _⟩,
    divU (s.rd a) (s.rd b), remU (s.rd a) (s.rd b), gives_of_ret rfl, gives_of_ret rfl, divU_remU _ _⟩

end Sys2Proof.Claims
end

section
/-! Branches, jumps and successors (R58, R59, R91, R92). -/

namespace Sys2Proof.Claims

open Sys2Proof Sys2Proof.Machine

/-- The target of R59 as bits: the line address displaced by the offset's lines, joined with the slot. -/
theorem targetOf_eq (pc : Dword) (off : Int) (slot : Nat) :
    targetOf pc off slot = .ofInt 64 (pc.toNat / 64 * 64 + off * 64) ||| .ofNat 64 (slot * 2) := by
  have hbits : ∀ z : Int, BitVec.ofNat 64 (intBits z 64) = .ofInt 64 z := fun z => by
    apply BitVec.eq_of_toNat_eq
    simp only [intBits, BitVec.toNat_ofNat, BitVec.toNat_ofInt]
    omega
  rw [targetOf, BitVec.ofNat_or, hbits]
  norm_cast

/-- A branch goes to its target or to its successor, and changes nothing else (R91). -/
theorem branch_spec (taken : Bool) (off : BitVec 17) (slot : BitVec 5) (s : State) :
    ∃ t, branch taken off slot s = .next t ∧ OnlyPc s t ∧
      t.ctx.pc = if taken then targetOf s.ctx.pc off.toInt slot.toNat else s.ctx.succPc := by
  cases taken with
  | true => exact ⟨_, rfl, onlyPc_goto s _, goto_pc s _⟩
  | false => exact ⟨_, rfl, onlyPc_advance s, retire_pc s⟩

/-- An instruction that ends by writing the link and going to `y` does what R92 says. -/
theorem links_of_goto {i : Instr} {s : State} {d : SReg} {y : Dword} (h : exec i s = .next ((s.wr d s.ctx.succPc).goto y)) :
    ∃ t, exec i s = .next t ∧ Wrote s t d s.ctx.succPc ∧ OnlyScalar s t ∧ t.ctx.pc = y :=
  ⟨_, h, wrote_goto s d _ y, onlyScalar_goto s d _ y, goto_pc _ y⟩

section LineInExecution

variable {c : Ctx} {la img i : Nat} (hla : la % 64 = 0) (hi : i < 32) (hpc : c.pc = .ofNat 64 (la + 2 * i))
  (hmax : la + 64 < 2 ^ 55) (hline : c.line = some (la, img))

include hla hi hpc

/-- The slot of the PC of slot `i` of the line at `la` (R57). -/
theorem pcSlot_slot : pcSlot c.pc = i := by
  rw [hpc, pcSlot, fld, BitVec.toNat_ofNat]; omega

include hmax in
/-- The line address of that PC (R57). -/
theorem lineAddr_slot : lineAddr c.pc = la := by
  rw [hpc, lineAddr, BitVec.toNat_ofNat]; omega

include hline

/-- The line goes on after slot `i` exactly when it has a further head (R58). -/
theorem moreSlots_iff : c.moreSlots = true ↔ i < lineH img := by
  simp [Ctx.moreSlots, hline, pcSlot_slot hla hi hpc]

include hmax

/-- Inside the line control goes to the next slot, and the line image stays (R58, R61). -/
theorem advance_inside (h : i < lineH img) : c.advance.pc = .ofNat 64 (la + 2 * (i + 1)) ∧ c.advance.line = c.line := by
  have hmore := (moreSlots_iff hla hi hpc hline).2 h
  simp [Ctx.advance, Ctx.succPc, hmore, slotPc, lineAddr_slot hla hi hpc hmax, pcSlot_slot hla hi hpc]

/-- Past the last slot control goes to slot 1 of the next line, and the line image is left (R58, R61). -/
theorem advance_past (h : lineH img ≤ i) : c.advance.pc = .ofNat 64 (la + 64 + 2 * 1) ∧ c.advance.line = none := by
  have hmore : ¬c.moreSlots = true := fun hm => (Nat.not_lt.2 h) ((moreSlots_iff hla hi hpc hline).1 hm)
  simp [Ctx.advance, Ctx.succPc, hmore, slotPc, lineAddr_slot hla hi hpc hmax]

end LineInExecution

/-- Settles O3: each branch is `branch` of its condition, the jumps end by a link and a `goto`, and NOP shows the successor. -/
theorem controlFlow : Obligations.ControlFlow := by
  refine ⟨fun s a b off slot => ?branches, fun s d a off slot => ?jumps,
    fun s la img i hla hmax hi hline hpc => ?successor⟩
  case branches =>
    intro x y dst ic hic
    have hexec : exec ic.1 s = branch ic.2 off slot s := by
      simp only [List.mem_cons, List.not_mem_nil, or_false] at hic
      rcases hic with rfl | rfl | rfl | rfl | rfl | rfl <;> rfl
    rw [hexec, show dst = targetOf s.ctx.pc off.toInt slot.toNat from (targetOf_eq _ _ _).symm]
    exact branch_spec ic.2 off slot s
  case jumps =>
    rw [← targetOf_eq]
    exact ⟨links_of_goto rfl, links_of_goto rfl⟩
  case successor =>
    refine ⟨s.retire, rfl, onlyPc_advance s, fun h => ?_, fun h => ?_⟩
    · simpa only [State.retire, updCtx_ctx] using advance_inside hla hi hpc hmax hline h
    · simpa only [State.retire, updCtx_ctx] using advance_past hla hi hpc hmax hline h

end Sys2Proof.Claims
end

section
/-! The class word of FCLASS (R89), for the formats that scalar floating point has. -/

namespace Sys2Proof.Claims

open Sys2Proof Sys2Proof.Machine

/-- The shape the four scalar formats share (R87): a sign, an exponent field and a significand field that fill the width,
infinities, and signalling NaNs. -/
structure ScalarFmt (F : Fmt) : Prop where
  width : F.w = F.mb + F.eb + 1
  mb_pos : 0 < F.mb
  eb_pos : 0 < F.eb
  inf : F.inf = true
  sig : F.sig = true

theorem scalarFmt_fmtOf (f : FFmt) : ScalarFmt (fmtOf f) := by cases f <;> exact ⟨rfl, by decide, by decide, rfl, rfl⟩

/-- A field below bit `w` reads only the low `w` bits. -/
theorem fld_mod (x lo n w : Nat) (h : lo + n ≤ w) : fld (x % 2 ^ w) lo n = fld x lo n := by
  obtain ⟨k, rfl⟩ := Nat.exists_eq_add_of_le (Nat.le_of_add_right_le h)
  rw [fld, fld, pow_add, Nat.mod_mul_right_div_self, Nat.mod_mod_of_dvd _ (pow_dvd_pow 2 (by omega))]

/-- A dyadic value is integral exactly when its fraction bits are zero. -/
theorem ratOf_fin_isInt (neg : Bool) (m : Nat) (e : Int) :
    (ratOf (.fin neg m e)).isInt = true ↔ (0 ≤ e || m % 2 ^ (-e).toNat = 0) = true := by
  obtain ⟨z, hz, hm⟩ : ∃ z : Int, ratOf (.fin neg m e) = z * 2 ^ e ∧ z.natAbs = m := by
    cases neg
    · exact ⟨m, by simp [ratOf], by simp⟩
    · exact ⟨-m, by simp [ratOf], by simp⟩
  rw [hz, Rat.isInt, beq_iff_eq, Bool.or_eq_true, decide_eq_true_iff, decide_eq_true_iff]
  obtain he | he := le_or_gt 0 e
  · lift e to Nat using he
    have hint : (z : ℚ) * 2 ^ (e : Int) = ((z * 2 ^ e : Int) : ℚ) := by push_cast; rw [zpow_natCast]
    rw [hint, Rat.den_intCast]
    simp
  · obtain ⟨k, rfl⟩ := Int.exists_eq_neg_ofNat he.le
    have hfrac : (z : ℚ) * 2 ^ (-(k : Int)) = (z : ℚ) / ((2 ^ k : Int) : ℚ) := by
      rw [zpow_neg, zpow_natCast, div_eq_mul_inv]; norm_cast
    have hdvd : (2 ^ k : Int) ∣ z ↔ 2 ^ k ∣ m := by
      rw [← hm, ← Int.natAbs_dvd_natAbs, Int.natAbs_pow]; rfl
    rw [hfrac, Rat.den_div_intCast_eq_one_iff _ _ (by positivity), hdvd, neg_neg, Int.toNat_natCast,
      ← Nat.dvd_iff_mod_eq_zero, or_iff_right (not_le.2 he)]

/-- The sign bit of a number of the format's width is its top digit. -/
theorem fld_top {x w : Nat} (hw : 0 < w) (hx : x < 2 ^ w) : fld x (w - 1) 1 = x / 2 ^ (w - 1) := by
  have : x / 2 ^ (w - 1) < 2 := by
    rw [Nat.div_lt_iff_lt_mul (Nat.two_pow_pos _), ← pow_succ', Nat.sub_add_cancel hw]; exact hx
  rw [fld, pow_one, Nat.mod_eq_of_lt this]

section Class

variable {F : Fmt} (hF : ScalarFmt F)

include hF

/-- Only the low bits of the operand's width count (R87). -/
theorem unpack_mod (x : Nat) : unpack F (x % 2 ^ F.w) = unpack F x := by
  have hw := hF.width
  simp only [unpack, fld_mod x (F.w - 1) 1 F.w (by omega), fld_mod x F.mb F.eb F.w (by omega), fld_mod x 0 F.mb F.w (by omega)]

theorem fpClass_mod (x : Nat) : fpClass F (x % 2 ^ F.w) = fpClass F x := by
  have hw := hF.width
  simp only [fpClass, unpack_mod hF, fld_mod x (F.w - 1) 1 F.w (by omega)]

theorem exponentTop_pos : 0 < 2 ^ F.eb - 1 := Nat.sub_pos_of_lt (Nat.one_lt_two_pow hF.eb_pos.ne')

/-- The value of an encoding, by its exponent field. -/
theorem unpack_of_exp_zero {x : Nat} (h : fld x F.mb F.eb = 0) :
    unpack F x = .fin (fld x (F.w - 1) 1 = 1) (fld x 0 F.mb) (1 - (F.bias : Int) - F.mb) := by
  have := exponentTop_pos hF
  simp only [unpack, h]
  rw [if_neg (by omega), if_pos trivial]

omit hF in
theorem unpack_of_normal {x : Nat} (h0 : 0 < fld x F.mb F.eb) (h1 : fld x F.mb F.eb < 2 ^ F.eb - 1) :
    unpack F x = .fin (fld x (F.w - 1) 1 = 1) (fld x 0 F.mb + 2 ^ F.mb) ((fld x F.mb F.eb : Int) - F.bias - F.mb) := by
  simp only [unpack]
  rw [if_neg (by omega), if_neg (by omega)]

theorem unpack_of_inf {x : Nat} (h : fld x F.mb F.eb = 2 ^ F.eb - 1) (h0 : fld x 0 F.mb = 0) :
    unpack F x = .inf (fld x (F.w - 1) 1 = 1) := by
  simp [unpack, h, h0, hF.inf]

/-- A NaN is quiet or signalling by the top bit of its significand field. -/
theorem unpack_of_nan {x : Nat} (h : fld x F.mb F.eb = 2 ^ F.eb - 1) (h0 : fld x 0 F.mb ≠ 0) :
    unpack F x = .nan (fld x 0 F.mb < 2 ^ (F.mb - 1)) := by
  have hm : fld x 0 F.mb < 2 ^ F.mb := Nat.mod_lt _ (Nat.two_pow_pos _)
  have htop : fld (fld x 0 F.mb) (F.mb - 1) 1 = 0 ↔ fld x 0 F.mb < 2 ^ (F.mb - 1) := by
    rw [fld_top hF.mb_pos hm, Nat.div_eq_zero_iff_lt (Nat.two_pow_pos _)]
  simp [unpack, h, h0, hF.inf, hF.sig, htop]

/-! The class word (R89), by the fields of the operand. -/

theorem fpClass_zero {x : Nat} (h : fld x F.mb F.eb = 0) (h0 : fld x 0 F.mb = 0) :
    fpClass F x = fld x (F.w - 1) 1 * 2 ^ 7 + 2 ^ 6 + 2 ^ 0 := by
  simp [fpClass, unpack_of_exp_zero hF h, h0]

theorem fpClass_subnormal {x : Nat} (h : fld x F.mb F.eb = 0) (h0 : fld x 0 F.mb ≠ 0) :
    fpClass F x = fld x (F.w - 1) 1 * 2 ^ 7 + 2 ^ 1 := by
  have hm : fld x 0 F.mb < 2 ^ F.mb := Nat.mod_lt _ (Nat.two_pow_pos _)
  simp [fpClass, unpack_of_exp_zero hF h, h0, hm]

omit hF in
theorem fpClass_normal {x : Nat} (h0 : 0 < fld x F.mb F.eb) (h1 : fld x F.mb F.eb < 2 ^ F.eb - 1) :
    fpClass F x = fld x (F.w - 1) 1 * 2 ^ 7 + 2 ^ 2 + if (valOf F x).isInt then 2 ^ 6 else 0 := by
  simp only [fpClass, valOf, unpack_of_normal h0 h1, ratOf_fin_isInt]
  rw [if_neg (by positivity), if_neg (by omega)]
  rfl

theorem fpClass_inf {x : Nat} (h : fld x F.mb F.eb = 2 ^ F.eb - 1) (h0 : fld x 0 F.mb = 0) :
    fpClass F x = fld x (F.w - 1) 1 * 2 ^ 7 + 2 ^ 3 := by
  simp [fpClass, unpack_of_inf hF h h0]

theorem fpClass_nan {x : Nat} (h : fld x F.mb F.eb = 2 ^ F.eb - 1) (h0 : fld x 0 F.mb ≠ 0) :
    fpClass F x = fld x (F.w - 1) 1 * 2 ^ 7 + if fld x 0 F.mb < 2 ^ (F.mb - 1) then 2 ^ 5 else 2 ^ 4 := by
  simp [fpClass, unpack_of_nan hF h h0]

end Class

/-- Settles O5: the class word depends on the low bits only, and each of its classes is one case of the fields. -/
theorem fclassWord : Obligations.FclassWord := by
  intro s f d a m x ex fr top sgn
  have hF := scalarFmt_fmtOf f
  have hx : x < 2 ^ (fmtOf f).w := Nat.mod_lt _ (Nat.two_pow_pos _)
  have hsgn : fld x ((fmtOf f).w - 1) 1 * 2 ^ 7 = sgn := by rw [fld_top (by have := hF.width; omega) hx]
  have hfr : fld x 0 m = fr := by simp [fld, fr]
  have hgives : Gives (.fclass f d a) s d (.ofNat 64 (fpClass (fmtOf f) x)) := by
    rw [fpClass_mod hF]; exact gives_of_ret rfl
  refine ⟨fpClass (fmtOf f) x, hgives, ?_⟩
  rw [← hsgn, ← hfr]
  refine ⟨fpClass_zero hF, fpClass_subnormal hF, fun h0 h1 hi => ?_, fun h0 h1 hi => ?_, fpClass_inf hF,
    fun h h0 hq => ?_, fun h h0 hs => ?_⟩
  · rw [fpClass_normal h0 h1, if_pos hi]; omega
  · rw [fpClass_normal h0 h1, if_neg hi]; rfl
  · rw [fpClass_nan hF h h0, if_neg (not_lt.2 hq)]
  · rw [fpClass_nan hF h h0, if_pos hs]

end Sys2Proof.Claims
end
